-- ==== Sys2Proof/Word.lean ====
section
/-! DEFINITION. The unit's word types: a byte, a 32-bit register or operand word (`REGW`), and a
96-bit command word (rules R23, R61, R90). -/

namespace Sys2Proof

/-- A byte of `IN`, `LIT` or `WIN` (rule R61). -/
abbrev Byte := BitVec 8

/-- A numbered register or a command operand (`REGW` = 32, rules R6, R23). -/
abbrev Word := BitVec 32

/-- A command word `C[95:0]` (rule R90). -/
abbrev CmdWord := BitVec 96

end Sys2Proof
end

