-- ==== Sys2Proof/Config.lean ====
section
/-! DEFINITION. What an implementation of the unit fixes: the four table slots, the three byte
spaces, the layouts of table entries, `BS_MAX_BYTES`, and the free values of the model. -/

namespace Sys2Proof

/-- The four FSE table slots (rules R10, R93). -/
inductive Slot where
  | ll | of | ml | aux
deriving DecidableEq, Repr, Inhabited

/-- The three byte-addressed spaces (rule R60). -/
inductive Space where
  | input | lit | win
deriving DecidableEq, Repr, Inhabited

/-- One entry of an FSE table memory: `sym` 8 bits, `nb` 4 bits, `base` 10 bits (rule R38). -/
structure FseEntry where
  sym  : Byte
  nb   : BitVec 4
  base : BitVec 10
deriving DecidableEq, Repr, Inhabited

/-- One entry of the Huffman table memory: `sym` 8 bits, `nb` 4 bits (rule R39). -/
structure HufEntry where
  sym : Byte
  nb  : BitVec 4
deriving DecidableEq, Repr, Inhabited

namespace Slot

/-- A slot's number in `sel`, in `ERRINFO` and in the register map (rules R10, R93). -/
def num : Slot → Nat
  | .ll => 0
  | .of => 1
  | .ml => 2
  | .aux => 3

end Slot

namespace Config

/-- `BS_MAX_BYTES`, the largest backward-bitstream section (rule R6). -/
def bsMaxBytes : Nat := 2 ^ 27

/-! ### Free values

Each is a constant without a body: nothing can be proved of its value. -/

/-- The content of byte `addr` of a space that nothing has written since reset number `epoch`
(`93_implementation_defined.md` U2; DESIGN CHOICE, log 4). -/
opaque unwrittenByte : (epoch : Nat) → Space → (addr : Nat) → Byte

/-- The content of an FSE table entry that nothing has written since reset number `epoch` (U2,
log 4). -/
opaque unwrittenFse : (epoch : Nat) → Slot → (idx : Nat) → FseEntry

/-- The content of a Huffman table entry that nothing has written since reset number `epoch` (U2,
log 4). -/
opaque unwrittenHuf : (epoch : Nat) → (idx : Nat) → HufEntry

/-- What the `draw`-th host read of a register number that does not exist returns
(`93_implementation_defined.md` U1, log 6). -/
opaque absentRegister : (number : Nat) → (draw : Nat) → Word

/-- Base and extra bits of a code outside the code tables, which no reachable table emits (rule
R242 says so; log 8). -/
opaque codeOutsideTable : Slot → (code : Nat) → Nat × Nat

end Config

end Sys2Proof
end

