-- ==== Sys2Proof/Syntax.lean ====
section
/-! DEFINITION. The 27 commands of the unit, one constructor per row of `spec/opcode_table.json`
(rules R90 to R94), with their operands decoded (slots and stream counts by name), and the
notation's pseudo-commands (rule R99). -/

namespace Sys2Proof

/-- The stream count of a Huffman literals section, encoded in `sel` as 1 or 4 (rules R93, R94). -/
inductive Streams where
  | one | four
deriving DecidableEq, Repr, Inhabited

/-- The commands of rule R94. `A` and `B` operands are words, `imm` operands 16-bit numbers. -/
inductive Instr where
  | nop
  | frameInit (capacity : Word)
  | rdOpen (rpos inLen : Word)
  | frameEnd (hasSize : Bool) (sizeLo sizeHi : Word)
  | wRaw (n : Word)
  | wRle (n : Word)
  | wLit (n : Word)
  | wLitrest
  | wCopy (offset length : Word)
  | litRaw (n : Word)
  | litRle (n : Word)
  | litHuf (streams : Streams) (regen comp : Word)
  | litHufr (streams : Streams) (regen comp : Word)
  | fseBuild (slot : Slot)
  | fseLoad (slot : Slot) (al : BitVec 16) (n : Word)
  | fsePredef (slot : Slot)
  | fseRle (slot : Slot) (symbol : BitVec 16)
  | bsOpen (n : Word)
  | bsRead (k : BitVec 16)
  | bsClose
  | fseInit (slot : Slot)
  | fseEmit (slot : Slot)
  | fseNext (slot : Slot)
  | seqOpen (n count : Word)
  | seqNext
  | seqExec
  | seqRun
deriving DecidableEq, Repr

/-- The pseudo-commands of the notation (rule R99). -/
inductive Pseudo where
  | seqStep
  | seqAll (n count : Word)
  | rawBlock (pos fin n : Word)
  | rleBlock (pos fin n : Word)
deriving DecidableEq, Repr

/-- The commands a pseudo-command stands for, in order (rule R99). -/
def Pseudo.expand : Pseudo → List Instr
  | .seqStep => [.seqNext, .seqExec]
  | .seqAll n count => [.seqOpen n count, .seqRun]
  | .rawBlock pos fin n => [.rdOpen pos fin, .wRaw n]
  | .rleBlock pos fin n => [.rdOpen pos fin, .wRle n]

end Sys2Proof
end

