-- ==== Sys2Proof/WellFormed.lean ====
section
/-! DEFINITION. Which terms of `Instr` are commands of rule R94. The types leave two conditions
open: `FSE_PREDEF` has no slot `AUX`, and `FRAME_END` without a declared size has `A = B = 0`
(rule R95). -/

namespace Sys2Proof

/-- `FSE_PREDEF` takes a slot of a sequences section: 0, 1 or 2 (rules R94, R150). -/
def Slot.hasPredef : Slot → Bool
  | .ll => true
  | .of => true
  | .ml => true
  | .aux => false

/-- `FRAME_END` with `has_size = 0` has both halves of the size zero (rule R95). -/
def frameEndOk (hasSize : Bool) (lo hi : Word) : Bool :=
  hasSize || (lo == 0 && hi == 0)

/-- The instruction is the meaning of some legal command word (rule R95). -/
def Instr.wf : Instr → Bool
  | .nop => true
  | .frameInit _ => true
  | .rdOpen _ _ => true
  | .frameEnd hasSize lo hi => frameEndOk hasSize lo hi
  | .wRaw _ => true
  | .wRle _ => true
  | .wLit _ => true
  | .wLitrest => true
  | .wCopy _ _ => true
  | .litRaw _ => true
  | .litRle _ => true
  | .litHuf _ _ _ => true
  | .litHufr _ _ _ => true
  | .fseBuild _ => true
  | .fseLoad _ _ _ => true
  | .fsePredef slot => slot.hasPredef
  | .fseRle _ _ => true
  | .bsOpen _ => true
  | .bsRead _ => true
  | .bsClose => true
  | .fseInit _ => true
  | .fseEmit _ => true
  | .fseNext _ => true
  | .seqOpen _ _ => true
  | .seqNext => true
  | .seqExec => true
  | .seqRun => true

end Sys2Proof
end

