-- ==== Sys2Proof/Decode.lean ====
section
/-! DEFINITION. From a 96-bit command word to a command and back: the fields of `CMD96` (rule R91),
the decoder, total and rejecting by name (rules R94 to R96), the encoder, the opcode table as data,
and the written forms of a command (rules R92, R98). -/

namespace Sys2Proof

/-- Why a command word is illegal (rule R95). Every case raises `IllegalCommand`. -/
inductive Reject where
  /-- the opcode is not one of the 27 -/
  | unusedOpcode
  /-- a field that must be zero is not -/
  | fieldNotZero
  /-- `sel` is outside the command's set -/
  | badSelector
  /-- `FRAME_END` with `has_size = 0` and a size -/
  | sizeWithoutFlag
  /-- fewer than 12 bytes were given (the byte form of rule R92 only) -/
  | truncated
deriving DecidableEq, Repr

/-- The fields of `CMD96` (rule R91). -/
structure Fields where
  opcode : BitVec 8
  sel    : BitVec 8
  imm    : BitVec 16
  a      : Word
  b      : Word
deriving DecidableEq, Repr

namespace Fields

/-- The fields of a command word: `C[95:88]`, `C[87:80]`, `C[79:64]`, `C[63:32]`, `C[31:0]`
(rule R91). -/
def ofWord (c : CmdWord) : Fields :=
  { opcode := c.extractLsb' 88 8, sel := c.extractLsb' 80 8, imm := c.extractLsb' 64 16,
    a := c.extractLsb' 32 32, b := c.extractLsb' 0 32 }

/-- The command word of the fields, the opcode in the most significant place (rule R91). -/
def toWord (f : Fields) : CmdWord :=
  f.opcode ++ f.sel ++ f.imm ++ f.a ++ f.b

end Fields

namespace CmdWord

/-- `W0 = C[95:64]`, the first transported word (rule R92), the context of `IllegalCommand`
(rule R95). -/
def w0 (c : CmdWord) : Word := c.extractLsb' 64 32

/-- `W1 = A`, the second transported word (rule R92). -/
def w1 (c : CmdWord) : Word := c.extractLsb' 32 32

/-- `W2 = B`, the third transported word (rule R92). -/
def w2 (c : CmdWord) : Word := c.extractLsb' 0 32

/-- The command word that three transported words carry (rule R92). -/
def ofWords (w0 w1 w2 : Word) : CmdWord := w0 ++ w1 ++ w2

/-- A command word from its written bytes, most significant first (rule R92). -/
def ofBytes (bytes : List Byte) : CmdWord :=
  BitVec.ofNat 96 (bytes.foldl (fun n b => n * 256 + b.toNat) 0)

end CmdWord

/-! ### Selectors -/

/-- The slot that `sel` names: 0 to 3 (rule R93). -/
def Slot.ofSel (sel : BitVec 8) : Option Slot :=
  match sel.toNat with
  | 0 => some .ll
  | 1 => some .of
  | 2 => some .ml
  | 3 => some .aux
  | _ => none

/-- The slot as a `sel` value (rule R93). -/
def Slot.toSel (s : Slot) : BitVec 8 := BitVec.ofNat 8 s.num

/-- The stream count that `sel` gives: 1 or 4 (rule R93). -/
def Streams.ofSel (sel : BitVec 8) : Option Streams :=
  match sel.toNat with
  | 1 => some .one
  | 4 => some .four
  | _ => none

/-- The stream count as a `sel` value (rule R93). -/
def Streams.toSel : Streams → BitVec 8
  | .one => 1
  | .four => 4

/-! ### The decoder -/

/-- Accept the command when its must-be-zero fields are zero. -/
def zeroed (fieldsZero : Bool) (i : Instr) : Except Reject Instr :=
  if fieldsZero then .ok i else .error .fieldNotZero

/-- Accept a command with a table slot in `sel`. -/
def slotted (f : Fields) (fieldsZero : Bool) (mk : Slot → Instr) : Except Reject Instr :=
  match Slot.ofSel f.sel with
  | some s => zeroed fieldsZero (mk s)
  | none => .error .badSelector

/-- Accept a command with a stream count in `sel`. -/
def streamed (f : Fields) (fieldsZero : Bool) (mk : Streams → Instr) : Except Reject Instr :=
  match Streams.ofSel f.sel with
  | some n => zeroed fieldsZero (mk n)
  | none => .error .badSelector

/-- `FRAME_END`: `has_size` in bit 0 of `sel`, the size in `A` and `B` (rules R93, R95, R128). -/
def decodeFrameEnd (f : Fields) : Except Reject Instr :=
  match f.sel.toNat with
  | 0 =>
    if f.a == 0 && f.b == 0 then zeroed (f.imm == 0) (.frameEnd false f.a f.b)
    else .error .sizeWithoutFlag
  | 1 => zeroed (f.imm == 0) (.frameEnd true f.a f.b)
  | _ => .error .badSelector

/-- `FSE_PREDEF`: slots 0 to 2 only (rules R95, R150). -/
def decodeFsePredef (f : Fields) : Except Reject Instr :=
  match Slot.ofSel f.sel with
  | some s =>
    if s.hasPredef then zeroed (f.imm == 0 && f.a == 0 && f.b == 0) (.fsePredef s)
    else .error .badSelector
  | none => .error .badSelector

/-- The command of the fields (rules R94, R95). -/
def decodeFields (f : Fields) : Except Reject Instr :=
  let sel0 := f.sel == 0
  let imm0 := f.imm == 0
  let a0 := f.a == 0
  let b0 := f.b == 0
  match f.opcode.toNat with
  | 0x00 => zeroed (sel0 && imm0 && a0 && b0) .nop
  | 0x01 => zeroed (sel0 && imm0 && b0) (.frameInit f.a)
  | 0x02 => zeroed (sel0 && imm0) (.rdOpen f.a f.b)
  | 0x03 => decodeFrameEnd f
  | 0x10 => zeroed (sel0 && imm0 && b0) (.wRaw f.a)
  | 0x11 => zeroed (sel0 && imm0 && b0) (.wRle f.a)
  | 0x12 => zeroed (sel0 && imm0 && b0) (.wLit f.a)
  | 0x13 => zeroed (sel0 && imm0 && a0 && b0) .wLitrest
  | 0x14 => zeroed (sel0 && imm0) (.wCopy f.a f.b)
  | 0x20 => zeroed (sel0 && imm0 && b0) (.litRaw f.a)
  | 0x21 => zeroed (sel0 && imm0 && b0) (.litRle f.a)
  | 0x22 => streamed f imm0 (fun n => .litHuf n f.a f.b)
  | 0x23 => streamed f imm0 (fun n => .litHufr n f.a f.b)
  | 0x30 => slotted f (imm0 && a0 && b0) .fseBuild
  | 0x31 => slotted f b0 (fun s => .fseLoad s f.imm f.a)
  | 0x32 => decodeFsePredef f
  | 0x33 => slotted f (a0 && b0) (fun s => .fseRle s f.imm)
  | 0x38 => zeroed (sel0 && imm0 && b0) (.bsOpen f.a)
  | 0x39 => zeroed (sel0 && a0 && b0) (.bsRead f.imm)
  | 0x3A => zeroed (sel0 && imm0 && a0 && b0) .bsClose
  | 0x3B => slotted f (imm0 && a0 && b0) .fseInit
  | 0x3C => slotted f (imm0 && a0 && b0) .fseEmit
  | 0x3D => slotted f (imm0 && a0 && b0) .fseNext
  | 0x40 => zeroed (sel0 && imm0) (.seqOpen f.a f.b)
  | 0x41 => zeroed (sel0 && imm0 && a0 && b0) .seqNext
  | 0x42 => zeroed (sel0 && imm0 && a0 && b0) .seqExec
  | 0x43 => zeroed (sel0 && imm0 && a0 && b0) .seqRun
  | _ => .error .unusedOpcode

/-- The decoder: total on every 96-bit word (rules R94 to R96). -/
def decode (c : CmdWord) : Except Reject Instr := decodeFields (Fields.ofWord c)

/-- The decoder on a byte sequence, 12 bytes a command, most significant first (rule R92): the
command and the bytes after it. -/
def decodeBytes (bytes : List Byte) : Except Reject (Instr × List Byte) :=
  if bytes.length < 12 then .error .truncated
  else
    match decode (CmdWord.ofBytes (bytes.take 12)) with
    | .ok i => .ok (i, bytes.drop 12)
    | .error r => .error r

/-- The command of a word whose bits are numbered as `spec/opcode_table.json` numbers them: bit 0 is
the least significant bit of `C[95:0]` (log 11). -/
def decodeTableWord (nbits w : Nat) : Option Instr :=
  if nbits ≤ 96 then
    match decode (BitVec.ofNat 96 (w % 2 ^ nbits)) with
    | .ok i => some i
    | .error _ => none
  else none

/-! ### The encoder -/

/-- The fields of a command (rule R94). -/
def encodeFields : Instr → Fields
  | .nop => ⟨0x00, 0, 0, 0, 0⟩
  | .frameInit a => ⟨0x01, 0, 0, a, 0⟩
  | .rdOpen a b => ⟨0x02, 0, 0, a, b⟩
  | .frameEnd hasSize a b => ⟨0x03, if hasSize then 1 else 0, 0, a, b⟩
  | .wRaw a => ⟨0x10, 0, 0, a, 0⟩
  | .wRle a => ⟨0x11, 0, 0, a, 0⟩
  | .wLit a => ⟨0x12, 0, 0, a, 0⟩
  | .wLitrest => ⟨0x13, 0, 0, 0, 0⟩
  | .wCopy a b => ⟨0x14, 0, 0, a, b⟩
  | .litRaw a => ⟨0x20, 0, 0, a, 0⟩
  | .litRle a => ⟨0x21, 0, 0, a, 0⟩
  | .litHuf n a b => ⟨0x22, n.toSel, 0, a, b⟩
  | .litHufr n a b => ⟨0x23, n.toSel, 0, a, b⟩
  | .fseBuild s => ⟨0x30, s.toSel, 0, 0, 0⟩
  | .fseLoad s al a => ⟨0x31, s.toSel, al, a, 0⟩
  | .fsePredef s => ⟨0x32, s.toSel, 0, 0, 0⟩
  | .fseRle s sym => ⟨0x33, s.toSel, sym, 0, 0⟩
  | .bsOpen a => ⟨0x38, 0, 0, a, 0⟩
  | .bsRead k => ⟨0x39, 0, k, 0, 0⟩
  | .bsClose => ⟨0x3A, 0, 0, 0, 0⟩
  | .fseInit s => ⟨0x3B, s.toSel, 0, 0, 0⟩
  | .fseEmit s => ⟨0x3C, s.toSel, 0, 0, 0⟩
  | .fseNext s => ⟨0x3D, s.toSel, 0, 0, 0⟩
  | .seqOpen a b => ⟨0x40, 0, 0, a, b⟩
  | .seqNext => ⟨0x41, 0, 0, 0, 0⟩
  | .seqExec => ⟨0x42, 0, 0, 0, 0⟩
  | .seqRun => ⟨0x43, 0, 0, 0, 0⟩

/-- The command word of a command (rules R91, R94). -/
def encode (i : Instr) : CmdWord := (encodeFields i).toWord

/-! ### The opcode table as data -/

/-- A row of `spec/opcode_table.json`: a word is the row's when it passes `mask`, `sel_values` and
the constraint of `FRAME_END` (the opening of `30_encoding.md`). -/
structure OpcodeRow where
  mnemonic   : String
  pattern    : CmdWord
  mask       : CmdWord
  selValues  : Option (List Nat)
  sizeNeedsFlag : Bool
deriving DecidableEq, Repr

/-- The rows of `spec/opcode_table.json`, in its order. -/
def opcodeRows : List OpcodeRow :=
  [⟨"NOP", 0x000000000000000000000000, 0xFFFFFFFFFFFFFFFFFFFFFFFF, none, false⟩,
   ⟨"FRAME_INIT", 0x010000000000000000000000, 0xFFFFFFFF00000000FFFFFFFF, none, false⟩,
   ⟨"RD_OPEN", 0x020000000000000000000000, 0xFFFFFFFF0000000000000000, none, false⟩,
   ⟨"FRAME_END", 0x030000000000000000000000, 0xFFFEFFFF0000000000000000, some [0, 1], true⟩,
   ⟨"W_RAW", 0x100000000000000000000000, 0xFFFFFFFF00000000FFFFFFFF, none, false⟩,
   ⟨"W_RLE", 0x110000000000000000000000, 0xFFFFFFFF00000000FFFFFFFF, none, false⟩,
   ⟨"W_LIT", 0x120000000000000000000000, 0xFFFFFFFF00000000FFFFFFFF, none, false⟩,
   ⟨"W_LITREST", 0x130000000000000000000000, 0xFFFFFFFFFFFFFFFFFFFFFFFF, none, false⟩,
   ⟨"W_COPY", 0x140000000000000000000000, 0xFFFFFFFF0000000000000000, none, false⟩,
   ⟨"LIT_RAW", 0x200000000000000000000000, 0xFFFFFFFF00000000FFFFFFFF, none, false⟩,
   ⟨"LIT_RLE", 0x210000000000000000000000, 0xFFFFFFFF00000000FFFFFFFF, none, false⟩,
   ⟨"LIT_HUF", 0x220000000000000000000000, 0xFFFAFFFF0000000000000000, some [1, 4], false⟩,
   ⟨"LIT_HUFR", 0x230000000000000000000000, 0xFFFAFFFF0000000000000000, some [1, 4], false⟩] ++
  [⟨"FSE_BUILD", 0x300000000000000000000000, 0xFFFCFFFFFFFFFFFFFFFFFFFF, some [0, 1, 2, 3], false⟩,
   ⟨"FSE_LOAD", 0x310000000000000000000000, 0xFFFC000000000000FFFFFFFF, some [0, 1, 2, 3], false⟩,
   ⟨"FSE_PREDEF", 0x320000000000000000000000, 0xFFFCFFFFFFFFFFFFFFFFFFFF, some [0, 1, 2], false⟩,
   ⟨"FSE_RLE", 0x330000000000000000000000, 0xFFFC0000FFFFFFFFFFFFFFFF, some [0, 1, 2, 3], false⟩,
   ⟨"BS_OPEN", 0x380000000000000000000000, 0xFFFFFFFF00000000FFFFFFFF, none, false⟩,
   ⟨"BS_READ", 0x390000000000000000000000, 0xFFFF0000FFFFFFFFFFFFFFFF, none, false⟩,
   ⟨"BS_CLOSE", 0x3A0000000000000000000000, 0xFFFFFFFFFFFFFFFFFFFFFFFF, none, false⟩,
   ⟨"FSE_INIT", 0x3B0000000000000000000000, 0xFFFCFFFFFFFFFFFFFFFFFFFF, some [0, 1, 2, 3], false⟩,
   ⟨"FSE_EMIT", 0x3C0000000000000000000000, 0xFFFCFFFFFFFFFFFFFFFFFFFF, some [0, 1, 2, 3], false⟩,
   ⟨"FSE_NEXT", 0x3D0000000000000000000000, 0xFFFCFFFFFFFFFFFFFFFFFFFF, some [0, 1, 2, 3], false⟩,
   ⟨"SEQ_OPEN", 0x400000000000000000000000, 0xFFFFFFFF0000000000000000, none, false⟩,
   ⟨"SEQ_NEXT", 0x410000000000000000000000, 0xFFFFFFFFFFFFFFFFFFFFFFFF, none, false⟩,
   ⟨"SEQ_EXEC", 0x420000000000000000000000, 0xFFFFFFFFFFFFFFFFFFFFFFFF, none, false⟩,
   ⟨"SEQ_RUN", 0x430000000000000000000000, 0xFFFFFFFFFFFFFFFFFFFFFFFF, none, false⟩]

/-- The word is the command of the row. -/
def OpcodeRow.accepts (r : OpcodeRow) (c : CmdWord) : Bool :=
  (c &&& r.mask == r.pattern) &&
  (match r.selValues with
   | none => true
   | some vs => vs.contains (Fields.ofWord c).sel.toNat) &&
  (!r.sizeNeedsFlag || (Fields.ofWord c).sel.getLsbD 0 ||
    ((Fields.ofWord c).a == 0 && (Fields.ofWord c).b == 0))

/-- The word is the command of some row of the table; otherwise it is illegal (rule R95). -/
def tableAccepts (c : CmdWord) : Bool := opcodeRows.any (·.accepts c)

/-! ### The written form -/

/-- The row's mnemonic (rule R94). -/
def Instr.mnemonic : Instr → String
  | .nop => "NOP"
  | .frameInit _ => "FRAME_INIT"
  | .rdOpen _ _ => "RD_OPEN"
  | .frameEnd _ _ _ => "FRAME_END"
  | .wRaw _ => "W_RAW"
  | .wRle _ => "W_RLE"
  | .wLit _ => "W_LIT"
  | .wLitrest => "W_LITREST"
  | .wCopy _ _ => "W_COPY"
  | .litRaw _ => "LIT_RAW"
  | .litRle _ => "LIT_RLE"
  | .litHuf _ _ _ => "LIT_HUF"
  | .litHufr _ _ _ => "LIT_HUFR"
  | .fseBuild _ => "FSE_BUILD"
  | .fseLoad _ _ _ => "FSE_LOAD"
  | .fsePredef _ => "FSE_PREDEF"
  | .fseRle _ _ => "FSE_RLE"
  | .bsOpen _ => "BS_OPEN"
  | .bsRead _ => "BS_READ"
  | .bsClose => "BS_CLOSE"
  | .fseInit _ => "FSE_INIT"
  | .fseEmit _ => "FSE_EMIT"
  | .fseNext _ => "FSE_NEXT"
  | .seqOpen _ _ => "SEQ_OPEN"
  | .seqNext => "SEQ_NEXT"
  | .seqExec => "SEQ_EXEC"
  | .seqRun => "SEQ_RUN"

/-- A slot's name in the assembler syntax (rule R98). -/
def Slot.name : Slot → String
  | .ll => "LL"
  | .of => "OF"
  | .ml => "ML"
  | .aux => "AUX"

/-- The operands of a command in the order `sel`, `imm`, `A`, `B` (rule R98). -/
def Instr.operands : Instr → List String
  | .nop => []
  | .frameInit a => [toString a.toNat]
  | .rdOpen a b => [toString a.toNat, toString b.toNat]
  | .frameEnd hasSize lo hi => if hasSize then [toString (lo.toNat + 2 ^ 32 * hi.toNat)] else []
  | .wRaw a => [toString a.toNat]
  | .wRle a => [toString a.toNat]
  | .wLit a => [toString a.toNat]
  | .wLitrest => []
  | .wCopy a b => [toString a.toNat, toString b.toNat]
  | .litRaw a => [toString a.toNat]
  | .litRle a => [toString a.toNat]
  | .litHuf n a b => [toString n.toSel.toNat, toString a.toNat, toString b.toNat]
  | .litHufr n a b => [toString n.toSel.toNat, toString a.toNat, toString b.toNat]
  | .fseBuild s => [s.name]
  | .fseLoad s al a => [s.name, toString al.toNat, toString a.toNat]
  | .fsePredef s => [s.name]
  | .fseRle s sym => [s.name, toString sym.toNat]
  | .bsOpen a => [toString a.toNat]
  | .bsRead k => [toString k.toNat]
  | .bsClose => []
  | .fseInit s => [s.name]
  | .fseEmit s => [s.name]
  | .fseNext s => [s.name]
  | .seqOpen a b => [toString a.toNat, toString b.toNat]
  | .seqNext => []
  | .seqExec => []
  | .seqRun => []

/-- The assembler line of a command (rule R98). -/
def Instr.asm (i : Instr) : String :=
  match i.operands with
  | [] => i.mnemonic
  | o :: os => os.foldl (fun t x => t ++ ", " ++ x) (i.mnemonic ++ " " ++ o)

end Sys2Proof
end

