-- ==== Sys2Proof/Machine/Memory.lean ====
section
/-! DEFINITION. Memories as sparse plain data: a list of (address, content) pairs in one canonical
form, addresses strictly rising. An address that is not listed holds no value: nothing has written
it (`93_implementation_defined.md` U2; log 4). A byte memory is a list of `Host.Cell`. -/

namespace Sys2Proof.Machine

/-- A memory of `α`: written locations only. -/
abbrev Memory (α : Type) := List (Nat × α)

namespace Memory

variable {α : Type}

/-- The canonical form: addresses strictly rising. -/
abbrev wf (m : Memory α) : Prop := m.Pairwise (fun x y => x.1 < y.1)

/-- What is stored at `a`, if anything has been written there. -/
def lookup : Memory α → Nat → Option α
  | [], _ => none
  | (b, v) :: rest, a => if a = b then some v else lookup rest a

/-- Store `v` at `a`, keeping the addresses rising. -/
def write : Memory α → Nat → α → Memory α
  | [], a, v => [(a, v)]
  | (b, w) :: rest, a, v =>
    if a < b then (a, v) :: (b, w) :: rest
    else if a = b then (a, v) :: rest
    else (b, w) :: write rest a v

/-- `MemWrite(S, a, n, v)`: store `v[i]` at `a + i`, in order (rule R62). -/
def writeList : Memory α → Nat → List α → Memory α
  | m, _, [] => m
  | m, a, v :: vs => writeList (write m a v) (a + 1) vs

end Memory

end Sys2Proof.Machine
end

