-- ==== Sys2Proof/Machine/Params.lean ====
section
/-! DEFINITION. The parameters of rule R6, with the spec's defaults (rules R152, R242), as plain data
that a state carries. -/

namespace Sys2Proof

namespace Config

/-- The default of `LL_BASE[c]`, `LL_BITS[c]` for literal-length codes 0 to 35 (rule R242). -/
def llCodes : List (Nat × Nat) :=
  [(0, 0), (1, 0), (2, 0), (3, 0), (4, 0), (5, 0), (6, 0), (7, 0), (8, 0), (9, 0), (10, 0),
   (11, 0), (12, 0), (13, 0), (14, 0), (15, 0), (16, 1), (18, 1), (20, 1), (22, 1), (24, 2),
   (28, 2), (32, 3), (40, 3), (48, 4), (64, 6), (128, 7), (256, 8), (512, 9), (1024, 10),
   (2048, 11), (4096, 12), (8192, 13), (16384, 14), (32768, 15), (65536, 16)]

/-- The default of `ML_BASE[c]`, `ML_BITS[c]` for match-length codes 0 to 52 (rule R242). -/
def mlCodes : List (Nat × Nat) :=
  (List.range 32).map (fun c => (c + 3, 0)) ++
  [(35, 1), (37, 1), (39, 1), (41, 1), (43, 2), (47, 2), (51, 3), (59, 3), (67, 4), (83, 4),
   (99, 5), (131, 7), (259, 8), (515, 9), (1027, 10), (2051, 11), (4099, 12), (8195, 13),
   (16387, 14), (32771, 15), (65539, 16)]

/-- The default of `PREDEF[LL]`: accuracy log and probabilities (rule R152). -/
def predefLL : Nat × List Int :=
  (6, [4, 3, 2, 2, 2, 2, 2, 2, 2, 2, 2, 2, 2, 1, 1, 1, 2, 2, 2, 2, 2, 2, 2, 2, 2, 3, 2, 1, 1, 1,
       1, 1, -1, -1, -1, -1])

/-- The default of `PREDEF[OF]` (rule R152). -/
def predefOF : Nat × List Int :=
  (5, [1, 1, 1, 1, 1, 1, 2, 2, 2, 1, 1, 1, 1, 1, 1, 1, 1, 1, 1, 1, 1, 1, 1, 1, -1, -1, -1, -1,
       -1])

/-- The default of `PREDEF[ML]` (rule R152). -/
def predefML : Nat × List Int :=
  (6, [1, 4, 3, 2, 2, 2, 2, 2, 2] ++ List.replicate 37 1 ++ List.replicate 7 (-1))

end Config

/-- One value for each table slot. -/
structure PerSlot (α : Type) where
  ll  : α
  of  : α
  ml  : α
  aux : α
deriving DecidableEq, Repr

/-- The value of a slot. -/
def PerSlot.get {α : Type} (x : PerSlot α) : Slot → α
  | .ll => x.ll
  | .of => x.of
  | .ml => x.ml
  | .aux => x.aux

/-- The parameters of rule R6: the capacities, which the spec leaves to the model as arguments
(`93_implementation_defined.md` U7), and the Zstandard constants, each with the spec's default (U8).
They are plain data that a state carries and no step changes (logs 2, 7). -/
structure Params where
  /-- `IN_CAP` -/
  inCap : Nat
  /-- `WIN_CAP` -/
  winCap : Nat
  /-- `LIT_CAP` -/
  litCap : Nat := 131072
  /-- `MAX_SYMBOLS[slot]` -/
  maxSymbols : PerSlot Nat := ⟨36, 32, 53, 256⟩
  /-- `MIN_AL` -/
  minAL : Nat := 5
  /-- `MAX_AL[slot]` -/
  maxAL : PerSlot Nat := ⟨9, 8, 9, 6⟩
  /-- `HUF_MAX_BITS` -/
  hufMaxBits : Nat := 11
  /-- `REP_INIT` -/
  repInit : Word × Word × Word := (1, 4, 8)
  /-- `LL_BASE`, `LL_BITS` (rule R242) -/
  llCodes : List (Nat × Nat) := Config.llCodes
  /-- `ML_BASE`, `ML_BITS` (rule R242) -/
  mlCodes : List (Nat × Nat) := Config.mlCodes
  /-- `PREDEF[LL]` (rule R152) -/
  predefLL : Nat × List Int := Config.predefLL
  /-- `PREDEF[OF]` (rule R152) -/
  predefOF : Nat × List Int := Config.predefOF
  /-- `PREDEF[ML]` (rule R152) -/
  predefML : Nat × List Int := Config.predefML
deriving DecidableEq, Repr

namespace Params

/-- The capacity of a space (rules R40, R60). -/
def capacity (p : Params) : Space → Nat
  | .input => p.inCap
  | .lit => p.litCap
  | .win => p.winCap

/-- `LL_BASE[c]`, `LL_BITS[c]` (rule R242). -/
def llCode (p : Params) (c : Nat) : Nat × Nat :=
  (p.llCodes[c]?).getD (Config.codeOutsideTable .ll c)

/-- `ML_BASE[c]`, `ML_BITS[c]` (rule R242). -/
def mlCode (p : Params) (c : Nat) : Nat × Nat :=
  (p.mlCodes[c]?).getD (Config.codeOutsideTable .ml c)

/-- `PREDEF[slot]`; none for `AUX` (rules R150, R152). -/
def predef (p : Params) : Slot → Option (Nat × List Int)
  | .ll => some p.predefLL
  | .of => some p.predefOF
  | .ml => some p.predefML
  | .aux => none

/-- A distribution of slot `sl` that builds: within the bounds and summing to the table size
(rule R141). -/
def distOk (p : Params) (sl : Slot) (d : Nat × List Int) : Bool :=
  p.minAL ≤ d.1 && d.1 ≤ p.maxAL.get sl && d.2.length ≤ p.maxSymbols.get sl &&
    d.2.all (fun x => -1 ≤ x) && (d.2.map (fun x => if x = -1 then 1 else x)).sum == 2 ^ d.1

/-- A code table that covers `n` codes, with values from `lo` to `hi` (rules R37, R242). -/
def codesOk (codes : List (Nat × Nat)) (n lo hi : Nat) : Bool :=
  n ≤ codes.length && codes.all fun c => lo ≤ c.1 && c.1 + 2 ^ c.2 ≤ hi + 1

/-- Parameters that fit the registers and the table entries the spec lays out: the ranges of rule R6
for the capacities and `LIT_CAP` below 2^32; at most 256 symbols (32 for `OF`, rule R242) and
`AL` up to 9 (rules R34, R38); `MIN_AL` from 4, where the walk of rule R142 is a full cycle, to 5,
which a header's least `AL` is (rule R144); code lengths of at most 15 bits (rule R39); repeat
offsets that are not 0 (rule R42); code values in the ranges of rule R37; predefined distributions
that build (rule R150). The bounds that the spec does not print are DESIGN CHOICE (log 7). -/
def wf (p : Params) : Bool :=
  1 ≤ p.inCap && p.inCap < 2 ^ 32 && 1 ≤ p.winCap && p.winCap < 2 ^ 32 && p.litCap < 2 ^ 32 &&
  ([Slot.ll, .of, .ml, .aux].all fun sl =>
    1 ≤ p.maxSymbols.get sl && p.maxSymbols.get sl ≤ 256 && p.maxAL.get sl ≤ 9) &&
  p.maxSymbols.of ≤ 32 && 4 ≤ p.minAL && p.minAL ≤ 5 && 1 ≤ p.hufMaxBits && p.hufMaxBits ≤ 15 &&
  p.repInit.1 != 0 && p.repInit.2.1 != 0 && p.repInit.2.2 != 0 &&
  codesOk p.llCodes p.maxSymbols.ll 0 131071 && codesOk p.mlCodes p.maxSymbols.ml 3 131074 &&
  p.distOk .ll p.predefLL && p.distOk .of p.predefOF && p.distOk .ml p.predefML

end Params

/-- The parameters of `State.reset`: the greatest capacities the spec admits for `IN` and `WIN`
(DESIGN CHOICE, log 2), the spec's default for everything else. -/
def Config.resetParams : Params := { inCap := 2 ^ 32 - 1, winCap := 2 ^ 32 - 1 }

end Sys2Proof
end

