-- ==== Sys2Proof/Machine/State.lean ====
section
/-! DEFINITION. The state of the unit as plain data (rules R20 to R44): the numbered registers
grouped by the component they belong to, the table memories, the byte memories, the parameters,
and the host's side of the ports. -/

namespace Sys2Proof.Machine

/-- `STATUS` (register 0) as its flags; bits not listed read 0, so no other bit is stored
(rule R25, log 10). -/
structure Status where
  busy      : Bool
  fault     : Bool
  bsOpen    : Bool
  seqActive : Bool
  seqValid  : Bool
deriving DecidableEq, Repr

/-- The Reader: `RPOS`, `IN_LEN` (registers 4, 5) and the input memory `IN` (rules R28, R40). -/
structure Reader where
  rpos : Word
  len  : Word
  mem  : Memory Byte
deriving DecidableEq, Repr

/-- The window: `WIN_INDEX`, `WIN_SIZE`, `WIN_CAPR` (registers 6, 7, 8) and the memory `WIN`
(rules R29, R40). -/
structure Window where
  index : Word
  size  : Word
  capr  : Word
  mem   : Memory Byte
deriving DecidableEq, Repr

/-- The literals buffer: `LIT_POS`, `LIT_LEN` (registers 9, 10) and the memory `LIT`
(rules R30, R40). -/
structure Literals where
  pos : Word
  len : Word
  mem : Memory Byte
deriving DecidableEq, Repr

/-- The one open backward bitstream: `BS_BASE`, `BS_LEN`, `BS_POS` (registers 11, 12, 13; `BS_POS`
is read as two's complement) (rule R31). -/
structure Bitstream where
  base : Word
  len  : Word
  pos  : Word
deriving DecidableEq, Repr

/-- `FSE_INFO[s]` (registers 20 to 23) as its fields; other bits read 0 (rule R34, log 10). -/
structure FseInfo where
  valid : Bool
  sinit : Bool
  al    : BitVec 4
  nsym  : BitVec 9
deriving DecidableEq, Repr

/-- One FSE table slot: `FSE_STATE[s]` (registers 16 to 19), `FSE_INFO[s]`, and the table memory
`FSE_TAB[s]` (rules R33, R34, R38). -/
structure FseSlot where
  state : Word
  info  : FseInfo
  tab   : Memory FseEntry
deriving DecidableEq, Repr

/-- The four slots `LL`, `OF`, `ML`, `AUX` (rule R38). -/
structure Slots where
  ll  : FseSlot
  of  : FseSlot
  ml  : FseSlot
  aux : FseSlot
deriving DecidableEq, Repr

/-- `HUF_INFO` (register 24) as its fields; other bits read 0 (rule R35, log 10). -/
structure HufInfo where
  valid   : Bool
  maxBits : BitVec 4
  nsym    : BitVec 9
deriving DecidableEq, Repr

/-- The Huffman table: `HUF_INFO` and the table memory `HUF_TAB` (rules R35, R39). -/
structure Huffman where
  info : HufInfo
  tab  : Memory HufEntry
deriving DecidableEq, Repr

/-- The repeat-offset history `REP1`, `REP2`, `REP3` (registers 25 to 27) (rule R36). -/
structure Reps where
  r1 : Word
  r2 : Word
  r3 : Word
deriving DecidableEq, Repr

/-- `SEQ_LEFT`, `SEQ_LL`, `SEQ_ML`, `SEQ_OFV`, `SEQ_OFF` (registers 28 to 32) (rule R37). -/
structure SeqRegs where
  left : Word
  ll   : Word
  ml   : Word
  ofv  : Word
  off  : Word
deriving DecidableEq, Repr

/-- One move of the host on the four ports of rule R22. -/
inductive HostMove where
  /-- present a command word on the command port -/
  | command (c : CmdWord)
  /-- write a byte of `IN` through the memory port -/
  | writeIn (addr : Nat) (b : Byte)
  /-- read a numbered register through the register read port -/
  | readReg (n : Nat)
  /-- read a byte of `IN`, `LIT` or `WIN` through the memory port -/
  | readMem (space : Space) (addr : Nat)
  /-- assert the reset input -/
  | reset
deriving DecidableEq, Repr

/-- The host's side of the ports: the MODEL's own fields (logs 1, 6, 9), not registers of the
unit. -/
structure HostSide where
  /-- the host's coming moves, the next one first -/
  moves    : List HostMove
  /-- what the last port read returned -/
  readData : Word
  /-- how many reads of absent registers have drawn a free value -/
  draws    : Nat
  /-- how many times reset has been applied -/
  epoch    : Nat
deriving DecidableEq, Repr

/-- The state of the unit (rule R21), with the parameters of rule R6 (logs 2, 7) and the host's side
of the ports. -/
structure State where
  status  : Status
  err     : Word
  errInfo : Word
  cp      : Word
  reader  : Reader
  window  : Window
  lits    : Literals
  bits    : Bitstream
  val     : Word
  sym     : Word
  slots   : Slots
  huf     : Huffman
  reps    : Reps
  seq     : SeqRegs
  params  : Params
  host    : HostSide
deriving DecidableEq, Repr

/-- Where the model itself stops. The unit's own faults (rule R310) are not here: they are taken,
and the machine goes on in the faulted state (rule R314). -/
inductive Fault where
  /-- Raised by `step` for a host port access at an address that the space does not have
  (`IN_CAP`, `LIT_CAP`, `WIN_CAP`; rules R22, R40, R61). Safe: the spec gives the host no such
  access (log 6). -/
  | hostAddressOutside (space : Space) (addr : Nat)
deriving DecidableEq, Repr

/-- What the model offers no meaning for. -/
inductive Refusal where
  /-- A command whose meaning the model does not have. Raised by no arm of `exec`: every command is
  modelled. Safe. -/
  | notModelled (mnemonic : String)
  /-- A command presented, or a port used, while `STATUS.BUSY = 1`: the spec gives it no meaning
  and has the model refuse the move (`93_implementation_defined.md` U3, decision D30). Raised by
  `present` and `step`. Safe. No step ends with `BUSY = 1` (log 5). -/
  | whileBusy
deriving DecidableEq, Repr

/-- Every flag of `STATUS` clear. -/
def Status.clear : Status :=
  { busy := false, fault := false, bsOpen := false, seqActive := false, seqValid := false }

/-- A table descriptor of value 0: no table (rules R34, R44). -/
def FseInfo.none : FseInfo := { valid := false, sinit := false, al := 0, nsym := 0 }

/-- A Huffman descriptor of value 0: no table (rules R35, R44). -/
def HufInfo.none : HufInfo := { valid := false, maxBits := 0, nsym := 0 }

/-- A slot after reset: no table, `FSE_STATE` at the value of log 3. -/
def FseSlot.reset : FseSlot := { state := 0, info := FseInfo.none, tab := [] }

/-- The history at the start of a frame and after reset, `REP_INIT` (rules R6, R36, R44). -/
def Reps.init (p : Params) : Reps :=
  { r1 := p.repInit.1, r2 := p.repInit.2.1, r3 := p.repInit.2.2 }

/-- The machine right after reset (rules R44, R351). `VAL`, `SYM`, `FSE_STATE`, `SEQ_LL`, `SEQ_ML`,
`SEQ_OFV`, `SEQ_OFF` are unspecified there and are 0 here (DESIGN CHOICE, log 3); the memories list
nothing (log 4); the parameters are the spec's, with the capacities of log 2; the host has no move
planned (log 1). -/
def State.reset : State :=
  { status := Status.clear
    err := 0
    errInfo := 0
    cp := 0
    reader := { rpos := 0, len := 0, mem := [] }
    window := { index := 0, size := 0, capr := 0, mem := [] }
    lits := { pos := 0, len := 0, mem := [] }
    bits := { base := 0, len := 0, pos := 0 }
    val := 0
    sym := 0
    slots := { ll := FseSlot.reset, of := FseSlot.reset, ml := FseSlot.reset,
               aux := FseSlot.reset }
    huf := { info := HufInfo.none, tab := [] }
    reps := Reps.init Config.resetParams
    seq := { left := 0, ll := 0, ml := 0, ofv := 0, off := 0 }
    params := Config.resetParams
    host := { moves := [], readData := 0, draws := 0, epoch := 0 } }

end Sys2Proof.Machine
end

