-- ==== Sys2Proof/Machine/Ops.lean ====
section
/-! DEFINITION. The shared operations: the sequencing of a command's pseudocode with `raise`, fault
entry, the common prologue and epilogue, the updates of State, and the named primitives over memory
and registers (rules R9, R62, R66 to R68, R121, R281, R282, R314). -/

namespace Sys2Proof.Machine

/-! ### The unit's faults -/

/-- The 17 faults of the unit (rule R310). -/
inductive UnitFault where
  | shortRead
  | tooManySymbols
  | sumMismatch
  | literalsUnderflow
  | copyOutOfBounds
  | contentSizeMismatch
  | missingTable
  | windowOverflow
  | literalsOverflow
  | missingEndMark
  | bitstreamOverrun
  | bitstreamResidue
  | invalidHuffmanWeights
  | accuracyLogTooLarge
  | illegalCommand
  | illegalOperand
  | illegalState
deriving DecidableEq, Repr

/-- The value `ERR` takes (rule R310). -/
def UnitFault.code : UnitFault → Word
  | .shortRead => 1
  | .tooManySymbols => 2
  | .sumMismatch => 3
  | .literalsUnderflow => 4
  | .copyOutOfBounds => 5
  | .contentSizeMismatch => 6
  | .missingTable => 7
  | .windowOverflow => 8
  | .literalsOverflow => 9
  | .missingEndMark => 10
  | .bitstreamOverrun => 11
  | .bitstreamResidue => 12
  | .invalidHuffmanWeights => 13
  | .accuracyLogTooLarge => 14
  | .illegalCommand => 15
  | .illegalOperand => 16
  | .illegalState => 17

/-- What `raise F(info)` carries (rule R9). -/
structure Raise where
  fault : UnitFault
  info  : Int
deriving DecidableEq, Repr

/-! ### Pseudocode -/

/-- A piece of a rule's pseudocode: it runs from a state to a result and a state, or raises, and the
state it had reached when it raised stands (rules R9, R314). -/
abbrev Cmd (α : Type) := EStateM Raise State α

/-- The state as the pseudocode has left it so far. -/
def current : Cmd State := fun s => .ok s s

/-- One assignment of the pseudocode. -/
def update (f : State → State) : Cmd Unit := fun s => .ok () (f s)

/-- `raise F(info)` (rule R9). -/
def raise {α : Type} (f : UnitFault) (info : Int) : Cmd α := fun s => .error ⟨f, info⟩ s

/-- `if c then raise F(info)`. -/
def raiseIf (c : Prop) [Decidable c] (f : UnitFault) (info : Int) : Cmd Unit :=
  fun s => if c then .error ⟨f, info⟩ s else .ok () s

/-- A computation that touches no state and may raise. -/
def lift {α : Type} (r : Except Raise α) : Cmd α :=
  fun s =>
    match r with
    | .ok a => .ok a s
    | .error e => .error e s

/-! ### Updates of State, one per component -/

namespace State

def setStatus (s : State) (x : Status) : State := { s with status := x }
def setErr (s : State) (x : Word) : State := { s with err := x }
def setErrInfo (s : State) (x : Word) : State := { s with errInfo := x }
def setCp (s : State) (x : Word) : State := { s with cp := x }
def setReader (s : State) (x : Reader) : State := { s with reader := x }
def setWindow (s : State) (x : Window) : State := { s with window := x }
def setLits (s : State) (x : Literals) : State := { s with lits := x }
def setBits (s : State) (x : Bitstream) : State := { s with bits := x }
def setVal (s : State) (x : Word) : State := { s with val := x }
def setSym (s : State) (x : Word) : State := { s with sym := x }
def setSlots (s : State) (x : Slots) : State := { s with slots := x }
def setHuf (s : State) (x : Huffman) : State := { s with huf := x }
def setReps (s : State) (x : Reps) : State := { s with reps := x }
def setSeq (s : State) (x : SeqRegs) : State := { s with seq := x }
def setHost (s : State) (x : HostSide) : State := { s with host := x }

end State

/-- The slot of a number (rule R38). -/
def Slots.get (t : Slots) : Slot → FseSlot
  | .ll => t.ll
  | .of => t.of
  | .ml => t.ml
  | .aux => t.aux

/-- The slots with one replaced. -/
def Slots.set (t : Slots) (sl : Slot) (x : FseSlot) : Slots :=
  match sl with
  | .ll => { t with ll := x }
  | .of => { t with of := x }
  | .ml => { t with ml := x }
  | .aux => { t with aux := x }

/-- The slots with `SINIT` cleared in all four (rules R176, R246). -/
def Slots.clearSinit (t : Slots) : Slots :=
  { ll := { t.ll with info := { t.ll.info with sinit := false } }
    of := { t.of with info := { t.of.info with sinit := false } }
    ml := { t.ml with info := { t.ml.info with sinit := false } }
    aux := { t.aux with info := { t.aux.info with sinit := false } } }

/-- The slots with every descriptor 0 (rule R124). -/
def Slots.clearInfo (t : Slots) : Slots :=
  { ll := { t.ll with info := FseInfo.none }
    of := { t.of with info := FseInfo.none }
    ml := { t.ml with info := FseInfo.none }
    aux := { t.aux with info := FseInfo.none } }

namespace State

/-- Slot `sl` of the state. -/
def slot (s : State) (sl : Slot) : FseSlot := s.slots.get sl

/-- The state with slot `sl` replaced. -/
def setSlot (s : State) (sl : Slot) (x : FseSlot) : State := s.setSlots (s.slots.set sl x)

/-- `RPOS <- v`. -/
def setRpos (s : State) (v : Nat) : State :=
  s.setReader { s.reader with rpos := BitVec.ofNat 32 v }

/-- `BS_POS <- p`, stored as two's complement (rule R23). -/
def setBsPos (s : State) (p : Int) : State :=
  s.setBits { s.bits with pos := BitVec.ofInt 32 p }

/-- `FSE_STATE[sl] <- v`. -/
def setFseState (s : State) (sl : Slot) (v : Nat) : State :=
  s.setSlot sl { s.slot sl with state := BitVec.ofNat 32 v }

/-- `FSE_INFO[sl].SINIT <- 1`. -/
def setSinit (s : State) (sl : Slot) : State :=
  s.setSlot sl { s.slot sl with info := { (s.slot sl).info with sinit := true } }

end State

/-! ### Reads of memory

A location that nothing has written reads as a free value (log 4). -/

/-- A byte of a memory, with `free` for the locations nothing has written. -/
def Memory.byte (m : Memory Byte) (free : Nat → Byte) (a : Nat) : Byte :=
  (m.lookup a).getD (free a)

namespace State

/-- Byte `a` of `IN`. -/
def inByte (s : State) (a : Nat) : Byte :=
  s.reader.mem.byte (Config.unwrittenByte s.host.epoch .input) a

/-- Byte `a` of `LIT`. -/
def litByte (s : State) (a : Nat) : Byte :=
  s.lits.mem.byte (Config.unwrittenByte s.host.epoch .lit) a

/-- Byte `a` of `WIN`. -/
def winByte (s : State) (a : Nat) : Byte :=
  s.window.mem.byte (Config.unwrittenByte s.host.epoch .win) a

/-- `FSE_TAB[sl][idx]` (rule R38). -/
def fseEntry (s : State) (sl : Slot) (idx : Nat) : FseEntry :=
  ((s.slot sl).tab.lookup idx).getD (Config.unwrittenFse s.host.epoch sl idx)

/-- `HUF_TAB[idx]` (rule R39). -/
def hufEntry (s : State) (idx : Nat) : HufEntry :=
  (s.huf.tab.lookup idx).getD (Config.unwrittenHuf s.host.epoch idx)

end State

/-- `MemRead(S, a, n)`: the bytes at `a .. a+n-1`, lowest address first (rule R62). -/
def memRead (byte : Nat → Byte) (a : Nat) : Nat → List Byte
  | 0 => []
  | n + 1 => byte a :: memRead byte (a + 1) n

/-! ### The Reader (rules R66 to R68) -/

/-- `Need(n)` (rule R66). -/
def need (n : Nat) : Cmd Unit := do
  let s ← current
  raiseIf (s.reader.rpos.toNat + n > s.reader.len.toNat) .shortRead s.reader.rpos.toNat

/-- `RPOS <- RPOS + n`. -/
def skip (n : Nat) : Cmd Unit := update fun s => s.setRpos (s.reader.rpos.toNat + n)

/-- `ReadU8()` (rule R67). -/
def readU8 : Cmd Byte := do
  need 1
  let s ← current
  skip 1
  pure (s.inByte s.reader.rpos.toNat)

/-- The little-endian value of a byte sequence (rule R63). -/
def littleEndian : List Byte → Nat
  | [] => 0
  | b :: bs => b.toNat + 256 * littleEndian bs

/-- A little-endian read of `n` bytes: `Need` first, so that a short read consumes nothing
(rule R68). -/
def readLE (n : Nat) : Cmd Nat := do
  need n
  let s ← current
  skip n
  pure (littleEndian (memRead s.inByte s.reader.rpos.toNat n))

/-- `ReadU16LE()` (rule R68). -/
def readU16LE : Cmd (BitVec 16) := do
  let v ← readLE 2
  pure (BitVec.ofNat 16 v)

/-- `ReadU32LE()` (rule R68): part of the Reader contract, used by no command. -/
def readU32LE : Cmd Word := do
  let v ← readLE 4
  pure (BitVec.ofNat 32 v)

/-! ### Window and literals primitives (rules R281, R282) -/

/-- `WinRoom(n)` (rule R281). -/
def winRoom (n : Nat) : Cmd Unit := do
  let s ← current
  raiseIf (s.window.index.toNat + n > s.window.capr.toNat) .windowOverflow n

/-- The cursor and the high-water mark after `n` more bytes (rule R281). -/
def Window.advance (w : Window) (n : Nat) : Window :=
  { w with
    index := BitVec.ofNat 32 (w.index.toNat + n)
    size := BitVec.ofNat 32 (max w.size.toNat (w.index.toNat + n)) }

/-- The window with the bytes `v` appended at the cursor (rule R281). -/
def Window.append (w : Window) (v : List Byte) : Window :=
  { w.advance v.length with mem := w.mem.writeList w.index.toNat v }

/-- `WinAppend(v)` (rule R281). -/
def winAppend (v : List Byte) : Cmd Unit := do
  winRoom v.length
  update fun s => s.setWindow (s.window.append v)

/-- The literals not yet consumed, `LIT_LEN - LIT_POS`. -/
def Literals.rest (l : Literals) : Nat := l.len.toNat - l.pos.toNat

/-- The check of `LitTake(n)` (rules R282, R288). -/
def litAvailable (n : Nat) : Cmd Unit := do
  let s ← current
  raiseIf (n > s.lits.rest) .literalsUnderflow s.lits.rest

/-- `LitTake(n)` (rule R282). -/
def litTake (n : Nat) : Cmd (List Byte) := do
  litAvailable n
  let s ← current
  update fun s => s.setLits { s.lits with pos := BitVec.ofNat 32 (s.lits.pos.toNat + n) }
  pure (memRead s.litByte s.lits.pos.toNat n)

/-! ### Taking a fault, and the common prologue and epilogue -/

/-- Fault entry: `ERR`, `ERRINFO`, `FAULT` and `BUSY` are written, `CP` is not advanced, everything
else stands as the pseudocode left it (rule R314). DESIGN CHOICE (log 18): a context that 32 bits do
not hold is recorded modulo 2^32. It is the `ShortRead` address 2^32 of a table header read past
`IN_LEN = 2^32 - 1`, or the `BitstreamResidue` position of a Huffman stream above 2^29 bytes; with
parameters that do not fit the unit it can be another. -/
def faultEntry (r : Raise) (s : State) : State :=
  { s with
    err := r.fault.code
    errInfo := BitVec.ofInt 32 r.info
    status := { s.status with fault := true, busy := false } }

/-- Completion: `CP <- (CP + 1) mod 2^32`, `BUSY <- 0` (rule R121). -/
def complete (s : State) : State :=
  { s with cp := s.cp + 1, status := { s.status with busy := false } }

/-- `STATUS.BUSY <- 1` (rule R121). -/
def begin (s : State) : State := { s with status := { s.status with busy := true } }

/-- What presenting a command does around its own rule (rule R121): a command presented while busy
is refused (U3, log 5), the fault latch ignores it (rule R315), otherwise the rule runs to
completion or to fault entry. -/
def presentBody (body : Cmd Unit) (s : State) : Host.Outcome State Fault Refusal :=
  if s.status.busy then .refused .whileBusy
  else if s.status.fault then .next s
  else
    match body (begin s) with
    | .ok _ t => .next (complete t)
    | .error r t => .next (faultEntry r t)

/-- The legality check of the prologue: a term that no legal word encodes raises `IllegalCommand`
with `W0` (rules R95, R121; log 13). -/
def legal (i : Instr) : Cmd Unit :=
  raiseIf (i.wf = false) .illegalCommand (encode i).w0.toNat

/-- Presenting command `i` whose own rule is `body` (rule R121). -/
def present (i : Instr) (body : Cmd Unit) (s : State) : Host.Outcome State Fault Refusal :=
  presentBody (do legal i; body) s

/-- Presenting an illegal command word (rules R95, R121). -/
def presentIllegal (c : CmdWord) (s : State) : Host.Outcome State Fault Refusal :=
  presentBody (raise .illegalCommand c.w0.toNat) s

end Sys2Proof.Machine
end

