-- ==== Sys2Proof/Machine/Flags.lean ====
section
/-! DEFINITION. The flags: `STATUS` and the table descriptors as words (rules R25, R34, R35), and the
state checks that read the flags (rules R122, R170). There are no condition codes (rule R25). -/

namespace Sys2Proof.Machine

/-- `STATUS` as the register read port gives it (rule R25). -/
def Status.word (t : Status) : Word :=
  BitVec.ofNat 32
    (t.busy.toNat + 2 * t.fault.toNat + 4 * t.bsOpen.toNat + 8 * t.seqActive.toNat +
      16 * t.seqValid.toNat)

/-- `STATUS` as the host last read it, the context of `IllegalState`: bits 2 to 4 (rule R310). -/
def Status.context (t : Status) : Nat :=
  4 * t.bsOpen.toNat + 8 * t.seqActive.toNat + 16 * t.seqValid.toNat

/-- `FSE_INFO[s]` as a word (rule R34). -/
def FseInfo.word (i : FseInfo) : Word :=
  BitVec.ofNat 32 (i.valid.toNat + 2 * i.sinit.toNat + 16 * i.al.toNat + 65536 * i.nsym.toNat)

/-- `HUF_INFO` as a word (rule R35). -/
def HufInfo.word (i : HufInfo) : Word :=
  BitVec.ofNat 32 (i.valid.toNat + 16 * i.maxBits.toNat + 65536 * i.nsym.toNat)

/-- `if c then raise IllegalState(STATUS)`, `c` a condition on the flags. -/
def stateCheck (c : Status → Bool) : Cmd Unit := do
  let s ← current
  raiseIf (c s.status = true) .illegalState s.status.context

/-- A bitstream or a sequences section is open. -/
def Status.notQuiet (t : Status) : Bool := t.bsOpen || t.seqActive

/-- `Quiet()` (rule R122). -/
def quiet : Cmd Unit := stateCheck Status.notQuiet

/-- The primitives do not own the bitstream: none is open, or a sequences decode has it
(rules R170, R174). -/
def Status.noPrimitive (t : Status) : Bool := !t.bsOpen || t.seqActive

/-- The first check of `BS_READ`, `BS_CLOSE`, `FSE_INIT`, `FSE_NEXT` (rules R174 to R182). -/
def primitiveOpen : Cmd Unit := stateCheck Status.noPrimitive

/-- Close the bitstream: `RPOS` moves past the section and every `SINIT` is cleared
(rules R176, R246). The `STATUS` flags are the caller's. -/
def State.closeSection (s : State) : State :=
  (s.setRpos (s.bits.base.toNat + s.bits.len.toNat)).setSlots s.slots.clearSinit

end Sys2Proof.Machine
end

