-- ==== Sys2Proof/Machine/Operands.lean ====
section
/-! DEFINITION. Operand forms: the 64-bit content size (rule R93), bits of a byte sequence (rule
R69), the forward bit reader (rule R70) and the backward bit reader (rules R71 to R73). -/

namespace Sys2Proof.Machine

/-- The declared content size `A + 2^32 * B` (rules R93, R128). -/
def contentSize (lo hi : Word) : Nat := lo.toNat + 2 ^ 32 * hi.toNat

/-- Stream bit `i` of the byte sequence that starts at `base` (rule R69). -/
def streamBit (byte : Nat → Byte) (base i : Nat) : Bool :=
  (byte (base + i / 8)).getLsbD (i % 8)

/-- `sum over j in 0..k-1 of bit(j) << j`. -/
def gather (bit : Nat → Bool) : Nat → Nat
  | 0 => 0
  | k + 1 => gather bit k + (bit k).toNat * 2 ^ k

/-! ### The forward reader -/

/-- `FwdPeek(k)` at bit count `fpos` of a reader opened at `fb` with limit `fe`; bits of bytes at or
past the limit are 0 (rule R70). -/
def fwdPeek (byte : Nat → Byte) (fb fe fpos k : Nat) : Nat :=
  gather (fun j => decide (fb + (fpos + j) / 8 < fe) && streamBit byte fb (fpos + j)) k

/-- The first whole byte at or after bit count `fpos`, `fb + ceil(fpos / 8)`. -/
def fwdEnd (fb fpos : Nat) : Nat := fb + (fpos + 7) / 8

/-- `FwdTake(k)`: the new bit count, or `ShortRead` (rule R70). The address it reports may be 2^32,
which `ERRINFO` does not hold (DESIGN CHOICE, log 18). -/
def fwdTake (fb fe fpos k : Nat) : Except Raise Nat :=
  if fwdEnd fb (fpos + k) > fe then .error ⟨.shortRead, (fb + (fpos + k) / 8 : Nat)⟩
  else .ok (fpos + k)

/-! ### The backward reader -/

/-- `BackStart(base, n)` (rule R71). -/
def backStart (byte : Nat → Byte) (base n : Nat) : Except Raise Nat :=
  if n = 0 then .error ⟨.missingEndMark, base⟩
  else
    let last := (byte (base + n - 1)).toNat
    if last = 0 then .error ⟨.missingEndMark, (base + n - 1 : Nat)⟩
    else .ok (8 * (n - 1) + Nat.log2 last)

/-- `BackBits(base, pos, k)`: bits below the beginning are 0 (rule R72). -/
def backBits (byte : Nat → Byte) (base : Nat) (pos : Int) (k : Nat) : Nat :=
  gather (fun j =>
    decide (0 ≤ pos - k + j) && streamBit byte base (pos - k + j).toNat) k

/-- `BS_POS` as a signed number (rule R31). -/
def State.bsPos (s : State) : Int := s.bits.pos.toInt

/-- `if BS_POS < 0 then raise BitstreamOverrun(BS_POS)` (rules R73, R246). -/
def overrun : Cmd Unit := do
  let s ← current
  raiseIf (s.bsPos < 0) .bitstreamOverrun s.bsPos

/-- The next `k` bits of the open bitstream. -/
def State.peekBack (s : State) (k : Nat) : Nat :=
  backBits s.inByte s.bits.base.toNat s.bsPos k

/-- `BackRead(k)` (rule R73). -/
def backRead (k : Nat) : Cmd Nat := do
  overrun
  let s ← current
  update fun s => s.setBsPos (s.bsPos - k)
  pure (s.peekBack k)

/-- `BackRead(k); Over()`. -/
def backReadOver (k : Nat) : Cmd Nat := do
  let v ← backRead k
  overrun
  pure v

end Sys2Proof.Machine
end

