-- ==== Sys2Proof/Machine/Bitstream.lean ====
section
/-! DEFINITION. The backward bitstream and FSE lookup: the table operations shared with the
sequences decode, and the commands BS_OPEN, BS_READ, BS_CLOSE, FSE_INIT, FSE_EMIT, FSE_NEXT
(`42_bitstream_fse.md`). -/

namespace Sys2Proof.Machine

/-- The entry of the current state of a slot, `FSE_TAB[sl][FSE_STATE[sl]]` (rule R140). -/
def State.currentEntry (s : State) (sl : Slot) : FseEntry :=
  s.fseEntry sl (s.slot sl).state.toNat

/-- `if FSE_INFO[sl].VALID == 0 then raise MissingTable(sl)` (rules R178, R244). -/
def tableValid (sl : Slot) : Cmd Unit := do
  let s ← current
  raiseIf ((s.slot sl).info.valid = false) .missingTable sl.num

/-- `if FSE_INFO[sl].SINIT == 0 then raise IllegalState(STATUS)` (rules R180, R182). -/
def stateReady (sl : Slot) : Cmd Unit := do
  let s ← current
  raiseIf ((s.slot sl).info.sinit = false) .illegalState s.status.context

/-- `FSE_STATE[sl] <- BackRead(FSE_INFO[sl].AL); FSE_INFO[sl].SINIT <- 1` (rules R178, R244). -/
def initState (sl : Slot) : Cmd Unit := do
  let s ← current
  let v ← backRead (s.slot sl).info.al.toNat
  update fun s => (s.setFseState sl v).setSinit sl

/-- `e <- FSE_TAB[sl][FSE_STATE[sl]]; FSE_STATE[sl] <- e.base + BackRead(e.nb)` (rules R182,
R246). -/
def advanceState (sl : Slot) : Cmd Unit := do
  let s ← current
  let v ← backRead (s.currentEntry sl).nb.toNat
  update fun t => t.setFseState sl ((s.currentEntry sl).base.toNat + v)

/-- Open the `n` bytes at the Reader cursor as a backward bitstream: the checks and register writes
shared by BS_OPEN and SEQ_OPEN (rules R172, R244). -/
def openSection (n : Word) : Cmd Unit := do
  need n.toNat
  let s ← current
  let pos ← lift (backStart s.inByte s.reader.rpos.toNat n.toNat)
  update fun s =>
    s.setBits { base := s.reader.rpos, len := n, pos := BitVec.ofNat 32 pos }

/-- BS_OPEN (rule R172). -/
def bsOpenBody (n : Word) : Cmd Unit := do
  quiet
  raiseIf (n.toNat > Config.bsMaxBytes) .illegalOperand n.toNat
  openSection n
  update fun s => s.setStatus { s.status with bsOpen := true }

/-- BS_READ (rule R174). -/
def bsReadBody (k : BitVec 16) : Cmd Unit := do
  primitiveOpen
  raiseIf (k.toNat > 32) .illegalOperand k.toNat
  let v ← backRead k.toNat
  update fun s => s.setVal (BitVec.ofNat 32 v)

/-- BS_CLOSE (rule R176). -/
def bsCloseBody : Cmd Unit := do
  primitiveOpen
  overrun
  let s ← current
  raiseIf (s.bsPos > 0) .bitstreamResidue s.bsPos
  update fun s => (s.setStatus { s.status with bsOpen := false }).closeSection

/-- FSE_INIT (rule R178). -/
def fseInitBody (sl : Slot) : Cmd Unit := do
  primitiveOpen
  tableValid sl
  initState sl

/-- FSE_EMIT (rule R180). -/
def fseEmitBody (sl : Slot) : Cmd Unit := do
  stateCheck Status.seqActive
  tableValid sl
  stateReady sl
  update fun s => s.setSym ((s.currentEntry sl).sym.setWidth 32)

/-- FSE_NEXT (rule R182). -/
def fseNextBody (sl : Slot) : Cmd Unit := do
  primitiveOpen
  tableValid sl
  stateReady sl
  advanceState sl

/-- Presenting BS_OPEN. -/
def execBsOpen (n : Word) (s : State) : Host.Outcome State Fault Refusal :=
  present (.bsOpen n) (bsOpenBody n) s

/-- Presenting BS_READ. -/
def execBsRead (k : BitVec 16) (s : State) : Host.Outcome State Fault Refusal :=
  present (.bsRead k) (bsReadBody k) s

/-- Presenting BS_CLOSE. -/
def execBsClose (s : State) : Host.Outcome State Fault Refusal :=
  present .bsClose bsCloseBody s

/-- Presenting FSE_INIT. -/
def execFseInit (sl : Slot) (s : State) : Host.Outcome State Fault Refusal :=
  present (.fseInit sl) (fseInitBody sl) s

/-- Presenting FSE_EMIT. -/
def execFseEmit (sl : Slot) (s : State) : Host.Outcome State Fault Refusal :=
  present (.fseEmit sl) (fseEmitBody sl) s

/-- Presenting FSE_NEXT. -/
def execFseNext (sl : Slot) (s : State) : Host.Outcome State Fault Refusal :=
  present (.fseNext sl) (fseNextBody sl) s

end Sys2Proof.Machine
end

