-- ==== Sys2Proof/Machine/FseTable.lean ====
section
/-! DEFINITION. The FSE table builder (`41_fse_table.md`): the check of a distribution, the spread
of symbols over states, the bit-packed header, and the commands FSE_BUILD, FSE_LOAD, FSE_PREDEF,
FSE_RLE. -/

namespace Sys2Proof.Machine

/-! ### Spread (rule R142) -/

/-- The "less than one" symbols from the top state down: the first state taken, and the symbols of
the states (rule R142). -/
def placeLow : List Int → (s high : Nat) → List Nat → Nat × List Nat
  | [], _, high, t => (high, t)
  | p :: ps, s, high, t =>
    if p = -1 then placeLow ps (s + 1) (high - 1) (t.set (high - 1) s)
    else placeLow ps (s + 1) high t

/-- `repeat pos <- (pos + step) & mask until pos < high`, within `fuel` passes (rule R142). -/
def nextPos (step mask high : Nat) : Nat → Nat → Nat
  | 0, pos => pos
  | fuel + 1, pos =>
    if (pos + step) &&& mask < high then (pos + step) &&& mask
    else nextPos step mask high fuel ((pos + step) &&& mask)

/-- Place symbol `s` on `count` states along the walk (rule R142). -/
def placeSymbol (step mask high s : Nat) : Nat → Nat → List Nat → Nat × List Nat
  | 0, pos, t => (pos, t)
  | count + 1, pos, t =>
    placeSymbol step mask high s count (nextPos step mask high (mask + 1) pos) (t.set pos s)

/-- Place the symbols of probability 1 and more, in ascending order (rule R142). -/
def placeWalk (step mask high : Nat) : List Int → (s pos : Nat) → List Nat → List Nat
  | [], _, _, t => t
  | p :: ps, s, pos, t =>
    let r := placeSymbol step mask high s p.toNat pos t
    placeWalk step mask high ps (s + 1) r.1 r.2

/-- The symbol of each state, `T[0 .. size-1].sym` (rule R142). -/
def spreadSymbols (al : Nat) (probs : List Int) : List Nat :=
  let size := 2 ^ al
  let low := placeLow probs 0 size (List.replicate size 0)
  placeWalk (size / 2 + size / 8 + 3) (size - 1) low.1 probs 0 0 low.2

/-- The scratch counters `next[]` at the start of the last loop (rule R142). -/
def initialNext (probs : List Int) : List Nat :=
  probs.map fun p => if p = -1 then 1 else p.toNat

/-- The entry of a state of symbol `s` whose counter stands at `x` (rule R142). -/
def spreadEntry (al s x : Nat) : FseEntry :=
  let nb := al - Nat.log2 x
  { sym := BitVec.ofNat 8 s, nb := BitVec.ofNat 4 nb,
    base := BitVec.ofNat 10 (x * 2 ^ nb - 2 ^ al) }

/-- The last loop of rule R142, over the states in ascending order. -/
def spreadEntries (al : Nat) : List Nat → List Nat → List FseEntry
  | [], _ => []
  | s :: ss, next =>
    let x := next.getD s 0
    spreadEntry al s x :: spreadEntries al ss (next.set s (x + 1))

/-- `Spread(slot, al, probs)`: the entries of the table (rule R142). -/
def spread (al : Nat) (probs : List Int) : List FseEntry :=
  spreadEntries al (spreadSymbols al probs) (initialNext probs)

/-! ### From a distribution to a table (rule R141) -/

/-- The running `remaining` of rule R141, or the first probability below -1. -/
def distRemaining : List Int → Int → Except Raise Int
  | [], remaining => .ok remaining
  | p :: ps, remaining =>
    if p < -1 then .error ⟨.illegalOperand, p⟩
    else if p = -1 then distRemaining ps (remaining - 1)
    else distRemaining ps (remaining - p)

/-- The checks of `FseFromDist`, in their order (rule R141). -/
def checkDist (p : Params) (slot : Slot) (al : Nat) (probs : List Int) : Except Raise Unit :=
  if al < p.minAL then .error ⟨.illegalOperand, al⟩
  else if al > p.maxAL.get slot then .error ⟨.accuracyLogTooLarge, al⟩
  else if probs.length > p.maxSymbols.get slot then .error ⟨.tooManySymbols, probs.length⟩
  else
    match distRemaining probs ((2 ^ al : Nat) : Int) with
    | .error e => .error e
    | .ok remaining =>
      if remaining ≠ 0 then .error ⟨.sumMismatch, remaining⟩ else .ok ()

/-- The slot with a newly built table: entries `0 .. (1 << AL) - 1` written, the descriptor set,
`FSE_STATE` as it was (rules R141, R154). -/
def FseSlot.build (x : FseSlot) (al nsym : Nat) (entries : List FseEntry) : FseSlot :=
  { x with
    info := { valid := true, sinit := false, al := BitVec.ofNat 4 al,
              nsym := BitVec.ofNat 9 nsym }
    tab := x.tab.writeList 0 entries }

/-- `FseFromDist(slot, al, probs)` (rule R141). -/
def fseFromDist (slot : Slot) (al : Nat) (probs : List Int) : Cmd Unit := do
  let s ← current
  lift (checkDist s.params slot al probs)
  update fun s => s.setSlot slot ((s.slot slot).build al probs.length (spread al probs))

/-! ### The bit-packed header (rule R144) -/

/-- One probability value of the header at bit count `fpos`: the value and the new bit count
(rule R144). -/
def headerValue (byte : Nat → Byte) (fb fe remaining fpos : Nat) : Except Raise (Nat × Nat) :=
  let nbits := Nat.log2 (remaining + 1) + 1
  let lower := 2 ^ (nbits - 1) - 1
  let threshold := 2 ^ nbits - 1 - (remaining + 1)
  let v := fwdPeek byte fb fe fpos nbits
  if v &&& lower < threshold then do
    let fpos ← fwdTake fb fe fpos (nbits - 1)
    .ok (v &&& lower, fpos)
  else do
    let fpos ← fwdTake fb fe fpos nbits
    .ok (if v > lower then v - threshold else v, fpos)

/-- Append `r` zero probabilities, each within the symbol bound (rule R144). -/
def appendZeros (maxSym : Nat) : Nat → List Int → Except Raise (List Int)
  | 0, probs => .ok probs
  | r + 1, probs =>
    if probs.length ≥ maxSym then .error ⟨.tooManySymbols, probs.length⟩
    else appendZeros maxSym r (probs ++ [0])

/-- The zero-run flags after a probability of 0 (rule R144). A flag of 3 appends three symbols or
raises, so `maxSym` passes are enough. -/
def zeroRun (byte : Nat → Byte) (fb fe maxSym : Nat) :
    Nat → Nat → List Int → Except Raise (Nat × List Int)
  | 0, _, probs => .error ⟨.tooManySymbols, probs.length⟩
  | fuel + 1, fpos, probs => do
    let r := fwdPeek byte fb fe fpos 2
    let fpos ← fwdTake fb fe fpos 2
    let probs ← appendZeros maxSym r probs
    if r = 3 then zeroRun byte fb fe maxSym fuel fpos probs else .ok (fpos, probs)

/-- `remaining` after a probability of `val - 1`; -1 counts as one (rule R144). -/
def headerRemaining (remaining val : Nat) : Nat :=
  if val = 0 then remaining - 1 else remaining - (val - 1)

/-- The loop over the symbols (rule R144). Each pass appends a symbol or raises, so
`MAX_SYMBOLS[slot] + 1` passes are enough. -/
def headerLoop (byte : Nat → Byte) (fb fe maxSym : Nat) :
    Nat → (remaining fpos : Nat) → List Int → Except Raise (Nat × List Int)
  | 0, _, _, probs => .error ⟨.tooManySymbols, probs.length⟩
  | fuel + 1, remaining, fpos, probs =>
    if remaining = 0 then .ok (fpos, probs)
    else if probs.length ≥ maxSym then .error ⟨.tooManySymbols, probs.length⟩
    else do
      let (val, fpos) ← headerValue byte fb fe remaining fpos
      let probs := probs ++ [(val : Int) - 1]
      let (fpos, probs) ←
        if val = 1 then zeroRun byte fb fe maxSym (maxSym + 1) fpos probs
        else .ok (fpos, probs)
      headerLoop byte fb fe maxSym fuel (headerRemaining remaining val) fpos probs

/-- A distribution read from a header: accuracy log, probabilities, and the address of the next
whole byte. -/
structure Header where
  al    : Nat
  probs : List Int
  next  : Nat
deriving DecidableEq, Repr

/-- `FseReadHeader(slot, fe)` with the reader opened at `fb` (rule R144). It touches no state:
`FwdEnd` is the caller's `RPOS <- next`. -/
def fseReadHeader (p : Params) (byte : Nat → Byte) (slot : Slot) (fb fe : Nat) :
    Except Raise Header := do
  let al := fwdPeek byte fb fe 0 4 + 5
  let fpos ← fwdTake fb fe 0 4
  if al > p.maxAL.get slot then .error ⟨.accuracyLogTooLarge, al⟩
  else do
    let (fpos, probs) ←
      headerLoop byte fb fe (p.maxSymbols.get slot) (p.maxSymbols.get slot + 1) (2 ^ al) fpos []
    .ok { al := al, probs := probs, next := fwdEnd fb fpos }

/-- Read a header at the Reader cursor and move the cursor past it (rules R70, R144). -/
def readHeader (slot : Slot) (fe : Nat) : Cmd Header := do
  let s ← current
  let h ← lift (fseReadHeader s.params s.inByte slot s.reader.rpos.toNat fe)
  update fun s => s.setRpos h.next
  pure h

/-! ### The commands -/

/-- FSE_BUILD (rule R146). -/
def fseBuildBody (slot : Slot) : Cmd Unit := do
  quiet
  let s ← current
  let h ← readHeader slot s.reader.len.toNat
  fseFromDist slot h.al h.probs

/-- `n` little-endian 16-bit two's-complement probabilities from the input (rule R148). -/
def readProbs : Nat → Cmd (List Int)
  | 0 => pure []
  | n + 1 => do
    let v ← readU16LE
    let rest ← readProbs n
    pure (v.toInt :: rest)

/-- FSE_LOAD (rule R148). -/
def fseLoadBody (slot : Slot) (al : BitVec 16) (n : Word) : Cmd Unit := do
  quiet
  let s ← current
  raiseIf (n.toNat > s.params.maxSymbols.get slot) .tooManySymbols n.toNat
  need (2 * n.toNat)
  let probs ← readProbs n.toNat
  fseFromDist slot al.toNat probs

/-- FSE_PREDEF (rule R150). Slot `AUX` has no distribution: its word is illegal and the prologue
has raised `IllegalCommand` (rule R95, log 13). -/
def fsePredefBody (slot : Slot) : Cmd Unit := do
  quiet
  let s ← current
  match s.params.predef slot with
  | some (al, probs) => fseFromDist slot al probs
  | none => pure ()

/-- FSE_RLE (rule R154). -/
def fseRleBody (slot : Slot) (symbol : BitVec 16) : Cmd Unit := do
  quiet
  let s ← current
  raiseIf (symbol.toNat ≥ s.params.maxSymbols.get slot) .tooManySymbols symbol.toNat
  update fun s =>
    s.setSlot slot
      ((s.slot slot).build 0 (symbol.toNat + 1)
        [{ sym := BitVec.ofNat 8 symbol.toNat, nb := 0, base := 0 }])

/-- Presenting FSE_BUILD. -/
def execFseBuild (slot : Slot) (s : State) : Host.Outcome State Fault Refusal :=
  present (.fseBuild slot) (fseBuildBody slot) s

/-- Presenting FSE_LOAD. -/
def execFseLoad (slot : Slot) (al : BitVec 16) (n : Word) (s : State) :
    Host.Outcome State Fault Refusal :=
  present (.fseLoad slot al n) (fseLoadBody slot al n) s

/-- Presenting FSE_PREDEF. -/
def execFsePredef (slot : Slot) (s : State) : Host.Outcome State Fault Refusal :=
  present (.fsePredef slot) (fsePredefBody slot) s

/-- Presenting FSE_RLE. -/
def execFseRle (slot : Slot) (symbol : BitVec 16) (s : State) :
    Host.Outcome State Fault Refusal :=
  present (.fseRle slot symbol) (fseRleBody slot symbol) s

end Sys2Proof.Machine
end

