-- ==== Sys2Proof/Machine/Literals.lean ====
section
/-! DEFINITION. The literals buffer and the Huffman decode (`43_literals_huffman.md`): the table
from weights, the tree description, the stream decode, and the commands LIT_RAW, LIT_RLE, LIT_HUF,
LIT_HUFR. -/

namespace Sys2Proof.Machine

/-! ### The Huffman table from weights (rule R204) -/

/-- The sum of the weights' powers, or the first weight above `limit`, `HUF_MAX_BITS` (rule
R204). -/
def weightTotal (limit : Nat) : List Nat → Nat → Except Raise Nat
  | [], total => .ok total
  | w :: ws, total =>
    if w > limit then .error ⟨.invalidHuffmanWeights, w⟩
    else weightTotal limit ws (if w > 0 then total + 2 ^ (w - 1) else total)

/-- The entries of the symbols whose codes have `b` bits, in ascending order of symbol; the list
gives the code lengths of the symbols from `s` on (rule R204). -/
def hufLevel (maxBits b : Nat) : List Nat → (s : Nat) → List HufEntry
  | [], _ => []
  | nb :: rest, s =>
    (if nb = b then
      List.replicate (2 ^ (maxBits - b)) { sym := BitVec.ofNat 8 s, nb := BitVec.ofNat 4 b }
    else []) ++ hufLevel maxBits b rest (s + 1)

/-- The table's entries, codes of `b` bits first, then shorter ones (rule R204). -/
def hufLevels (maxBits : Nat) (nbits : List Nat) : Nat → List HufEntry
  | 0 => []
  | b + 1 => hufLevel maxBits (b + 1) nbits 0 ++ hufLevels maxBits nbits b

/-- A Huffman table: index width, symbol count, entries. -/
structure HufTable where
  maxBits : Nat
  nsym    : Nat
  entries : List HufEntry
deriving DecidableEq, Repr

/-- The code length of a weight: `maxbits + 1 - w`, 0 for weight 0 (rule R204). -/
def codeLength (maxBits w : Nat) : Nat := if w > 0 then maxBits + 1 - w else 0

/-- The table of a list of explicit weights within `limit`, `HUF_MAX_BITS`, with the checks in the
order of rule R204. -/
def weightTable (limit : Nat) (w : List Nat) : Except Raise HufTable :=
  if w.length = 0 ∨ w.length > 255 then .error ⟨.invalidHuffmanWeights, w.length⟩
  else do
    let total ← weightTotal limit w 0
    if total = 0 then .error ⟨.invalidHuffmanWeights, 0⟩
    else
      let maxBits := Nat.log2 total + 1
      if maxBits > limit then .error ⟨.invalidHuffmanWeights, maxBits⟩
      else
        let left := 2 ^ maxBits - total
        if 2 ^ Nat.log2 left ≠ left then .error ⟨.invalidHuffmanWeights, left⟩
        else
          let all := w ++ [Nat.log2 left + 1]
          .ok { maxBits := maxBits, nsym := w.length + 1,
                entries := hufLevels maxBits (all.map (codeLength maxBits)) maxBits }

/-- The Huffman table memory and descriptor after a build (rule R204). -/
def Huffman.build (h : Huffman) (t : HufTable) : Huffman :=
  { info := { valid := true, maxBits := BitVec.ofNat 4 t.maxBits, nsym := BitVec.ofNat 9 t.nsym }
    tab := h.tab.writeList 0 t.entries }

/-- `HufFromWeights(w)` (rule R204). -/
def hufFromWeights (w : List Nat) : Cmd Unit := do
  let s ← current
  let t ← lift (weightTable s.params.hufMaxBits w)
  update fun s => s.setHuf (s.huf.build t)

/-! ### The tree description (rule R206) -/

/-- Weight `i` of the direct form whose weights start at `a`: high nibble first (rule R206). -/
def nibbleWeight (byte : Nat → Byte) (a i : Nat) : Nat :=
  if i % 2 = 0 then (byte (a + i / 2)).toNat / 16 else (byte (a + i / 2)).toNat % 16

/-- The direct form: `n` 4-bit weights (rule R206). -/
def directWeights (fin n : Nat) : Cmd (List Nat) := do
  let s ← current
  raiseIf (s.reader.rpos.toNat + (n + 1) / 2 > fin) .shortRead s.reader.rpos.toNat
  skip ((n + 1) / 2)
  pure ((List.range n).map (nibbleWeight s.inByte s.reader.rpos.toNat))

/-- The two alternating states (rule R206). A pass appends two weights or ends, and raises at 254,
so 128 passes are enough. -/
def weightLoop (tab : Nat → FseEntry) (byte : Nat → Byte) (base : Nat) :
    Nat → (s1 s2 : Nat) → Int → List Nat → Except Raise (List Nat)
  | 0, _, _, _, w => .error ⟨.invalidHuffmanWeights, w.length⟩
  | fuel + 1, s1, s2, pos, w =>
    if w.length ≥ 254 then .error ⟨.invalidHuffmanWeights, w.length⟩
    else
      let e1 := tab s1
      let s1' := e1.base.toNat + backBits byte base pos e1.nb.toNat
      let pos1 := pos - e1.nb.toNat
      let e2 := tab s2
      let w2 := w ++ [e1.sym.toNat, e2.sym.toNat]
      if pos1 < 0 then .ok w2
      else
        let s2' := e2.base.toNat + backBits byte base pos1 e2.nb.toNat
        let pos2 := pos1 - e2.nb.toNat
        if pos2 < 0 then .ok (w2 ++ [(tab s1').sym.toNat])
        else weightLoop tab byte base fuel s1' s2' pos2 w2

/-- The weights of an FSE-coded description whose bitstream is the `n` bytes at `base` (rule
R206). -/
def codedWeights (tab : Nat → FseEntry) (byte : Nat → Byte) (al base n : Nat) :
    Except Raise (List Nat) := do
  let p0 ← backStart byte base n
  let s1 := backBits byte base p0 al
  let p1 := (p0 : Int) - al
  let s2 := backBits byte base p1 al
  let p2 := p1 - al
  if p2 < 0 then .error ⟨.bitstreamOverrun, p2⟩
  else weightLoop tab byte base 128 s1 s2 p2 []

/-- The FSE-coded form: `hb` bytes of header and bitstream, through slot `AUX` (rule R206). -/
def fseWeights (fin hb : Nat) : Cmd (List Nat) := do
  raiseIf (hb = 0) .invalidHuffmanWeights 0
  let s ← current
  let sub := s.reader.rpos.toNat + hb
  raiseIf (sub > fin) .shortRead s.reader.rpos.toNat
  let h ← readHeader .aux sub
  fseFromDist .aux h.al h.probs
  let s ← current
  let w ← lift (codedWeights (s.fseEntry .aux) s.inByte h.al s.reader.rpos.toNat
    (sub - s.reader.rpos.toNat))
  update fun s => s.setRpos sub
  pure w

/-- `HufTree(end)` (rule R206). -/
def hufTree (fin : Nat) : Cmd Unit := do
  let s ← current
  raiseIf (s.reader.rpos.toNat + 1 > fin) .shortRead s.reader.rpos.toNat
  skip 1
  let hb := (s.inByte s.reader.rpos.toNat).toNat
  let w ← if hb ≥ 128 then directWeights fin (hb - 127) else fseWeights fin hb
  hufFromWeights w

/-! ### The streams (rules R208, R210) -/

/-- Decode up to `count` symbols downward from `pos`: the symbols stored, the last one that of the
read that went below the beginning if one did, and the bit position reached (rule R208). -/
def hufSymbols (tab : Nat → HufEntry) (maxBits : Nat) (byte : Nat → Byte) (base : Nat) :
    Nat → Int → List Byte × Int
  | 0, pos => ([], pos)
  | count + 1, pos =>
    let e := tab (backBits byte base pos maxBits)
    let pos' := pos - e.nb.toNat
    if pos' < 0 then ([e.sym], pos')
    else
      let r := hufSymbols tab maxBits byte base count pos'
      (e.sym :: r.1, r.2)

/-- What `HufStream` decodes in state `s` from bit position `pos`. -/
def State.hufDecode (s : State) (base count : Nat) (pos : Int) : List Byte × Int :=
  hufSymbols s.hufEntry s.huf.info.maxBits.toNat s.inByte base count pos

/-- `HufStream(base, n, count, dst)` (rule R208). -/
def hufStream (base n count dst : Nat) : Cmd Unit := do
  let s ← current
  let pos ← lift (backStart s.inByte base n)
  let r := s.hufDecode base count pos
  update fun s => s.setLits { s.lits with mem := s.lits.mem.writeList dst r.1 }
  raiseIf (r.2 < 0) .bitstreamOverrun r.2
  raiseIf (r.2 ≠ 0) .bitstreamResidue r.2

/-- A little-endian 16-bit size of the jump table (rule R210). -/
def jumpSize (byte : Nat → Byte) (a : Nat) : Nat := (byte a).toNat + 256 * (byte (a + 1)).toNat

/-- The four-stream form between the Reader cursor and `fin` (rule R210). -/
def fourStreams (fin regen : Nat) : Cmd Unit := do
  let s ← current
  let r := s.reader.rpos.toNat
  raiseIf (r + 6 > fin) .shortRead r
  let z1 := jumpSize s.inByte r
  let z2 := jumpSize s.inByte (r + 2)
  let z3 := jumpSize s.inByte (r + 4)
  let p := r + 6
  raiseIf (p + z1 + z2 + z3 > fin) .shortRead p
  let z4 := fin - p - (z1 + z2 + z3)
  let seg := (regen + 3) / 4
  raiseIf (3 * seg > regen) .literalsOverflow (3 * seg : Nat)
  hufStream p z1 seg 0
  hufStream (p + z1) z2 seg seg
  hufStream (p + z1 + z2) z3 seg (2 * seg)
  hufStream (p + z1 + z2 + z3) z4 (regen - 3 * seg) (3 * seg)

/-- The one-stream form (rule R210). -/
def oneStream (fin regen : Nat) : Cmd Unit := do
  let s ← current
  hufStream s.reader.rpos.toNat (fin - s.reader.rpos.toNat) regen 0

/-- The table a Huffman literals command decodes with: a fresh one, or the retained one
(rules R210, R214). -/
def hufSource (fresh : Bool) (fin : Nat) : Cmd Unit :=
  if fresh then hufTree fin
  else do
    let s ← current
    raiseIf (s.huf.info.valid = false) .missingTable 4

/-- The streams of a Huffman literals command. -/
def hufStreams (streams : Streams) (fin regen : Nat) : Cmd Unit :=
  match streams with
  | .one => oneStream fin regen
  | .four => fourStreams fin regen

/-- The literals buffer holds `n` bytes, none consumed (rule R200). -/
def Literals.filled (l : Literals) (n : Nat) : Literals :=
  { l with pos := 0, len := BitVec.ofNat 32 n }

/-- `LitHuf(streams, regen, comp, fresh)` (rule R210). -/
def litHufBody (streams : Streams) (regen comp : Word) (fresh : Bool) : Cmd Unit := do
  quiet
  let s ← current
  raiseIf (regen.toNat > s.params.litCap) .literalsOverflow regen.toNat
  need comp.toNat
  let fin := s.reader.rpos.toNat + comp.toNat
  hufSource fresh fin
  hufStreams streams fin regen.toNat
  update fun s => (s.setLits (s.lits.filled regen.toNat)).setRpos fin

/-! ### LIT_RAW and LIT_RLE -/

/-- LIT_RAW (rule R201). -/
def litRawBody (n : Word) : Cmd Unit := do
  quiet
  let s ← current
  raiseIf (n.toNat > s.params.litCap) .literalsOverflow n.toNat
  need n.toNat
  update fun s => s.setLits
    { s.lits with mem := s.lits.mem.writeList 0
                    (memRead s.inByte s.reader.rpos.toNat n.toNat) }
  skip n.toNat
  update fun s => s.setLits (s.lits.filled n.toNat)

/-- LIT_RLE (rule R202). -/
def litRleBody (n : Word) : Cmd Unit := do
  quiet
  let s ← current
  raiseIf (n.toNat > s.params.litCap) .literalsOverflow n.toNat
  let b ← readU8
  update fun s => s.setLits
    { s.lits with mem := s.lits.mem.writeList 0 (List.replicate n.toNat b) }
  update fun s => s.setLits (s.lits.filled n.toNat)

/-- Presenting LIT_RAW. -/
def execLitRaw (n : Word) (s : State) : Host.Outcome State Fault Refusal :=
  present (.litRaw n) (litRawBody n) s

/-- Presenting LIT_RLE. -/
def execLitRle (n : Word) (s : State) : Host.Outcome State Fault Refusal :=
  present (.litRle n) (litRleBody n) s

/-- Presenting LIT_HUF (rule R212). -/
def execLitHuf (streams : Streams) (regen comp : Word) (s : State) :
    Host.Outcome State Fault Refusal :=
  present (.litHuf streams regen comp) (litHufBody streams regen comp true) s

/-- Presenting LIT_HUFR (rule R214). -/
def execLitHufr (streams : Streams) (regen comp : Word) (s : State) :
    Host.Outcome State Fault Refusal :=
  present (.litHufr streams regen comp) (litHufBody streams regen comp false) s

end Sys2Proof.Machine
end

