-- ==== Sys2Proof/Machine/Window.lean ====
section
/-! DEFINITION. The window commands W_RAW, W_RLE, W_LIT, W_LITREST, W_COPY (`45_window.md`), and the
source's three-case copy algorithm. -/

namespace Sys2Proof.Machine

/-- The byte-by-byte forward copy of `n` bytes from `src` to `dst`; a read sees the writes made
before it (rule R292). `free` gives the locations nothing has written. -/
def copyForward (free : Nat → Byte) : Nat → Memory Byte → Nat → Nat → Memory Byte
  | 0, m, _, _ => m
  | n + 1, m, src, dst => copyForward free n (m.write dst (m.byte free src)) (src + 1) (dst + 1)

/-- A direct copy of a range: all of it is read before any of it is written (rule R293). -/
def copyRange (free : Nat → Byte) (m : Memory Byte) (src dst n : Nat) : Memory Byte :=
  m.writeList dst (memRead (m.byte free) src n)

/-- The doubling loop of the third case (rule R293); one pass copies at least one byte, so `length`
passes are enough. -/
def copyDoubling (free : Nat → Byte) (idx length : Nat) : Nat → Nat → Memory Byte → Memory Byte
  | 0, _, m => m
  | fuel + 1, done, m =>
    if done < length then
      let n := min done (length - done)
      copyDoubling free idx length fuel (done + n) (copyRange free m idx (idx + done) n)
    else m

/-- The source's three-case copy (rule R293, conflict C2): not used by the machine, whose W_COPY is
the byte loop of rule R292. -/
def copyThreeCases (free : Nat → Byte) (m : Memory Byte) (idx offset length : Nat) :
    Memory Byte :=
  if length ≤ offset then copyRange free m (idx - offset) idx length
  else if offset = 1 then m.writeList idx (List.replicate length (m.byte free (idx - offset)))
  else
    copyDoubling free idx length length offset (copyRange free m (idx - offset) idx offset)

/-- The window after W_COPY's loop (rule R292). -/
def Window.copyWithin (free : Nat → Byte) (w : Window) (offset length : Nat) : Window :=
  { w.advance length with
    mem := copyForward free length w.mem (w.index.toNat - offset) w.index.toNat }

/-- The history an offset may reach: `min(WIN_INDEX, WIN_SIZE)` (rule R292). -/
def Window.avail (w : Window) : Nat := min w.index.toNat w.size.toNat

/-- W_RAW (rule R284). -/
def wRawBody (n : Word) : Cmd Unit := do
  quiet
  need n.toNat
  winRoom n.toNat
  let s ← current
  winAppend (memRead s.inByte s.reader.rpos.toNat n.toNat)
  skip n.toNat

/-- W_RLE (rule R286). -/
def wRleBody (n : Word) : Cmd Unit := do
  quiet
  need 1
  winRoom n.toNat
  let b ← readU8
  winAppend (List.replicate n.toNat b)

/-- The body of W_LIT, also the literal half of executing a sequence (rules R288, R250). -/
def wLitBody (n : Nat) : Cmd Unit := do
  litAvailable n
  winRoom n
  let v ← litTake n
  winAppend v

/-- W_LITREST (rule R290). -/
def wLitrestBody : Cmd Unit := do
  let s ← current
  winRoom s.lits.rest
  let v ← litTake s.lits.rest
  winAppend v

/-- The body of W_COPY, also the match half of executing a sequence (rules R292, R250). -/
def wCopyBody (offset length : Nat) : Cmd Unit := do
  let s ← current
  raiseIf (offset = 0 ∨ offset > s.window.avail) .copyOutOfBounds offset
  winRoom length
  update fun s =>
    s.setWindow
      (s.window.copyWithin (Config.unwrittenByte s.host.epoch .win) offset length)

/-- Presenting W_RAW. -/
def execWRaw (n : Word) (s : State) : Host.Outcome State Fault Refusal :=
  present (.wRaw n) (wRawBody n) s

/-- Presenting W_RLE. -/
def execWRle (n : Word) (s : State) : Host.Outcome State Fault Refusal :=
  present (.wRle n) (wRleBody n) s

/-- Presenting W_LIT. -/
def execWLit (n : Word) (s : State) : Host.Outcome State Fault Refusal :=
  present (.wLit n) (wLitBody n.toNat) s

/-- Presenting W_LITREST. -/
def execWLitrest (s : State) : Host.Outcome State Fault Refusal :=
  present .wLitrest wLitrestBody s

/-- Presenting W_COPY. -/
def execWCopy (offset length : Word) (s : State) : Host.Outcome State Fault Refusal :=
  present (.wCopy offset length) (wCopyBody offset.toNat length.toNat) s

end Sys2Proof.Machine
end

