-- ==== Sys2Proof/Machine/Sequences.lean ====
section
/-! DEFINITION. Sequences decode and execution (`44_sequences.md`): the repeat-offset history, and
the commands SEQ_OPEN, SEQ_NEXT, SEQ_EXEC, SEQ_RUN. -/

namespace Sys2Proof.Machine

/-! ### Repeat offsets (rule R247) -/

/-- A repeat-offset slot resolved: the offset, and the history after it. `k` is 0, 1 or 2 for slots
1, 2, 3; any other `k` is the fourth case (rule R247). -/
def resolveRepeat (k : Nat) (h : Reps) : Except Raise (Word × Reps) :=
  match k with
  | 0 => .ok (h.r1, h)
  | 1 => .ok (h.r2, { r1 := h.r2, r2 := h.r1, r3 := h.r3 })
  | 2 => .ok (h.r3, { r1 := h.r3, r2 := h.r1, r3 := h.r2 })
  | _ =>
    if h.r1 - 1 = 0 then .error ⟨.copyOutOfBounds, 0⟩
    else .ok (h.r1 - 1, { r1 := h.r1 - 1, r2 := h.r1, r3 := h.r2 })

/-- `ResolveOffset(V, ll)`: the offset and the history after it, or `CopyOutOfBounds(0)` with the
history as it was (rule R247, conflicts C1, C5). -/
def resolveOffset (v ll : Nat) (h : Reps) : Except Raise (Word × Reps) :=
  if v > 3 then
    .ok (BitVec.ofNat 32 (v - 3), { r1 := BitVec.ofNat 32 (v - 3), r2 := h.r1, r3 := h.r2 })
  else resolveRepeat (v - 1 + (if ll = 0 then 1 else 0)) h

/-! ### SEQ_OPEN (rule R244) -/

/-- Initialise the state of one slot of a sequences section, then `Over()` (rule R244). -/
def initStateOver (sl : Slot) : Cmd Unit := do
  initState sl
  overrun

/-- SEQ_OPEN (rule R244). -/
def seqOpenBody (n count : Word) : Cmd Unit := do
  quiet
  raiseIf (n.toNat > Config.bsMaxBytes) .illegalOperand n.toNat
  raiseIf (count = 0) .illegalOperand 0
  tableValid .ll
  tableValid .of
  tableValid .ml
  openSection n
  update fun s => s.setStatus { s.status with bsOpen := true, seqActive := true, seqValid := false }
  update fun s => s.setSeq { s.seq with left := count }
  initStateOver .ll
  initStateOver .of
  initStateOver .ml

/-! ### SEQ_NEXT (rule R246) -/

/-- The value of a code: its base plus its extra bits from the bitstream, then `Over()` (rule
R246). -/
def readCode (code : Nat × Nat) : Cmd Nat := do
  let v ← backReadOver code.2
  pure (code.1 + v)

/-- The state advance of one slot, then `Over()` (rule R246). -/
def advanceStateOver (sl : Slot) : Cmd Unit := do
  advanceState sl
  overrun

/-- The three state advances, in the order `LL`, `ML`, `OF` (rule R246). -/
def advanceStates : Cmd Unit := do
  advanceStateOver .ll
  advanceStateOver .ml
  advanceStateOver .of

/-- Resolve the offset and write the result registers (rules R246, R247). -/
def storeSequence (v ml ll : Nat) : Cmd Unit := do
  let s ← current
  let r ← lift (resolveOffset v ll s.reps)
  update fun s => s.setReps r.2
  update fun s => s.setSeq
    { s.seq with ll := BitVec.ofNat 32 ll, ml := BitVec.ofNat 32 ml, ofv := BitVec.ofNat 32 v,
                 off := r.1 }
  update fun s => s.setStatus { s.status with seqValid := true }

/-- The end of the section after its last sequence (rule R246). -/
def closeSequences : Cmd Unit := do
  let s ← current
  raiseIf (s.bsPos ≠ 0) .bitstreamResidue s.bsPos
  update fun s =>
    (s.setStatus { s.status with bsOpen := false, seqActive := false }).closeSection

/-- No sequence can be decoded now: no section is open, or one waits (rule R246). -/
def Status.cannotDecode (t : Status) : Bool := !t.seqActive || t.seqValid

/-- The body of SEQ_NEXT (rule R246). -/
def seqNextBody : Cmd Unit := do
  stateCheck Status.cannotDecode
  let s ← current
  let n := (s.currentEntry .of).sym.toNat
  let mlc := (s.currentEntry .ml).sym.toNat
  let llc := (s.currentEntry .ll).sym.toNat
  let v ← readCode (2 ^ n, n)
  let ml ← readCode (s.params.mlCode mlc)
  let ll ← readCode (s.params.llCode llc)
  update fun s => s.setSeq { s.seq with left := BitVec.ofNat 32 (s.seq.left.toNat - 1) }
  let s ← current
  if s.seq.left.toNat > 0 then advanceStates else pure ()
  storeSequence v ml ll
  if s.seq.left.toNat = 0 then closeSequences else pure ()

/-! ### SEQ_EXEC and SEQ_RUN (rules R250, R252) -/

/-- No sequence waits (rule R250). -/
def Status.nothingWaits (t : Status) : Bool := !t.seqValid

/-- The body of SEQ_EXEC (rule R250). -/
def seqExecBody : Cmd Unit := do
  stateCheck Status.nothingWaits
  update fun s => s.setStatus { s.status with seqValid := false }
  let s ← current
  wLitBody s.seq.ll.toNat
  wCopyBody s.seq.off.toNat s.seq.ml.toNat

/-- The loop of SEQ_RUN, within `fuel` passes (rule R252). -/
def seqLoop : Nat → Cmd Unit
  | 0 => pure ()
  | fuel + 1 => do
    let s ← current
    if s.status.seqValid then seqExecBody else pure ()
    let s ← current
    if s.status.seqActive then do
      seqNextBody
      seqLoop fuel
    else pure ()

/-- Nothing to run: no section open and no sequence waiting (rule R252). -/
def Status.nothingToRun (t : Status) : Bool := !t.seqActive && !t.seqValid

/-- SEQ_RUN (rule R252). The loop runs at most `SEQ_LEFT + 1` times. -/
def seqRunBody : Cmd Unit := do
  stateCheck Status.nothingToRun
  let s ← current
  seqLoop (s.seq.left.toNat + 1)
  wLitrestBody

/-- Presenting SEQ_OPEN. -/
def execSeqOpen (n count : Word) (s : State) : Host.Outcome State Fault Refusal :=
  present (.seqOpen n count) (seqOpenBody n count) s

/-- Presenting SEQ_NEXT. -/
def execSeqNext (s : State) : Host.Outcome State Fault Refusal :=
  present .seqNext seqNextBody s

/-- Presenting SEQ_EXEC. -/
def execSeqExec (s : State) : Host.Outcome State Fault Refusal :=
  present .seqExec seqExecBody s

/-- Presenting SEQ_RUN. -/
def execSeqRun (s : State) : Host.Outcome State Fault Refusal :=
  present .seqRun seqRunBody s

end Sys2Proof.Machine
end

