-- ==== Sys2Proof/Machine/System.lean ====
section
/-! DEFINITION. The system commands NOP, FRAME_INIT, RD_OPEN, FRAME_END (`40_system.md`). -/

namespace Sys2Proof.Machine

/-- NOP (rule R123). -/
def nopBody : Cmd Unit := pure ()

/-- The state FRAME_INIT leaves (rule R124). -/
def State.frameInit (s : State) (capacity : Word) : State :=
  { s with
    window := { s.window with index := 0, size := 0, capr := capacity }
    lits := { s.lits with pos := 0, len := 0 }
    slots := s.slots.clearInfo
    huf := { s.huf with info := HufInfo.none }
    reps := Reps.init s.params
    bits := { base := 0, len := 0, pos := 0 }
    seq := { s.seq with left := 0 }
    status := { s.status with bsOpen := false, seqActive := false, seqValid := false } }

/-- FRAME_INIT (rule R124). -/
def frameInitBody (capacity : Word) : Cmd Unit := do
  let s ← current
  raiseIf (capacity = 0 ∨ capacity.toNat > s.params.winCap) .illegalOperand capacity.toNat
  update fun s => s.frameInit capacity

/-- RD_OPEN (rule R126). -/
def rdOpenBody (rpos inLen : Word) : Cmd Unit := do
  quiet
  let s ← current
  raiseIf (inLen.toNat > s.params.inCap) .illegalOperand inLen.toNat
  raiseIf (rpos.toNat > inLen.toNat) .illegalOperand rpos.toNat
  update fun s => s.setReader { s.reader with rpos := rpos, len := inLen }

/-- FRAME_END (rule R128). -/
def frameEndBody (hasSize : Bool) (lo hi : Word) : Cmd Unit := do
  quiet
  let s ← current
  raiseIf (hasSize = true ∧ contentSize lo hi ≠ s.window.index.toNat)
    .contentSizeMismatch s.window.index.toNat

/-- Presenting NOP. -/
def execNop (s : State) : Host.Outcome State Fault Refusal := present .nop nopBody s

/-- Presenting FRAME_INIT. -/
def execFrameInit (capacity : Word) (s : State) : Host.Outcome State Fault Refusal :=
  present (.frameInit capacity) (frameInitBody capacity) s

/-- Presenting RD_OPEN. -/
def execRdOpen (rpos inLen : Word) (s : State) : Host.Outcome State Fault Refusal :=
  present (.rdOpen rpos inLen) (rdOpenBody rpos inLen) s

/-- Presenting FRAME_END. -/
def execFrameEnd (hasSize : Bool) (lo hi : Word) (s : State) :
    Host.Outcome State Fault Refusal :=
  present (.frameEnd hasSize lo hi) (frameEndBody hasSize lo hi) s

end Sys2Proof.Machine
end

