-- ==== Sys2Proof/Machine/Dispatch.lean ====
section
/-! DEFINITION. One arm per command, each a call of its meaning. -/

namespace Sys2Proof.Machine

def exec (i : Instr) (s : State) : Host.Outcome State Fault Refusal :=
  match i with
  -- 40_system.md
  | .nop => Sys2Proof.Machine.execNop s
  | .frameInit capacity => Sys2Proof.Machine.execFrameInit capacity s
  | .rdOpen rpos inLen => Sys2Proof.Machine.execRdOpen rpos inLen s
  | .frameEnd hasSize lo hi => Sys2Proof.Machine.execFrameEnd hasSize lo hi s
  -- 45_window.md
  | .wRaw n => Sys2Proof.Machine.execWRaw n s
  | .wRle n => Sys2Proof.Machine.execWRle n s
  | .wLit n => Sys2Proof.Machine.execWLit n s
  | .wLitrest => Sys2Proof.Machine.execWLitrest s
  | .wCopy offset length => Sys2Proof.Machine.execWCopy offset length s
  -- 43_literals_huffman.md
  | .litRaw n => Sys2Proof.Machine.execLitRaw n s
  | .litRle n => Sys2Proof.Machine.execLitRle n s
  | .litHuf streams regen comp => Sys2Proof.Machine.execLitHuf streams regen comp s
  | .litHufr streams regen comp => Sys2Proof.Machine.execLitHufr streams regen comp s
  -- 41_fse_table.md
  | .fseBuild slot => Sys2Proof.Machine.execFseBuild slot s
  | .fseLoad slot al n => Sys2Proof.Machine.execFseLoad slot al n s
  | .fsePredef slot => Sys2Proof.Machine.execFsePredef slot s
  | .fseRle slot symbol => Sys2Proof.Machine.execFseRle slot symbol s
  -- 42_bitstream_fse.md
  | .bsOpen n => Sys2Proof.Machine.execBsOpen n s
  | .bsRead k => Sys2Proof.Machine.execBsRead k s
  | .bsClose => Sys2Proof.Machine.execBsClose s
  | .fseInit slot => Sys2Proof.Machine.execFseInit slot s
  | .fseEmit slot => Sys2Proof.Machine.execFseEmit slot s
  | .fseNext slot => Sys2Proof.Machine.execFseNext slot s
  -- 44_sequences.md
  | .seqOpen n count => Sys2Proof.Machine.execSeqOpen n count s
  | .seqNext => Sys2Proof.Machine.execSeqNext s
  | .seqExec => Sys2Proof.Machine.execSeqExec s
  | .seqRun => Sys2Proof.Machine.execSeqRun s

end Sys2Proof.Machine
end

