-- ==== Sys2Proof/Machine/Registers.lean ====
section
/-! DEFINITION. The register map of the register read port (rule R24). -/

namespace Sys2Proof.Machine

/-- Numbered register `n`; numbers 33 and above do not exist (rule R24). -/
def State.register (s : State) (n : Nat) : Option Word :=
  match n with
  | 0 => some s.status.word
  | 1 => some s.err
  | 2 => some s.errInfo
  | 3 => some s.cp
  | 4 => some s.reader.rpos
  | 5 => some s.reader.len
  | 6 => some s.window.index
  | 7 => some s.window.size
  | 8 => some s.window.capr
  | 9 => some s.lits.pos
  | 10 => some s.lits.len
  | 11 => some s.bits.base
  | 12 => some s.bits.len
  | 13 => some s.bits.pos
  | 14 => some s.val
  | 15 => some s.sym
  | 16 => some s.slots.ll.state
  | 17 => some s.slots.of.state
  | 18 => some s.slots.ml.state
  | 19 => some s.slots.aux.state
  | 20 => some s.slots.ll.info.word
  | 21 => some s.slots.of.info.word
  | 22 => some s.slots.ml.info.word
  | 23 => some s.slots.aux.info.word
  | 24 => some s.huf.info.word
  | 25 => some s.reps.r1
  | 26 => some s.reps.r2
  | 27 => some s.reps.r3
  | 28 => some s.seq.left
  | 29 => some s.seq.ll
  | 30 => some s.seq.ml
  | 31 => some s.seq.ofv
  | 32 => some s.seq.off
  | _ => none

end Sys2Proof.Machine
end

