-- ==== Sys2Proof/Machine/Port.lean ====
section
/-! DEFINITION. The four ports of rule R22: what each move of the host does. -/

namespace Sys2Proof.Machine

/-- The command port: a presented word runs its command, or raises `IllegalCommand` (rules R95,
R121). -/
def presentWord (c : CmdWord) (s : State) : Host.Outcome State Fault Refusal :=
  match decode c with
  | .ok i => exec i s
  | .error _ => presentIllegal c s

/-- A host access to an address the space does not have is no move of the interface (rules R22,
R61; log 6). -/
def withinSpace (space : Space) (addr : Nat) (next s : State) :
    Host.Outcome State Fault Refusal :=
  if addr < s.params.capacity space then .next next else .fault (.hostAddressOutside space addr)

/-- The memory port: the host writes a byte of `IN` (rule R22). -/
def hostWriteIn (addr : Nat) (b : Byte) (s : State) : Host.Outcome State Fault Refusal :=
  withinSpace .input addr (s.setReader { s.reader with mem := s.reader.mem.write addr b }) s

/-- The byte of a space that a host read returns (rule R22). -/
def State.byteOf (s : State) : Space → Nat → Byte
  | .input, a => s.inByte a
  | .lit, a => s.litByte a
  | .win, a => s.winByte a

/-- The memory port: the host reads a byte (rules R22, R65). -/
def hostReadMem (space : Space) (addr : Nat) (s : State) : Host.Outcome State Fault Refusal :=
  withinSpace space addr
    (s.setHost { s.host with readData := (s.byteOf space addr).setWidth 32 }) s

/-- The register read port: a register's value, or a fresh free value for a number that does not
exist (rule R24, U1; log 6). -/
def hostReadReg (n : Nat) (s : State) : Host.Outcome State Fault Refusal :=
  match s.register n with
  | some v => .next (s.setHost { s.host with readData := v })
  | none =>
    .next (s.setHost
      { s.host with readData := Config.absentRegister n s.host.draws, draws := s.host.draws + 1 })

/-- The reset input, at any time (rules R350, R351): every register takes its reset value, every
memory content is unspecified anew, the parameters and the host's side of the ports stay (logs 3, 4,
9). -/
def applyReset (s : State) : State :=
  { State.reset with
    reps := Reps.init s.params
    params := s.params
    host := { s.host with epoch := s.host.epoch + 1 } }

/-- A use of a port other than reset while `BUSY = 1` is refused (U3, log 5). -/
def whenIdle (s : State) (r : Host.Outcome State Fault Refusal) :
    Host.Outcome State Fault Refusal :=
  if s.status.busy then .refused .whileBusy else r

/-- One move of the host (rule R22). -/
def runMove (m : HostMove) (s : State) : Host.Outcome State Fault Refusal :=
  match m with
  | .command c => presentWord c s
  | .writeIn addr b => whenIdle s (hostWriteIn addr b s)
  | .readReg n => whenIdle s (hostReadReg n s)
  | .readMem space addr => whenIdle s (hostReadMem space addr s)
  | .reset => .next (applyReset s)

end Sys2Proof.Machine
end

