-- ==== Sys2Proof/Machine/Step.lean ====
section
/-! DEFINITION. One step: the host's next move is taken and carried out (log 1). -/

namespace Sys2Proof.Machine

/-- The state with the host's coming moves replaced. -/
def State.withMoves (s : State) (ms : List HostMove) : State :=
  s.setHost { s.host with moves := ms }

/-- One step of the unit and its host. With no move coming the unit is idle and keeps all state
(rule R331). -/
def step (s : State) : Host.Outcome State Fault Refusal :=
  match s.host.moves with
  | [] => .next s
  | m :: rest => runMove m (s.withMoves rest)

/-- The state whose next step presents the command word `w` (numbered as in
`spec/opcode_table.json`, log 11): the host presents it next (log 1). -/
def State.withFetchWord (s : State) (nbits w : Nat) : State :=
  s.withMoves (.command (BitVec.ofNat 96 (w % 2 ^ nbits)) :: s.host.moves)

end Sys2Proof.Machine
end

