-- ==== Sys2Proof/Safety.lean ====
section
/-! DEFINITION. What counts as a safe run, and the words the statements are written in: the states a
command may be presented in, completion and fault as updates of the state before, what a range of
stores leaves, each command's own rule, the invariants of rules R42, R31, R37 and U2, the tables of
rules R24 and R310, Huffman and sequences decoding as relations, and the by-hand form of SEQ_RUN. -/

namespace Sys2Proof

/-- The command has one encoding: the word of these fields and no other word decodes to it (rule
R94). -/
def Instr.EncodedAs (i : Instr) (f : Fields) : Prop :=
  ∀ w : CmdWord, decode w = .ok i ↔ w = f.toWord

namespace Machine

/-! ### Before and after a command -/

namespace State

/-- The unit is idle and the fault latch is clear (rules R22, R315). -/
abbrev Ready (s : State) : Prop := s.status.busy = false ∧ s.status.fault = false

/-- `Quiet()` would pass (rule R122). -/
abbrev Quiet (s : State) : Prop := s.status.bsOpen = false ∧ s.status.seqActive = false

/-- A bitstream is open and no sequences decode owns it (rule R170). -/
abbrev Primitive (s : State) : Prop := s.status.bsOpen = true ∧ s.status.seqActive = false

/-- Only `CP` has advanced (rule R121). -/
def done (s : State) : State := { s with cp := s.cp + 1 }

/-- A fault recorded in a state and nothing else changed (rule R314; a context that 32 bits do not hold
modulo 2^32, log 18). -/
def latched (s : State) (f : UnitFault) (info : Int) : State :=
  { s with err := f.code, errInfo := BitVec.ofInt 32 info,
           status := { s.status with fault := true } }

/-- `IllegalState(STATUS)` with nothing else changed (rule R310). -/
def latchedState (s : State) : State := s.latched .illegalState s.status.context

end State

/-- `m'` holds `f 0 .. f (n-1)` at `a .. a+n-1` and what `m` holds everywhere else (rule R62). -/
def Memory.Stores {α : Type} (m m' : Memory α) (a n : Nat) (f : Nat → α) : Prop :=
  ∀ b, m'.lookup b = if a ≤ b ∧ b < a + n then some (f (b - a)) else m.lookup b

/-- The window after `n` appended bytes, with the contents `m` (rule R281). -/
def Window.after (w : Window) (n : Nat) (m : Memory Byte) : Window :=
  { index := BitVec.ofNat 32 (w.index.toNat + n)
    size := BitVec.ofNat 32 (max w.size.toNat (w.index.toNat + n))
    capr := w.capr
    mem := m }

/-- A slot that holds a new table of `nsym` symbols with contents `m` (rule R141). -/
def FseSlot.after (x : FseSlot) (al nsym : Nat) (m : Memory FseEntry) : FseSlot :=
  { state := x.state
    info := { valid := true, sinit := false, al := BitVec.ofNat 4 al,
              nsym := BitVec.ofNat 9 nsym }
    tab := m }

/-- The pseudocode of each command's own rule. -/
def bodyOf : Instr → Cmd Unit
  | .nop => nopBody
  | .frameInit capacity => frameInitBody capacity
  | .rdOpen rpos inLen => rdOpenBody rpos inLen
  | .frameEnd hasSize lo hi => frameEndBody hasSize lo hi
  | .wRaw n => wRawBody n
  | .wRle n => wRleBody n
  | .wLit n => wLitBody n.toNat
  | .wLitrest => wLitrestBody
  | .wCopy offset length => wCopyBody offset.toNat length.toNat
  | .litRaw n => litRawBody n
  | .litRle n => litRleBody n
  | .litHuf streams regen comp => litHufBody streams regen comp true
  | .litHufr streams regen comp => litHufBody streams regen comp false
  | .fseBuild slot => fseBuildBody slot
  | .fseLoad slot al n => fseLoadBody slot al n
  | .fsePredef slot => fsePredefBody slot
  | .fseRle slot symbol => fseRleBody slot symbol
  | .bsOpen n => bsOpenBody n
  | .bsRead k => bsReadBody k
  | .bsClose => bsCloseBody
  | .fseInit slot => fseInitBody slot
  | .fseEmit slot => fseEmitBody slot
  | .fseNext slot => fseNextBody slot
  | .seqOpen n count => seqOpenBody n count
  | .seqNext => seqNextBody
  | .seqExec => seqExecBody
  | .seqRun => seqRunBody

/-- A command's rule with the legality check of the prologue before it (rules R95, R121). -/
def ruleOf (i : Instr) : Cmd Unit := do
  legal i
  bodyOf i

/-- Run a list of moves of one kind in order; a stop of the model ends it. -/
def runAll {α : Type} (f : α → State → Host.Outcome State Fault Refusal) :
    List α → State → Host.Outcome State Fault Refusal
  | [], s => .next s
  | a :: as, s =>
    match f a s with
    | .next t => runAll f as t
    | .fault e => .fault e
    | .refused r => .refused r

/-! ### Invariants -/

end Machine

/-- An entry of a table of `nsym` symbols and accuracy log `al` (rules R38, R143 (4)). -/
abbrev FseEntry.InRange (e : FseEntry) (al nsym : Nat) : Prop :=
  e.sym.toNat < nsym ∧ e.nb.toNat ≤ al ∧ e.base.toNat + 2 ^ e.nb.toNat ≤ 2 ^ al

namespace Machine

/-- The nine items of rule R42. -/
structure Idle (s : State) : Prop where
  /-- item 1 -/
  reader : s.reader.rpos.toNat ≤ s.reader.len.toNat ∧ s.reader.len.toNat ≤ s.params.inCap
  /-- item 2 -/
  window : s.window.index = s.window.size ∧ s.window.size.toNat ≤ s.window.capr.toNat ∧
    s.window.capr.toNat ≤ s.params.winCap
  /-- item 3 -/
  lits : s.lits.pos.toNat ≤ s.lits.len.toNat ∧ s.lits.len.toNat ≤ s.params.litCap
  /-- item 4 -/
  active : s.status.seqActive = true → s.status.bsOpen = true ∧ 1 ≤ s.seq.left.toNat ∧
    ∀ sl, sl ≠ .aux → (s.slot sl).info.valid = true ∧ (s.slot sl).info.sinit = true
  /-- item 5 -/
  section_ : s.status.bsOpen = true →
    s.bits.base.toNat + s.bits.len.toNat ≤ s.reader.len.toNat ∧ 1 ≤ s.bits.len.toNat ∧
      s.bits.len.toNat ≤ Config.bsMaxBytes ∧ s.reader.rpos = s.bits.base
  /-- item 6 -/
  sinit : ∀ sl, (s.slot sl).info.sinit = true →
    s.status.bsOpen = true ∧ (s.slot sl).info.valid = true ∧
      (s.slot sl).state.toNat < 2 ^ (s.slot sl).info.al.toNat
  /-- item 7 -/
  position : s.status.seqActive = true → 0 ≤ s.bsPos
  /-- item 8 -/
  table : ∀ sl, (s.slot sl).info.valid = true → ∀ k, k < 2 ^ (s.slot sl).info.al.toNat →
    (s.fseEntry sl k).InRange (s.slot sl).info.al.toNat (s.slot sl).info.nsym.toNat
  /-- item 9 -/
  reps : s.reps.r1 ≠ 0 ∧ s.reps.r2 ≠ 0 ∧ s.reps.r3 ≠ 0

/-- The ranges of the descriptors, of `BS_POS` and of the decoded sequence (rules R31, R34, R35,
R37, R39, R141). -/
structure Ranges (s : State) : Prop where
  /-- rules R34, R141 -/
  fse : ∀ sl, (s.slot sl).info.valid = true →
    1 ≤ (s.slot sl).info.nsym.toNat ∧ (s.slot sl).info.nsym.toNat ≤ s.params.maxSymbols.get sl ∧
      ((s.slot sl).info.al.toNat = 0 ∨ s.params.minAL ≤ (s.slot sl).info.al.toNat) ∧
      (s.slot sl).info.al.toNat ≤ s.params.maxAL.get sl
  /-- rules R35, R39 -/
  huf : s.huf.info.valid = true →
    1 ≤ s.huf.info.maxBits.toNat ∧ s.huf.info.maxBits.toNat ≤ s.params.hufMaxBits ∧
      2 ≤ s.huf.info.nsym.toNat ∧ s.huf.info.nsym.toNat ≤ 256 ∧
      ∀ k, k < 2 ^ s.huf.info.maxBits.toNat →
        1 ≤ (s.hufEntry k).nb.toNat ∧ (s.hufEntry k).nb.toNat ≤ s.huf.info.maxBits.toNat ∧
          (s.hufEntry k).sym.toNat < s.huf.info.nsym.toNat
  /-- rule R31 -/
  bits : s.status.bsOpen = true → -32 ≤ s.bsPos ∧ s.bsPos < 8 * s.bits.len.toNat
  /-- rule R37 -/
  seq : s.status.seqValid = true →
    s.seq.ll.toNat ≤ 131071 ∧ 3 ≤ s.seq.ml.toNat ∧ s.seq.ml.toNat ≤ 131074 ∧
      1 ≤ s.seq.ofv.toNat ∧ 1 ≤ s.seq.off.toNat

/-- The invariant of the idle unit: not busy, parameters that fit the unit's registers (rule R6, log
7), and rule R42 with the ranges while the latch is clear. -/
structure Inv (s : State) : Prop where
  idle : s.status.busy = false
  params : s.params.wf = true
  rules : s.status.fault = false → Idle s ∧ Ranges s

/-- Every location that a guard of rule R44 admits has been written since reset
(`93_implementation_defined.md` U2), except bytes of `IN`, which are the host's. -/
structure Written (s : State) : Prop where
  fse : ∀ sl, (s.slot sl).info.valid = true → ∀ k, k < 2 ^ (s.slot sl).info.al.toNat →
    ((s.slot sl).tab.lookup k).isSome = true
  huf : s.huf.info.valid = true → ∀ k, k < 2 ^ s.huf.info.maxBits.toNat →
    (s.huf.tab.lookup k).isSome = true
  lits : ∀ k, k < s.lits.len.toNat → (s.lits.mem.lookup k).isSome = true
  win : ∀ k, k < s.window.size.toNat → (s.window.mem.lookup k).isSome = true

/-- Every memory of the state is in its canonical form. -/
structure MemoryForm (s : State) : Prop where
  input : s.reader.mem.wf
  lits : s.lits.mem.wf
  win : s.window.mem.wf
  fse : ∀ sl, (s.slot sl).tab.wf
  huf : s.huf.tab.wf

/-- `ERR` and `ERRINFO` are 0 while no fault is recorded, and `ERR` is a code of rule R310 while one
is (rule R27). -/
def ErrRecord (s : State) : Prop :=
  (s.status.fault = false → s.err = 0 ∧ s.errInfo = 0) ∧
  (s.status.fault = true → ∃ f : UnitFault, s.err = f.code)

/-! ### Illegal command words (rules R94, R95) -/

/-- The conditions of rule R95 on the fields of a command word, with the dashes of the table of rule
R94 written out column by column. -/
def Illegal (f : Fields) : Prop :=
  f.opcode ∉ ([0x00, 0x01, 0x02, 0x03, 0x10, 0x11, 0x12, 0x13, 0x14, 0x20, 0x21, 0x22, 0x23, 0x30,
    0x31, 0x32, 0x33, 0x38, 0x39, 0x3A, 0x3B, 0x3C, 0x3D, 0x40, 0x41, 0x42, 0x43] :
      List (BitVec 8)) ∨
  (f.opcode ∉ ([0x03, 0x22, 0x23, 0x30, 0x31, 0x32, 0x33, 0x3B, 0x3C, 0x3D] : List (BitVec 8)) ∧
    f.sel ≠ 0) ∨
  (f.opcode ∉ ([0x31, 0x33, 0x39] : List (BitVec 8)) ∧ f.imm ≠ 0) ∨
  (f.opcode ∈ ([0x00, 0x13, 0x30, 0x32, 0x33, 0x39, 0x3A, 0x3B, 0x3C, 0x3D, 0x41, 0x42, 0x43] :
    List (BitVec 8)) ∧ f.a ≠ 0) ∨
  (f.opcode ∉ ([0x02, 0x03, 0x14, 0x22, 0x23, 0x40] : List (BitVec 8)) ∧ f.b ≠ 0) ∨
  (f.opcode ∈ ([0x30, 0x31, 0x33, 0x3B, 0x3C, 0x3D] : List (BitVec 8)) ∧ f.sel.toNat > 3) ∨
  (f.opcode = 0x32 ∧ f.sel.toNat > 2) ∨
  (f.opcode ∈ ([0x22, 0x23] : List (BitVec 8)) ∧ f.sel ≠ 1 ∧ f.sel ≠ 4) ∨
  (f.opcode = 0x03 ∧ f.sel.toNat > 1) ∨
  (f.opcode = 0x03 ∧ f.sel = 0 ∧ (f.a ≠ 0 ∨ f.b ≠ 0))

/-- A command word of opcode `op` whose other fields are not as required raises `IllegalCommand` with
`W0` and changes nothing else (rules R95, R310). -/
def IllegalUnless (op : BitVec 8) (ok : Fields → Prop) : Prop :=
  ∀ (c : CmdWord) (s : State), s.Ready → (Fields.ofWord c).opcode = op → ¬ ok (Fields.ofWord c) →
    presentWord c s = .next (s.latched .illegalCommand (c.extractLsb' 64 32).toNat)

/-! ### The tables of rules R24, R60 and R310 -/

end Machine

namespace Instr

/-- The commands that build a table in slot `sl` (rules R24, R38). -/
def buildsSlot (sl : Slot) : Instr → Bool
  | .fseBuild x | .fseLoad x _ _ | .fsePredef x | .fseRle x _ => x == sl
  | .litHuf _ _ _ => sl == .aux
  | _ => false

/-- The commands that fill the literals buffer (rules R24, R60). -/
def fillsLits : Instr → Bool
  | .litRaw _ | .litRle _ | .litHuf _ _ _ | .litHufr _ _ _ => true
  | _ => false

/-- The commands that write the window (rules R24, R60). -/
def writesWin : Instr → Bool
  | .wRaw _ | .wRle _ | .wLit _ | .wLitrest | .wCopy _ _ | .seqExec | .seqRun => true
  | _ => false

/-- Column "written by" of rule R24, for registers 4 to 32; registers 0 to 3 are written as rules
R25 to R27 say. -/
def writes (i : Instr) (n : Nat) : Bool :=
  match n with
  | 4 =>
    match i with
    | .rdOpen _ _ | .wRaw _ | .wRle _ | .litRaw _ | .litRle _ | .litHuf _ _ _ | .litHufr _ _ _
    | .fseBuild _ | .fseLoad _ _ _ | .bsClose | .seqNext | .seqRun => true
    | _ => false
  | 5 => match i with | .rdOpen _ _ => true | _ => false
  | 6 | 7 => i.writesWin || (match i with | .frameInit _ => true | _ => false)
  | 8 => match i with | .frameInit _ => true | _ => false
  | 9 =>
    i.fillsLits ||
    (match i with
     | .frameInit _ | .wLit _ | .wLitrest | .seqExec | .seqRun => true
     | _ => false)
  | 10 => i.fillsLits || (match i with | .frameInit _ => true | _ => false)
  | 11 | 12 => match i with | .bsOpen _ | .seqOpen _ _ | .frameInit _ => true | _ => false
  | 13 =>
    match i with
    | .bsOpen _ | .bsRead _ | .fseInit _ | .fseNext _ | .seqOpen _ _ | .seqNext | .seqRun
    | .frameInit _ => true
    | _ => false
  | 14 => match i with | .bsRead _ => true | _ => false
  | 15 => match i with | .fseEmit _ => true | _ => false
  | 16 | 17 | 18 =>
    match i with
    | .fseInit _ | .fseNext _ | .seqOpen _ _ | .seqNext | .seqRun => true
    | _ => false
  | 19 => match i with | .fseInit _ | .fseNext _ => true | _ => false
  | 20 | 21 | 22 =>
    match i with
    | .fseBuild _ | .fseLoad _ _ _ | .fsePredef _ | .fseRle _ _ | .fseInit _ | .bsClose
    | .seqOpen _ _ | .seqNext | .seqRun | .frameInit _ => true
    | _ => false
  | 23 =>
    match i with
    | .fseBuild _ | .fseLoad _ _ _ | .fsePredef _ | .fseRle _ _ | .fseInit _ | .bsClose
    | .seqOpen _ _ | .seqNext | .seqRun | .frameInit _ | .litHuf _ _ _ => true
    | _ => false
  | 24 => match i with | .litHuf _ _ _ | .frameInit _ => true | _ => false
  | 25 | 26 | 27 => match i with | .seqNext | .seqRun | .frameInit _ => true | _ => false
  | 28 => match i with | .seqOpen _ _ | .seqNext | .seqRun | .frameInit _ => true | _ => false
  | 29 | 30 | 31 | 32 => match i with | .seqNext | .seqRun => true | _ => false
  | _ => false

/-- The commands that call `Quiet()` (rule R122). -/
def callsQuiet : Instr → Bool
  | .rdOpen _ _ | .frameEnd _ _ _ | .wRaw _ | .wRle _ | .litRaw _ | .litRle _ | .litHuf _ _ _
  | .litHufr _ _ _ | .fseBuild _ | .fseLoad _ _ _ | .fsePredef _ | .fseRle _ _ | .bsOpen _
  | .seqOpen _ _ => true
  | _ => false

/-- Column "raised by" of rule R310; `IllegalCommand` is raised by a term that no legal word encodes
(log 13). -/
def mayRaise (i : Instr) (f : Machine.UnitFault) : Bool :=
  match f with
  | .shortRead =>
    match i with
    | .wRaw _ | .wRle _ | .litRaw _ | .litRle _ | .litHuf _ _ _ | .litHufr _ _ _ | .fseBuild _
    | .fseLoad _ _ _ | .bsOpen _ | .seqOpen _ _ => true
    | _ => false
  | .tooManySymbols =>
    match i with
    | .fseBuild _ | .fseLoad _ _ _ | .fseRle _ _ | .litHuf _ _ _ => true
    | _ => false
  | .sumMismatch => match i with | .fseLoad _ _ _ => true | _ => false
  | .literalsUnderflow => match i with | .wLit _ | .seqExec | .seqRun => true | _ => false
  | .copyOutOfBounds =>
    match i with | .wCopy _ _ | .seqExec | .seqRun | .seqNext => true | _ => false
  | .contentSizeMismatch => match i with | .frameEnd _ _ _ => true | _ => false
  | .missingTable =>
    match i with
    | .litHufr _ _ _ | .seqOpen _ _ | .fseInit _ | .fseEmit _ | .fseNext _ => true
    | _ => false
  | .windowOverflow => i.writesWin
  | .literalsOverflow => i.fillsLits
  | .missingEndMark =>
    match i with | .bsOpen _ | .seqOpen _ _ | .litHuf _ _ _ | .litHufr _ _ _ => true | _ => false
  | .bitstreamOverrun =>
    match i with
    | .bsRead _ | .bsClose | .fseInit _ | .fseNext _ | .seqOpen _ _ | .seqNext | .seqRun
    | .litHuf _ _ _ | .litHufr _ _ _ => true
    | _ => false
  | .bitstreamResidue =>
    match i with
    | .bsClose | .seqNext | .seqRun | .litHuf _ _ _ | .litHufr _ _ _ => true
    | _ => false
  | .invalidHuffmanWeights => match i with | .litHuf _ _ _ => true | _ => false
  | .accuracyLogTooLarge =>
    match i with | .fseBuild _ | .fseLoad _ _ _ | .litHuf _ _ _ => true | _ => false
  | .illegalCommand => !i.wf
  | .illegalOperand =>
    match i with
    | .frameInit _ | .rdOpen _ _ | .bsOpen _ | .bsRead _ | .seqOpen _ _ | .fseLoad _ _ _ => true
    | _ => false
  | .illegalState =>
    i.callsQuiet ||
    (match i with
     | .bsRead _ | .bsClose | .fseInit _ | .fseEmit _ | .fseNext _ | .seqNext | .seqExec
     | .seqRun => true
     | _ => false)

end Instr

namespace Machine

/-! ### Huffman decoding as relations (rules R206 to R210) -/

/-- The walk of a stream down from `pos 0` that stores `out`: each step looks the next `maxBits` bits
up, emits the entry's symbol and steps back by its code length; only the last step may go below the
beginning (rule R208). -/
def HufWalk (tab : Nat → HufEntry) (maxBits : Nat) (byte : Nat → Byte) (base : Nat)
    (pos : Nat → Int) (out : List Byte) : Prop :=
  ∀ i (h : i < out.length),
    out[i] = (tab (backBits byte base (pos i) maxBits)).sym ∧
    pos (i + 1) = pos i - (tab (backBits byte base (pos i) maxBits)).nb.toNat ∧
    (i + 1 < out.length → 0 ≤ pos (i + 1))

/-- The bytes `out` are what the stream of `n` bytes at `base` decodes to: the walk that starts at
its end mark ends at its beginning (rule R208). -/
def HufDecodes (tab : Nat → HufEntry) (maxBits : Nat) (byte : Nat → Byte) (base n : Nat)
    (out : List Byte) : Prop :=
  ∃ (start : Nat) (pos : Nat → Int), backStart byte base n = .ok start ∧ pos 0 = start ∧
    HufWalk tab maxBits byte base pos out ∧ pos out.length = 0

/-- The stream of `n` bytes at `base` is no stream of `count` symbols: it has no end mark, or the
walk goes below the beginning, or bits are left after `count` symbols. `out` is stored before `r` is
raised (rule R208). -/
def HufFails (tab : Nat → HufEntry) (maxBits : Nat) (byte : Nat → Byte) (base n count : Nat)
    (out : List Byte) (r : Raise) : Prop :=
  (out = [] ∧ backStart byte base n = .error r) ∨
  ∃ (start : Nat) (pos : Nat → Int), backStart byte base n = .ok start ∧ pos 0 = start ∧
    HufWalk tab maxBits byte base pos out ∧
    (1 ≤ out.length ∧ out.length ≤ count ∧ pos out.length < 0 ∧
        r = ⟨.bitstreamOverrun, pos out.length⟩ ∨
      out.length = count ∧ 0 < pos count ∧ r = ⟨.bitstreamResidue, pos count⟩)

/-- Streams decoded one after the other, each given by its address, length and symbol count: the
first that fails ends it with `out` stored (rule R210). -/
def SegmentsFail (tab : Nat → HufEntry) (maxBits : Nat) (byte : Nat → Byte) :
    List (Nat × Nat × Nat) → List Byte → Raise → Prop
  | [], _, _ => False
  | (base, n, count) :: rest, out, r =>
    HufFails tab maxBits byte base n count out r ∨
    ∃ first later, out = first ++ later ∧ first.length = count ∧
      HufDecodes tab maxBits byte base n first ∧ SegmentsFail tab maxBits byte rest later r

/-- The literals `out` are what the streams between `a` and `fin` decode to: one stream, or four
behind a jump table of three sizes (rule R210). -/
def StreamsDecode (tab : Nat → HufEntry) (maxBits : Nat) (byte : Nat → Byte) (a fin regen : Nat)
    (out : List Byte) : Streams → Prop
  | .one => out.length = regen ∧ HufDecodes tab maxBits byte a (fin - a) out
  | .four =>
    ∃ z1 z2 z3 z4 : Nat, ∃ o1 o2 o3 o4 : List Byte,
      a + 6 + z1 + z2 + z3 + z4 = fin ∧
      z1 = (byte a).toNat + 256 * (byte (a + 1)).toNat ∧
      z2 = (byte (a + 2)).toNat + 256 * (byte (a + 3)).toNat ∧
      z3 = (byte (a + 4)).toNat + 256 * (byte (a + 5)).toNat ∧
      out = o1 ++ o2 ++ o3 ++ o4 ∧ out.length = regen ∧
      o1.length = (regen + 3) / 4 ∧ o2.length = (regen + 3) / 4 ∧ o3.length = (regen + 3) / 4 ∧
      HufDecodes tab maxBits byte (a + 6) z1 o1 ∧
      HufDecodes tab maxBits byte (a + 6 + z1) z2 o2 ∧
      HufDecodes tab maxBits byte (a + 6 + z1 + z2) z3 o3 ∧
      HufDecodes tab maxBits byte (a + 6 + z1 + z2 + z3) z4 o4

/-- The streams between `a` and `fin` do not give `regen` literals: `out` is stored before `r` is
raised. With four streams the jump table, the sizes and the split are checked first (rule R210). -/
def StreamsFail (tab : Nat → HufEntry) (maxBits : Nat) (byte : Nat → Byte) (a fin regen : Nat)
    (out : List Byte) (r : Raise) : Streams → Prop
  | .one => HufFails tab maxBits byte a (fin - a) regen out r
  | .four =>
    (fin < a + 6 ∧ out = [] ∧ r = ⟨.shortRead, a⟩) ∨
    ∃ p z1 z2 z3 seg : Nat, p = a + 6 ∧ p ≤ fin ∧
      z1 = (byte a).toNat + 256 * (byte (a + 1)).toNat ∧
      z2 = (byte (a + 2)).toNat + 256 * (byte (a + 3)).toNat ∧
      z3 = (byte (a + 4)).toNat + 256 * (byte (a + 5)).toNat ∧ seg = (regen + 3) / 4 ∧
      (fin < p + z1 + z2 + z3 ∧ out = [] ∧ r = ⟨.shortRead, p⟩ ∨
        p + z1 + z2 + z3 ≤ fin ∧ regen < 3 * seg ∧ out = [] ∧
          r = ⟨.literalsOverflow, (3 * seg : Nat)⟩ ∨
        p + z1 + z2 + z3 ≤ fin ∧ 3 * seg ≤ regen ∧
          SegmentsFail tab maxBits byte
            [(p, z1, seg), (p + z1, z2, seg), (p + z1 + z2, z3, seg),
              (p + z1 + z2 + z3, fin - (p + z1 + z2 + z3), regen - 3 * seg)] out r)

/-- Presented in `s`, the command ends as the streams between the cursor of `u` and `fin` decode,
where `u` is `s` after what the command does before the streams: they decode, and the literals
buffer holds the literals and the cursor stands at `fin`; or they fail, and the literals decoded so
far are stored (rules R208, R210). -/
def StreamsEnd (i : Instr) (s u : State) (fin : Nat) (regen : Word) (streams : Streams) : Prop :=
  (∀ out,
    StreamsDecode u.hufEntry u.huf.info.maxBits.toNat u.inByte u.reader.rpos.toNat fin regen.toNat
      out streams →
    ∃ m, s.lits.mem.Stores m 0 regen.toNat (fun k => out[k]?.getD 0) ∧
      exec i s = .next { u.done with
        lits := { pos := 0, len := regen, mem := m }
        reader := { u.reader with rpos := BitVec.ofNat 32 fin } }) ∧
  (∀ out r,
    StreamsFail u.hufEntry u.huf.info.maxBits.toNat u.inByte u.reader.rpos.toNat fin regen.toNat
      out r streams →
    ∃ m, s.lits.mem.Stores m 0 out.length (fun k => out[k]?.getD 0) ∧
      exec i s = .next { u.latched r.fault r.info with lits := { s.lits with mem := m } })

/-- A direct tree description at `a` before `fin`: the weights and the next address (rule R206). -/
def DirectTree (byte : Nat → Byte) (a fin : Nat) (w : List Nat) (next : Nat) : Prop :=
  128 ≤ (byte a).toNat ∧ w.length = (byte a).toNat - 127 ∧
    next = a + 1 + (w.length + 1) / 2 ∧ next ≤ fin ∧
    ∀ i (h : i < w.length),
      w[i] = if i % 2 = 0 then (byte (a + 1 + i / 2)).toNat / 16
             else (byte (a + 1 + i / 2)).toNat % 16

/-- The table of the distribution `h` over what a slot held before. -/
def Header.entry (h : Header) (before : Nat → FseEntry) (k : Nat) : FseEntry :=
  (spread h.al h.probs)[k]?.getD (before k)

/-- The two alternating states of rule R206 as one sequence, read from the bitstream of `n` bytes at
`base`: state `i` is replaced by state `i + 2`, and `pos i` is the position before that read. -/
def WeightWalk (tab : Nat → FseEntry) (byte : Nat → Byte) (al base n : Nat) (st : Nat → Nat)
    (pos : Nat → Int) : Prop :=
  ∃ start : Nat, backStart byte base n = .ok start ∧
    st 0 = backBits byte base start al ∧ st 1 = backBits byte base ((start : Int) - al) al ∧
    pos 0 = (start : Int) - al - al ∧
    ∀ i,
      st (i + 2) = (tab (st i)).base.toNat + backBits byte base (pos i) (tab (st i)).nb.toNat ∧
      pos (i + 1) = pos i - (tab (st i)).nb.toNat

/-- The weights `w` are what the bitstream decodes to: the list ends with the symbol pending when a
read first goes below the beginning, and has at most 255 weights (rule R206). -/
def WeightsDecode (tab : Nat → FseEntry) (byte : Nat → Byte) (al base n : Nat) (w : List Nat) :
    Prop :=
  ∃ st pos, WeightWalk tab byte al base n st pos ∧ 2 ≤ w.length ∧ w.length ≤ 255 ∧
    (∀ i (h : i < w.length), w[i] = (tab (st i)).sym.toNat) ∧
    (∀ i, i + 1 < w.length → 0 ≤ pos i) ∧ pos (w.length - 1) < 0

/-- The bitstream is no list of weights: it has no end mark, the first two states go below its
beginning, or more than 255 weights follow (rule R206). -/
def WeightsFail (tab : Nat → FseEntry) (byte : Nat → Byte) (al base n : Nat) (r : Raise) : Prop :=
  backStart byte base n = .error r ∨
  ∃ st pos, WeightWalk tab byte al base n st pos ∧
    (pos 0 < 0 ∧ r = ⟨.bitstreamOverrun, pos 0⟩ ∨
      (∀ i, i ≤ 254 → 0 ≤ pos i) ∧ r = ⟨.invalidHuffmanWeights, 254⟩)

/-- The header of an FSE-coded tree description at `a` before `fin` that ends at `next` (rule
R206). -/
def CodedHeader (p : Params) (byte : Nat → Byte) (a fin : Nat) (h : Header) (next : Nat) : Prop :=
  1 ≤ (byte a).toNat ∧ (byte a).toNat ≤ 127 ∧ next = a + 1 + (byte a).toNat ∧ next ≤ fin ∧
    fseReadHeader p byte .aux (a + 1) next = .ok h

/-- An FSE-coded tree description at `a` before `fin`: the distribution, the weights and the next
address (rule R206). `before` is what slot `AUX` held. -/
def CodedTree (p : Params) (byte : Nat → Byte) (before : Nat → FseEntry) (a fin : Nat)
    (h : Header) (w : List Nat) (next : Nat) : Prop :=
  CodedHeader p byte a fin h next ∧
    WeightsDecode (h.entry before) byte h.al h.next (next - h.next) w

/-- No tree description at `a` before `fin`, and no table built on the way: the cursor left and the
fault, in the order of rules R204 and R206. -/
def TreeFails (p : Params) (byte : Nat → Byte) (a fin rpos : Nat) (r : Raise) : Prop :=
  (fin < a + 1 ∧ rpos = a ∧ r = ⟨.shortRead, a⟩) ∨
  a + 1 ≤ fin ∧
    ((128 ≤ (byte a).toNat ∧ fin < a + 1 + ((byte a).toNat - 127 + 1) / 2 ∧ rpos = a + 1 ∧
        r = ⟨.shortRead, (a + 1 : Nat)⟩) ∨
      (∃ w, DirectTree byte a fin w rpos ∧ weightTable p.hufMaxBits w = .error r) ∨
      ((byte a).toNat = 0 ∧ rpos = a + 1 ∧ r = ⟨.invalidHuffmanWeights, 0⟩) ∨
      (1 ≤ (byte a).toNat ∧ (byte a).toNat ≤ 127 ∧ rpos = a + 1 ∧
        (fin < a + 1 + (byte a).toNat ∧ r = ⟨.shortRead, (a + 1 : Nat)⟩ ∨
          a + 1 + (byte a).toNat ≤ fin ∧
            fseReadHeader p byte .aux (a + 1) (a + 1 + (byte a).toNat) = .error r)))

/-- A coded tree description at `a` whose header `h` has built slot `AUX` and whose weights do not
decode or make no table: the cursor left and the fault (rules R204, R206). -/
def CodedTreeFails (p : Params) (byte : Nat → Byte) (before : Nat → FseEntry) (a fin : Nat)
    (h : Header) (rpos : Nat) (r : Raise) : Prop :=
  (∃ next, CodedHeader p byte a fin h next ∧ rpos = h.next ∧
    WeightsFail (h.entry before) byte h.al h.next (next - h.next) r) ∨
  ∃ w, CodedTree p byte before a fin h w rpos ∧ weightTable p.hufMaxBits w = .error r

/-! ### Sequences as relations (rules R242, R246) -/

/-- The three values of the sequence that the current states stand for, offset value first, then
match length, then literal length; `rest` bits are left (rules R242, R246). -/
def SeqRead (s : State) (v ml ll rest : Nat) : Prop :=
  ∃ n m l : Nat, ∃ mb lb : Nat,
    n = (s.currentEntry .of).sym.toNat ∧
    (mb, m) = s.params.mlCode (s.currentEntry .ml).sym.toNat ∧
    (lb, l) = s.params.llCode (s.currentEntry .ll).sym.toNat ∧
    s.bsPos = rest + l + m + n ∧
    v = 2 ^ n + backBits s.inByte s.bits.base.toNat s.bsPos n ∧
    ml = mb + backBits s.inByte s.bits.base.toNat (s.bsPos - n) m ∧
    ll = lb + backBits s.inByte s.bits.base.toNat (s.bsPos - n - m) l

/-- The next states, read from position `p` in the order `LL`, `ML`, `OF`; `rest` bits are left
(rule R246). -/
def SeqAdvance (s : State) (p sLL sML sOF rest : Nat) : Prop :=
  ∃ x y z : FseEntry,
    x = s.currentEntry .ll ∧ y = s.currentEntry .ml ∧ z = s.currentEntry .of ∧
    p = rest + z.nb.toNat + y.nb.toNat + x.nb.toNat ∧
    sLL = x.base.toNat + backBits s.inByte s.bits.base.toNat p x.nb.toNat ∧
    sML = y.base.toNat + backBits s.inByte s.bits.base.toNat (p - x.nb.toNat : Nat) y.nb.toNat ∧
    sOF = z.base.toNat +
      backBits s.inByte s.bits.base.toNat (p - x.nb.toNat - y.nb.toNat : Nat) z.nb.toNat

/-! ### SEQ_RUN by hand (rule R252) -/

/-- The commands a host issues in place of SEQ_RUN: the waiting sequence is executed, the sequences
left are decoded and executed one by one, and the literals left are appended (rule R252). -/
def byHand (s : State) : List Instr :=
  (if s.status.seqValid then [.seqExec] else []) ++
  (if s.status.seqActive then
    (List.replicate s.seq.left.toNat [Instr.seqNext, Instr.seqExec]).flatten
   else []) ++
  [.wLitrest]

end Machine

end Sys2Proof
end

