-- ==== Sys2Proof/Certificates/Slice0/Obligations.lean ====
section
/-! DEFINITION. The statements for the provers: the encoding, the machine as a whole, the shared
operations, and one statement per command that says how the command is encoded (a word of its opcode
whose other fields are not as its rule requires raises `IllegalCommand`), when it completes, the whole
state it leaves, and its faults in the order its rule tests them. A state after a command
is written as an update of the state before it, so that everything not named is unchanged; a memory
is described by what it holds at every address (`Memory.Stores`). -/

open Sys2Proof Sys2Proof.Machine

/-! ### Encoding -/

/-- Decoding the word of a well-formed command gives the command back, every operand at every value
(rules R91, R94). -/
def Obligations.DecodeOfEncode : Prop :=
  ∀ i : Instr, i.wf = true → decode (encode i) = .ok i

/-- Every 96-bit word is either exactly one command, the one whose opcode-table row accepts it, or
illegal; the opcode alone selects the row (rule R96, which the spec derives from R94 and R95). -/
def Obligations.DecoderIsTheOpcodeTable : Prop :=
  (∀ c : CmdWord,
    (∃ i r, decode c = .ok i ∧ i.wf = true ∧ encode i = c ∧ r ∈ opcodeRows ∧
      r.accepts c = true ∧ r.mnemonic = i.mnemonic ∧
      ∀ r' ∈ opcodeRows, r'.accepts c = true → r' = r) ∨
    (∃ e, decode c = .error e) ∧ ∀ r ∈ opcodeRows, r.accepts c = false) ∧
  (∀ r ∈ opcodeRows, ∀ r' ∈ opcodeRows,
    r.pattern.extractLsb' 88 8 = r'.pattern.extractLsb' 88 8 → r = r')

/-- A word is illegal for exactly the reasons of rule R95; an illegal word raises `IllegalCommand`
with `W0` before every other check and changes nothing else; every other word is a command. -/
def Obligations.IllegalWordRaises : Prop :=
  ∀ (c : CmdWord) (s : State), s.Ready →
    (Illegal (Fields.ofWord c) →
      presentWord c s = .next
        { s with err := 15, errInfo := c.extractLsb' 64 32,
                 status := { s.status with fault := true } }) ∧
    (¬ Illegal (Fields.ofWord c) →
      ∃ i, decode c = .ok i ∧ i.wf = true ∧ presentWord c s = exec i s)

/-- A term of `Instr` that no legal word encodes raises `IllegalCommand` when it is executed (the
model's choice, log 13: no command word decodes to such a term). -/
def Obligations.IllFormedTermRaises : Prop :=
  ∀ (i : Instr) (s : State), s.Ready → i.wf = false →
    exec i s = .next (s.latched .illegalCommand (encode i).w0.toNat) ∧ ∀ c, decode c ≠ .ok i

/-- The three transported words carry the command, and its 12 bytes, most significant first, decode
to it and leave what follows (rule R92; the byte reader is log 16). -/
def Obligations.TransportedCommandDecodes : Prop :=
  (∀ f : Fields, CmdWord.w0 f.toWord = f.opcode ++ f.sel ++ f.imm ∧ CmdWord.w1 f.toWord = f.a ∧
    CmdWord.w2 f.toWord = f.b ∧ CmdWord.ofWords (f.opcode ++ f.sel ++ f.imm) f.a f.b = f.toWord) ∧
  (∀ (i : Instr) (rest : List Byte), i.wf = true →
    decodeBytes ((List.range 12).map (fun k => (encode i).extractLsb' (88 - 8 * k) 8) ++ rest) =
      .ok (i, rest))

/-- Words written out in the spec decode to the commands they stand for, one per family and the
illegal ones of `95_test_vectors.md` (rules R91, R94, R95). -/
def Obligations.WrittenWordsDecode : Prop :=
  decode 0x010000000000040000000000 = .ok (.frameInit 1024) ∧
  decode 0x02000000000000090000000E = .ok (.rdOpen 9 14) ∧
  decode 0x14000000000000030000000A = .ok (.wCopy 3 10) ∧
  decode 0x220100000000000600000005 = .ok (.litHuf .one 6 5) ∧
  decode 0x310000050000000200000000 = .ok (.fseLoad .ll 5 2) ∧
  decode 0x390000030000000000000000 = .ok (.bsRead 3) ∧
  decode 0x400000000000000300000001 = .ok (.seqOpen 3 1) ∧
  decode 0x320300000000000000000000 = .error .badSelector ∧
  decode 0x030000000000000500000000 = .error .sizeWithoutFlag

/-! ### The machine as a whole -/

/-- A step whose next host move presents a command runs the decoded command on the state with that
move taken; `withFetchWord` presents the word next (rule R22 item 1; logs 1, 11). -/
def Obligations.StepRunsDecodedCommand : Prop :=
  (∀ (s : State) (c : CmdWord) (rest : List HostMove) (i : Instr),
    s.host.moves = .command c :: rest → decode c = .ok i →
      step s = exec i { s with host := { s.host with moves := rest } }) ∧
  (∀ (s : State) (w : Nat) (i : Instr), w < 2 ^ 96 → decode (BitVec.ofNat 96 w) = .ok i →
    step (s.withFetchWord 96 w) = exec i s)

/-- The register read port and the memory ports: a write of `IN` stores one byte, a read changes
nothing but what the host holds, an absent register reads as some value; an access outside a space
and any move but reset while busy stop the model (rules R22, R24, R65; the stops are the model's
choice, logs 5 and 6; no move is log 1). -/
def Obligations.HostPortsReadAndWrite : Prop :=
  ∀ (s : State) (rest : List HostMove),
    (s.host.moves = [] → step s = .next s) ∧
    (s.status.busy = false →
      (∀ a b, s.host.moves = .writeIn a b :: rest →
        (a < s.params.inCap → ∃ m, s.reader.mem.Stores m a 1 (fun _ => b) ∧
          step s = .next { s with reader := { s.reader with mem := m },
                                  host := { s.host with moves := rest } }) ∧
        (s.params.inCap ≤ a → step s = .fault (.hostAddressOutside .input a))) ∧
      (∀ sp a, s.host.moves = .readMem sp a :: rest →
        (a < s.params.capacity sp →
          step s = .next { s with
            host := { s.host with moves := rest, readData := (s.byteOf sp a).setWidth 32 } }) ∧
        (s.params.capacity sp ≤ a → step s = .fault (.hostAddressOutside sp a))) ∧
      (∀ n, s.host.moves = .readReg n :: rest →
        (n ≤ 32 → ∃ v, s.register n = some v ∧
          step s = .next { s with host := { s.host with moves := rest, readData := v } }) ∧
        (33 ≤ n → ∃ v,
          step s = .next { s with
            host := { s.host with moves := rest, readData := v,
                                  draws := s.host.draws + 1 } }))) ∧
    (s.status.busy = true → ∀ m, s.host.moves = m :: rest → m ≠ .reset →
      step s = .refused .whileBusy)

/-- Reset, at any time, busy or latched or not: every register with a reset value takes it, the
latch is cleared, nothing is open, no table is valid, and no memory content is promised to survive
(rules R350, R351; the parameters and the host's later moves stand, logs 2 and 9). -/
def Obligations.ResetMoveRestarts : Prop :=
  ∀ (s : State) (rest : List HostMove), s.host.moves = .reset :: rest →
    ∃ t, step s = .next t ∧
      (∀ n ∈ [0, 1, 2, 3, 4, 5, 6, 7, 8, 9, 10, 11, 12, 13, 20, 21, 22, 23, 24, 28],
        t.register n = some 0) ∧
      t.register 25 = some s.params.repInit.1 ∧ t.register 26 = some s.params.repInit.2.1 ∧
      t.register 27 = some s.params.repInit.2.2 ∧
      t.status = Status.clear ∧ (∀ sl, (t.slot sl).info.valid = false) ∧
      t.huf.info.valid = false ∧
      (∀ a, t.reader.mem.lookup a = none ∧ t.lits.mem.lookup a = none ∧
        t.window.mem.lookup a = none ∧ t.huf.tab.lookup a = none) ∧
      (∀ sl a, (t.slot sl).tab.lookup a = none) ∧
      t.params = s.params ∧ t.host.moves = rest ∧ t.host.epoch ≠ s.host.epoch

/-- Right after reset every register to which the spec gives a reset value has it (rule R44). -/
def Obligations.ResetGivesTheSpecsValues : Prop :=
  (∀ n ∈ [0, 1, 2, 3, 4, 5, 6, 7, 8, 9, 10, 11, 12, 13, 20, 21, 22, 23, 24, 28],
    State.reset.register n = some 0) ∧
  State.reset.register 25 = some 1 ∧ State.reset.register 26 = some 4 ∧
  State.reset.register 27 = some 8

/-- The state after reset meets the invariants that every step keeps (R42's "reset establishes
them"). The capacities of the reset state are the model's choice of log 2, and that a memory is
stored in canonical form (`MemoryForm`) is the model's choice of log 4: no rule of the spec says
how a memory is stored. -/
def Obligations.ResetMeetsTheInvariants : Prop :=
  Inv State.reset ∧ Written State.reset ∧ MemoryForm State.reset ∧ ErrRecord State.reset

/-- The fault latch: while `FAULT` is set every presented command is ignored whole, and no move of
the host but reset changes `ERR`, `ERRINFO`, `CP` or the latch (rule R315). -/
def Obligations.FaultLatchIgnoresCommands : Prop :=
  ∀ s : State, s.status.fault = true → s.status.busy = false →
    (∀ i, exec i s = .next s) ∧ (∀ c, presentWord c s = .next s) ∧
    (∀ t, step s = .next t → s.host.moves.head? ≠ some .reset →
      t.err = s.err ∧ t.errInfo = s.errInfo ∧ t.cp = s.cp ∧ t.status = s.status)

/-- `CP` counts completed commands: a completed command advances it by one modulo 2^32, a faulting
or ignored one leaves it; after any stream of words presented from `CP = 0` it is the length of the
stream, or the position in the stream of the word that faulted (rule R26). -/
def Obligations.CpCountsCompletedCommands : Prop :=
  (∀ (i : Instr) (s t : State), s.status.busy = false → exec i s = .next t →
    (t.status.fault = false → t.cp = s.cp + 1) ∧ (t.status.fault = true → t.cp = s.cp)) ∧
  (∀ (cs : List CmdWord) (s : State), s.Ready → s.cp = 0 →
    ∃ t, runAll presentWord cs s = .next t ∧
      (t.status.fault = false → t.cp = BitVec.ofNat 32 cs.length) ∧
      (t.status.fault = true → ∃ k u, ∃ h : k < cs.length, t.cp = BitVec.ofNat 32 k ∧
        runAll presentWord (cs.take k) s = .next u ∧ u.status.fault = false ∧
        presentWord cs[k] u = .next t))

/-- Every step keeps the record of the fault: `ERR` and `ERRINFO` are 0 while the latch is clear and
`ERR` is a code of the table while it is set (rules R27, R310). -/
def Obligations.StepKeepsErrRecord : Prop :=
  ∀ s t : State, ErrRecord s → step s = .next t → ErrRecord t

/-- A command that faults is one whose own rule raised: the fault is one that the table of rule R310
lists for the command, `ERR` takes its code, `ERRINFO` the raise's context as two's complement,
`BUSY` is 0, `CP` stands, and everything else is as the rule left it (rules R310, R314; a context
that 32 bits do not hold is kept modulo 2^32, the model's choice of log 18; parameters that fit the
unit, log 7). A command that does not fault writes neither `ERR` nor `ERRINFO`. -/
def Obligations.FaultsAreRaisedByTheirCommands : Prop :=
  (∀ (i : Instr) (s t : State), s.Ready → s.params.wf = true → exec i s = .next t →
    (t.status.fault = true → ∃ (r : Raise) (u : State), ruleOf i (begin s) = .error r u ∧
      i.mayRaise r.fault = true ∧
      t = { u with err := r.fault.code, errInfo := BitVec.ofInt 32 r.info,
                   status := { u.status with fault := true, busy := false } } ∧
      t.cp = s.cp) ∧
    (t.status.fault = false → t.err = s.err ∧ t.errInfo = s.errInfo)) ∧
  [UnitFault.shortRead, .tooManySymbols, .sumMismatch, .literalsUnderflow, .copyOutOfBounds,
    .contentSizeMismatch, .missingTable, .windowOverflow, .literalsOverflow, .missingEndMark,
    .bitstreamOverrun, .bitstreamResidue, .invalidHuffmanWeights, .accuracyLogTooLarge,
    .illegalCommand, .illegalOperand, .illegalState].map UnitFault.code =
    [1, 2, 3, 4, 5, 6, 7, 8, 9, 10, 11, 12, 13, 14, 15, 16, 17]

/-- No command hangs or stops the model: from every state that is not busy, every command and every
word answers a next state that is not busy (R361, which the spec derives from R120; R359). -/
def Obligations.EveryCommandAnswersNext : Prop :=
  ∀ s : State, s.status.busy = false →
    (∀ i, ∃ t, exec i s = .next t ∧ t.status.busy = false) ∧
    (∀ c, ∃ t, presentWord c s = .next t ∧ t.status.busy = false)

/-- A numbered register changes only by the commands that the table of rule R24 lists for it, `ERR`
and `ERRINFO` only by a fault; SEQ_NEXT moves `RPOS` only on the last sequence. -/
def Obligations.RegistersAreWrittenByTheirCommands : Prop :=
  ∀ (i : Instr) (s t : State), s.Ready → exec i s = .next t →
    (∀ n, 4 ≤ n → i.writes n = false → t.register n = s.register n) ∧
    (t.status.fault = false → t.register 1 = s.register 1 ∧ t.register 2 = s.register 2) ∧
    (i = .seqNext → t.register 4 ≠ s.register 4 → s.seq.left.toNat ≤ 1)

/-- Each flag of `STATUS` is set and cleared only by the events of the table of rule R25; SEQ_RUN
leaves `SEQ_VALID` newly set only when it ends in a fault, its body being SEQ_NEXT's (in states that
meet item 4 of rule R42). -/
def Obligations.StatusFlagsAreWrittenByTheirCommands : Prop :=
  ∀ (i : Instr) (s t : State), s.Ready → (s.status.seqActive = true → 1 ≤ s.seq.left.toNat) →
    exec i s = .next t →
    t.status.busy = false ∧
    (s.status.bsOpen = false → t.status.bsOpen = true →
      (∃ n, i = .bsOpen n) ∨ ∃ n k, i = .seqOpen n k) ∧
    (s.status.bsOpen = true → t.status.bsOpen = false →
      i = .bsClose ∨ i = .seqNext ∨ i = .seqRun ∨ ∃ c, i = .frameInit c) ∧
    (s.status.seqActive = false → t.status.seqActive = true → ∃ n k, i = .seqOpen n k) ∧
    (s.status.seqActive = true → t.status.seqActive = false →
      i = .seqNext ∨ i = .seqRun ∨ ∃ c, i = .frameInit c) ∧
    (s.status.seqValid = false → t.status.seqValid = true →
      i = .seqNext ∨ i = .seqRun ∧ t.status.fault = true) ∧
    (s.status.seqValid = true → t.status.seqValid = false →
      i = .seqExec ∨ i = .seqRun ∨ (∃ n k, i = .seqOpen n k) ∨ ∃ c, i = .frameInit c)

/-- No command writes `IN`; the literals buffer, the window and the tables are written only by their
commands (rules R38, R60, R75); no command changes a parameter or the host's side. -/
def Obligations.MemoriesAreWrittenByTheirCommands : Prop :=
  ∀ (i : Instr) (s t : State), s.Ready → exec i s = .next t →
    t.reader.mem = s.reader.mem ∧
    (i.fillsLits = false → t.lits.mem = s.lits.mem) ∧
    (i.writesWin = false → t.window.mem = s.window.mem) ∧
    (∀ sl, i.buildsSlot sl = false → (t.slot sl).tab = (s.slot sl).tab) ∧
    ((∀ n a b, i ≠ .litHuf n a b) → t.huf.tab = s.huf.tab) ∧
    t.params = s.params ∧ t.host = s.host

/-- The history is never rewritten: no command, completed or faulted, changes a byte below the write
cursor, and only FRAME_INIT lowers the cursor; nothing at or above the new cursor is written either
(R294 (3) and (5), which the spec derives from R292 and R293; R280). -/
def Obligations.WindowHistoryIsNeverRewritten : Prop :=
  ∀ (i : Instr) (s t : State), s.Ready → exec i s = .next t →
    (∀ a, a < s.window.index.toNat → t.window.mem.lookup a = s.window.mem.lookup a) ∧
    ((∀ c, i ≠ .frameInit c) → s.window.index.toNat ≤ t.window.index.toNat ∧
      ∀ a, t.window.index.toNat ≤ a → t.window.mem.lookup a = s.window.mem.lookup a)

/-- Every step keeps every memory in its canonical form: addresses strictly rising. The form is the
model's choice of log 4 (rule R38 leaves the storage of the memories unspecified); equal memories are
then equal data. -/
def Obligations.StepKeepsMemoryForm : Prop :=
  ∀ s t : State, MemoryForm s → step s = .next t → MemoryForm t

/-- Every step keeps the invariant: whenever the unit is idle and the latch is clear, the nine items
of rule R42 and the ranges of rules R31, R34, R35, R37, R39 hold (the spec derives R42 from the
commands' rules: "each command's rule preserves them; reset establishes them"). -/
def Obligations.StepKeepsTheInvariant : Prop :=
  ∀ s t : State, Inv s → step s = .next t → Inv t

/-- Every step keeps the guards of rule R44 true: while the latch is clear, every in-use table
entry, every literal below `LIT_LEN` and every window byte below `WIN_SIZE` has been written since
reset, so no command reads a location that nothing has written, but for bytes of `IN`
(`93_implementation_defined.md` U2). -/
def Obligations.StepKeepsGuardedMemoryWritten : Prop :=
  ∀ s t : State, Inv s → (s.status.fault = false → Written s) → step s = .next t →
    t.status.fault = false → Written t

/-! ### The shared operations -/

/-- `Need`, `ReadU8`, `ReadU16LE`, `ReadU32LE`: a short read consumes nothing, other reads are
little-endian and move the cursor past what they read (rules R66, R67, R68). -/
def Obligations.ReaderReadsLittleEndian : Prop :=
  ∀ s : State,
    (∀ n, (s.reader.rpos.toNat + n ≤ s.reader.len.toNat → need n s = .ok () s) ∧
      (s.reader.rpos.toNat + n > s.reader.len.toNat →
        need n s = .error ⟨.shortRead, s.reader.rpos.toNat⟩ s)) ∧
    (∀ k, k = 1 ∨ k = 2 ∨ k = 4 → s.reader.rpos.toNat + k > s.reader.len.toNat →
      (k = 1 → readU8 s = .error ⟨.shortRead, s.reader.rpos.toNat⟩ s) ∧
      (k = 2 → readU16LE s = .error ⟨.shortRead, s.reader.rpos.toNat⟩ s) ∧
      (k = 4 → readU32LE s = .error ⟨.shortRead, s.reader.rpos.toNat⟩ s)) ∧
    (s.reader.rpos.toNat + 1 ≤ s.reader.len.toNat →
      readU8 s = .ok (s.inByte s.reader.rpos.toNat)
        { s with reader := { s.reader with rpos := s.reader.rpos + 1 } }) ∧
    (s.reader.rpos.toNat + 2 ≤ s.reader.len.toNat → ∃ v,
      readU16LE s = .ok v { s with reader := { s.reader with rpos := s.reader.rpos + 2 } } ∧
      v.toNat = (s.inByte s.reader.rpos.toNat).toNat +
        256 * (s.inByte (s.reader.rpos.toNat + 1)).toNat) ∧
    (s.reader.rpos.toNat + 4 ≤ s.reader.len.toNat → ∃ v,
      readU32LE s = .ok v { s with reader := { s.reader with rpos := s.reader.rpos + 4 } } ∧
      v.toNat = (s.inByte s.reader.rpos.toNat).toNat +
        2 ^ 8 * (s.inByte (s.reader.rpos.toNat + 1)).toNat +
        2 ^ 16 * (s.inByte (s.reader.rpos.toNat + 2)).toNat +
        2 ^ 24 * (s.inByte (s.reader.rpos.toNat + 3)).toNat)

/-- The forward bit reader: a peek gathers stream bits from the least significant upward, zeros past
the limit; a take past the limit is a short read at the byte reached; the end is the next whole byte
(rules R69, R70). -/
def Obligations.ForwardReaderTakesBits : Prop :=
  ∀ (byte : Nat → Byte) (fb fe fpos k : Nat),
    fwdPeek byte fb fe fpos k < 2 ^ k ∧
    (∀ j, j < k → (fwdPeek byte fb fe fpos k).testBit j =
      if fb + (fpos + j) / 8 < fe then
        (byte (fb + (fpos + j) / 8)).toNat.testBit ((fpos + j) % 8)
      else false) ∧
    (8 * fb + fpos + k ≤ 8 * fe → fwdTake fb fe fpos k = .ok (fpos + k)) ∧
    (8 * fb + fpos + k > 8 * fe →
      fwdTake fb fe fpos k = .error ⟨.shortRead, ((fb + (fpos + k) / 8 : Nat) : Int)⟩) ∧
    8 * fb + fpos ≤ 8 * fwdEnd fb fpos ∧ 8 * fwdEnd fb fpos < 8 * fb + fpos + 8

/-- The backward bit reader: where it starts, the bits it reads with zeros below the beginning, and
`BackRead` on the open bitstream (rules R71, R72, R73). -/
def Obligations.BackwardReaderReadsBits : Prop :=
  (∀ (byte : Nat → Byte) (base n : Nat),
    (n = 0 → backStart byte base n = .error ⟨.missingEndMark, (base : Int)⟩) ∧
    (1 ≤ n → (byte (base + n - 1)).toNat = 0 →
      backStart byte base n = .error ⟨.missingEndMark, ((base + n - 1 : Nat) : Int)⟩) ∧
    (1 ≤ n → ∀ h, h < 8 → 2 ^ h ≤ (byte (base + n - 1)).toNat →
      (byte (base + n - 1)).toNat < 2 ^ (h + 1) →
      backStart byte base n = .ok (8 * (n - 1) + h))) ∧
  (∀ (byte : Nat → Byte) (base : Nat) (pos : Int) (k : Nat),
    backBits byte base pos k < 2 ^ k ∧
    ∀ j, j < k →
      (pos - k + j < 0 → (backBits byte base pos k).testBit j = false) ∧
      (∀ b : Nat, pos - k + j = b →
        (backBits byte base pos k).testBit j = (byte (base + b / 8)).toNat.testBit (b % 8))) ∧
  (∀ (s : State) (k : Nat), k ≤ 32 →
    (s.bsPos < 0 → backRead k s = .error ⟨.bitstreamOverrun, s.bsPos⟩ s) ∧
    (0 ≤ s.bsPos → ∃ t,
      backRead k s = .ok (backBits s.inByte s.bits.base.toNat s.bsPos k) t ∧
      t = { s with bits := { s.bits with pos := s.bits.pos - BitVec.ofNat 32 k } } ∧
      t.bsPos = s.bsPos - k ∧ -32 ≤ t.bsPos))

/-- With parameters that fit the unit (log 7), a header that is read to its end is a normalized
distribution: within the accuracy-log and
symbol bounds of the slot, every probability at least -1, the sum exactly the table size, so the
builder never raises on it; the cursor moves forward to a whole byte within the limit (R144's
closing claims, which the spec derives). -/
def Obligations.HeaderIsANormalizedDistribution : Prop :=
  ∀ (p : Params) (byte : Nat → Byte) (slot : Slot) (fb fe : Nat) (h : Header), p.wf = true →
    fseReadHeader p byte slot fb fe = .ok h →
      h.al = fwdPeek byte fb fe 0 4 + 5 ∧ h.al ≤ p.maxAL.get slot ∧
      1 ≤ h.probs.length ∧ h.probs.length ≤ p.maxSymbols.get slot ∧
      (∀ q ∈ h.probs, -1 ≤ q) ∧
      (h.probs.map (fun q => if q = -1 then 1 else q)).sum = 2 ^ h.al ∧
      fb < h.next ∧ h.next ≤ fe ∧ checkDist p slot h.al h.probs = .ok ()

/-- The table built from a distribution that passes the checks: one entry per state, exactly as many
states of a symbol as its probability says, every entry in range, and for each symbol the ranges of
its states cover `[0, 1 << AL)` without overlap (R143, which the spec derives from R142; parameters
that fit the unit, log 7). -/
def Obligations.BuiltTableCoversEveryState : Prop :=
  ∀ (p : Params) (slot : Slot) (al : Nat) (probs : List Int), p.wf = true →
    checkDist p slot al probs = .ok () →
    (spread al probs).length = 2 ^ al ∧
    (∀ e ∈ spread al probs, e.InRange al probs.length) ∧
    ∀ s (h : s < probs.length),
      ((spread al probs).countP (fun e => e.sym.toNat == s) : Int) =
        (if probs[s] = -1 then 1 else probs[s]) ∧
      (probs[s] = -1 → ∀ e ∈ spread al probs, e.sym.toNat = s →
        e.nb.toNat = al ∧ e.base.toNat = 0) ∧
      (probs[s] ≠ 0 → ∀ x, x < 2 ^ al → ∃ (k : Nat) (e : FseEntry), (spread al probs)[k]? = some e ∧
        e.sym.toNat = s ∧ e.base.toNat ≤ x ∧ x < e.base.toNat + 2 ^ e.nb.toNat ∧
        ∀ (k' : Nat) (e' : FseEntry), (spread al probs)[k']? = some e' → e'.sym.toNat = s →
          e'.base.toNat ≤ x →
          x < e'.base.toNat + 2 ^ e'.nb.toNat → k' = k)

/-- `HufFromWeights` (rule R204), within a `HUF_MAX_BITS` that an entry can hold (log 7): the checks
in their order, each with its context; a list that passes them fills the table exactly: the weight
of the symbol after the last makes the powers sum to the table size, a symbol of weight `x > 0` has
`2^(x-1)` entries of `maxbits + 1 - x` bits, a symbol of weight 0 has none, longer codes stand first
and codes of one length in ascending order of symbol. -/
def Obligations.HuffmanTableIsFilledExactly : Prop :=
  ∀ (limit : Nat) (w : List Nat), limit ≤ 15 →
    (w.length = 0 ∨ w.length > 255 →
      weightTable limit w = .error ⟨.invalidHuffmanWeights, w.length⟩) ∧
    (1 ≤ w.length → w.length ≤ 255 →
      (∀ before x after, w = before ++ x :: after → (∀ y ∈ before, y ≤ limit) → x > limit →
        weightTable limit w = .error ⟨.invalidHuffmanWeights, x⟩) ∧
      ((∀ x ∈ w, x ≤ limit) → ∀ total : Nat,
        total = (w.map (fun x => if x = 0 then 0 else 2 ^ (x - 1))).sum →
        (total = 0 → weightTable limit w = .error ⟨.invalidHuffmanWeights, 0⟩) ∧
        (∀ maxBits : Nat, 2 ^ maxBits ≤ total → total < 2 ^ (maxBits + 1) →
          (maxBits + 1 > limit →
            weightTable limit w = .error ⟨.invalidHuffmanWeights, (maxBits + 1 : Nat)⟩) ∧
          (∀ left : Nat, left + total = 2 ^ (maxBits + 1) → maxBits + 1 ≤ limit →
            ((∀ k, left ≠ 2 ^ k) →
              weightTable limit w = .error ⟨.invalidHuffmanWeights, left⟩) ∧
            (∀ k, left = 2 ^ k → ∃ t, weightTable limit w = .ok t ∧ t.maxBits = maxBits + 1))))) ∧
    ∀ t, weightTable limit w = .ok t →
      1 ≤ w.length ∧ w.length ≤ 255 ∧ t.nsym = w.length + 1 ∧
      1 ≤ t.maxBits ∧ t.maxBits ≤ limit ∧
      t.entries.length = 2 ^ t.maxBits ∧
      t.entries.Pairwise (fun e e' => e'.nb < e.nb ∨ e'.nb = e.nb ∧ e.sym ≤ e'.sym) ∧
      ∃ last, 1 ≤ last ∧
        (((w ++ [last]).map (fun x => if x = 0 then 0 else 2 ^ (x - 1))).sum = 2 ^ t.maxBits) ∧
        ∀ s (h : s < (w ++ [last]).length),
          t.entries.countP (fun e => e.sym.toNat == s) =
            (if (w ++ [last])[s] = 0 then 0 else 2 ^ ((w ++ [last])[s] - 1)) ∧
          ∀ e ∈ t.entries, e.sym.toNat = s → e.nb.toNat + (w ++ [last])[s] = t.maxBits + 1

/-- The source's three-case copy leaves the memory of the byte-by-byte loop, for every history, every
valid offset and every length (rules R292, R293). -/
def Obligations.ThreeCaseCopyIsTheByteLoop : Prop :=
  ∀ (free : Nat → Byte) (m : Memory Byte) (idx offset length : Nat), m.wf → 1 ≤ offset →
    offset ≤ idx →
    copyThreeCases free m idx offset length = copyForward free length m (idx - offset) idx

/-- `ResolveOffset`: the computed offset and the four repeat cases, with the history after each; the
fourth case faults when the first repeat offset is 1 (rule R247). -/
def Obligations.OffsetResolvesThroughTheHistory : Prop :=
  ∀ (v ll : Nat) (h : Reps), 1 ≤ v → v < 2 ^ 32 →
    (v > 3 → ∃ off : Word, off.toNat = v - 3 ∧ resolveOffset v ll h = .ok (off, ⟨off, h.r1, h.r2⟩)) ∧
    (v ≤ 3 → ∀ k, k = v - 1 + (if ll = 0 then 1 else 0) →
      (k = 0 → resolveOffset v ll h = .ok (h.r1, h)) ∧
      (k = 1 → resolveOffset v ll h = .ok (h.r2, ⟨h.r2, h.r1, h.r3⟩)) ∧
      (k = 2 → resolveOffset v ll h = .ok (h.r3, ⟨h.r3, h.r1, h.r2⟩)) ∧
      (k = 3 → h.r1 = 1 → resolveOffset v ll h = .error ⟨.copyOutOfBounds, 0⟩) ∧
      (k = 3 → h.r1 ≠ 1 →
        resolveOffset v ll h = .ok (h.r1 - 1, ⟨h.r1 - 1, h.r1, h.r2⟩)))

/-! ### The system commands -/

/-- NOP (rule R123): all fields zero; it only advances `CP`, also while a bitstream is open. -/
def Obligations.NopAdvancesCp : Prop :=
  IllegalUnless 0x00 (fun f => f.sel = 0 ∧ f.imm = 0 ∧ f.a = 0 ∧ f.b = 0) ∧
  Instr.EncodedAs .nop ⟨0x00, 0, 0, 0, 0⟩ ∧ ∀ s : State, s.Ready → exec .nop s = .next s.done

/-- FRAME_INIT (rule R124): the frame-scoped registers, nothing else; it does not need `Quiet()`. The
history is `REP_INIT`, by default 1, 4, 8 (rule R6). -/
def Obligations.FrameInitBeginsAFrame : Prop :=
  IllegalUnless 0x01 (fun f => f.sel = 0 ∧ f.imm = 0 ∧ f.b = 0) ∧
  Config.resetParams.repInit = (1, 4, 8) ∧
  ∀ capacity : Word,
    Instr.EncodedAs (.frameInit capacity) ⟨0x01, 0, 0, capacity, 0⟩ ∧
    ∀ s : State, s.Ready →
      (1 ≤ capacity.toNat → capacity.toNat ≤ s.params.winCap →
        exec (.frameInit capacity) s = .next { s.done with
          window := { s.window with index := 0, size := 0, capr := capacity }
          lits := { s.lits with pos := 0, len := 0 }
          slots :=
            { ll := { s.slots.ll with info := ⟨false, false, 0, 0⟩ }
              of := { s.slots.of with info := ⟨false, false, 0, 0⟩ }
              ml := { s.slots.ml with info := ⟨false, false, 0, 0⟩ }
              aux := { s.slots.aux with info := ⟨false, false, 0, 0⟩ } }
          huf := { s.huf with info := ⟨false, 0, 0⟩ }
          reps := ⟨s.params.repInit.1, s.params.repInit.2.1, s.params.repInit.2.2⟩
          bits := ⟨0, 0, 0⟩
          seq := { s.seq with left := 0 }
          status := { s.status with bsOpen := false, seqActive := false, seqValid := false } }) ∧
      (capacity.toNat = 0 ∨ capacity.toNat > s.params.winCap →
        exec (.frameInit capacity) s = .next (s.latched .illegalOperand capacity.toNat))

/-- RD_OPEN (rule R126). -/
def Obligations.RdOpenPlacesTheReader : Prop :=
  IllegalUnless 0x02 (fun f => f.sel = 0 ∧ f.imm = 0) ∧
  ∀ rpos len : Word,
    Instr.EncodedAs (.rdOpen rpos len) ⟨0x02, 0, 0, rpos, len⟩ ∧
    ∀ s : State, s.Ready →
      (s.Quiet → len.toNat ≤ s.params.inCap → rpos.toNat ≤ len.toNat →
        exec (.rdOpen rpos len) s =
          .next { s.done with reader := { s.reader with rpos := rpos, len := len } }) ∧
      (¬ s.Quiet → exec (.rdOpen rpos len) s = .next s.latchedState) ∧
      (s.Quiet → len.toNat > s.params.inCap →
        exec (.rdOpen rpos len) s = .next (s.latched .illegalOperand len.toNat)) ∧
      (s.Quiet → len.toNat ≤ s.params.inCap → rpos.toNat > len.toNat →
        exec (.rdOpen rpos len) s = .next (s.latched .illegalOperand rpos.toNat))

/-- FRAME_END (rule R128): a check that changes nothing but `CP`. -/
def Obligations.FrameEndChecksTheSize : Prop :=
  IllegalUnless 0x03 (fun f => (f.sel = 0 ∧ f.a = 0 ∧ f.b = 0 ∨ f.sel = 1) ∧ f.imm = 0) ∧
  ∀ lo hi : Word,
    Instr.EncodedAs (.frameEnd true lo hi) ⟨0x03, 1, 0, lo, hi⟩ ∧
    Instr.EncodedAs (.frameEnd false 0 0) ⟨0x03, 0, 0, 0, 0⟩ ∧
    ∀ s : State, s.Ready →
      (s.Quiet → exec (.frameEnd false 0 0) s = .next s.done) ∧
      (s.Quiet → lo.toNat + 2 ^ 32 * hi.toNat = s.window.index.toNat →
        exec (.frameEnd true lo hi) s = .next s.done) ∧
      (¬ s.Quiet → exec (.frameEnd true lo hi) s = .next s.latchedState ∧
        exec (.frameEnd false 0 0) s = .next s.latchedState) ∧
      (s.Quiet → lo.toNat + 2 ^ 32 * hi.toNat ≠ s.window.index.toNat →
        exec (.frameEnd true lo hi) s =
          .next (s.latched .contentSizeMismatch s.window.index.toNat))

/-! ### The window commands -/

/-- W_RAW (rule R284): the bytes stored start at the write cursor. -/
def Obligations.WRawAppendsInput : Prop :=
  IllegalUnless 0x10 (fun f => f.sel = 0 ∧ f.imm = 0 ∧ f.b = 0) ∧
  ∀ n : Word, Instr.EncodedAs (.wRaw n) ⟨0x10, 0, 0, n, 0⟩ ∧
    ∀ s : State, s.Ready →
      (s.Quiet → s.reader.rpos.toNat + n.toNat ≤ s.reader.len.toNat →
        s.window.index.toNat + n.toNat ≤ s.window.capr.toNat →
        ∃ m, s.window.mem.Stores m s.window.index.toNat n.toNat
            (fun k => s.inByte (s.reader.rpos.toNat + k)) ∧
          exec (.wRaw n) s = .next { s.done with
            window := s.window.after n.toNat m
            reader := { s.reader with rpos := s.reader.rpos + n } }) ∧
      (¬ s.Quiet → exec (.wRaw n) s = .next s.latchedState) ∧
      (s.Quiet → s.reader.rpos.toNat + n.toNat > s.reader.len.toNat →
        exec (.wRaw n) s = .next (s.latched .shortRead s.reader.rpos.toNat)) ∧
      (s.Quiet → s.reader.rpos.toNat + n.toNat ≤ s.reader.len.toNat →
        s.window.index.toNat + n.toNat > s.window.capr.toNat →
        exec (.wRaw n) s = .next (s.latched .windowOverflow n.toNat))

/-- W_RLE (rule R286): one byte is consumed, also when the count is 0. -/
def Obligations.WRleAppendsARun : Prop :=
  IllegalUnless 0x11 (fun f => f.sel = 0 ∧ f.imm = 0 ∧ f.b = 0) ∧
  ∀ n : Word, Instr.EncodedAs (.wRle n) ⟨0x11, 0, 0, n, 0⟩ ∧
    ∀ s : State, s.Ready →
      (s.Quiet → s.reader.rpos.toNat + 1 ≤ s.reader.len.toNat →
        s.window.index.toNat + n.toNat ≤ s.window.capr.toNat →
        ∃ m, s.window.mem.Stores m s.window.index.toNat n.toNat
            (fun _ => s.inByte s.reader.rpos.toNat) ∧
          exec (.wRle n) s = .next { s.done with
            window := s.window.after n.toNat m
            reader := { s.reader with rpos := s.reader.rpos + 1 } }) ∧
      (¬ s.Quiet → exec (.wRle n) s = .next s.latchedState) ∧
      (s.Quiet → s.reader.rpos.toNat + 1 > s.reader.len.toNat →
        exec (.wRle n) s = .next (s.latched .shortRead s.reader.rpos.toNat)) ∧
      (s.Quiet → s.reader.rpos.toNat + 1 ≤ s.reader.len.toNat →
        s.window.index.toNat + n.toNat > s.window.capr.toNat →
        exec (.wRle n) s = .next (s.latched .windowOverflow n.toNat))

/-- W_LIT (rule R288), in states that meet the invariant of rule R30. -/
def Obligations.WLitAppendsLiterals : Prop :=
  IllegalUnless 0x12 (fun f => f.sel = 0 ∧ f.imm = 0 ∧ f.b = 0) ∧
  ∀ n : Word, Instr.EncodedAs (.wLit n) ⟨0x12, 0, 0, n, 0⟩ ∧
    ∀ s : State, s.Ready → s.lits.pos.toNat ≤ s.lits.len.toNat →
      (s.lits.pos.toNat + n.toNat ≤ s.lits.len.toNat →
        s.window.index.toNat + n.toNat ≤ s.window.capr.toNat →
        ∃ m, s.window.mem.Stores m s.window.index.toNat n.toNat
            (fun k => s.litByte (s.lits.pos.toNat + k)) ∧
          exec (.wLit n) s = .next { s.done with
            window := s.window.after n.toNat m
            lits := { s.lits with pos := s.lits.pos + n } }) ∧
      (s.lits.pos.toNat + n.toNat > s.lits.len.toNat →
        exec (.wLit n) s =
          .next (s.latched .literalsUnderflow (s.lits.len.toNat - s.lits.pos.toNat))) ∧
      (s.lits.pos.toNat + n.toNat ≤ s.lits.len.toNat →
        s.window.index.toNat + n.toNat > s.window.capr.toNat →
        exec (.wLit n) s = .next (s.latched .windowOverflow n.toNat))

/-- W_LITREST (rule R290), in states that meet the invariant of rule R30. -/
def Obligations.WLitrestAppendsTheRest : Prop :=
  IllegalUnless 0x13 (fun f => f.sel = 0 ∧ f.imm = 0 ∧ f.a = 0 ∧ f.b = 0) ∧
  Instr.EncodedAs .wLitrest ⟨0x13, 0, 0, 0, 0⟩ ∧
    ∀ (s : State) (n : Nat), s.Ready → s.lits.pos.toNat + n = s.lits.len.toNat →
      (s.window.index.toNat + n ≤ s.window.capr.toNat →
        ∃ m, s.window.mem.Stores m s.window.index.toNat n
            (fun k => s.litByte (s.lits.pos.toNat + k)) ∧
          exec .wLitrest s = .next { s.done with
            window := s.window.after n m
            lits := { s.lits with pos := s.lits.len } }) ∧
      (s.window.index.toNat + n > s.window.capr.toNat →
        exec .wLitrest s = .next (s.latched .windowOverflow n))

/-- W_COPY (rule R292): byte `i` of the copy is byte `i mod offset` of the history it starts from,
and each copied byte equals the byte `offset` before it. -/
def Obligations.WCopyRepeatsHistory : Prop :=
  IllegalUnless 0x14 (fun f => f.sel = 0 ∧ f.imm = 0) ∧
  ∀ offset length : Word,
    Instr.EncodedAs (.wCopy offset length) ⟨0x14, 0, 0, offset, length⟩ ∧
    ∀ s : State, s.Ready →
      (1 ≤ offset.toNat → offset.toNat ≤ min s.window.index.toNat s.window.size.toNat →
        s.window.index.toNat + length.toNat ≤ s.window.capr.toNat →
        ∃ m, s.window.mem.Stores m s.window.index.toNat length.toNat
            (fun k => s.winByte (s.window.index.toNat - offset.toNat + k % offset.toNat)) ∧
          exec (.wCopy offset length) s =
            .next { s.done with window := s.window.after length.toNat m } ∧
          ∀ k, k < length.toNat →
            m.lookup (s.window.index.toNat + k) =
              some (m.byte (Config.unwrittenByte s.host.epoch .win)
                (s.window.index.toNat - offset.toNat + k))) ∧
      (offset.toNat = 0 ∨ offset.toNat > min s.window.index.toNat s.window.size.toNat →
        exec (.wCopy offset length) s = .next (s.latched .copyOutOfBounds offset.toNat)) ∧
      (1 ≤ offset.toNat → offset.toNat ≤ min s.window.index.toNat s.window.size.toNat →
        s.window.index.toNat + length.toNat > s.window.capr.toNat →
        exec (.wCopy offset length) s = .next (s.latched .windowOverflow length.toNat))

/-! ### The literals commands -/

/-- LIT_RAW (rule R201): the bytes stored start at address 0 of `LIT`. -/
def Obligations.LitRawFillsTheBuffer : Prop :=
  IllegalUnless 0x20 (fun f => f.sel = 0 ∧ f.imm = 0 ∧ f.b = 0) ∧
  ∀ n : Word, Instr.EncodedAs (.litRaw n) ⟨0x20, 0, 0, n, 0⟩ ∧
    ∀ s : State, s.Ready →
      (s.Quiet → n.toNat ≤ s.params.litCap →
        s.reader.rpos.toNat + n.toNat ≤ s.reader.len.toNat →
        ∃ m, s.lits.mem.Stores m 0 n.toNat (fun k => s.inByte (s.reader.rpos.toNat + k)) ∧
          exec (.litRaw n) s = .next { s.done with
            lits := { pos := 0, len := n, mem := m }
            reader := { s.reader with rpos := s.reader.rpos + n } }) ∧
      (¬ s.Quiet → exec (.litRaw n) s = .next s.latchedState) ∧
      (s.Quiet → n.toNat > s.params.litCap →
        exec (.litRaw n) s = .next (s.latched .literalsOverflow n.toNat)) ∧
      (s.Quiet → n.toNat ≤ s.params.litCap →
        s.reader.rpos.toNat + n.toNat > s.reader.len.toNat →
        exec (.litRaw n) s = .next (s.latched .shortRead s.reader.rpos.toNat))

/-- LIT_RLE (rule R202). -/
def Obligations.LitRleFillsTheBuffer : Prop :=
  IllegalUnless 0x21 (fun f => f.sel = 0 ∧ f.imm = 0 ∧ f.b = 0) ∧
  ∀ n : Word, Instr.EncodedAs (.litRle n) ⟨0x21, 0, 0, n, 0⟩ ∧
    ∀ s : State, s.Ready →
      (s.Quiet → n.toNat ≤ s.params.litCap → s.reader.rpos.toNat + 1 ≤ s.reader.len.toNat →
        ∃ m, s.lits.mem.Stores m 0 n.toNat (fun _ => s.inByte s.reader.rpos.toNat) ∧
          exec (.litRle n) s = .next { s.done with
            lits := { pos := 0, len := n, mem := m }
            reader := { s.reader with rpos := s.reader.rpos + 1 } }) ∧
      (¬ s.Quiet → exec (.litRle n) s = .next s.latchedState) ∧
      (s.Quiet → n.toNat > s.params.litCap →
        exec (.litRle n) s = .next (s.latched .literalsOverflow n.toNat)) ∧
      (s.Quiet → n.toNat ≤ s.params.litCap → s.reader.rpos.toNat + 1 > s.reader.len.toNat →
        exec (.litRle n) s = .next (s.latched .shortRead s.reader.rpos.toNat))

/-- LIT_HUF (rules R206, R208, R210, R212): the checks before the tree in order; from a direct or an
FSE-coded tree description whose weights make a table, the new table, for the coded form the slot
`AUX`, and the literals and the cursor that the streams end with, completed or faulted; a bad tree
description faults with the table as it was. The coded form supposes parameters that fit the unit
(log 7); a context that 32 bits do not hold is kept modulo 2^32 (log 18). -/
def Obligations.LitHufDecodesWithAFreshTable : Prop :=
  IllegalUnless 0x22 (fun f => (f.sel = 1 ∨ f.sel = 4) ∧ f.imm = 0) ∧
  ∀ (streams : Streams) (regen comp : Word),
    Instr.EncodedAs (.litHuf streams regen comp)
      ⟨0x22, if streams = .one then 1 else 4, 0, regen, comp⟩ ∧
    ∀ s : State, s.Ready →
      (¬ s.Quiet → exec (.litHuf streams regen comp) s = .next s.latchedState) ∧
      (s.Quiet → regen.toNat > s.params.litCap →
        exec (.litHuf streams regen comp) s =
          .next (s.latched .literalsOverflow regen.toNat)) ∧
      (s.Quiet → regen.toNat ≤ s.params.litCap →
        s.reader.rpos.toNat + comp.toNat > s.reader.len.toNat →
        exec (.litHuf streams regen comp) s =
          .next (s.latched .shortRead s.reader.rpos.toNat)) ∧
      (s.Quiet → regen.toNat ≤ s.params.litCap →
        s.reader.rpos.toNat + comp.toNat ≤ s.reader.len.toNat →
        ∀ a fin, a = s.reader.rpos.toNat → fin = a + comp.toNat →
          (∀ (w : List Nat) (next : Nat) (t : HufTable),
            weightTable s.params.hufMaxBits w = .ok t →
            (DirectTree s.inByte a fin w next →
              ∃ mH, s.huf.tab.Stores mH 0 (2 ^ t.maxBits) (fun k => t.entries[k]?.getD default) ∧
                StreamsEnd (.litHuf streams regen comp) s
                  { s with
                    reader := { s.reader with rpos := BitVec.ofNat 32 next }
                    huf := { info := { valid := true, maxBits := BitVec.ofNat 4 t.maxBits,
                                       nsym := BitVec.ofNat 9 (w.length + 1) }
                             tab := mH } } fin regen streams) ∧
            (∀ h, s.params.wf = true →
              CodedTree s.params s.inByte (s.fseEntry .aux) a fin h w next →
              ∃ mH mF,
                s.huf.tab.Stores mH 0 (2 ^ t.maxBits) (fun k => t.entries[k]?.getD default) ∧
                s.slots.aux.tab.Stores mF 0 (2 ^ h.al)
                  (fun k => (spread h.al h.probs)[k]?.getD default) ∧
                StreamsEnd (.litHuf streams regen comp) s
                  { s with
                    reader := { s.reader with rpos := BitVec.ofNat 32 next }
                    slots := { s.slots with aux := s.slots.aux.after h.al h.probs.length mF }
                    huf := { info := { valid := true, maxBits := BitVec.ofNat 4 t.maxBits,
                                       nsym := BitVec.ofNat 9 (w.length + 1) }
                             tab := mH } } fin regen streams)) ∧
          (∀ rpos r, TreeFails s.params s.inByte a fin rpos r →
            exec (.litHuf streams regen comp) s = .next { s.latched r.fault r.info with
              reader := { s.reader with rpos := BitVec.ofNat 32 rpos } }) ∧
          (∀ h rpos r, s.params.wf = true →
            CodedTreeFails s.params s.inByte (s.fseEntry .aux) a fin h rpos r →
            ∃ mF, s.slots.aux.tab.Stores mF 0 (2 ^ h.al)
                (fun k => (spread h.al h.probs)[k]?.getD default) ∧
              exec (.litHuf streams regen comp) s = .next { s.latched r.fault r.info with
                reader := { s.reader with rpos := BitVec.ofNat 32 rpos }
                slots := { s.slots with aux := s.slots.aux.after h.al h.probs.length mF } }))

/-- LIT_HUFR (rules R208, R210, R214): as LIT_HUF with the retained table, which is only read; the
checks before the streams in order, then the literals or the streams' fault (a context that 32 bits
do not hold is kept modulo 2^32, log 18). -/
def Obligations.LitHufrDecodesWithTheRetainedTable : Prop :=
  IllegalUnless 0x23 (fun f => (f.sel = 1 ∨ f.sel = 4) ∧ f.imm = 0) ∧
  ∀ (streams : Streams) (regen comp : Word),
    Instr.EncodedAs (.litHufr streams regen comp)
      ⟨0x23, if streams = .one then 1 else 4, 0, regen, comp⟩ ∧
    ∀ s : State, s.Ready →
      (¬ s.Quiet → exec (.litHufr streams regen comp) s = .next s.latchedState) ∧
      (s.Quiet → regen.toNat > s.params.litCap →
        exec (.litHufr streams regen comp) s =
          .next (s.latched .literalsOverflow regen.toNat)) ∧
      (s.Quiet → regen.toNat ≤ s.params.litCap →
        s.reader.rpos.toNat + comp.toNat > s.reader.len.toNat →
        exec (.litHufr streams regen comp) s =
          .next (s.latched .shortRead s.reader.rpos.toNat)) ∧
      (s.Quiet → regen.toNat ≤ s.params.litCap →
        s.reader.rpos.toNat + comp.toNat ≤ s.reader.len.toNat → s.huf.info.valid = false →
        exec (.litHufr streams regen comp) s = .next (s.latched .missingTable 4)) ∧
      (s.Quiet → regen.toNat ≤ s.params.litCap →
        s.reader.rpos.toNat + comp.toNat ≤ s.reader.len.toNat → s.huf.info.valid = true →
        StreamsEnd (.litHufr streams regen comp) s s (s.reader.rpos.toNat + comp.toNat) regen
          streams)

/-! ### The table commands -/

/-- FSE_BUILD (rules R144, R146): a header that is read to its end always builds its table, and the
cursor moves past it (parameters that fit the unit, log 7); a header that is not leaves everything as
it was but the record of the fault (a context that 32 bits do not hold is kept modulo 2^32, the
model's choice of log 18). -/
def Obligations.FseBuildBuildsFromTheHeader : Prop :=
  IllegalUnless 0x30 (fun f => f.sel.toNat ≤ 3 ∧ f.imm = 0 ∧ f.a = 0 ∧ f.b = 0) ∧
  ∀ slot : Slot,
    Instr.EncodedAs (.fseBuild slot) ⟨0x30, BitVec.ofNat 8 slot.num, 0, 0, 0⟩ ∧
    ∀ s : State, s.Ready →
      (∀ h, s.Quiet → s.params.wf = true →
        fseReadHeader s.params s.inByte slot s.reader.rpos.toNat s.reader.len.toNat = .ok h →
        ∃ m, (s.slot slot).tab.Stores m 0 (2 ^ h.al)
            (fun k => (spread h.al h.probs)[k]?.getD default) ∧
          exec (.fseBuild slot) s = .next { s.done with
            slots := s.slots.set slot ((s.slot slot).after h.al h.probs.length m)
            reader := { s.reader with rpos := BitVec.ofNat 32 h.next } }) ∧
      (¬ s.Quiet → exec (.fseBuild slot) s = .next s.latchedState) ∧
      (∀ f info, s.Quiet →
        fseReadHeader s.params s.inByte slot s.reader.rpos.toNat s.reader.len.toNat =
          .error ⟨f, info⟩ →
        exec (.fseBuild slot) s = .next (s.latched f info))

/-- FSE_LOAD (rules R141, R148): a distribution of little-endian two's-complement numbers that sums
to the table size builds; otherwise the first failing check faults, with the cursor past the list
from `FseFromDist` on. -/
def Obligations.FseLoadBuildsFromTheList : Prop :=
  IllegalUnless 0x31 (fun f => f.sel.toNat ≤ 3 ∧ f.b = 0) ∧
  ∀ (slot : Slot) (al : BitVec 16) (n : Word),
    Instr.EncodedAs (.fseLoad slot al n) ⟨0x31, BitVec.ofNat 8 slot.num, al, n, 0⟩ ∧
    ∀ s : State, s.Ready →
      (¬ s.Quiet → exec (.fseLoad slot al n) s = .next s.latchedState) ∧
      (s.Quiet → n.toNat > s.params.maxSymbols.get slot →
        exec (.fseLoad slot al n) s = .next (s.latched .tooManySymbols n.toNat)) ∧
      (s.Quiet → n.toNat ≤ s.params.maxSymbols.get slot →
        s.reader.rpos.toNat + 2 * n.toNat > s.reader.len.toNat →
        exec (.fseLoad slot al n) s = .next (s.latched .shortRead s.reader.rpos.toNat)) ∧
      (∀ (probs : List Int) (u : State), s.Quiet → n.toNat ≤ s.params.maxSymbols.get slot →
        s.reader.rpos.toNat + 2 * n.toNat ≤ s.reader.len.toNat →
        probs = (List.range n.toNat).map (fun k =>
          (s.inByte (s.reader.rpos.toNat + 2 * k + 1) ++
            s.inByte (s.reader.rpos.toNat + 2 * k)).toInt) →
        u = { s with reader := { s.reader with
          rpos := BitVec.ofNat 32 (s.reader.rpos.toNat + 2 * n.toNat) } } →
        (al.toNat < s.params.minAL →
          exec (.fseLoad slot al n) s = .next (u.latched .illegalOperand al.toNat)) ∧
        (s.params.minAL ≤ al.toNat → al.toNat > s.params.maxAL.get slot →
          exec (.fseLoad slot al n) s = .next (u.latched .accuracyLogTooLarge al.toNat)) ∧
        (s.params.minAL ≤ al.toNat → al.toNat ≤ s.params.maxAL.get slot → ∀ before p after,
          probs = before ++ p :: after → (∀ q ∈ before, -1 ≤ q) → p < -1 →
          exec (.fseLoad slot al n) s = .next (u.latched .illegalOperand p)) ∧
        (s.params.minAL ≤ al.toNat → al.toNat ≤ s.params.maxAL.get slot →
          (∀ q ∈ probs, -1 ≤ q) → ∀ sum,
          sum = (probs.map (fun p => if p = -1 then 1 else p)).sum →
          (sum ≠ 2 ^ al.toNat →
            exec (.fseLoad slot al n) s =
              .next (u.latched .sumMismatch (2 ^ al.toNat - sum))) ∧
          (sum = 2 ^ al.toNat →
            ∃ m, (s.slot slot).tab.Stores m 0 (2 ^ al.toNat)
                (fun k => (spread al.toNat probs)[k]?.getD default) ∧
              exec (.fseLoad slot al n) s = .next { u.done with
                slots := s.slots.set slot ((s.slot slot).after al.toNat n.toNat m) })))

/-- FSE_PREDEF (rules R150, R152): the predefined distribution always builds (parameters that fit the
unit, log 7), and no input is read; the default distributions have the accuracy logs, symbol counts
and sums of rule R152. -/
def Obligations.FsePredefBuildsTheDefaultTable : Prop :=
  IllegalUnless 0x32 (fun f => f.sel.toNat ≤ 2 ∧ f.imm = 0 ∧ f.a = 0 ∧ f.b = 0) ∧
  ∀ slot : Slot, slot ≠ .aux →
    Instr.EncodedAs (.fsePredef slot) ⟨0x32, BitVec.ofNat 8 slot.num, 0, 0, 0⟩ ∧
    (∃ al probs, Config.resetParams.predef slot = some (al, probs) ∧
      (al, probs.length) =
        (match slot with
         | .ll => (6, 36)
         | .of => (5, 29)
         | .ml => (6, 53)
         | .aux => (0, 0)) ∧
      (probs.map (fun p => if p = -1 then 1 else p)).sum = 2 ^ al) ∧
    ∀ s : State, s.Ready →
      (s.Quiet → s.params.wf = true →
        ∃ al probs m, s.params.predef slot = some (al, probs) ∧
          (s.slot slot).tab.Stores m 0 (2 ^ al) (fun k => (spread al probs)[k]?.getD default) ∧
          exec (.fsePredef slot) s = .next { s.done with
            slots := s.slots.set slot ((s.slot slot).after al probs.length m) }) ∧
      (¬ s.Quiet → exec (.fsePredef slot) s = .next s.latchedState)

/-- FSE_RLE (rule R154): a one-state table that emits one symbol and reads no bit. -/
def Obligations.FseRleBuildsAOneStateTable : Prop :=
  IllegalUnless 0x33 (fun f => f.sel.toNat ≤ 3 ∧ f.a = 0 ∧ f.b = 0) ∧
  ∀ (slot : Slot) (symbol : BitVec 16),
    Instr.EncodedAs (.fseRle slot symbol) ⟨0x33, BitVec.ofNat 8 slot.num, symbol, 0, 0⟩ ∧
    ∀ s : State, s.Ready →
      (s.Quiet → symbol.toNat < s.params.maxSymbols.get slot →
        ∃ m, (s.slot slot).tab.Stores m 0 1
            (fun _ => { sym := BitVec.ofNat 8 symbol.toNat, nb := 0, base := 0 }) ∧
          exec (.fseRle slot symbol) s = .next { s.done with
            slots := s.slots.set slot ((s.slot slot).after 0 (symbol.toNat + 1) m) }) ∧
      (¬ s.Quiet → exec (.fseRle slot symbol) s = .next s.latchedState) ∧
      (s.Quiet → symbol.toNat ≥ s.params.maxSymbols.get slot →
        exec (.fseRle slot symbol) s = .next (s.latched .tooManySymbols symbol.toNat))

/-! ### The bitstream and lookup commands -/

/-- BS_OPEN (rules R71, R172). -/
def Obligations.BsOpenOpensTheSection : Prop :=
  IllegalUnless 0x38 (fun f => f.sel = 0 ∧ f.imm = 0 ∧ f.b = 0) ∧
  ∀ n : Word, Instr.EncodedAs (.bsOpen n) ⟨0x38, 0, 0, n, 0⟩ ∧
    ∀ (s : State) (last : Nat), s.Ready →
      last = (s.inByte (s.reader.rpos.toNat + n.toNat - 1)).toNat →
      (s.Quiet → 1 ≤ n.toNat → n.toNat ≤ 2 ^ 27 →
        s.reader.rpos.toNat + n.toNat ≤ s.reader.len.toNat → last ≠ 0 →
        exec (.bsOpen n) s = .next { s.done with
          bits := { base := s.reader.rpos, len := n,
                    pos := BitVec.ofNat 32 (8 * (n.toNat - 1) + Nat.log2 last) }
          status := { s.status with bsOpen := true } }) ∧
      (¬ s.Quiet → exec (.bsOpen n) s = .next s.latchedState) ∧
      (s.Quiet → n.toNat > 2 ^ 27 →
        exec (.bsOpen n) s = .next (s.latched .illegalOperand n.toNat)) ∧
      (s.Quiet → n.toNat ≤ 2 ^ 27 → s.reader.rpos.toNat + n.toNat > s.reader.len.toNat →
        exec (.bsOpen n) s = .next (s.latched .shortRead s.reader.rpos.toNat)) ∧
      (s.Quiet → n.toNat = 0 → s.reader.rpos.toNat ≤ s.reader.len.toNat →
        exec (.bsOpen n) s = .next (s.latched .missingEndMark s.reader.rpos.toNat)) ∧
      (s.Quiet → 1 ≤ n.toNat → n.toNat ≤ 2 ^ 27 →
        s.reader.rpos.toNat + n.toNat ≤ s.reader.len.toNat → last = 0 →
        exec (.bsOpen n) s =
          .next (s.latched .missingEndMark ((s.reader.rpos.toNat + n.toNat - 1 : Nat) : Int)))

/-- BS_READ (rules R73, R174): bit `j` of `VAL` is stream bit `BS_POS - k + j`, 0 below the
beginning. -/
def Obligations.BsReadReadsBits : Prop :=
  IllegalUnless 0x39 (fun f => f.sel = 0 ∧ f.a = 0 ∧ f.b = 0) ∧
  ∀ k : BitVec 16, Instr.EncodedAs (.bsRead k) ⟨0x39, 0, k, 0, 0⟩ ∧
    ∀ s : State, s.Ready →
      (s.Primitive → k.toNat ≤ 32 → 0 ≤ s.bsPos →
        ∃ v : Word,
          exec (.bsRead k) s = .next { s.done with
            val := v
            bits := { s.bits with pos := s.bits.pos - BitVec.ofNat 32 k.toNat } } ∧
          ∀ j, v.getLsbD j =
            (decide (j < k.toNat) && decide (0 ≤ s.bsPos - k.toNat + j) &&
              streamBit s.inByte s.bits.base.toNat (s.bsPos - k.toNat + j).toNat)) ∧
      (¬ s.Primitive → exec (.bsRead k) s = .next s.latchedState) ∧
      (s.Primitive → k.toNat > 32 →
        exec (.bsRead k) s = .next (s.latched .illegalOperand k.toNat)) ∧
      (s.Primitive → k.toNat ≤ 32 → s.bsPos < 0 →
        exec (.bsRead k) s = .next (s.latched .bitstreamOverrun s.bsPos))

/-- BS_CLOSE (rule R176). -/
def Obligations.BsCloseClosesTheSection : Prop :=
  IllegalUnless 0x3A (fun f => f.sel = 0 ∧ f.imm = 0 ∧ f.a = 0 ∧ f.b = 0) ∧
  Instr.EncodedAs .bsClose ⟨0x3A, 0, 0, 0, 0⟩ ∧
    ∀ s : State, s.Ready →
      (s.Primitive → s.bsPos = 0 →
        exec .bsClose s = .next { s.done with
          status := { s.status with bsOpen := false }
          reader := { s.reader with
            rpos := BitVec.ofNat 32 (s.bits.base.toNat + s.bits.len.toNat) }
          slots :=
            { ll := { s.slots.ll with info := { s.slots.ll.info with sinit := false } }
              of := { s.slots.of with info := { s.slots.of.info with sinit := false } }
              ml := { s.slots.ml with info := { s.slots.ml.info with sinit := false } }
              aux := { s.slots.aux with
                info := { s.slots.aux.info with sinit := false } } } }) ∧
      (¬ s.Primitive → exec .bsClose s = .next s.latchedState) ∧
      (s.Primitive → s.bsPos < 0 →
        exec .bsClose s = .next (s.latched .bitstreamOverrun s.bsPos)) ∧
      (s.Primitive → 0 < s.bsPos →
        exec .bsClose s = .next (s.latched .bitstreamResidue s.bsPos))

/-- FSE_INIT (rule R178). -/
def Obligations.FseInitReadsTheState : Prop :=
  IllegalUnless 0x3B (fun f => f.sel.toNat ≤ 3 ∧ f.imm = 0 ∧ f.a = 0 ∧ f.b = 0) ∧
  ∀ slot : Slot,
    Instr.EncodedAs (.fseInit slot) ⟨0x3B, BitVec.ofNat 8 slot.num, 0, 0, 0⟩ ∧
    ∀ (s : State) (al : Nat), s.Ready → al = (s.slot slot).info.al.toNat →
      (s.Primitive → (s.slot slot).info.valid = true → 0 ≤ s.bsPos →
        exec (.fseInit slot) s = .next { s.done with
          bits := { s.bits with pos := s.bits.pos - BitVec.ofNat 32 al }
          slots := s.slots.set slot { s.slot slot with
            state := BitVec.ofNat 32 (backBits s.inByte s.bits.base.toNat s.bsPos al)
            info := { (s.slot slot).info with sinit := true } } }) ∧
      (¬ s.Primitive → exec (.fseInit slot) s = .next s.latchedState) ∧
      (s.Primitive → (s.slot slot).info.valid = false →
        exec (.fseInit slot) s = .next (s.latched .missingTable slot.num)) ∧
      (s.Primitive → (s.slot slot).info.valid = true → s.bsPos < 0 →
        exec (.fseInit slot) s = .next (s.latched .bitstreamOverrun s.bsPos))

/-- FSE_EMIT (rule R180): it writes `SYM` and nothing else. -/
def Obligations.FseEmitEmitsTheSymbol : Prop :=
  IllegalUnless 0x3C (fun f => f.sel.toNat ≤ 3 ∧ f.imm = 0 ∧ f.a = 0 ∧ f.b = 0) ∧
  ∀ slot : Slot,
    Instr.EncodedAs (.fseEmit slot) ⟨0x3C, BitVec.ofNat 8 slot.num, 0, 0, 0⟩ ∧
    ∀ s : State, s.Ready →
      (s.status.seqActive = false → (s.slot slot).info.valid = true →
        (s.slot slot).info.sinit = true →
        ∃ v : Word, v.toNat = (s.fseEntry slot (s.slot slot).state.toNat).sym.toNat ∧
          exec (.fseEmit slot) s = .next { s.done with sym := v }) ∧
      (s.status.seqActive = true → exec (.fseEmit slot) s = .next s.latchedState) ∧
      (s.status.seqActive = false → (s.slot slot).info.valid = false →
        exec (.fseEmit slot) s = .next (s.latched .missingTable slot.num)) ∧
      (s.status.seqActive = false → (s.slot slot).info.valid = true →
        (s.slot slot).info.sinit = false →
        exec (.fseEmit slot) s = .next s.latchedState)

/-- FSE_NEXT (rule R182): the next state is the entry's base plus the bits read. -/
def Obligations.FseNextMovesTheState : Prop :=
  IllegalUnless 0x3D (fun f => f.sel.toNat ≤ 3 ∧ f.imm = 0 ∧ f.a = 0 ∧ f.b = 0) ∧
  ∀ slot : Slot,
    Instr.EncodedAs (.fseNext slot) ⟨0x3D, BitVec.ofNat 8 slot.num, 0, 0, 0⟩ ∧
    ∀ (s : State) (e : FseEntry), s.Ready →
      e = s.fseEntry slot (s.slot slot).state.toNat →
      (s.Primitive → (s.slot slot).info.valid = true → (s.slot slot).info.sinit = true →
        0 ≤ s.bsPos →
        exec (.fseNext slot) s = .next { s.done with
          bits := { s.bits with pos := s.bits.pos - BitVec.ofNat 32 e.nb.toNat }
          slots := s.slots.set slot { s.slot slot with
            state := BitVec.ofNat 32 (e.base.toNat +
              backBits s.inByte s.bits.base.toNat s.bsPos e.nb.toNat) } }) ∧
      (¬ s.Primitive → exec (.fseNext slot) s = .next s.latchedState) ∧
      (s.Primitive → (s.slot slot).info.valid = false →
        exec (.fseNext slot) s = .next (s.latched .missingTable slot.num)) ∧
      (s.Primitive → (s.slot slot).info.valid = true → (s.slot slot).info.sinit = false →
        exec (.fseNext slot) s = .next s.latchedState) ∧
      (s.Primitive → (s.slot slot).info.valid = true → (s.slot slot).info.sinit = true →
        s.bsPos < 0 →
        exec (.fseNext slot) s = .next (s.latched .bitstreamOverrun s.bsPos))

/-! ### The sequences commands -/

/-- SEQ_OPEN (rules R71, R73, R244): the three states are read from the end mark down, `LL`, `OF`,
`ML`; `p` is the count of data bits, `q` what the states leave. -/
def Obligations.SeqOpenReadsTheStates : Prop :=
  IllegalUnless 0x40 (fun f => f.sel = 0 ∧ f.imm = 0) ∧
  ∀ n count : Word, Instr.EncodedAs (.seqOpen n count) ⟨0x40, 0, 0, n, count⟩ ∧
    ∀ (s : State) (last p aLL aOF aML : Nat), s.Ready →
      last = (s.inByte (s.reader.rpos.toNat + n.toNat - 1)).toNat →
      p = 8 * (n.toNat - 1) + Nat.log2 last →
      aLL = s.slots.ll.info.al.toNat → aOF = s.slots.of.info.al.toNat →
      aML = s.slots.ml.info.al.toNat →
      (¬ s.Quiet → exec (.seqOpen n count) s = .next s.latchedState) ∧
      (s.Quiet → n.toNat > 2 ^ 27 →
        exec (.seqOpen n count) s = .next (s.latched .illegalOperand n.toNat)) ∧
      (s.Quiet → n.toNat ≤ 2 ^ 27 → count = 0 →
        exec (.seqOpen n count) s = .next (s.latched .illegalOperand 0)) ∧
      (s.Quiet → n.toNat ≤ 2 ^ 27 → count ≠ 0 →
        (s.slots.ll.info.valid = false →
          exec (.seqOpen n count) s = .next (s.latched .missingTable 0)) ∧
        (s.slots.ll.info.valid = true → s.slots.of.info.valid = false →
          exec (.seqOpen n count) s = .next (s.latched .missingTable 1)) ∧
        (s.slots.ll.info.valid = true → s.slots.of.info.valid = true →
          s.slots.ml.info.valid = false →
          exec (.seqOpen n count) s = .next (s.latched .missingTable 2)) ∧
        (s.slots.ll.info.valid = true → s.slots.of.info.valid = true →
          s.slots.ml.info.valid = true →
          (s.reader.rpos.toNat + n.toNat > s.reader.len.toNat →
            exec (.seqOpen n count) s = .next (s.latched .shortRead s.reader.rpos.toNat)) ∧
          (n.toNat = 0 → s.reader.rpos.toNat ≤ s.reader.len.toNat →
            exec (.seqOpen n count) s =
              .next (s.latched .missingEndMark s.reader.rpos.toNat)) ∧
          (1 ≤ n.toNat → s.reader.rpos.toNat + n.toNat ≤ s.reader.len.toNat →
            (last = 0 → exec (.seqOpen n count) s =
              .next (s.latched .missingEndMark ((s.reader.rpos.toNat + n.toNat - 1 : Nat) : Int))) ∧
            (last ≠ 0 → p < aLL + aOF + aML → ∃ t, exec (.seqOpen n count) s = .next t ∧
              t.status = ⟨false, true, true, true, false⟩ ∧ t.err = 11 ∧ t.cp = s.cp ∧
              t.errInfo = BitVec.ofInt 32
                (if p < aLL then (p : Int) - aLL
                 else if p < aLL + aOF then (p : Int) - aLL - aOF
                 else (p : Int) - aLL - aOF - aML)) ∧
            (last ≠ 0 → ∀ q, p = q + aML + aOF + aLL →
              exec (.seqOpen n count) s = .next { s.done with
                bits := { base := s.reader.rpos, len := n, pos := BitVec.ofNat 32 q }
                seq := { s.seq with left := count }
                status := { s.status with bsOpen := true, seqActive := true, seqValid := false }
                slots :=
                  { s.slots with
                    ll := { s.slots.ll with
                      state := BitVec.ofNat 32 (backBits s.inByte s.reader.rpos.toNat p aLL)
                      info := { s.slots.ll.info with sinit := true } }
                    of := { s.slots.of with
                      state := BitVec.ofNat 32
                        (backBits s.inByte s.reader.rpos.toNat (p - aLL) aOF)
                      info := { s.slots.of.info with sinit := true } }
                    ml := { s.slots.ml with
                      state := BitVec.ofNat 32
                        (backBits s.inByte s.reader.rpos.toNat (p - aLL - aOF) aML)
                      info := { s.slots.ml.info with sinit := true } } } }))))

/-- SEQ_NEXT (rules R242, R246, R247): with values that read within the section, the sequence, the
history and the position; the states advance unless the sequence is the last, which closes the
section. -/
def Obligations.SeqNextDecodesASequence : Prop :=
  IllegalUnless 0x41 (fun f => f.sel = 0 ∧ f.imm = 0 ∧ f.a = 0 ∧ f.b = 0) ∧
  Instr.EncodedAs .seqNext ⟨0x41, 0, 0, 0, 0⟩ ∧
    ∀ (s : State) (v ml ll p : Nat) (off : Word) (reps : Reps), s.Ready →
      s.status.seqActive = true → s.status.seqValid = false → SeqRead s v ml ll p →
      resolveOffset v ll s.reps = .ok (off, reps) →
      (s.seq.left.toNat = 1 → p = 0 →
        exec .seqNext s = .next { s.done with
          bits := { s.bits with pos := 0 }
          reps := reps
          seq := { left := 0, ll := BitVec.ofNat 32 ll, ml := BitVec.ofNat 32 ml,
                   ofv := BitVec.ofNat 32 v, off := off }
          status := { s.status with bsOpen := false, seqActive := false, seqValid := true }
          reader := { s.reader with
            rpos := BitVec.ofNat 32 (s.bits.base.toNat + s.bits.len.toNat) }
          slots :=
            { ll := { s.slots.ll with info := { s.slots.ll.info with sinit := false } }
              of := { s.slots.of with info := { s.slots.of.info with sinit := false } }
              ml := { s.slots.ml with info := { s.slots.ml.info with sinit := false } }
              aux := { s.slots.aux with
                info := { s.slots.aux.info with sinit := false } } } }) ∧
      (s.seq.left.toNat = 1 → 0 < p → ∃ t, exec .seqNext s = .next t ∧
        t.status = { s.status with fault := true, seqValid := true } ∧ t.err = 12 ∧
        t.errInfo = BitVec.ofNat 32 p ∧ t.cp = s.cp ∧ t.reps = reps ∧ t.reader = s.reader) ∧
      (2 ≤ s.seq.left.toNat → ∀ sLL sML sOF q, SeqAdvance s p sLL sML sOF q →
        exec .seqNext s = .next { s.done with
          bits := { s.bits with pos := BitVec.ofNat 32 q }
          reps := reps
          seq := { left := s.seq.left - 1, ll := BitVec.ofNat 32 ll, ml := BitVec.ofNat 32 ml,
                   ofv := BitVec.ofNat 32 v, off := off }
          status := { s.status with seqValid := true }
          slots :=
            { s.slots with
              ll := { s.slots.ll with state := BitVec.ofNat 32 sLL }
              of := { s.slots.of with state := BitVec.ofNat 32 sOF }
              ml := { s.slots.ml with state := BitVec.ofNat 32 sML } } })

/-- SEQ_NEXT's faults (rules R242, R246, R247): no section or a sequence waiting; a read or an
advance that crosses the beginning, reported at the position reached; a resolved offset of 0
(parameters that fit the unit, log 7, and codes that the code tables have). -/
def Obligations.SeqNextFaultsInOrder : Prop :=
  ∀ (s : State) (n m l : Nat), s.Ready →
    (s.status.seqActive = false ∨ s.status.seqValid = true →
      exec .seqNext s = .next s.latchedState) ∧
    (s.status.seqActive = true → s.status.seqValid = false → 1 ≤ s.seq.left.toNat →
      s.params.wf = true → (s.currentEntry .ml).sym.toNat < s.params.mlCodes.length →
      (s.currentEntry .ll).sym.toNat < s.params.llCodes.length →
      n = (s.currentEntry .of).sym.toNat →
      m = (s.params.mlCode (s.currentEntry .ml).sym.toNat).2 →
      l = (s.params.llCode (s.currentEntry .ll).sym.toNat).2 → 0 ≤ s.bsPos →
      (s.bsPos < n + m + l → ∃ t, exec .seqNext s = .next t ∧
        t.status = { s.status with fault := true } ∧ t.err = 11 ∧ t.cp = s.cp ∧
        t.reps = s.reps ∧ t.seq = s.seq ∧ t.slots = s.slots ∧
        t.errInfo = BitVec.ofInt 32
          (if s.bsPos < n then s.bsPos - n
           else if s.bsPos < n + m then s.bsPos - n - m
           else s.bsPos - n - m - l)) ∧
      (∀ v ml ll p, SeqRead s v ml ll p →
        (∀ x y z : Nat, 2 ≤ s.seq.left.toNat → x = (s.currentEntry .ll).nb.toNat →
          y = (s.currentEntry .ml).nb.toNat → z = (s.currentEntry .of).nb.toNat →
          p < x + y + z → ∃ t, exec .seqNext s = .next t ∧
            t.status = { s.status with fault := true } ∧ t.err = 11 ∧ t.cp = s.cp ∧
            t.reps = s.reps ∧ t.seq = { s.seq with left := s.seq.left - 1 } ∧
            t.errInfo = BitVec.ofInt 32
              (if p < x then (p : Int) - x
               else if p < x + y then (p : Int) - x - y
               else (p : Int) - x - y - z)) ∧
        (resolveOffset v ll s.reps = .error ⟨.copyOutOfBounds, 0⟩ →
          (s.seq.left.toNat = 1 ∨ ∃ sLL sML sOF q, SeqAdvance s p sLL sML sOF q) →
          ∃ t, exec .seqNext s = .next t ∧ t.status = { s.status with fault := true } ∧
            t.err = 5 ∧ t.errInfo = 0 ∧ t.cp = s.cp ∧ t.reps = s.reps)))

/-- SEQ_EXEC (rule R250), in states that meet the invariant of rule R30: the literals are stored at
the write cursor, then the match behind them, from memory that holds the literals. -/
def Obligations.SeqExecExecutesTheSequence : Prop :=
  IllegalUnless 0x42 (fun f => f.sel = 0 ∧ f.imm = 0 ∧ f.a = 0 ∧ f.b = 0) ∧
  Instr.EncodedAs .seqExec ⟨0x42, 0, 0, 0, 0⟩ ∧
    ∀ (s : State) (ll ml off idx : Nat), s.Ready → s.lits.pos.toNat ≤ s.lits.len.toNat →
      ll = s.seq.ll.toNat → ml = s.seq.ml.toNat → off = s.seq.off.toNat →
      idx = s.window.index.toNat →
      (s.status.seqValid = false → exec .seqExec s = .next s.latchedState) ∧
      (s.status.seqValid = true → s.lits.pos.toNat + ll > s.lits.len.toNat →
        exec .seqExec s = .next
          { s.latched .literalsUnderflow (s.lits.len.toNat - s.lits.pos.toNat) with
            status := { s.status with fault := true, seqValid := false } }) ∧
      (s.status.seqValid = true → s.lits.pos.toNat + ll ≤ s.lits.len.toNat →
        idx + ll > s.window.capr.toNat →
        exec .seqExec s = .next { s.latched .windowOverflow ll with
          status := { s.status with fault := true, seqValid := false } }) ∧
      (s.status.seqValid = true → s.lits.pos.toNat + ll ≤ s.lits.len.toNat →
        idx + ll ≤ s.window.capr.toNat →
        ∃ m1, s.window.mem.Stores m1 idx ll (fun k => s.litByte (s.lits.pos.toNat + k)) ∧
          (off = 0 ∨ off > idx + ll → exec .seqExec s = .next
            { s.latched .copyOutOfBounds off with
              window := s.window.after ll m1
              lits := { s.lits with pos := s.lits.pos + s.seq.ll }
              status := { s.status with fault := true, seqValid := false } }) ∧
          (1 ≤ off → off ≤ idx + ll → idx + ll + ml > s.window.capr.toNat →
            exec .seqExec s = .next
              { s.latched .windowOverflow ml with
                window := s.window.after ll m1
                lits := { s.lits with pos := s.lits.pos + s.seq.ll }
                status := { s.status with fault := true, seqValid := false } }) ∧
          (1 ≤ off → off ≤ idx + ll → idx + ll + ml ≤ s.window.capr.toNat →
            ∃ m2, m1.Stores m2 (idx + ll) ml (fun k =>
                m1.byte (Config.unwrittenByte s.host.epoch .win) (idx + ll - off + k % off)) ∧
              exec .seqExec s = .next { s.done with
                window := (s.window.after ll m1).after ml m2
                lits := { s.lits with pos := s.lits.pos + s.seq.ll }
                status := { s.status with seqValid := false } }))

/-- SEQ_RUN (rule R252) ends in the state that its commands issued by hand end in, completed or
faulted, but for `CP`, which it advances by one if it completes; it faults when there is nothing to
run (in states that meet item 4 of rule R42). -/
def Obligations.SeqRunIsTheCommandsByHand : Prop :=
  IllegalUnless 0x43 (fun f => f.sel = 0 ∧ f.imm = 0 ∧ f.a = 0 ∧ f.b = 0) ∧
  Instr.EncodedAs .seqRun ⟨0x43, 0, 0, 0, 0⟩ ∧
    ∀ s : State, s.Ready →
      (s.status.seqActive = false → s.status.seqValid = false →
        exec .seqRun s = .next s.latchedState) ∧
      (s.status.seqActive = true ∨ s.status.seqValid = true →
        (s.status.seqActive = true → 1 ≤ s.seq.left.toNat) →
        ∃ t, runAll exec (byHand s) s = .next t ∧
          exec .seqRun s =
            .next { t with cp := if t.status.fault then s.cp else s.cp + 1 })

/-- SEQ_RUN with the last sequence waiting and the section closed (rules R250, R252, R254): the
sequence's literals, its match and the literals left are appended in this order; a SEQ_RUN that
completes has consumed the whole literals buffer and left nothing open or waiting (in states that
meet the invariants of rules R30 and R42). -/
def Obligations.SeqRunAppendsTheFinalLiterals : Prop :=
  ∀ (s : State) (ll ml off idx rest : Nat), s.Ready →
    s.lits.pos.toNat ≤ s.lits.len.toNat →
    (s.status.seqActive = true → 1 ≤ s.seq.left.toNat) →
    ll = s.seq.ll.toNat → ml = s.seq.ml.toNat → off = s.seq.off.toNat →
    idx = s.window.index.toNat →
    (s.status.seqActive = false → s.status.bsOpen = false → s.status.seqValid = true →
      s.lits.pos.toNat + ll + rest = s.lits.len.toNat → 1 ≤ off → off ≤ idx + ll →
      idx + ll + ml + rest ≤ s.window.capr.toNat →
      ∃ m1 m2 m3,
        s.window.mem.Stores m1 idx ll (fun k => s.litByte (s.lits.pos.toNat + k)) ∧
        m1.Stores m2 (idx + ll) ml (fun k =>
          m1.byte (Config.unwrittenByte s.host.epoch .win) (idx + ll - off + k % off)) ∧
        m2.Stores m3 (idx + ll + ml) rest (fun k => s.litByte (s.lits.pos.toNat + ll + k)) ∧
        exec .seqRun s = .next { s.done with
          window := ((s.window.after ll m1).after ml m2).after rest m3
          lits := { s.lits with pos := s.lits.len }
          status := ⟨false, false, false, false, false⟩ }) ∧
    (∀ t, exec .seqRun s = .next t → t.status.fault = false →
      t.lits.pos = t.lits.len ∧ t.lits.len = s.lits.len ∧
      t.status.seqActive = false ∧ t.status.seqValid = false)
end

