-- ==== Sys2Proof/Laws/Bits.lean ====
section
/-! SUPPORT. The bits that the readers gather: their number, their range, and the start of a
backward bitstream. -/

namespace Sys2Proof.Machine

theorem gather_lt (bit : Nat → Bool) (k : Nat) : gather bit k < 2 ^ k := by
  induction k with
  | zero => simp [gather]
  | succ k ih =>
    rw [gather, Nat.pow_succ]
    cases bit k <;> simp <;> omega

/-- Bit `j` of a gathered number is the bit gathered at `j`. -/
theorem testBit_gather (bit : Nat → Bool) (k j : Nat) :
    (gather bit k).testBit j = (decide (j < k) && bit j) := by
  induction k with
  | zero => simp [gather]
  | succ k ih =>
    have hlt := gather_lt bit k
    rw [gather]
    have hsum : gather bit k + (bit k).toNat * 2 ^ k =
        2 ^ k * (bit k).toNat + gather bit k := by rw [Nat.mul_comm, Nat.add_comm]
    rw [hsum, Nat.testBit_two_pow_mul_add _ hlt]
    by_cases hj : j < k
    · simp [hj, ih, Nat.lt_succ_of_lt hj]
    · by_cases hjk : j = k
      · subst hjk
        cases bit j <;> simp
      · have h1 : ¬ j < k + 1 := by omega
        simp only [hj, if_false, h1, decide_false, Bool.false_and]
        cases bit k
        · simp
        · obtain ⟨d, hd⟩ := Nat.exists_eq_succ_of_ne_zero (show j - k ≠ 0 by omega)
          simp [hd, Nat.testBit_succ]

theorem backBits_lt (byte : Nat → Byte) (base : Nat) (pos : Int) (k : Nat) :
    backBits byte base pos k < 2 ^ k := gather_lt _ _

theorem fwdPeek_lt (byte : Nat → Byte) (fb fe fpos k : Nat) :
    fwdPeek byte fb fe fpos k < 2 ^ k := gather_lt _ _

theorem testBit_backBits (byte : Nat → Byte) (base : Nat) (pos : Int) (k j : Nat) :
    (backBits byte base pos k).testBit j =
      (decide (j < k) && (decide (0 ≤ pos - k + j) && streamBit byte base (pos - k + j).toNat)) :=
  testBit_gather _ _ _

theorem testBit_fwdPeek (byte : Nat → Byte) (fb fe fpos k j : Nat) :
    (fwdPeek byte fb fe fpos k).testBit j =
      (decide (j < k) &&
        (decide (fb + (fpos + j) / 8 < fe) && streamBit byte fb (fpos + j))) :=
  testBit_gather _ _ _

/-- A take that fails, of at most 10 bits from a position within the limit, is a `ShortRead` at most
one byte past the limit (rule R70); that address may be 2^32 (log 18). -/
theorem fwdTake_error {fb fe fpos k : Nat} {r : Raise} (h : fwdTake fb fe fpos k = .error r)
    (hin : 8 * fb + fpos ≤ 8 * fe) (hk : k ≤ 10) :
    r.fault = .shortRead ∧ (fe : Int) ≤ r.info ∧ r.info ≤ fe + 1 ∧ (k < 8 → r.info = fe) := by
  unfold fwdTake at h
  split at h
  · rename_i hlt
    rw [fwdEnd] at hlt
    cases h
    refine ⟨rfl, ?_, ?_, fun hk8 => ?_⟩ <;> simp only <;> omega
  · cases h

/-- `BackStart` answers exactly when the section has an end mark (rule R71). -/
theorem backStart_ok {byte : Nat → Byte} {base n p : Nat} :
    backStart byte base n = .ok p ↔
      n ≠ 0 ∧ (byte (base + n - 1)).toNat ≠ 0 ∧
        p = 8 * (n - 1) + Nat.log2 (byte (base + n - 1)).toNat := by
  unfold backStart
  by_cases h : n = 0
  · simp [h]
  · by_cases h2 : (byte (base + n - 1)).toNat = 0 <;> simp [h, h2, eq_comm]

theorem backStart_lt {byte : Nat → Byte} {base n p : Nat} (h : backStart byte base n = .ok p) :
    p < 8 * n := by
  obtain ⟨hn, hl, rfl⟩ := backStart_ok.1 h
  have : Nat.log2 (byte (base + n - 1)).toNat < 8 :=
    (Nat.log2_lt hl).2 (byte (base + n - 1)).isLt
  omega

end Sys2Proof.Machine
end

