-- ==== Sys2Proof/Laws/Cmd.lean ====
section
/-! SUPPORT. Running a piece of pseudocode: one equation per way of building one, presenting a
command as its body's outcome, and the calculus of what every piece of a body keeps. -/

namespace Sys2Proof.Machine

variable {α β : Type}

/-! ### Running -/

@[simp] theorem run_pure (a : α) (s : State) : (pure a : Cmd α) s = .ok a s := rfl

@[simp] theorem run_bind (x : Cmd α) (f : α → Cmd β) (s : State) :
    (x >>= f) s =
      match x s with
      | .ok a t => f a t
      | .error e t => .error e t := by
  show EStateM.bind x f s = _
  rw [EStateM.bind]
  cases x s <;> rfl

@[simp] theorem run_current (s : State) : current s = .ok s s := rfl

@[simp] theorem run_update (f : State → State) (s : State) : update f s = .ok () (f s) := rfl

@[simp] theorem run_raise (f : UnitFault) (info : Int) (s : State) :
    (raise f info : Cmd α) s = .error ⟨f, info⟩ s := rfl

theorem run_raiseIf (c : Prop) [Decidable c] (f : UnitFault) (info : Int) (s : State) :
    raiseIf c f info s = if c then .error ⟨f, info⟩ s else .ok () s := rfl

@[simp] theorem run_raiseIf_pos {c : Prop} {_ : Decidable c} (h : c) (f : UnitFault) (info : Int)
    (s : State) : raiseIf c f info s = .error ⟨f, info⟩ s := if_pos h

@[simp] theorem run_raiseIf_neg {c : Prop} {_ : Decidable c} (h : ¬c) (f : UnitFault) (info : Int)
    (s : State) : raiseIf c f info s = .ok () s := if_neg h

@[simp] theorem run_lift_ok (a : α) (s : State) : lift (.ok a : Except Raise α) s = .ok a s := rfl

@[simp] theorem run_lift_error (e : Raise) (s : State) :
    lift (.error e : Except Raise α) s = .error e s := rfl

theorem run_ite (c : Prop) [Decidable c] (x y : Cmd α) (s : State) :
    (if c then x else y) s = if c then x s else y s := by split <;> rfl

/-! ### Completed runs

Each says when a piece completes and what it leaves. -/

theorem bind_ok {x : Cmd α} {f : α → Cmd β} {s t : State} {b : β} :
    (x >>= f) s = .ok b t ↔ ∃ a u, x s = .ok a u ∧ f a u = .ok b t := by
  rw [run_bind]
  cases x s <;> simp

theorem raiseIf_ok {c : Prop} [Decidable c] {f : UnitFault} {info : Int} {s t : State} :
    raiseIf c f info s = .ok () t ↔ ¬c ∧ t = s := by
  rw [run_raiseIf]
  split <;> simp_all [eq_comm]

theorem lift_ok {r : Except Raise α} {s t : State} {a : α} :
    lift r s = .ok a t ↔ r = .ok a ∧ t = s := by
  cases r <;> simp [eq_comm]

theorem pure_ok {a b : α} {s t : State} : (pure a : Cmd α) s = .ok b t ↔ b = a ∧ t = s := by
  simp [eq_comm]

theorem update_ok {f : State → State} {s t : State} : update f s = .ok () t ↔ t = f s := by
  simp [eq_comm]

theorem current_ok {s t : State} {a : State} : current s = .ok a t ↔ a = s ∧ t = s := by
  simp [eq_comm]

/-! ### Presenting -/

/-- A command presented to a ready unit ends as its body does (rules R121, R314). -/
theorem present_ready {i : Instr} {body : Cmd Unit} {s : State} (hb : s.status.busy = false)
    (hf : s.status.fault = false) (hw : i.wf = true) :
    present i body s =
      match body (begin s) with
      | .ok _ t => .next (complete t)
      | .error r t => .next (faultEntry r t) := by
  have hl : legal i (begin s) = .ok () (begin s) := by
    simp [legal, hw]
  simp only [present, presentBody, hb, hf, run_bind, hl]
  rfl

/-- A term that no legal word encodes raises `IllegalCommand` (log 13). -/
theorem present_illFormed {i : Instr} {body : Cmd Unit} {s : State}
    (hb : s.status.busy = false) (hf : s.status.fault = false) (hw : i.wf = false) :
    present i body s =
      .next (faultEntry ⟨.illegalCommand, (encode i).w0.toNat⟩ (begin s)) := by
  have hl : legal i (begin s) =
      .error ⟨.illegalCommand, (encode i).w0.toNat⟩ (begin s) := by
    simp [legal, hw]
  simp only [present, presentBody, hb, hf, run_bind, hl]
  rfl

/-- The fault latch (rule R315). -/
theorem presentBody_latched {body : Cmd Unit} {s : State} (hb : s.status.busy = false)
    (hf : s.status.fault = true) : presentBody body s = .next s := by
  simp [presentBody, hb, hf]

/-- Presenting while busy is refused (U3). -/
theorem presentBody_busy {body : Cmd Unit} {s : State} (hb : s.status.busy = true) :
    presentBody body s = .refused .whileBusy := by
  simp [presentBody, hb]

/-- `exec` presents the instruction with its rule's pseudocode. -/
theorem exec_eq_present (i : Instr) (s : State) : exec i s = present i (bodyOf i) s := by
  cases i <;> rfl

/-- A command executed on a ready unit ends as its rule's pseudocode does (rules R121, R314). -/
theorem exec_ready {i : Instr} {s : State} (hb : s.status.busy = false)
    (hf : s.status.fault = false) (hw : i.wf = true) :
    exec i s =
      match bodyOf i (begin s) with
      | .ok _ t => .next (complete t)
      | .error r t => .next (faultEntry r t) := by
  rw [exec_eq_present, present_ready hb hf hw]

/-! ### What a body keeps -/

/-- Every run of `x`, completed or not, leads from its start to its end by `R`. -/
def Cmd.Keeps (R : State → State → Prop) (x : Cmd α) : Prop :=
  ∀ s, match x s with
    | .ok _ t => R s t
    | .error _ t => R s t

namespace Cmd.Keeps

variable {R : State → State → Prop}

theorem pure (hr : ∀ s, R s s) (a : α) : Cmd.Keeps R (pure a : Cmd α) := fun s => hr s

theorem current (hr : ∀ s, R s s) : Cmd.Keeps R current := fun s => hr s

theorem update {f : State → State} (h : ∀ s, R s (f s)) : Cmd.Keeps R (update f) := fun s => h s

theorem raise (hr : ∀ s, R s s) (f : UnitFault) (info : Int) :
    Cmd.Keeps R (raise f info : Cmd α) := fun s => hr s

theorem raiseIf (hr : ∀ s, R s s) (c : Prop) [Decidable c] (f : UnitFault) (info : Int) :
    Cmd.Keeps R (raiseIf c f info) := by
  intro s
  rw [run_raiseIf]
  by_cases h : c <;> simp [h, hr]

theorem lift (hr : ∀ s, R s s) (r : Except Raise α) : Cmd.Keeps R (lift r) := by
  intro s
  cases r <;> exact hr s

theorem bind (ht : ∀ s t u, R s t → R t u → R s u) {x : Cmd α} {f : α → Cmd β}
    (hx : Cmd.Keeps R x) (hf : ∀ a, Cmd.Keeps R (f a)) : Cmd.Keeps R (x >>= f) := by
  intro s
  have h1 := hx s
  rw [run_bind]
  cases hxs : x s with
  | ok a t =>
    rw [hxs] at h1
    have h2 := hf a t
    simp only
    cases hft : f a t with
    | ok b u => rw [hft] at h2; exact ht _ _ _ h1 h2
    | error e u => rw [hft] at h2; exact ht _ _ _ h1 h2
  | error e t => rw [hxs] at h1; exact h1

/-- A piece that keeps more keeps less. -/
theorem mono {R' : State → State → Prop} (h : ∀ s t, R s t → R' s t) {x : Cmd α}
    (hx : Cmd.Keeps R x) : Cmd.Keeps R' x := by
  intro s
  have := hx s
  cases hxs : x s <;> rw [hxs] at this <;> exact h _ _ this

theorem of_ok {x : Cmd α} (hx : Cmd.Keeps R x) {s t : State} {a : α} (h : x s = .ok a t) :
    R s t := by
  have := hx s
  rwa [h] at this

theorem of_error {x : Cmd α} (hx : Cmd.Keeps R x) {s t : State} {e : Raise}
    (h : x s = .error e t) : R s t := by
  have := hx s
  rwa [h] at this

end Cmd.Keeps

/-- What presenting a command does, once: nothing (latched), completion or fault of its body, or
`IllegalCommand`. -/
theorem present_cases {i : Instr} {body : Cmd Unit} {s t : State}
    (h : present i body s = .next t) :
    (s.status.busy = false ∧ s.status.fault = true ∧ t = s) ∨
    (s.status.busy = false ∧ s.status.fault = false ∧ i.wf = true ∧
      ∃ u, body (begin s) = .ok () u ∧ t = complete u) ∨
    (s.status.busy = false ∧ s.status.fault = false ∧ i.wf = true ∧
      ∃ r u, body (begin s) = .error r u ∧ t = faultEntry r u) ∨
    (s.status.busy = false ∧ s.status.fault = false ∧ i.wf = false ∧
      t = faultEntry ⟨.illegalCommand, (encode i).w0.toNat⟩ (begin s)) := by
  cases hb : s.status.busy with
  | true => simp [present, presentBody_busy hb] at h
  | false =>
    cases hf : s.status.fault with
    | true =>
      rw [present, presentBody_latched hb hf] at h
      injection h with h
      exact .inl ⟨rfl, rfl, h.symm⟩
    | false =>
      cases hw : i.wf with
      | false =>
        rw [present_illFormed hb hf hw] at h
        injection h with h
        exact .inr (.inr (.inr ⟨rfl, rfl, rfl, h.symm⟩))
      | true =>
        rw [present_ready hb hf hw] at h
        cases hx : body (begin s) with
        | ok a u =>
          rw [hx] at h
          injection h with h
          exact .inr (.inl ⟨rfl, rfl, rfl, u, rfl, h.symm⟩)
        | error r u =>
          rw [hx] at h
          injection h with h
          exact .inr (.inr (.inl ⟨rfl, rfl, rfl, r, u, rfl, h.symm⟩))

end Sys2Proof.Machine
end

