-- ==== Sys2Proof/Laws/Memory.lean ====
section
/-! SUPPORT. The laws of memory: read after write, writes elsewhere, the canonical form is kept, and
memories in canonical form are equal when they hold the same. -/

namespace Sys2Proof.Machine

namespace Memory

variable {α : Type}

@[simp] theorem lookup_nil (a : Nat) : lookup ([] : Memory α) a = none := rfl

theorem lookup_cons (b : Nat) (v : α) (m : Memory α) (a : Nat) :
    lookup ((b, v) :: m) a = if a = b then some v else lookup m a := rfl

/-- Read after write at the same address, and at every other (rule R62). -/
theorem lookup_write (m : Memory α) (a : Nat) (v : α) (b : Nat) :
    lookup (write m a v) b = if b = a then some v else lookup m b := by
  induction m with
  | nil => simp [write, lookup]
  | cons e m ih =>
    obtain ⟨c, w⟩ := e
    simp only [write]
    split
    · simp [lookup]
    · split
      · next h => subst h; simp only [lookup]; split <;> simp_all
      · simp only [lookup, ih]; split <;> split <;> simp_all

@[simp] theorem lookup_write_same (m : Memory α) (a : Nat) (v : α) :
    lookup (write m a v) a = some v := by
  simp [lookup_write]

theorem lookup_write_ne (m : Memory α) {a b : Nat} (v : α) (h : b ≠ a) :
    lookup (write m a v) b = lookup m b := by
  simp [lookup_write, h]

/-- What a range of writes stores, and what it leaves (rule R62). -/
theorem lookup_writeList (vs : List α) (m : Memory α) (a b : Nat) :
    lookup (writeList m a vs) b =
      if a ≤ b ∧ b < a + vs.length then vs[b - a]? else lookup m b := by
  induction vs generalizing m a with
  | nil => simp only [writeList, List.length_nil]; split <;> first | omega | rfl
  | cons v vs ih =>
    rw [writeList, ih, lookup_write]
    simp only [List.length_cons]
    by_cases h1 : b = a
    · subst h1
      rw [if_neg (by omega), if_pos rfl, if_pos (by omega)]
      simp
    · rw [if_neg h1]
      by_cases h2 : a + 1 ≤ b ∧ b < a + 1 + vs.length
      · rw [if_pos h2, if_pos (by omega)]
        have : b - a = (b - (a + 1)) + 1 := by omega
        rw [this, List.getElem?_cons_succ]
      · rw [if_neg h2, if_neg (by omega)]

theorem lookup_writeList_outside (vs : List α) (m : Memory α) {a b : Nat}
    (h : b < a ∨ a + vs.length ≤ b) : lookup (writeList m a vs) b = lookup m b := by
  rw [lookup_writeList, if_neg (by omega)]

theorem lookup_writeList_inside (vs : List α) (m : Memory α) {a i : Nat} (h : i < vs.length) :
    lookup (writeList m a vs) (a + i) = some vs[i] := by
  rw [lookup_writeList, if_pos (by omega), Nat.add_sub_cancel_left, List.getElem?_eq_getElem h]

@[simp] theorem writeList_nil (m : Memory α) (a : Nat) : writeList m a [] = m := rfl

theorem writeList_append (m : Memory α) (a : Nat) (xs ys : List α) :
    writeList m a (xs ++ ys) = writeList (writeList m a xs) (a + xs.length) ys := by
  induction xs generalizing m a with
  | nil => simp
  | cons x xs ih =>
    simp only [List.cons_append, writeList, ih, List.length_cons]
    congr 1
    omega

/-! ### The canonical form -/

@[simp] theorem wf_nil : wf ([] : Memory α) := List.Pairwise.nil

/-- Every address of a write was there before or is the one written. -/
theorem mem_write {m : Memory α} {a : Nat} {v : α} {x : Nat × α} (h : x ∈ write m a v) :
    x = (a, v) ∨ x ∈ m := by
  induction m with
  | nil => simpa [write] using h
  | cons e m ih =>
    obtain ⟨c, w⟩ := e
    simp only [write] at h
    split at h
    · simpa using h
    · split at h
      · rcases List.mem_cons.1 h with h | h
        · exact .inl h
        · exact .inr (List.mem_cons_of_mem _ h)
      · rcases List.mem_cons.1 h with h | h
        · exact .inr (h ▸ List.mem_cons_self)
        · exact (ih h).imp id (List.mem_cons_of_mem _)

/-- A write keeps the canonical form. -/
theorem wf_write {m : Memory α} (h : wf m) (a : Nat) (v : α) : wf (write m a v) := by
  induction m with
  | nil => simp [write, wf]
  | cons e m ih =>
    obtain ⟨c, w⟩ := e
    obtain ⟨h1, h2⟩ := List.pairwise_cons.1 h
    simp only [write]
    split
    · next hlt =>
      refine List.pairwise_cons.2 ⟨fun x hx => ?_, h⟩
      rcases List.mem_cons.1 hx with rfl | hx
      · exact hlt
      · exact Nat.lt_trans hlt (h1 x hx)
    · split
      · next heq => exact List.pairwise_cons.2 ⟨fun x hx => heq ▸ h1 x hx, h2⟩
      · next hn hne =>
        refine List.pairwise_cons.2 ⟨fun x hx => ?_, ih h2⟩
        rcases mem_write hx with rfl | hx
        · simp only; omega
        · exact h1 x hx

/-- A range of writes keeps the canonical form. -/
theorem wf_writeList {m : Memory α} (h : wf m) (a : Nat) (vs : List α) :
    wf (writeList m a vs) := by
  induction vs generalizing m a with
  | nil => exact h
  | cons v vs ih => exact ih (wf_write h a v) (a + 1)

/-- Below the least address of a memory in canonical form nothing is stored. -/
theorem lookup_eq_none_of_lt {m : Memory α} {a : Nat} (h : ∀ x ∈ m, a < x.1) :
    lookup m a = none := by
  induction m with
  | nil => rfl
  | cons e m ih =>
    obtain ⟨c, w⟩ := e
    have := h (c, w) List.mem_cons_self
    rw [lookup_cons, if_neg (by simp only at this; omega)]
    exact ih fun x hx => h x (List.mem_cons_of_mem _ hx)

/-- Memories in canonical form that hold the same at every address are the same data. -/
theorem ext_of_wf {m m' : Memory α} (h : wf m) (h' : wf m')
    (heq : ∀ a, lookup m a = lookup m' a) : m = m' := by
  induction m generalizing m' with
  | nil =>
    cases m' with
    | nil => rfl
    | cons e m' =>
      obtain ⟨c, w⟩ := e
      simpa [lookup] using heq c
  | cons e m ih =>
    obtain ⟨c, w⟩ := e
    obtain ⟨h1, h2⟩ := List.pairwise_cons.1 h
    cases m' with
    | nil => simpa [lookup] using heq c
    | cons e' m' =>
      obtain ⟨c', w'⟩ := e'
      obtain ⟨h1', h2'⟩ := List.pairwise_cons.1 h'
      have hcc : c = c' := by
        rcases Nat.lt_trichotomy c c' with hlt | heq' | hlt
        · have := heq c
          rw [lookup_cons, if_pos rfl, lookup_cons, if_neg (by omega),
            lookup_eq_none_of_lt fun x hx => Nat.lt_trans hlt (h1' x hx)] at this
          cases this
        · exact heq'
        · have := heq c'
          rw [lookup_cons, if_neg (by omega), lookup_eq_none_of_lt
            fun x hx => Nat.lt_trans hlt (h1 x hx), lookup_cons, if_pos rfl] at this
          cases this
      subst hcc
      have hww := heq c
      simp only [lookup_cons, if_true] at hww
      cases hww
      congr 1
      refine ih h2 h2' fun a => ?_
      by_cases hac : a = c
      · subst hac
        rw [lookup_eq_none_of_lt h1, lookup_eq_none_of_lt h1']
      · have := heq a
        rwa [lookup_cons, if_neg hac, lookup_cons, if_neg hac] at this

/-! ### Bytes -/

theorem byte_write (m : Memory Byte) (free : Nat → Byte) (a : Nat) (v : Byte) (b : Nat) :
    byte (write m a v) free b = if b = a then v else byte m free b := by
  simp only [byte, lookup_write]
  split <;> rfl

theorem byte_writeList_outside (vs : List Byte) (m : Memory Byte) (free : Nat → Byte)
    {a b : Nat} (h : b < a ∨ a + vs.length ≤ b) :
    byte (writeList m a vs) free b = byte m free b := by
  simp only [byte, lookup_writeList_outside vs m h]

theorem byte_writeList_inside (vs : List Byte) (m : Memory Byte) (free : Nat → Byte)
    {a i : Nat} (h : i < vs.length) :
    byte (writeList m a vs) free (a + i) = vs[i] := by
  simp [byte, lookup_writeList_inside vs m h]

end Memory

@[simp] theorem length_memRead (byte : Nat → Byte) (a n : Nat) :
    (memRead byte a n).length = n := by
  induction n generalizing a with
  | zero => rfl
  | succ n ih => simp [memRead, ih]

theorem getElem_memRead (byte : Nat → Byte) (a n i : Nat) (h : i < (memRead byte a n).length) :
    (memRead byte a n)[i] = byte (a + i) := by
  induction n generalizing a i with
  | zero => simp [memRead] at h
  | succ n ih =>
    cases i with
    | zero => rfl
    | succ i =>
      simp only [memRead, List.getElem_cons_succ]
      rw [ih]
      congr 1
      omega

end Sys2Proof.Machine
end

