-- ==== Sys2Proof/Laws/State.lean ====
section
/-! SUPPORT. One lemma per component of State and update: what each update of State writes and what
it leaves alone. -/

namespace Sys2Proof.Machine

namespace State

variable (s : State)

/-! ### `setStatus` -/

@[simp] theorem setStatus_status (x : Status) : (s.setStatus x).status = x := rfl
@[simp] theorem setStatus_err (x : Status) : (s.setStatus x).err = s.err := rfl
@[simp] theorem setStatus_errInfo (x : Status) : (s.setStatus x).errInfo = s.errInfo := rfl
@[simp] theorem setStatus_cp (x : Status) : (s.setStatus x).cp = s.cp := rfl
@[simp] theorem setStatus_reader (x : Status) : (s.setStatus x).reader = s.reader := rfl
@[simp] theorem setStatus_window (x : Status) : (s.setStatus x).window = s.window := rfl
@[simp] theorem setStatus_lits (x : Status) : (s.setStatus x).lits = s.lits := rfl
@[simp] theorem setStatus_bits (x : Status) : (s.setStatus x).bits = s.bits := rfl
@[simp] theorem setStatus_val (x : Status) : (s.setStatus x).val = s.val := rfl
@[simp] theorem setStatus_sym (x : Status) : (s.setStatus x).sym = s.sym := rfl
@[simp] theorem setStatus_slots (x : Status) : (s.setStatus x).slots = s.slots := rfl
@[simp] theorem setStatus_huf (x : Status) : (s.setStatus x).huf = s.huf := rfl
@[simp] theorem setStatus_reps (x : Status) : (s.setStatus x).reps = s.reps := rfl
@[simp] theorem setStatus_seq (x : Status) : (s.setStatus x).seq = s.seq := rfl
@[simp] theorem setStatus_params (x : Status) : (s.setStatus x).params = s.params := rfl
@[simp] theorem setStatus_host (x : Status) : (s.setStatus x).host = s.host := rfl

/-! ### `setErr` -/

@[simp] theorem setErr_status (x : Word) : (s.setErr x).status = s.status := rfl
@[simp] theorem setErr_err (x : Word) : (s.setErr x).err = x := rfl
@[simp] theorem setErr_errInfo (x : Word) : (s.setErr x).errInfo = s.errInfo := rfl
@[simp] theorem setErr_cp (x : Word) : (s.setErr x).cp = s.cp := rfl
@[simp] theorem setErr_reader (x : Word) : (s.setErr x).reader = s.reader := rfl
@[simp] theorem setErr_window (x : Word) : (s.setErr x).window = s.window := rfl
@[simp] theorem setErr_lits (x : Word) : (s.setErr x).lits = s.lits := rfl
@[simp] theorem setErr_bits (x : Word) : (s.setErr x).bits = s.bits := rfl
@[simp] theorem setErr_val (x : Word) : (s.setErr x).val = s.val := rfl
@[simp] theorem setErr_sym (x : Word) : (s.setErr x).sym = s.sym := rfl
@[simp] theorem setErr_slots (x : Word) : (s.setErr x).slots = s.slots := rfl
@[simp] theorem setErr_huf (x : Word) : (s.setErr x).huf = s.huf := rfl
@[simp] theorem setErr_reps (x : Word) : (s.setErr x).reps = s.reps := rfl
@[simp] theorem setErr_seq (x : Word) : (s.setErr x).seq = s.seq := rfl
@[simp] theorem setErr_params (x : Word) : (s.setErr x).params = s.params := rfl
@[simp] theorem setErr_host (x : Word) : (s.setErr x).host = s.host := rfl

/-! ### `setErrInfo` -/

@[simp] theorem setErrInfo_status (x : Word) : (s.setErrInfo x).status = s.status := rfl
@[simp] theorem setErrInfo_err (x : Word) : (s.setErrInfo x).err = s.err := rfl
@[simp] theorem setErrInfo_errInfo (x : Word) : (s.setErrInfo x).errInfo = x := rfl
@[simp] theorem setErrInfo_cp (x : Word) : (s.setErrInfo x).cp = s.cp := rfl
@[simp] theorem setErrInfo_reader (x : Word) : (s.setErrInfo x).reader = s.reader := rfl
@[simp] theorem setErrInfo_window (x : Word) : (s.setErrInfo x).window = s.window := rfl
@[simp] theorem setErrInfo_lits (x : Word) : (s.setErrInfo x).lits = s.lits := rfl
@[simp] theorem setErrInfo_bits (x : Word) : (s.setErrInfo x).bits = s.bits := rfl
@[simp] theorem setErrInfo_val (x : Word) : (s.setErrInfo x).val = s.val := rfl
@[simp] theorem setErrInfo_sym (x : Word) : (s.setErrInfo x).sym = s.sym := rfl
@[simp] theorem setErrInfo_slots (x : Word) : (s.setErrInfo x).slots = s.slots := rfl
@[simp] theorem setErrInfo_huf (x : Word) : (s.setErrInfo x).huf = s.huf := rfl
@[simp] theorem setErrInfo_reps (x : Word) : (s.setErrInfo x).reps = s.reps := rfl
@[simp] theorem setErrInfo_seq (x : Word) : (s.setErrInfo x).seq = s.seq := rfl
@[simp] theorem setErrInfo_params (x : Word) : (s.setErrInfo x).params = s.params := rfl
@[simp] theorem setErrInfo_host (x : Word) : (s.setErrInfo x).host = s.host := rfl

/-! ### `setCp` -/

@[simp] theorem setCp_status (x : Word) : (s.setCp x).status = s.status := rfl
@[simp] theorem setCp_err (x : Word) : (s.setCp x).err = s.err := rfl
@[simp] theorem setCp_errInfo (x : Word) : (s.setCp x).errInfo = s.errInfo := rfl
@[simp] theorem setCp_cp (x : Word) : (s.setCp x).cp = x := rfl
@[simp] theorem setCp_reader (x : Word) : (s.setCp x).reader = s.reader := rfl
@[simp] theorem setCp_window (x : Word) : (s.setCp x).window = s.window := rfl
@[simp] theorem setCp_lits (x : Word) : (s.setCp x).lits = s.lits := rfl
@[simp] theorem setCp_bits (x : Word) : (s.setCp x).bits = s.bits := rfl
@[simp] theorem setCp_val (x : Word) : (s.setCp x).val = s.val := rfl
@[simp] theorem setCp_sym (x : Word) : (s.setCp x).sym = s.sym := rfl
@[simp] theorem setCp_slots (x : Word) : (s.setCp x).slots = s.slots := rfl
@[simp] theorem setCp_huf (x : Word) : (s.setCp x).huf = s.huf := rfl
@[simp] theorem setCp_reps (x : Word) : (s.setCp x).reps = s.reps := rfl
@[simp] theorem setCp_seq (x : Word) : (s.setCp x).seq = s.seq := rfl
@[simp] theorem setCp_params (x : Word) : (s.setCp x).params = s.params := rfl
@[simp] theorem setCp_host (x : Word) : (s.setCp x).host = s.host := rfl

/-! ### `setReader` -/

@[simp] theorem setReader_status (x : Reader) : (s.setReader x).status = s.status := rfl
@[simp] theorem setReader_err (x : Reader) : (s.setReader x).err = s.err := rfl
@[simp] theorem setReader_errInfo (x : Reader) : (s.setReader x).errInfo = s.errInfo := rfl
@[simp] theorem setReader_cp (x : Reader) : (s.setReader x).cp = s.cp := rfl
@[simp] theorem setReader_reader (x : Reader) : (s.setReader x).reader = x := rfl
@[simp] theorem setReader_window (x : Reader) : (s.setReader x).window = s.window := rfl
@[simp] theorem setReader_lits (x : Reader) : (s.setReader x).lits = s.lits := rfl
@[simp] theorem setReader_bits (x : Reader) : (s.setReader x).bits = s.bits := rfl
@[simp] theorem setReader_val (x : Reader) : (s.setReader x).val = s.val := rfl
@[simp] theorem setReader_sym (x : Reader) : (s.setReader x).sym = s.sym := rfl
@[simp] theorem setReader_slots (x : Reader) : (s.setReader x).slots = s.slots := rfl
@[simp] theorem setReader_huf (x : Reader) : (s.setReader x).huf = s.huf := rfl
@[simp] theorem setReader_reps (x : Reader) : (s.setReader x).reps = s.reps := rfl
@[simp] theorem setReader_seq (x : Reader) : (s.setReader x).seq = s.seq := rfl
@[simp] theorem setReader_params (x : Reader) : (s.setReader x).params = s.params := rfl
@[simp] theorem setReader_host (x : Reader) : (s.setReader x).host = s.host := rfl

/-! ### `setWindow` -/

@[simp] theorem setWindow_status (x : Window) : (s.setWindow x).status = s.status := rfl
@[simp] theorem setWindow_err (x : Window) : (s.setWindow x).err = s.err := rfl
@[simp] theorem setWindow_errInfo (x : Window) : (s.setWindow x).errInfo = s.errInfo := rfl
@[simp] theorem setWindow_cp (x : Window) : (s.setWindow x).cp = s.cp := rfl
@[simp] theorem setWindow_reader (x : Window) : (s.setWindow x).reader = s.reader := rfl
@[simp] theorem setWindow_window (x : Window) : (s.setWindow x).window = x := rfl
@[simp] theorem setWindow_lits (x : Window) : (s.setWindow x).lits = s.lits := rfl
@[simp] theorem setWindow_bits (x : Window) : (s.setWindow x).bits = s.bits := rfl
@[simp] theorem setWindow_val (x : Window) : (s.setWindow x).val = s.val := rfl
@[simp] theorem setWindow_sym (x : Window) : (s.setWindow x).sym = s.sym := rfl
@[simp] theorem setWindow_slots (x : Window) : (s.setWindow x).slots = s.slots := rfl
@[simp] theorem setWindow_huf (x : Window) : (s.setWindow x).huf = s.huf := rfl
@[simp] theorem setWindow_reps (x : Window) : (s.setWindow x).reps = s.reps := rfl
@[simp] theorem setWindow_seq (x : Window) : (s.setWindow x).seq = s.seq := rfl
@[simp] theorem setWindow_params (x : Window) : (s.setWindow x).params = s.params := rfl
@[simp] theorem setWindow_host (x : Window) : (s.setWindow x).host = s.host := rfl

/-! ### `setLits` -/

@[simp] theorem setLits_status (x : Literals) : (s.setLits x).status = s.status := rfl
@[simp] theorem setLits_err (x : Literals) : (s.setLits x).err = s.err := rfl
@[simp] theorem setLits_errInfo (x : Literals) : (s.setLits x).errInfo = s.errInfo := rfl
@[simp] theorem setLits_cp (x : Literals) : (s.setLits x).cp = s.cp := rfl
@[simp] theorem setLits_reader (x : Literals) : (s.setLits x).reader = s.reader := rfl
@[simp] theorem setLits_window (x : Literals) : (s.setLits x).window = s.window := rfl
@[simp] theorem setLits_lits (x : Literals) : (s.setLits x).lits = x := rfl
@[simp] theorem setLits_bits (x : Literals) : (s.setLits x).bits = s.bits := rfl
@[simp] theorem setLits_val (x : Literals) : (s.setLits x).val = s.val := rfl
@[simp] theorem setLits_sym (x : Literals) : (s.setLits x).sym = s.sym := rfl
@[simp] theorem setLits_slots (x : Literals) : (s.setLits x).slots = s.slots := rfl
@[simp] theorem setLits_huf (x : Literals) : (s.setLits x).huf = s.huf := rfl
@[simp] theorem setLits_reps (x : Literals) : (s.setLits x).reps = s.reps := rfl
@[simp] theorem setLits_seq (x : Literals) : (s.setLits x).seq = s.seq := rfl
@[simp] theorem setLits_params (x : Literals) : (s.setLits x).params = s.params := rfl
@[simp] theorem setLits_host (x : Literals) : (s.setLits x).host = s.host := rfl

/-! ### `setBits` -/

@[simp] theorem setBits_status (x : Bitstream) : (s.setBits x).status = s.status := rfl
@[simp] theorem setBits_err (x : Bitstream) : (s.setBits x).err = s.err := rfl
@[simp] theorem setBits_errInfo (x : Bitstream) : (s.setBits x).errInfo = s.errInfo := rfl
@[simp] theorem setBits_cp (x : Bitstream) : (s.setBits x).cp = s.cp := rfl
@[simp] theorem setBits_reader (x : Bitstream) : (s.setBits x).reader = s.reader := rfl
@[simp] theorem setBits_window (x : Bitstream) : (s.setBits x).window = s.window := rfl
@[simp] theorem setBits_lits (x : Bitstream) : (s.setBits x).lits = s.lits := rfl
@[simp] theorem setBits_bits (x : Bitstream) : (s.setBits x).bits = x := rfl
@[simp] theorem setBits_val (x : Bitstream) : (s.setBits x).val = s.val := rfl
@[simp] theorem setBits_sym (x : Bitstream) : (s.setBits x).sym = s.sym := rfl
@[simp] theorem setBits_slots (x : Bitstream) : (s.setBits x).slots = s.slots := rfl
@[simp] theorem setBits_huf (x : Bitstream) : (s.setBits x).huf = s.huf := rfl
@[simp] theorem setBits_reps (x : Bitstream) : (s.setBits x).reps = s.reps := rfl
@[simp] theorem setBits_seq (x : Bitstream) : (s.setBits x).seq = s.seq := rfl
@[simp] theorem setBits_params (x : Bitstream) : (s.setBits x).params = s.params := rfl
@[simp] theorem setBits_host (x : Bitstream) : (s.setBits x).host = s.host := rfl

/-! ### `setVal` -/

@[simp] theorem setVal_status (x : Word) : (s.setVal x).status = s.status := rfl
@[simp] theorem setVal_err (x : Word) : (s.setVal x).err = s.err := rfl
@[simp] theorem setVal_errInfo (x : Word) : (s.setVal x).errInfo = s.errInfo := rfl
@[simp] theorem setVal_cp (x : Word) : (s.setVal x).cp = s.cp := rfl
@[simp] theorem setVal_reader (x : Word) : (s.setVal x).reader = s.reader := rfl
@[simp] theorem setVal_window (x : Word) : (s.setVal x).window = s.window := rfl
@[simp] theorem setVal_lits (x : Word) : (s.setVal x).lits = s.lits := rfl
@[simp] theorem setVal_bits (x : Word) : (s.setVal x).bits = s.bits := rfl
@[simp] theorem setVal_val (x : Word) : (s.setVal x).val = x := rfl
@[simp] theorem setVal_sym (x : Word) : (s.setVal x).sym = s.sym := rfl
@[simp] theorem setVal_slots (x : Word) : (s.setVal x).slots = s.slots := rfl
@[simp] theorem setVal_huf (x : Word) : (s.setVal x).huf = s.huf := rfl
@[simp] theorem setVal_reps (x : Word) : (s.setVal x).reps = s.reps := rfl
@[simp] theorem setVal_seq (x : Word) : (s.setVal x).seq = s.seq := rfl
@[simp] theorem setVal_params (x : Word) : (s.setVal x).params = s.params := rfl
@[simp] theorem setVal_host (x : Word) : (s.setVal x).host = s.host := rfl

/-! ### `setSym` -/

@[simp] theorem setSym_status (x : Word) : (s.setSym x).status = s.status := rfl
@[simp] theorem setSym_err (x : Word) : (s.setSym x).err = s.err := rfl
@[simp] theorem setSym_errInfo (x : Word) : (s.setSym x).errInfo = s.errInfo := rfl
@[simp] theorem setSym_cp (x : Word) : (s.setSym x).cp = s.cp := rfl
@[simp] theorem setSym_reader (x : Word) : (s.setSym x).reader = s.reader := rfl
@[simp] theorem setSym_window (x : Word) : (s.setSym x).window = s.window := rfl
@[simp] theorem setSym_lits (x : Word) : (s.setSym x).lits = s.lits := rfl
@[simp] theorem setSym_bits (x : Word) : (s.setSym x).bits = s.bits := rfl
@[simp] theorem setSym_val (x : Word) : (s.setSym x).val = s.val := rfl
@[simp] theorem setSym_sym (x : Word) : (s.setSym x).sym = x := rfl
@[simp] theorem setSym_slots (x : Word) : (s.setSym x).slots = s.slots := rfl
@[simp] theorem setSym_huf (x : Word) : (s.setSym x).huf = s.huf := rfl
@[simp] theorem setSym_reps (x : Word) : (s.setSym x).reps = s.reps := rfl
@[simp] theorem setSym_seq (x : Word) : (s.setSym x).seq = s.seq := rfl
@[simp] theorem setSym_params (x : Word) : (s.setSym x).params = s.params := rfl
@[simp] theorem setSym_host (x : Word) : (s.setSym x).host = s.host := rfl

/-! ### `setSlots` -/

@[simp] theorem setSlots_status (x : Slots) : (s.setSlots x).status = s.status := rfl
@[simp] theorem setSlots_err (x : Slots) : (s.setSlots x).err = s.err := rfl
@[simp] theorem setSlots_errInfo (x : Slots) : (s.setSlots x).errInfo = s.errInfo := rfl
@[simp] theorem setSlots_cp (x : Slots) : (s.setSlots x).cp = s.cp := rfl
@[simp] theorem setSlots_reader (x : Slots) : (s.setSlots x).reader = s.reader := rfl
@[simp] theorem setSlots_window (x : Slots) : (s.setSlots x).window = s.window := rfl
@[simp] theorem setSlots_lits (x : Slots) : (s.setSlots x).lits = s.lits := rfl
@[simp] theorem setSlots_bits (x : Slots) : (s.setSlots x).bits = s.bits := rfl
@[simp] theorem setSlots_val (x : Slots) : (s.setSlots x).val = s.val := rfl
@[simp] theorem setSlots_sym (x : Slots) : (s.setSlots x).sym = s.sym := rfl
@[simp] theorem setSlots_slots (x : Slots) : (s.setSlots x).slots = x := rfl
@[simp] theorem setSlots_huf (x : Slots) : (s.setSlots x).huf = s.huf := rfl
@[simp] theorem setSlots_reps (x : Slots) : (s.setSlots x).reps = s.reps := rfl
@[simp] theorem setSlots_seq (x : Slots) : (s.setSlots x).seq = s.seq := rfl
@[simp] theorem setSlots_params (x : Slots) : (s.setSlots x).params = s.params := rfl
@[simp] theorem setSlots_host (x : Slots) : (s.setSlots x).host = s.host := rfl

/-! ### `setHuf` -/

@[simp] theorem setHuf_status (x : Huffman) : (s.setHuf x).status = s.status := rfl
@[simp] theorem setHuf_err (x : Huffman) : (s.setHuf x).err = s.err := rfl
@[simp] theorem setHuf_errInfo (x : Huffman) : (s.setHuf x).errInfo = s.errInfo := rfl
@[simp] theorem setHuf_cp (x : Huffman) : (s.setHuf x).cp = s.cp := rfl
@[simp] theorem setHuf_reader (x : Huffman) : (s.setHuf x).reader = s.reader := rfl
@[simp] theorem setHuf_window (x : Huffman) : (s.setHuf x).window = s.window := rfl
@[simp] theorem setHuf_lits (x : Huffman) : (s.setHuf x).lits = s.lits := rfl
@[simp] theorem setHuf_bits (x : Huffman) : (s.setHuf x).bits = s.bits := rfl
@[simp] theorem setHuf_val (x : Huffman) : (s.setHuf x).val = s.val := rfl
@[simp] theorem setHuf_sym (x : Huffman) : (s.setHuf x).sym = s.sym := rfl
@[simp] theorem setHuf_slots (x : Huffman) : (s.setHuf x).slots = s.slots := rfl
@[simp] theorem setHuf_huf (x : Huffman) : (s.setHuf x).huf = x := rfl
@[simp] theorem setHuf_reps (x : Huffman) : (s.setHuf x).reps = s.reps := rfl
@[simp] theorem setHuf_seq (x : Huffman) : (s.setHuf x).seq = s.seq := rfl
@[simp] theorem setHuf_params (x : Huffman) : (s.setHuf x).params = s.params := rfl
@[simp] theorem setHuf_host (x : Huffman) : (s.setHuf x).host = s.host := rfl

/-! ### `setReps` -/

@[simp] theorem setReps_status (x : Reps) : (s.setReps x).status = s.status := rfl
@[simp] theorem setReps_err (x : Reps) : (s.setReps x).err = s.err := rfl
@[simp] theorem setReps_errInfo (x : Reps) : (s.setReps x).errInfo = s.errInfo := rfl
@[simp] theorem setReps_cp (x : Reps) : (s.setReps x).cp = s.cp := rfl
@[simp] theorem setReps_reader (x : Reps) : (s.setReps x).reader = s.reader := rfl
@[simp] theorem setReps_window (x : Reps) : (s.setReps x).window = s.window := rfl
@[simp] theorem setReps_lits (x : Reps) : (s.setReps x).lits = s.lits := rfl
@[simp] theorem setReps_bits (x : Reps) : (s.setReps x).bits = s.bits := rfl
@[simp] theorem setReps_val (x : Reps) : (s.setReps x).val = s.val := rfl
@[simp] theorem setReps_sym (x : Reps) : (s.setReps x).sym = s.sym := rfl
@[simp] theorem setReps_slots (x : Reps) : (s.setReps x).slots = s.slots := rfl
@[simp] theorem setReps_huf (x : Reps) : (s.setReps x).huf = s.huf := rfl
@[simp] theorem setReps_reps (x : Reps) : (s.setReps x).reps = x := rfl
@[simp] theorem setReps_seq (x : Reps) : (s.setReps x).seq = s.seq := rfl
@[simp] theorem setReps_params (x : Reps) : (s.setReps x).params = s.params := rfl
@[simp] theorem setReps_host (x : Reps) : (s.setReps x).host = s.host := rfl

/-! ### `setSeq` -/

@[simp] theorem setSeq_status (x : SeqRegs) : (s.setSeq x).status = s.status := rfl
@[simp] theorem setSeq_err (x : SeqRegs) : (s.setSeq x).err = s.err := rfl
@[simp] theorem setSeq_errInfo (x : SeqRegs) : (s.setSeq x).errInfo = s.errInfo := rfl
@[simp] theorem setSeq_cp (x : SeqRegs) : (s.setSeq x).cp = s.cp := rfl
@[simp] theorem setSeq_reader (x : SeqRegs) : (s.setSeq x).reader = s.reader := rfl
@[simp] theorem setSeq_window (x : SeqRegs) : (s.setSeq x).window = s.window := rfl
@[simp] theorem setSeq_lits (x : SeqRegs) : (s.setSeq x).lits = s.lits := rfl
@[simp] theorem setSeq_bits (x : SeqRegs) : (s.setSeq x).bits = s.bits := rfl
@[simp] theorem setSeq_val (x : SeqRegs) : (s.setSeq x).val = s.val := rfl
@[simp] theorem setSeq_sym (x : SeqRegs) : (s.setSeq x).sym = s.sym := rfl
@[simp] theorem setSeq_slots (x : SeqRegs) : (s.setSeq x).slots = s.slots := rfl
@[simp] theorem setSeq_huf (x : SeqRegs) : (s.setSeq x).huf = s.huf := rfl
@[simp] theorem setSeq_reps (x : SeqRegs) : (s.setSeq x).reps = s.reps := rfl
@[simp] theorem setSeq_seq (x : SeqRegs) : (s.setSeq x).seq = x := rfl
@[simp] theorem setSeq_params (x : SeqRegs) : (s.setSeq x).params = s.params := rfl
@[simp] theorem setSeq_host (x : SeqRegs) : (s.setSeq x).host = s.host := rfl

/-! ### `setHost` -/

@[simp] theorem setHost_status (x : HostSide) : (s.setHost x).status = s.status := rfl
@[simp] theorem setHost_err (x : HostSide) : (s.setHost x).err = s.err := rfl
@[simp] theorem setHost_errInfo (x : HostSide) : (s.setHost x).errInfo = s.errInfo := rfl
@[simp] theorem setHost_cp (x : HostSide) : (s.setHost x).cp = s.cp := rfl
@[simp] theorem setHost_reader (x : HostSide) : (s.setHost x).reader = s.reader := rfl
@[simp] theorem setHost_window (x : HostSide) : (s.setHost x).window = s.window := rfl
@[simp] theorem setHost_lits (x : HostSide) : (s.setHost x).lits = s.lits := rfl
@[simp] theorem setHost_bits (x : HostSide) : (s.setHost x).bits = s.bits := rfl
@[simp] theorem setHost_val (x : HostSide) : (s.setHost x).val = s.val := rfl
@[simp] theorem setHost_sym (x : HostSide) : (s.setHost x).sym = s.sym := rfl
@[simp] theorem setHost_slots (x : HostSide) : (s.setHost x).slots = s.slots := rfl
@[simp] theorem setHost_huf (x : HostSide) : (s.setHost x).huf = s.huf := rfl
@[simp] theorem setHost_reps (x : HostSide) : (s.setHost x).reps = s.reps := rfl
@[simp] theorem setHost_seq (x : HostSide) : (s.setHost x).seq = s.seq := rfl
@[simp] theorem setHost_params (x : HostSide) : (s.setHost x).params = s.params := rfl
@[simp] theorem setHost_host (x : HostSide) : (s.setHost x).host = x := rfl

/-! ### `setSlot` -/

@[simp] theorem setSlot_status (sl : Slot) (x : FseSlot) : (s.setSlot sl x).status = s.status := rfl
@[simp] theorem setSlot_err (sl : Slot) (x : FseSlot) : (s.setSlot sl x).err = s.err := rfl
@[simp] theorem setSlot_errInfo (sl : Slot) (x : FseSlot) :
    (s.setSlot sl x).errInfo =
      s.errInfo := rfl
@[simp] theorem setSlot_cp (sl : Slot) (x : FseSlot) : (s.setSlot sl x).cp = s.cp := rfl
@[simp] theorem setSlot_reader (sl : Slot) (x : FseSlot) : (s.setSlot sl x).reader = s.reader := rfl
@[simp] theorem setSlot_window (sl : Slot) (x : FseSlot) : (s.setSlot sl x).window = s.window := rfl
@[simp] theorem setSlot_lits (sl : Slot) (x : FseSlot) : (s.setSlot sl x).lits = s.lits := rfl
@[simp] theorem setSlot_bits (sl : Slot) (x : FseSlot) : (s.setSlot sl x).bits = s.bits := rfl
@[simp] theorem setSlot_val (sl : Slot) (x : FseSlot) : (s.setSlot sl x).val = s.val := rfl
@[simp] theorem setSlot_sym (sl : Slot) (x : FseSlot) : (s.setSlot sl x).sym = s.sym := rfl
@[simp] theorem setSlot_slots (sl : Slot) (x : FseSlot) :
    (s.setSlot sl x).slots =
      s.slots.set sl x := rfl
@[simp] theorem setSlot_huf (sl : Slot) (x : FseSlot) : (s.setSlot sl x).huf = s.huf := rfl
@[simp] theorem setSlot_reps (sl : Slot) (x : FseSlot) : (s.setSlot sl x).reps = s.reps := rfl
@[simp] theorem setSlot_seq (sl : Slot) (x : FseSlot) : (s.setSlot sl x).seq = s.seq := rfl
@[simp] theorem setSlot_params (sl : Slot) (x : FseSlot) : (s.setSlot sl x).params = s.params := rfl
@[simp] theorem setSlot_host (sl : Slot) (x : FseSlot) : (s.setSlot sl x).host = s.host := rfl

/-! ### `setRpos` -/

@[simp] theorem setRpos_status (v : Nat) : (s.setRpos v).status = s.status := rfl
@[simp] theorem setRpos_err (v : Nat) : (s.setRpos v).err = s.err := rfl
@[simp] theorem setRpos_errInfo (v : Nat) : (s.setRpos v).errInfo = s.errInfo := rfl
@[simp] theorem setRpos_cp (v : Nat) : (s.setRpos v).cp = s.cp := rfl
@[simp] theorem setRpos_reader (v : Nat) :
    (s.setRpos v).reader =
      { s.reader with rpos := BitVec.ofNat 32 v } := rfl
@[simp] theorem setRpos_window (v : Nat) : (s.setRpos v).window = s.window := rfl
@[simp] theorem setRpos_lits (v : Nat) : (s.setRpos v).lits = s.lits := rfl
@[simp] theorem setRpos_bits (v : Nat) : (s.setRpos v).bits = s.bits := rfl
@[simp] theorem setRpos_val (v : Nat) : (s.setRpos v).val = s.val := rfl
@[simp] theorem setRpos_sym (v : Nat) : (s.setRpos v).sym = s.sym := rfl
@[simp] theorem setRpos_slots (v : Nat) : (s.setRpos v).slots = s.slots := rfl
@[simp] theorem setRpos_huf (v : Nat) : (s.setRpos v).huf = s.huf := rfl
@[simp] theorem setRpos_reps (v : Nat) : (s.setRpos v).reps = s.reps := rfl
@[simp] theorem setRpos_seq (v : Nat) : (s.setRpos v).seq = s.seq := rfl
@[simp] theorem setRpos_params (v : Nat) : (s.setRpos v).params = s.params := rfl
@[simp] theorem setRpos_host (v : Nat) : (s.setRpos v).host = s.host := rfl

/-! ### `setBsPos` -/

@[simp] theorem setBsPos_status (p : Int) : (s.setBsPos p).status = s.status := rfl
@[simp] theorem setBsPos_err (p : Int) : (s.setBsPos p).err = s.err := rfl
@[simp] theorem setBsPos_errInfo (p : Int) : (s.setBsPos p).errInfo = s.errInfo := rfl
@[simp] theorem setBsPos_cp (p : Int) : (s.setBsPos p).cp = s.cp := rfl
@[simp] theorem setBsPos_reader (p : Int) : (s.setBsPos p).reader = s.reader := rfl
@[simp] theorem setBsPos_window (p : Int) : (s.setBsPos p).window = s.window := rfl
@[simp] theorem setBsPos_lits (p : Int) : (s.setBsPos p).lits = s.lits := rfl
@[simp] theorem setBsPos_bits (p : Int) :
    (s.setBsPos p).bits =
      { s.bits with pos := BitVec.ofInt 32 p } := rfl
@[simp] theorem setBsPos_val (p : Int) : (s.setBsPos p).val = s.val := rfl
@[simp] theorem setBsPos_sym (p : Int) : (s.setBsPos p).sym = s.sym := rfl
@[simp] theorem setBsPos_slots (p : Int) : (s.setBsPos p).slots = s.slots := rfl
@[simp] theorem setBsPos_huf (p : Int) : (s.setBsPos p).huf = s.huf := rfl
@[simp] theorem setBsPos_reps (p : Int) : (s.setBsPos p).reps = s.reps := rfl
@[simp] theorem setBsPos_seq (p : Int) : (s.setBsPos p).seq = s.seq := rfl
@[simp] theorem setBsPos_params (p : Int) : (s.setBsPos p).params = s.params := rfl
@[simp] theorem setBsPos_host (p : Int) : (s.setBsPos p).host = s.host := rfl

/-! ### `setFseState` -/

@[simp] theorem setFseState_status (sl : Slot) (v : Nat) :
    (s.setFseState sl v).status =
      s.status := rfl
@[simp] theorem setFseState_err (sl : Slot) (v : Nat) : (s.setFseState sl v).err = s.err := rfl
@[simp] theorem setFseState_errInfo (sl : Slot) (v : Nat) :
    (s.setFseState sl v).errInfo =
      s.errInfo := rfl
@[simp] theorem setFseState_cp (sl : Slot) (v : Nat) : (s.setFseState sl v).cp = s.cp := rfl
@[simp] theorem setFseState_reader (sl : Slot) (v : Nat) :
    (s.setFseState sl v).reader =
      s.reader := rfl
@[simp] theorem setFseState_window (sl : Slot) (v : Nat) :
    (s.setFseState sl v).window =
      s.window := rfl
@[simp] theorem setFseState_lits (sl : Slot) (v : Nat) : (s.setFseState sl v).lits = s.lits := rfl
@[simp] theorem setFseState_bits (sl : Slot) (v : Nat) : (s.setFseState sl v).bits = s.bits := rfl
@[simp] theorem setFseState_val (sl : Slot) (v : Nat) : (s.setFseState sl v).val = s.val := rfl
@[simp] theorem setFseState_sym (sl : Slot) (v : Nat) : (s.setFseState sl v).sym = s.sym := rfl
@[simp] theorem setFseState_slots (sl : Slot) (v : Nat) :
    (s.setFseState sl v).slots =
      s.slots.set sl { s.slot sl with state := BitVec.ofNat 32 v } := rfl
@[simp] theorem setFseState_huf (sl : Slot) (v : Nat) : (s.setFseState sl v).huf = s.huf := rfl
@[simp] theorem setFseState_reps (sl : Slot) (v : Nat) : (s.setFseState sl v).reps = s.reps := rfl
@[simp] theorem setFseState_seq (sl : Slot) (v : Nat) : (s.setFseState sl v).seq = s.seq := rfl
@[simp] theorem setFseState_params (sl : Slot) (v : Nat) : (s.setFseState sl v).params = s.params := rfl
@[simp] theorem setFseState_host (sl : Slot) (v : Nat) : (s.setFseState sl v).host = s.host := rfl

/-! ### `setSinit` -/

@[simp] theorem setSinit_status (sl : Slot) : (s.setSinit sl).status = s.status := rfl
@[simp] theorem setSinit_err (sl : Slot) : (s.setSinit sl).err = s.err := rfl
@[simp] theorem setSinit_errInfo (sl : Slot) : (s.setSinit sl).errInfo = s.errInfo := rfl
@[simp] theorem setSinit_cp (sl : Slot) : (s.setSinit sl).cp = s.cp := rfl
@[simp] theorem setSinit_reader (sl : Slot) : (s.setSinit sl).reader = s.reader := rfl
@[simp] theorem setSinit_window (sl : Slot) : (s.setSinit sl).window = s.window := rfl
@[simp] theorem setSinit_lits (sl : Slot) : (s.setSinit sl).lits = s.lits := rfl
@[simp] theorem setSinit_bits (sl : Slot) : (s.setSinit sl).bits = s.bits := rfl
@[simp] theorem setSinit_val (sl : Slot) : (s.setSinit sl).val = s.val := rfl
@[simp] theorem setSinit_sym (sl : Slot) : (s.setSinit sl).sym = s.sym := rfl
@[simp] theorem setSinit_slots (sl : Slot) :
    (s.setSinit sl).slots =
      s.slots.set sl { s.slot sl with info := { (s.slot sl).info with sinit := true } } := rfl
@[simp] theorem setSinit_huf (sl : Slot) : (s.setSinit sl).huf = s.huf := rfl
@[simp] theorem setSinit_reps (sl : Slot) : (s.setSinit sl).reps = s.reps := rfl
@[simp] theorem setSinit_seq (sl : Slot) : (s.setSinit sl).seq = s.seq := rfl
@[simp] theorem setSinit_params (sl : Slot) : (s.setSinit sl).params = s.params := rfl
@[simp] theorem setSinit_host (sl : Slot) : (s.setSinit sl).host = s.host := rfl

/-! ### `closeSection` -/

@[simp] theorem closeSection_status : s.closeSection.status = s.status := rfl
@[simp] theorem closeSection_err : s.closeSection.err = s.err := rfl
@[simp] theorem closeSection_errInfo : s.closeSection.errInfo = s.errInfo := rfl
@[simp] theorem closeSection_cp : s.closeSection.cp = s.cp := rfl
@[simp] theorem closeSection_reader :
    s.closeSection.reader =
      { s.reader with rpos := BitVec.ofNat 32 (s.bits.base.toNat + s.bits.len.toNat) } := rfl
@[simp] theorem closeSection_window : s.closeSection.window = s.window := rfl
@[simp] theorem closeSection_lits : s.closeSection.lits = s.lits := rfl
@[simp] theorem closeSection_bits : s.closeSection.bits = s.bits := rfl
@[simp] theorem closeSection_val : s.closeSection.val = s.val := rfl
@[simp] theorem closeSection_sym : s.closeSection.sym = s.sym := rfl
@[simp] theorem closeSection_slots : s.closeSection.slots = s.slots.clearSinit := rfl
@[simp] theorem closeSection_huf : s.closeSection.huf = s.huf := rfl
@[simp] theorem closeSection_reps : s.closeSection.reps = s.reps := rfl
@[simp] theorem closeSection_seq : s.closeSection.seq = s.seq := rfl
@[simp] theorem closeSection_params : s.closeSection.params = s.params := rfl
@[simp] theorem closeSection_host : s.closeSection.host = s.host := rfl

/-! ### Slots through the state -/

@[simp] theorem slot_setSlots (t : Slots) (sl : Slot) : (s.setSlots t).slot sl = t.get sl := rfl

theorem slot_of_slots_eq {s t : State} (h : t.slots = s.slots) (sl : Slot) :
    t.slot sl = s.slot sl := by
  simp [slot, h]

end State

namespace Slots

variable (t : Slots)

@[simp] theorem get_set_same (sl : Slot) (x : FseSlot) : (t.set sl x).get sl = x := by
  cases sl <;> rfl

@[simp] theorem get_set_ne {sl sl' : Slot} (h : sl' ≠ sl) (x : FseSlot) :
    (t.set sl x).get sl' = t.get sl' := by
  cases sl <;> cases sl' <;> first | rfl | exact absurd rfl h

theorem get_set (sl sl' : Slot) (x : FseSlot) :
    (t.set sl x).get sl' = if sl' = sl then x else t.get sl' := by
  split
  · next h => subst h; simp
  · next h => simp [h]

@[simp] theorem get_clearSinit (sl : Slot) :
    t.clearSinit.get sl = { t.get sl with info := { (t.get sl).info with sinit := false } } := by
  cases sl <;> rfl

@[simp] theorem get_clearInfo (sl : Slot) :
    t.clearInfo.get sl = { t.get sl with info := FseInfo.none } := by
  cases sl <;> rfl

end Slots

namespace State

@[simp] theorem slot_setSlot_same (s : State) (sl : Slot) (x : FseSlot) :
    (s.setSlot sl x).slot sl = x := by
  simp [slot]

@[simp] theorem slot_setSlot_ne (s : State) {sl sl' : Slot} (h : sl' ≠ sl) (x : FseSlot) :
    (s.setSlot sl x).slot sl' = s.slot sl' := by
  simp [slot, h]

end State

/-! ### Starting, completing and faulting (rules R121, R314) -/

section

variable (s : State)

@[simp] theorem begin_status : (begin s).status = { s.status with busy := true } := rfl
@[simp] theorem begin_err : (begin s).err = s.err := rfl
@[simp] theorem begin_errInfo : (begin s).errInfo = s.errInfo := rfl
@[simp] theorem begin_cp : (begin s).cp = s.cp := rfl
@[simp] theorem begin_reader : (begin s).reader = s.reader := rfl
@[simp] theorem begin_window : (begin s).window = s.window := rfl
@[simp] theorem begin_lits : (begin s).lits = s.lits := rfl
@[simp] theorem begin_bits : (begin s).bits = s.bits := rfl
@[simp] theorem begin_val : (begin s).val = s.val := rfl
@[simp] theorem begin_sym : (begin s).sym = s.sym := rfl
@[simp] theorem begin_slots : (begin s).slots = s.slots := rfl
@[simp] theorem begin_huf : (begin s).huf = s.huf := rfl
@[simp] theorem begin_reps : (begin s).reps = s.reps := rfl
@[simp] theorem begin_seq : (begin s).seq = s.seq := rfl
@[simp] theorem begin_params : (begin s).params = s.params := rfl
@[simp] theorem begin_host : (begin s).host = s.host := rfl

@[simp] theorem complete_status : (complete s).status = { s.status with busy := false } := rfl
@[simp] theorem complete_err : (complete s).err = s.err := rfl
@[simp] theorem complete_errInfo : (complete s).errInfo = s.errInfo := rfl
@[simp] theorem complete_cp : (complete s).cp = s.cp + 1 := rfl
@[simp] theorem complete_reader : (complete s).reader = s.reader := rfl
@[simp] theorem complete_window : (complete s).window = s.window := rfl
@[simp] theorem complete_lits : (complete s).lits = s.lits := rfl
@[simp] theorem complete_bits : (complete s).bits = s.bits := rfl
@[simp] theorem complete_val : (complete s).val = s.val := rfl
@[simp] theorem complete_sym : (complete s).sym = s.sym := rfl
@[simp] theorem complete_slots : (complete s).slots = s.slots := rfl
@[simp] theorem complete_huf : (complete s).huf = s.huf := rfl
@[simp] theorem complete_reps : (complete s).reps = s.reps := rfl
@[simp] theorem complete_seq : (complete s).seq = s.seq := rfl
@[simp] theorem complete_params : (complete s).params = s.params := rfl
@[simp] theorem complete_host : (complete s).host = s.host := rfl

@[simp] theorem faultEntry_status (r : Raise) :
    (faultEntry r s).status = { s.status with fault := true, busy := false } := rfl
@[simp] theorem faultEntry_err (r : Raise) : (faultEntry r s).err = r.fault.code := rfl
@[simp] theorem faultEntry_errInfo (r : Raise) :
    (faultEntry r s).errInfo = BitVec.ofInt 32 r.info := rfl
@[simp] theorem faultEntry_cp (r : Raise) : (faultEntry r s).cp = s.cp := rfl
@[simp] theorem faultEntry_reader (r : Raise) : (faultEntry r s).reader = s.reader := rfl
@[simp] theorem faultEntry_window (r : Raise) : (faultEntry r s).window = s.window := rfl
@[simp] theorem faultEntry_lits (r : Raise) : (faultEntry r s).lits = s.lits := rfl
@[simp] theorem faultEntry_bits (r : Raise) : (faultEntry r s).bits = s.bits := rfl
@[simp] theorem faultEntry_val (r : Raise) : (faultEntry r s).val = s.val := rfl
@[simp] theorem faultEntry_sym (r : Raise) : (faultEntry r s).sym = s.sym := rfl
@[simp] theorem faultEntry_slots (r : Raise) : (faultEntry r s).slots = s.slots := rfl
@[simp] theorem faultEntry_huf (r : Raise) : (faultEntry r s).huf = s.huf := rfl
@[simp] theorem faultEntry_reps (r : Raise) : (faultEntry r s).reps = s.reps := rfl
@[simp] theorem faultEntry_seq (r : Raise) : (faultEntry r s).seq = s.seq := rfl
@[simp] theorem faultEntry_params (r : Raise) : (faultEntry r s).params = s.params := rfl
@[simp] theorem faultEntry_host (r : Raise) : (faultEntry r s).host = s.host := rfl

/-! ### Reads of a state that has the same parts -/

theorem inByte_congr {s t : State} (h : t.reader.mem = s.reader.mem) (hh : t.host = s.host) :
    t.inByte = s.inByte := by
  funext a
  simp only [State.inByte, h, hh]

theorem litByte_congr {s t : State} (h : t.lits.mem = s.lits.mem) (hh : t.host = s.host) :
    t.litByte = s.litByte := by
  funext a
  simp only [State.litByte, h, hh]

theorem winByte_congr {s t : State} (h : t.window.mem = s.window.mem) (hh : t.host = s.host) :
    t.winByte = s.winByte := by
  funext a
  simp only [State.winByte, h, hh]

theorem fseEntry_congr {s t : State} {sl : Slot} (h : (t.slot sl).tab = (s.slot sl).tab)
    (hh : t.host = s.host) : t.fseEntry sl = s.fseEntry sl := by
  funext k
  simp only [State.fseEntry, h, hh]

theorem hufEntry_congr {s t : State} (h : t.huf.tab = s.huf.tab) (hh : t.host = s.host) :
    t.hufEntry = s.hufEntry := by
  funext k
  simp only [State.hufEntry, h, hh]

@[simp] theorem begin_slot (sl : Slot) : (begin s).slot sl = s.slot sl := rfl
@[simp] theorem begin_inByte : (begin s).inByte = s.inByte := rfl
@[simp] theorem begin_litByte : (begin s).litByte = s.litByte := rfl
@[simp] theorem begin_winByte : (begin s).winByte = s.winByte := rfl
@[simp] theorem begin_fseEntry (sl : Slot) : (begin s).fseEntry sl = s.fseEntry sl := rfl
@[simp] theorem begin_hufEntry : (begin s).hufEntry = s.hufEntry := rfl

end

/-- States whose parts are equal are equal. -/
theorem State.ext_parts {s t : State}
    (status : s.status = t.status) (err : s.err = t.err)
    (errInfo : s.errInfo = t.errInfo) (cp : s.cp = t.cp)
    (reader : s.reader = t.reader) (window : s.window = t.window)
    (lits : s.lits = t.lits) (bits : s.bits = t.bits)
    (val : s.val = t.val) (sym : s.sym = t.sym)
    (slots : s.slots = t.slots) (huf : s.huf = t.huf)
    (reps : s.reps = t.reps) (seq : s.seq = t.seq)
    (params : s.params = t.params) (host : s.host = t.host) :
    s = t := by
  cases s
  cases t
  simp_all

end Sys2Proof.Machine
end

