-- ==== Sys2Proof/Laws/Ops.lean ====
section
/-! SUPPORT. One equation per shared operation: from any state, what it answers, with its checks in
their order. -/

namespace Sys2Proof.Machine

/-! ### The Reader (rules R66 to R68) -/

theorem run_need (n : Nat) (s : State) :
    need n s =
      if s.reader.rpos.toNat + n > s.reader.len.toNat then
        .error ⟨.shortRead, s.reader.rpos.toNat⟩ s
      else .ok () s := by
  simp [need, run_raiseIf]

@[simp] theorem run_skip (n : Nat) (s : State) :
    skip n s = .ok () (s.setRpos (s.reader.rpos.toNat + n)) := rfl

theorem run_readU8 (s : State) :
    readU8 s =
      if s.reader.rpos.toNat + 1 > s.reader.len.toNat then
        .error ⟨.shortRead, s.reader.rpos.toNat⟩ s
      else .ok (s.inByte s.reader.rpos.toNat) (s.setRpos (s.reader.rpos.toNat + 1)) := by
  simp only [readU8, run_bind, run_need, run_current, run_skip, run_pure]
  by_cases h : s.reader.rpos.toNat + 1 > s.reader.len.toNat <;> simp only [h, if_true, if_false]

theorem run_readLE (n : Nat) (s : State) :
    readLE n s =
      if s.reader.rpos.toNat + n > s.reader.len.toNat then
        .error ⟨.shortRead, s.reader.rpos.toNat⟩ s
      else .ok (littleEndian (memRead s.inByte s.reader.rpos.toNat n))
        (s.setRpos (s.reader.rpos.toNat + n)) := by
  simp only [readLE, run_bind, run_need, run_current, run_skip, run_pure]
  by_cases h : s.reader.rpos.toNat + n > s.reader.len.toNat <;> simp only [h, if_true, if_false]

theorem run_readU16LE (s : State) :
    readU16LE s =
      if s.reader.rpos.toNat + 2 > s.reader.len.toNat then
        .error ⟨.shortRead, s.reader.rpos.toNat⟩ s
      else .ok (BitVec.ofNat 16 (littleEndian (memRead s.inByte s.reader.rpos.toNat 2)))
        (s.setRpos (s.reader.rpos.toNat + 2)) := by
  simp only [readU16LE, run_bind, run_readLE, run_pure]
  by_cases h : s.reader.rpos.toNat + 2 > s.reader.len.toNat <;> simp only [h, if_true, if_false]

/-! ### Window and literals (rules R281, R282) -/

theorem run_winRoom (n : Nat) (s : State) :
    winRoom n s =
      if s.window.index.toNat + n > s.window.capr.toNat then .error ⟨.windowOverflow, n⟩ s
      else .ok () s := by
  simp [winRoom, run_raiseIf]

theorem run_winAppend (v : List Byte) (s : State) :
    winAppend v s =
      if s.window.index.toNat + v.length > s.window.capr.toNat then
        .error ⟨.windowOverflow, v.length⟩ s
      else .ok () (s.setWindow (s.window.append v)) := by
  simp only [winAppend, run_bind, run_winRoom, run_update]
  by_cases h : s.window.index.toNat + v.length > s.window.capr.toNat <;>
    simp only [h, if_true, if_false]

theorem run_litAvailable (n : Nat) (s : State) :
    litAvailable n s =
      if n > s.lits.rest then .error ⟨.literalsUnderflow, s.lits.rest⟩ s else .ok () s := by
  simp [litAvailable, run_raiseIf]

theorem run_litTake (n : Nat) (s : State) :
    litTake n s =
      if n > s.lits.rest then .error ⟨.literalsUnderflow, s.lits.rest⟩ s
      else .ok (memRead s.litByte s.lits.pos.toNat n)
        (s.setLits { s.lits with pos := BitVec.ofNat 32 (s.lits.pos.toNat + n) }) := by
  simp only [litTake, run_bind, run_litAvailable, run_current, run_update, run_pure]
  by_cases h : n > s.lits.rest <;> simp only [h, if_true, if_false]

/-! ### The flags (rules R122, R170) -/

theorem run_stateCheck (c : Status → Bool) (s : State) :
    stateCheck c s =
      if c s.status = true then .error ⟨.illegalState, s.status.context⟩ s else .ok () s := by
  simp [stateCheck, run_raiseIf]

theorem run_quiet (s : State) :
    quiet s =
      if s.status.bsOpen = false ∧ s.status.seqActive = false then .ok () s
      else .error ⟨.illegalState, s.status.context⟩ s := by
  rw [quiet, run_stateCheck]
  cases h1 : s.status.bsOpen <;> cases h2 : s.status.seqActive <;> simp [Status.notQuiet, h1, h2]

theorem run_quiet_ok {s : State} (h : s.status.bsOpen = false ∧ s.status.seqActive = false) :
    quiet s = .ok () s := by
  rw [run_quiet, if_pos h]

theorem run_quiet_error {s : State} (h : ¬(s.status.bsOpen = false ∧ s.status.seqActive = false)) :
    quiet s = .error ⟨.illegalState, s.status.context⟩ s := by
  rw [run_quiet, if_neg h]

theorem run_primitiveOpen (s : State) :
    primitiveOpen s =
      if s.status.bsOpen = true ∧ s.status.seqActive = false then .ok () s
      else .error ⟨.illegalState, s.status.context⟩ s := by
  rw [primitiveOpen, run_stateCheck]
  cases h1 : s.status.bsOpen <;> cases h2 : s.status.seqActive <;>
    simp [Status.noPrimitive, h1, h2]

theorem run_primitiveOpen_ok {s : State}
    (h : s.status.bsOpen = true ∧ s.status.seqActive = false) : primitiveOpen s = .ok () s := by
  rw [run_primitiveOpen, if_pos h]

theorem run_primitiveOpen_error {s : State}
    (h : ¬(s.status.bsOpen = true ∧ s.status.seqActive = false)) :
    primitiveOpen s = .error ⟨.illegalState, s.status.context⟩ s := by
  rw [run_primitiveOpen, if_neg h]

/-! ### The backward bitstream (rules R71 to R73) -/

theorem run_overrun (s : State) :
    overrun s = if s.bsPos < 0 then .error ⟨.bitstreamOverrun, s.bsPos⟩ s else .ok () s := by
  simp [overrun, run_raiseIf]

theorem run_backRead (k : Nat) (s : State) :
    backRead k s =
      if s.bsPos < 0 then .error ⟨.bitstreamOverrun, s.bsPos⟩ s
      else .ok (s.peekBack k) (s.setBsPos (s.bsPos - k)) := by
  simp only [backRead, run_bind, run_overrun, run_current, run_update, run_pure]
  by_cases h : s.bsPos < 0 <;> simp only [h, if_true, if_false]

theorem run_backReadOver (k : Nat) (s : State) :
    backReadOver k s =
      if s.bsPos < 0 then .error ⟨.bitstreamOverrun, s.bsPos⟩ s
      else if (s.setBsPos (s.bsPos - k)).bsPos < 0 then
        .error ⟨.bitstreamOverrun, (s.setBsPos (s.bsPos - k)).bsPos⟩ (s.setBsPos (s.bsPos - k))
      else .ok (s.peekBack k) (s.setBsPos (s.bsPos - k)) := by
  simp only [backReadOver, run_bind, run_backRead, run_overrun, run_pure]
  by_cases h : s.bsPos < 0 <;> simp only [h, if_true, if_false]
  by_cases h2 : (s.setBsPos (s.bsPos - k)).bsPos < 0 <;> simp only [h2, if_true, if_false]

/-- `BS_POS` holds every number that a reader can reach (rule R31). -/
theorem bsPos_setBsPos (s : State) (p : Int) (h1 : -2 ^ 31 ≤ p) (h2 : p < 2 ^ 31) :
    (s.setBsPos p).bsPos = p := by
  simp only [State.bsPos, State.setBsPos, State.setBits_bits, BitVec.toInt_ofInt]
  exact Int.bmod_eq_of_le (by omega) (by omega)

theorem bsPos_range (s : State) : -2 ^ 31 ≤ s.bsPos ∧ s.bsPos < 2 ^ 31 := by
  have h1 := BitVec.toInt_lt (x := s.bits.pos)
  have h2 := BitVec.le_toInt (x := s.bits.pos)
  exact ⟨by simpa [State.bsPos] using h2, by simpa [State.bsPos] using h1⟩

/-! ### Table slots (rules R178 to R182, R244) -/

theorem run_tableValid (sl : Slot) (s : State) :
    tableValid sl s =
      if (s.slot sl).info.valid = false then .error ⟨.missingTable, sl.num⟩ s else .ok () s := by
  simp [tableValid, run_raiseIf]

theorem run_stateReady (sl : Slot) (s : State) :
    stateReady sl s =
      if (s.slot sl).info.sinit = false then .error ⟨.illegalState, s.status.context⟩ s
      else .ok () s := by
  simp [stateReady, run_raiseIf]

theorem run_initState (sl : Slot) (s : State) :
    initState sl s =
      if s.bsPos < 0 then .error ⟨.bitstreamOverrun, s.bsPos⟩ s
      else .ok ()
        (((s.setBsPos (s.bsPos - (s.slot sl).info.al.toNat)).setFseState sl
          (s.peekBack (s.slot sl).info.al.toNat)).setSinit sl) := by
  simp only [initState, run_bind, run_current, run_backRead, run_update]
  by_cases h : s.bsPos < 0 <;> simp only [h, if_true, if_false]

theorem run_advanceState (sl : Slot) (s : State) :
    advanceState sl s =
      if s.bsPos < 0 then .error ⟨.bitstreamOverrun, s.bsPos⟩ s
      else .ok ()
        ((s.setBsPos (s.bsPos - (s.currentEntry sl).nb.toNat)).setFseState sl
          ((s.currentEntry sl).base.toNat + s.peekBack (s.currentEntry sl).nb.toNat)) := by
  simp only [advanceState, run_bind, run_current, run_backRead, run_update]
  by_cases h : s.bsPos < 0 <;> simp only [h, if_true, if_false]

theorem run_openSection (n : Word) (s : State) :
    openSection n s =
      if s.reader.rpos.toNat + n.toNat > s.reader.len.toNat then
        .error ⟨.shortRead, s.reader.rpos.toNat⟩ s
      else
        match backStart s.inByte s.reader.rpos.toNat n.toNat with
        | .error e => .error e s
        | .ok pos =>
          .ok () (s.setBits { base := s.reader.rpos, len := n, pos := BitVec.ofNat 32 pos }) := by
  simp only [openSection, run_bind, run_need, run_current]
  by_cases h : s.reader.rpos.toNat + n.toNat > s.reader.len.toNat <;>
    simp only [h, if_true, if_false]
  cases backStart s.inByte s.reader.rpos.toNat n.toNat <;> rfl

/-! ### The builders (rules R141, R144, R204) -/

theorem run_fseFromDist (sl : Slot) (al : Nat) (probs : List Int) (s : State) :
    fseFromDist sl al probs s =
      match checkDist s.params sl al probs with
      | .error e => .error e s
      | .ok _ => .ok () (s.setSlot sl ((s.slot sl).build al probs.length (spread al probs))) := by
  simp only [fseFromDist, run_bind, run_current]
  cases checkDist s.params sl al probs <;> rfl

theorem run_readHeader (sl : Slot) (fin : Nat) (s : State) :
    readHeader sl fin s =
      match fseReadHeader s.params s.inByte sl s.reader.rpos.toNat fin with
      | .error e => .error e s
      | .ok h => .ok h (s.setRpos h.next) := by
  simp only [readHeader, run_bind, run_current]
  cases fseReadHeader s.params s.inByte sl s.reader.rpos.toNat fin <;> rfl

theorem run_hufFromWeights (w : List Nat) (s : State) :
    hufFromWeights w s =
      match weightTable s.params.hufMaxBits w with
      | .error e => .error e s
      | .ok t => .ok () (s.setHuf (s.huf.build t)) := by
  simp only [hufFromWeights, run_bind, run_current]
  cases weightTable s.params.hufMaxBits w <;> rfl

/-! ### The halves of a sequence (rules R288, R292) -/

theorem run_wCopyBody (offset length : Nat) (s : State) :
    wCopyBody offset length s =
      if offset = 0 ∨ offset > s.window.avail then .error ⟨.copyOutOfBounds, offset⟩ s
      else if s.window.index.toNat + length > s.window.capr.toNat then
        .error ⟨.windowOverflow, length⟩ s
      else .ok () (s.setWindow
        (s.window.copyWithin (Config.unwrittenByte s.host.epoch .win) offset length)) := by
  simp only [wCopyBody, run_bind, run_current, run_raiseIf, run_winRoom, run_update]
  by_cases h : offset = 0 ∨ offset > s.window.avail <;> simp only [h, if_true, if_false]
  by_cases h2 : s.window.index.toNat + length > s.window.capr.toNat <;>
    simp only [h2, if_true, if_false]

theorem run_wLitBody (n : Nat) (s : State) :
    wLitBody n s =
      if n > s.lits.rest then .error ⟨.literalsUnderflow, s.lits.rest⟩ s
      else if s.window.index.toNat + n > s.window.capr.toNat then
        .error ⟨.windowOverflow, n⟩ s
      else .ok ()
        ((s.setLits { s.lits with pos := BitVec.ofNat 32 (s.lits.pos.toNat + n) }).setWindow
          (s.window.append (memRead s.litByte s.lits.pos.toNat n))) := by
  simp only [wLitBody, run_bind, run_litAvailable, run_winRoom, run_litTake, run_winAppend]
  by_cases h : n > s.lits.rest
  · simp only [h, if_true]
  · by_cases h2 : s.window.index.toNat + n > s.window.capr.toNat
    · simp only [h, h2, if_true, if_false]
    · simp only [h, h2, if_false, length_memRead, State.setLits_window]

end Sys2Proof.Machine
end

