-- ==== Sys2Proof/Laws/Bodies.lean ====
section
/-! SUPPORT. One equation per command: from any state, what its rule's pseudocode answers, with the
faults in the order the rule tests them. -/

namespace Sys2Proof.Machine

/-- `Quiet()` as a condition on a state (rule R122). -/
abbrev isQuiet (s : State) : Prop := s.status.bsOpen = false ∧ s.status.seqActive = false

/-- The primitives own the open bitstream (rule R170). -/
abbrev isPrimitive (s : State) : Prop := s.status.bsOpen = true ∧ s.status.seqActive = false

/-- The `IllegalState` fault of a state (rule R310). -/
abbrev stateFault (s : State) : Raise := ⟨.illegalState, s.status.context⟩

/-! ### System -/

theorem run_frameInitBody (c : Word) (s : State) :
    frameInitBody c s =
      if c = 0 ∨ c.toNat > s.params.winCap then .error ⟨.illegalOperand, c.toNat⟩ s
      else .ok () (s.frameInit c) := by
  simp only [frameInitBody, run_bind, run_current, run_raiseIf, run_update]
  by_cases h : c = 0 ∨ c.toNat > s.params.winCap
  case pos => simp only [if_pos h]
  simp only [if_neg h]

theorem run_rdOpenBody (rpos len : Word) (s : State) :
    rdOpenBody rpos len s =
      if isQuiet s then
        if len.toNat > s.params.inCap then .error ⟨.illegalOperand, len.toNat⟩ s
        else if rpos.toNat > len.toNat then .error ⟨.illegalOperand, rpos.toNat⟩ s
        else .ok () (s.setReader { s.reader with rpos := rpos, len := len })
      else .error (stateFault s) s := by
  simp only [rdOpenBody, run_bind, run_quiet, run_current, run_raiseIf, run_update]
  by_cases h : isQuiet s
  case neg => simp only [if_neg h]
  simp only [if_pos h]
  by_cases h1 : len.toNat > s.params.inCap
  case pos => simp only [if_pos h1]
  simp only [if_neg h1]
  by_cases h2 : rpos.toNat > len.toNat
  case pos => simp only [if_pos h2]
  simp only [if_neg h2]

theorem run_frameEndBody (hasSize : Bool) (lo hi : Word) (s : State) :
    frameEndBody hasSize lo hi s =
      if isQuiet s then
        if hasSize = true ∧ contentSize lo hi ≠ s.window.index.toNat then
          .error ⟨.contentSizeMismatch, s.window.index.toNat⟩ s
        else .ok () s
      else .error (stateFault s) s := by
  simp only [frameEndBody, run_bind, run_quiet, run_current, run_raiseIf]
  by_cases h : isQuiet s
  case neg => simp only [if_neg h]
  simp only [if_pos h]

/-! ### Window -/

theorem run_wRawBody (n : Word) (s : State) :
    wRawBody n s =
      if isQuiet s then
        if s.reader.rpos.toNat + n.toNat > s.reader.len.toNat then
          .error ⟨.shortRead, s.reader.rpos.toNat⟩ s
        else if s.window.index.toNat + n.toNat > s.window.capr.toNat then
          .error ⟨.windowOverflow, n.toNat⟩ s
        else .ok ()
          ((s.setWindow (s.window.append (memRead s.inByte s.reader.rpos.toNat n.toNat))).setRpos
            (s.reader.rpos.toNat + n.toNat))
      else .error (stateFault s) s := by
  simp only [wRawBody, run_bind, run_quiet, run_need, run_winRoom, run_current, run_winAppend,
    run_skip]
  by_cases h : isQuiet s
  case neg => simp only [if_neg h]
  simp only [if_pos h]
  by_cases h1 : s.reader.rpos.toNat + n.toNat > s.reader.len.toNat
  case pos => simp only [if_pos h1]
  simp only [if_neg h1]
  by_cases h2 : s.window.index.toNat + n.toNat > s.window.capr.toNat
  case pos => simp only [if_pos h2]
  simp only [if_neg h2, length_memRead, State.setWindow_reader]

theorem run_wRleBody (n : Word) (s : State) :
    wRleBody n s =
      if isQuiet s then
        if s.reader.rpos.toNat + 1 > s.reader.len.toNat then
          .error ⟨.shortRead, s.reader.rpos.toNat⟩ s
        else if s.window.index.toNat + n.toNat > s.window.capr.toNat then
          .error ⟨.windowOverflow, n.toNat⟩ s
        else .ok ()
          ((s.setRpos (s.reader.rpos.toNat + 1)).setWindow
            (s.window.append (List.replicate n.toNat (s.inByte s.reader.rpos.toNat))))
      else .error (stateFault s) s := by
  simp only [wRleBody, run_bind, run_quiet, run_need, run_winRoom, run_readU8, run_winAppend]
  by_cases h : isQuiet s
  case neg => simp only [if_neg h]
  simp only [if_pos h]
  by_cases h1 : s.reader.rpos.toNat + 1 > s.reader.len.toNat
  case pos => simp only [if_pos h1]
  simp only [if_neg h1]
  by_cases h2 : s.window.index.toNat + n.toNat > s.window.capr.toNat
  case pos => simp only [if_pos h2]
  simp only [if_neg h1, if_neg h2, List.length_replicate, State.setRpos_window]

theorem run_wLitrestBody (s : State) :
    wLitrestBody s =
      if s.window.index.toNat + s.lits.rest > s.window.capr.toNat then
        .error ⟨.windowOverflow, s.lits.rest⟩ s
      else .ok ()
        ((s.setLits { s.lits with
            pos := BitVec.ofNat 32 (s.lits.pos.toNat + s.lits.rest) }).setWindow
          (s.window.append (memRead s.litByte s.lits.pos.toNat s.lits.rest))) := by
  simp only [wLitrestBody, run_bind, run_current, run_winRoom, run_litTake, run_winAppend]
  by_cases h : s.window.index.toNat + s.lits.rest > s.window.capr.toNat
  case pos => simp only [if_pos h]
  simp only [if_neg h]
  simp only [gt_iff_lt, Nat.lt_irrefl, if_false, length_memRead, State.setLits_window,
    show ¬ s.window.capr.toNat < s.window.index.toNat + s.lits.rest from h]

/-! ### Literals -/

theorem run_litRawBody (n : Word) (s : State) :
    litRawBody n s =
      if isQuiet s then
        if n.toNat > s.params.litCap then .error ⟨.literalsOverflow, n.toNat⟩ s
        else if s.reader.rpos.toNat + n.toNat > s.reader.len.toNat then
          .error ⟨.shortRead, s.reader.rpos.toNat⟩ s
        else .ok ()
          ((s.setRpos (s.reader.rpos.toNat + n.toNat)).setLits
            (Literals.filled { s.lits with
              mem := s.lits.mem.writeList 0 (memRead s.inByte s.reader.rpos.toNat n.toNat) } n.toNat))
      else .error (stateFault s) s := by
  simp only [litRawBody, run_bind, run_quiet, run_current, run_raiseIf, run_need, run_update,
    run_skip]
  by_cases h : isQuiet s
  case neg => simp only [if_neg h]
  simp only [if_pos h]
  by_cases h1 : n.toNat > s.params.litCap
  case pos => simp only [if_pos h1]
  simp only [if_neg h1]
  by_cases h2 : s.reader.rpos.toNat + n.toNat > s.reader.len.toNat
  case pos => simp only [if_pos h2]
  simp only [if_neg h2]
  rfl

theorem run_litRleBody (n : Word) (s : State) :
    litRleBody n s =
      if isQuiet s then
        if n.toNat > s.params.litCap then .error ⟨.literalsOverflow, n.toNat⟩ s
        else if s.reader.rpos.toNat + 1 > s.reader.len.toNat then
          .error ⟨.shortRead, s.reader.rpos.toNat⟩ s
        else .ok ()
          ((s.setRpos (s.reader.rpos.toNat + 1)).setLits
            (Literals.filled { s.lits with
              mem := s.lits.mem.writeList 0 (List.replicate n.toNat (s.inByte s.reader.rpos.toNat)) } n.toNat))
      else .error (stateFault s) s := by
  simp only [litRleBody, run_bind, run_quiet, run_current, run_raiseIf, run_readU8, run_update]
  by_cases h : isQuiet s
  case neg => simp only [if_neg h]
  simp only [if_pos h]
  by_cases h1 : n.toNat > s.params.litCap
  case pos => simp only [if_pos h1]
  simp only [if_neg h1]
  by_cases h2 : s.reader.rpos.toNat + 1 > s.reader.len.toNat
  case pos => simp only [if_pos h2]
  simp only [if_neg h2]
  rfl

/-! ### Tables -/

theorem run_fseBuildBody (sl : Slot) (s : State) :
    fseBuildBody sl s =
      if isQuiet s then
        match fseReadHeader s.params s.inByte sl s.reader.rpos.toNat s.reader.len.toNat with
        | .error e => .error e s
        | .ok h =>
          match checkDist s.params sl h.al h.probs with
          | .error e => .error e (s.setRpos h.next)
          | .ok _ => .ok () ((s.setRpos h.next).setSlot sl
              ((s.slot sl).build h.al h.probs.length (spread h.al h.probs)))
      else .error (stateFault s) s := by
  simp only [fseBuildBody, run_bind, run_quiet, run_current, run_readHeader, run_fseFromDist]
  by_cases h : isQuiet s
  case neg => simp only [if_neg h]
  simp only [if_pos h]
  cases fseReadHeader s.params s.inByte sl s.reader.rpos.toNat s.reader.len.toNat with
  | error e => rfl
  | ok h => simp only [State.setRpos_params]; cases checkDist s.params sl h.al h.probs <;> rfl

/-- The 16-bit two's-complement number at `a` (rules R68, R148). -/
def prob16 (byte : Nat → Byte) (a : Nat) : Int :=
  (BitVec.ofNat 16 (littleEndian (memRead byte a 2))).toInt

/-- A list of probabilities that is all below the limit is read whole (rule R148). -/
theorem run_readProbs (n : Nat) (s : State)
    (h : s.reader.rpos.toNat + 2 * n ≤ s.reader.len.toNat) :
    readProbs n s =
      .ok ((List.range n).map fun k => prob16 s.inByte (s.reader.rpos.toNat + 2 * k))
        (s.setRpos (s.reader.rpos.toNat + 2 * n)) := by
  induction n generalizing s with
  | zero =>
    simp only [readProbs, run_pure, List.range_zero, List.map_nil]
    congr 1
    apply State.ext_parts <;> simp
  | succ n ih =>
    have hlt : s.reader.len.toNat < 2 ^ 32 := s.reader.len.isLt
    have hr : (s.setRpos (s.reader.rpos.toNat + 2)).reader.rpos.toNat =
        s.reader.rpos.toNat + 2 := by
      simp only [State.setRpos_reader, BitVec.toNat_ofNat]
      omega
    have hb : (s.setRpos (s.reader.rpos.toNat + 2)).inByte = s.inByte := rfl
    rw [readProbs, run_bind, run_readU16LE, if_neg (by omega)]
    simp only [run_bind]
    rw [ih _ (by rw [hr]; simp only [State.setRpos_reader]; omega)]
    simp only [run_pure, hr, hb]
    have hs : (s.setRpos (s.reader.rpos.toNat + 2)).setRpos (s.reader.rpos.toNat + 2 + 2 * n) =
        s.setRpos (s.reader.rpos.toNat + 2 * (n + 1)) := by
      show s.setRpos _ = _
      congr 1
      omega
    rw [hs]
    congr 1
    rw [List.range_succ_eq_map, List.map_cons, List.map_map]
    congr 1
    apply List.map_congr_left
    intro k _
    simp only [Function.comp]
    congr 1
    omega

theorem run_fseLoadBody (sl : Slot) (al : BitVec 16) (n : Word) (s : State) :
    fseLoadBody sl al n s =
      if isQuiet s then
        if n.toNat > s.params.maxSymbols.get sl then .error ⟨.tooManySymbols, n.toNat⟩ s
        else if s.reader.rpos.toNat + 2 * n.toNat > s.reader.len.toNat then
          .error ⟨.shortRead, s.reader.rpos.toNat⟩ s
        else
          fseFromDist sl al.toNat
            ((List.range n.toNat).map fun k => prob16 s.inByte (s.reader.rpos.toNat + 2 * k))
            (s.setRpos (s.reader.rpos.toNat + 2 * n.toNat))
      else .error (stateFault s) s := by
  simp only [fseLoadBody, run_bind, run_quiet, run_current, run_raiseIf, run_need]
  by_cases h : isQuiet s
  case neg => simp only [if_neg h]
  simp only [if_pos h]
  by_cases h1 : n.toNat > s.params.maxSymbols.get sl
  case pos => simp only [if_pos h1]
  simp only [if_neg h1]
  by_cases h2 : s.reader.rpos.toNat + 2 * n.toNat > s.reader.len.toNat
  case pos => simp only [if_pos h2]
  simp only [if_neg h2]
  rw [run_readProbs _ _ (by omega)]

theorem run_fsePredefBody (sl : Slot) (s : State) :
    fsePredefBody sl s =
      if isQuiet s then
        match s.params.predef sl with
        | some (al, probs) => fseFromDist sl al probs s
        | none => .ok () s
      else .error (stateFault s) s := by
  simp only [fsePredefBody, run_bind, run_quiet, run_current]
  by_cases h : isQuiet s
  case neg => simp only [if_neg h]
  simp only [if_pos h]
  cases s.params.predef sl <;> rfl

theorem run_fseRleBody (sl : Slot) (symbol : BitVec 16) (s : State) :
    fseRleBody sl symbol s =
      if isQuiet s then
        if symbol.toNat ≥ s.params.maxSymbols.get sl then .error ⟨.tooManySymbols, symbol.toNat⟩ s
        else .ok () (s.setSlot sl ((s.slot sl).build 0 (symbol.toNat + 1)
          [{ sym := BitVec.ofNat 8 symbol.toNat, nb := 0, base := 0 }]))
      else .error (stateFault s) s := by
  simp only [fseRleBody, run_bind, run_quiet, run_current, run_raiseIf, run_update]
  by_cases h : isQuiet s
  case neg => simp only [if_neg h]
  simp only [if_pos h]
  by_cases h1 : symbol.toNat ≥ s.params.maxSymbols.get sl
  case pos => simp only [if_pos h1]
  simp only [if_neg h1]

/-! ### Bitstream and lookup -/

theorem run_bsOpenBody (n : Word) (s : State) :
    bsOpenBody n s =
      if isQuiet s then
        if n.toNat > Config.bsMaxBytes then .error ⟨.illegalOperand, n.toNat⟩ s
        else if s.reader.rpos.toNat + n.toNat > s.reader.len.toNat then
          .error ⟨.shortRead, s.reader.rpos.toNat⟩ s
        else
          match backStart s.inByte s.reader.rpos.toNat n.toNat with
          | .error e => .error e s
          | .ok pos => .ok ()
              ((s.setBits { base := s.reader.rpos, len := n, pos := BitVec.ofNat 32 pos }).setStatus
                { s.status with bsOpen := true })
      else .error (stateFault s) s := by
  simp only [bsOpenBody, run_bind, run_quiet, run_raiseIf, run_openSection, run_update]
  by_cases h : isQuiet s
  case neg => simp only [if_neg h]
  simp only [if_pos h]
  by_cases h1 : n.toNat > Config.bsMaxBytes
  case pos => simp only [if_pos h1]
  simp only [if_neg h1]
  by_cases h2 : s.reader.rpos.toNat + n.toNat > s.reader.len.toNat
  case pos => simp only [if_pos h2]
  simp only [if_neg h2]
  cases backStart s.inByte s.reader.rpos.toNat n.toNat <;> rfl

theorem run_bsReadBody (k : BitVec 16) (s : State) :
    bsReadBody k s =
      if isPrimitive s then
        if k.toNat > 32 then .error ⟨.illegalOperand, k.toNat⟩ s
        else if s.bsPos < 0 then .error ⟨.bitstreamOverrun, s.bsPos⟩ s
        else .ok () ((s.setBsPos (s.bsPos - k.toNat)).setVal
          (BitVec.ofNat 32 (s.peekBack k.toNat)))
      else .error (stateFault s) s := by
  simp only [bsReadBody, run_bind, run_primitiveOpen, run_raiseIf, run_backRead, run_update]
  by_cases h : isPrimitive s
  case neg => simp only [if_neg h]
  simp only [if_pos h]
  by_cases h1 : k.toNat > 32
  case pos => simp only [if_pos h1]
  simp only [if_neg h1]
  by_cases h2 : s.bsPos < 0
  case pos => simp only [if_pos h2]
  simp only [if_neg h2]

theorem run_bsCloseBody (s : State) :
    bsCloseBody s =
      if isPrimitive s then
        if s.bsPos < 0 then .error ⟨.bitstreamOverrun, s.bsPos⟩ s
        else if s.bsPos > 0 then .error ⟨.bitstreamResidue, s.bsPos⟩ s
        else .ok () (s.setStatus { s.status with bsOpen := false }).closeSection
      else .error (stateFault s) s := by
  simp only [bsCloseBody, run_bind, run_primitiveOpen, run_overrun, run_current, run_raiseIf,
    run_update]
  by_cases h : isPrimitive s
  case neg => simp only [if_neg h]
  simp only [if_pos h]
  by_cases h1 : s.bsPos < 0
  case pos => simp only [if_pos h1]
  simp only [if_neg h1]
  by_cases h2 : s.bsPos > 0
  case pos => simp only [if_pos h2]
  simp only [if_neg h2]

theorem run_fseInitBody (sl : Slot) (s : State) :
    fseInitBody sl s =
      if isPrimitive s then
        if (s.slot sl).info.valid = false then .error ⟨.missingTable, sl.num⟩ s
        else initState sl s
      else .error (stateFault s) s := by
  simp only [fseInitBody, run_bind, run_primitiveOpen, run_tableValid]
  by_cases h : isPrimitive s
  case neg => simp only [if_neg h]
  simp only [if_pos h]
  by_cases h1 : (s.slot sl).info.valid = false
  case pos => simp only [if_pos h1]
  simp only [if_neg h1]

theorem run_fseEmitBody (sl : Slot) (s : State) :
    fseEmitBody sl s =
      if s.status.seqActive = true then .error (stateFault s) s
      else if (s.slot sl).info.valid = false then .error ⟨.missingTable, sl.num⟩ s
      else if (s.slot sl).info.sinit = false then .error (stateFault s) s
      else .ok () (s.setSym ((s.currentEntry sl).sym.setWidth 32)) := by
  simp only [fseEmitBody, run_bind, run_stateCheck, run_tableValid, run_stateReady, run_update]
  by_cases h : s.status.seqActive = true
  case pos => simp only [if_pos h]
  simp only [if_neg h]
  by_cases h1 : (s.slot sl).info.valid = false
  case pos => simp only [if_pos h1]
  simp only [if_neg h1]
  by_cases h2 : (s.slot sl).info.sinit = false
  case pos => simp only [if_pos h2]
  simp only [if_neg h2]

theorem run_fseNextBody (sl : Slot) (s : State) :
    fseNextBody sl s =
      if isPrimitive s then
        if (s.slot sl).info.valid = false then .error ⟨.missingTable, sl.num⟩ s
        else if (s.slot sl).info.sinit = false then .error (stateFault s) s
        else advanceState sl s
      else .error (stateFault s) s := by
  simp only [fseNextBody, run_bind, run_primitiveOpen, run_tableValid, run_stateReady]
  by_cases h : isPrimitive s
  case neg => simp only [if_neg h]
  simp only [if_pos h]
  by_cases h1 : (s.slot sl).info.valid = false
  case pos => simp only [if_pos h1]
  simp only [if_neg h1]
  by_cases h2 : (s.slot sl).info.sinit = false
  case pos => simp only [if_pos h2]
  simp only [if_neg h2]

end Sys2Proof.Machine
end

