-- ==== Sys2Proof/Laws/Decode.lean ====
section
/-! SUPPORT. Command words and their fields determine each other, so decoding a word is decoding its
fields. -/

namespace Sys2Proof

/-- Bit `j` of a command word, counted from the fields upward (rule R91). -/
theorem Fields.getLsbD_toWord (f : Fields) (j : Nat) :
    f.toWord.getLsbD j =
      if j < 32 then f.b.getLsbD j
      else if j < 64 then f.a.getLsbD (j - 32)
      else if j < 80 then f.imm.getLsbD (j - 64)
      else if j < 88 then f.sel.getLsbD (j - 80)
      else f.opcode.getLsbD (j - 88) := by
  have h : f.toWord.getLsbD j = (f.opcode ++ f.sel ++ f.imm ++ f.a ++ f.b).getLsbD j := rfl
  rw [h]
  simp only [BitVec.getLsbD_append]
  by_cases h1 : j < 32
  · simp [h1]
  by_cases h2 : j < 64
  · simp only [h1, h2, show j - 32 < 32 by omega, if_true, if_false]
  by_cases h3 : j < 80
  · simp only [h1, h2, h3, show ¬ j - 32 < 32 by omega, show j - 32 - 32 = j - 64 by omega,
      show j - 64 < 16 by omega, if_true, if_false]
  by_cases h4 : j < 88
  · simp only [h1, h2, h3, h4, show ¬ j - 32 < 32 by omega, show j - 32 - 32 = j - 64 by omega,
      show ¬ j - 64 < 16 by omega, show j - 64 - 16 = j - 80 by omega, show j - 80 < 8 by omega,
      if_true, if_false]
  · simp only [h1, h2, h3, h4, show ¬ j - 32 < 32 by omega, show j - 32 - 32 = j - 64 by omega,
      show ¬ j - 64 < 16 by omega, show j - 64 - 16 = j - 80 by omega, show ¬ j - 80 < 8 by omega,
      show j - 80 - 8 = j - 88 by omega, if_false]

theorem Fields.ofWord_toWord (f : Fields) : Fields.ofWord f.toWord = f := by
  have key : ∀ (lo w : Nat) (x : BitVec w),
      (∀ j, j < w → f.toWord.getLsbD (lo + j) = x.getLsbD j) →
        f.toWord.extractLsb' lo w = x := by
    intro lo w x h
    apply BitVec.eq_of_getLsbD_eq
    intro j hj
    rw [BitVec.getLsbD_extractLsb', h j hj]
    simp [hj]
  obtain ⟨o, s, i, a, b⟩ := f
  simp only [Fields.ofWord, Fields.mk.injEq]
  refine ⟨key _ _ _ ?_, key _ _ _ ?_, key _ _ _ ?_, key _ _ _ ?_, key _ _ _ ?_⟩ <;> intro j hj <;>
    rw [Fields.getLsbD_toWord]
  · simp [show ¬ 88 + j < 32 by omega, show ¬ 88 + j < 64 by omega, show ¬ 88 + j < 80 by omega,
      show ¬ 88 + j < 88 by omega]
  · simp [show ¬ 80 + j < 32 by omega, show ¬ 80 + j < 64 by omega, show ¬ 80 + j < 80 by omega,
      show 80 + j < 88 by omega]
  · simp [show ¬ 64 + j < 32 by omega, show ¬ 64 + j < 64 by omega, show 64 + j < 80 by omega]
  · simp [show ¬ 32 + j < 32 by omega, show 32 + j < 64 by omega]
  · simp [hj]

theorem Fields.toWord_ofWord (c : CmdWord) : (Fields.ofWord c).toWord = c := by
  apply BitVec.eq_of_getLsbD_eq
  intro j hj
  rw [Fields.getLsbD_toWord]
  simp only [Fields.ofWord, BitVec.getLsbD_extractLsb']
  repeat' split
  · simp [*]
  · simp [show j - 32 < 32 by omega, show 32 + (j - 32) = j by omega]
  · simp [show j - 64 < 16 by omega, show 64 + (j - 64) = j by omega]
  · simp [show j - 80 < 8 by omega, show 80 + (j - 80) = j by omega]
  · simp [show j - 88 < 8 by omega, show 88 + (j - 88) = j by omega]

theorem Fields.toWord_inj {f g : Fields} (h : f.toWord = g.toWord) : f = g := by
  rw [← Fields.ofWord_toWord f, h, Fields.ofWord_toWord]

/-- Decoding a word is decoding its fields. -/
theorem decode_toWord (f : Fields) : decode f.toWord = decodeFields f := by
  rw [decode, Fields.ofWord_toWord]

@[simp] theorem Slot.ofSel_toSel (s : Slot) : Slot.ofSel s.toSel = some s := by
  cases s <;> rfl

@[simp] theorem Streams.ofSel_toSel (n : Streams) : Streams.ofSel n.toSel = some n := by
  cases n <;> rfl

end Sys2Proof
end

