-- ==== Sys2Proof/Laws/Huffman.lean ====
section
/-! SUPPORT. The Huffman decode against its relations: what the stream decode and the weight decode
answer, in the words of `Safety.lean`, and that each stream either decodes or fails. -/

namespace Sys2Proof.Machine

/-! ### One stream (rule R208) -/

/-- A walk without its first step is a walk. -/
theorem HufWalk.tail {tab : Nat → HufEntry} {maxBits : Nat} {byte : Nat → Byte} {base : Nat}
    {pos : Nat → Int} {b : Byte} {out : List Byte}
    (h : HufWalk tab maxBits byte base pos (b :: out)) :
    HufWalk tab maxBits byte base (fun i => pos (i + 1)) out := by
  intro i hi
  have := h (i + 1) (by simpa using hi)
  simpa using this

/-- A walk that goes down to `pos out.length` is what the decode of `count` symbols does, when it has
`count` steps or its last one goes below the beginning. -/
theorem hufSymbols_of_walk {tab : Nat → HufEntry} {maxBits : Nat} {byte : Nat → Byte} {base : Nat}
    {out : List Byte} {pos : Nat → Int} {count : Nat}
    (h : HufWalk tab maxBits byte base pos out)
    (hc : out.length = count ∧ (1 ≤ count → 0 ≤ pos count) ∨
      1 ≤ out.length ∧ out.length ≤ count ∧ pos out.length < 0) :
    hufSymbols tab maxBits byte base count (pos 0) = (out, pos out.length) := by
  induction out generalizing pos count with
  | nil =>
    rcases hc with ⟨rfl, -⟩ | ⟨h1, -⟩
    · rfl
    · simp at h1
  | cons b out ih =>
    obtain ⟨hb, hp, hn⟩ := h 0 (by simp)
    simp only [List.getElem_cons_zero, Nat.zero_add] at hb hp hn
    obtain ⟨count, rfl⟩ : ∃ n, count = n + 1 := by
      simp only [List.length_cons] at hc
      exact ⟨count - 1, by omega⟩
    rw [hufSymbols, ← hp, ← hb]
    simp only [List.length_cons] at hc hn ⊢
    by_cases hneg : pos 1 < 0
    · have hl : out = [] := by
        rcases Nat.eq_zero_or_pos out.length with h0 | h0
        · exact List.eq_nil_of_length_eq_zero h0
        · exact absurd (hn (by omega)) (by omega)
      subst hl
      simp [hneg]
    · rw [if_neg hneg, ih (pos := fun i => pos (i + 1)) h.tail]
      rcases hc with ⟨hl, hx⟩ | ⟨-, h2, h3⟩
      · exact .inl ⟨by omega, fun _ => hx (by omega)⟩
      · refine .inr ⟨?_, by omega, h3⟩
        rcases Nat.eq_zero_or_pos out.length with h0 | h0
        · rw [h0] at h3
          exact absurd h3 hneg
        · exact h0

/-- The decode of `count` symbols is a walk: it has `count` steps, or its last one goes below the
beginning. -/
theorem walk_of_hufSymbols (tab : Nat → HufEntry) (maxBits : Nat) (byte : Nat → Byte) (base count : Nat)
    (start : Int) :
    ∃ pos : Nat → Int, pos 0 = start ∧
      HufWalk tab maxBits byte base pos (hufSymbols tab maxBits byte base count start).1 ∧
      pos (hufSymbols tab maxBits byte base count start).1.length =
        (hufSymbols tab maxBits byte base count start).2 ∧
      ((hufSymbols tab maxBits byte base count start).1.length = count ∧
          (1 ≤ count → 0 ≤ pos count) ∨
        1 ≤ (hufSymbols tab maxBits byte base count start).1.length ∧
          (hufSymbols tab maxBits byte base count start).1.length ≤ count ∧
          (hufSymbols tab maxBits byte base count start).2 < 0) := by
  induction count generalizing start with
  | zero => exact ⟨fun _ => start, rfl, fun i h => by simp [hufSymbols] at h, rfl, .inl ⟨rfl, by simp⟩⟩
  | succ count ih =>
    rw [hufSymbols]
    dsimp only
    generalize he : tab (backBits byte base start maxBits) = e
    by_cases hneg : start - e.nb.toNat < 0
    · simp only [if_pos hneg]
      refine ⟨fun i => if i = 0 then start else start - e.nb.toNat, rfl, ?_, rfl,
        .inr ⟨Nat.le_refl _, by simp, hneg⟩⟩
      intro i hi
      simp only [List.length_cons, List.length_nil] at hi
      obtain rfl : i = 0 := by omega
      simp [he]
    · simp only [if_neg hneg]
      obtain ⟨pos, h0, hw, hl, hc⟩ := ih (start - e.nb.toNat)
      refine ⟨fun i => if i = 0 then start else pos (i - 1), rfl, ?_, by simpa using hl, ?_⟩
      · intro i hi
        match i with
        | 0 =>
          simp only [List.getElem_cons_zero, if_true, he, true_and]
          simp only [Nat.zero_add, Nat.one_ne_zero, if_false, Nat.sub_self, h0, true_and]
          intro _
          omega
        | i + 1 =>
          have hi' : i < (hufSymbols tab maxBits byte base count (start - e.nb.toNat)).1.length := by
            simpa using hi
          have := hw i hi'
          simpa using this
      · rcases hc with ⟨h1, h2⟩ | ⟨h1, h2, h3⟩
        · refine .inl ⟨by simpa using h1, fun _ => ?_⟩
          simp only [Nat.add_one_ne_zero, if_false, Nat.add_sub_cancel]
          rcases Nat.eq_zero_or_pos count with hz | hz
          · subst hz
            rw [h0]
            omega
          · exact h2 hz
        · exact .inr ⟨by simp, by simpa using h2, h3⟩

/-- What `HufStream` does, once (rule R208): the symbols it stores, and its faults. -/
theorem run_hufStream (base n count dst : Nat) (s : State) :
    hufStream base n count dst s =
      match backStart s.inByte base n with
      | .error e => .error e s
      | .ok start =>
        let r := hufSymbols s.hufEntry s.huf.info.maxBits.toNat s.inByte base count start
        let t := s.setLits { s.lits with mem := s.lits.mem.writeList dst r.1 }
        if r.2 < 0 then .error ⟨.bitstreamOverrun, r.2⟩ t
        else if r.2 ≠ 0 then .error ⟨.bitstreamResidue, r.2⟩ t
        else .ok () t := by
  unfold hufStream State.hufDecode
  simp only [run_bind, run_current]
  cases backStart s.inByte base n with
  | error e => rfl
  | ok start =>
    simp only [run_lift_ok, run_update, run_raiseIf]
    by_cases h : (hufSymbols s.hufEntry s.huf.info.maxBits.toNat s.inByte base count start).2 < 0
    · simp only [if_pos h]
    · simp only [if_neg h]

/-- The same in a state whose literals buffer is `x`. -/
theorem run_hufStream_at (base n count dst : Nat) (s : State) (x : Literals) :
    hufStream base n count dst (s.setLits x) =
      match backStart s.inByte base n with
      | .error e => .error e (s.setLits x)
      | .ok start =>
        let r := hufSymbols s.hufEntry s.huf.info.maxBits.toNat s.inByte base count start
        let t := s.setLits { x with mem := x.mem.writeList dst r.1 }
        if r.2 < 0 then .error ⟨.bitstreamOverrun, r.2⟩ t
        else if r.2 ≠ 0 then .error ⟨.bitstreamResidue, r.2⟩ t
        else .ok () t :=
  run_hufStream base n count dst (s.setLits x)

/-- A stream that decodes is stored whole. -/
theorem run_hufStream_decodes {base n count dst : Nat} {s : State} {out : List Byte} (x : Literals)
    (hc : out.length = count)
    (h : HufDecodes s.hufEntry s.huf.info.maxBits.toNat s.inByte base n out) :
    hufStream base n count dst (s.setLits x) =
      .ok () (s.setLits { x with mem := x.mem.writeList dst out }) := by
  obtain ⟨start, pos, hs, h0, hw, hz⟩ := h
  subst hc
  rw [run_hufStream_at, hs]
  dsimp only
  rw [← h0, hufSymbols_of_walk hw (.inl ⟨rfl, fun _ => by omega⟩), hz]
  rfl

/-- A stream that fails stores what it has decoded, then faults. -/
theorem run_hufStream_fails {base n count dst : Nat} {s : State} {out : List Byte} {r : Raise}
    (x : Literals)
    (h : HufFails s.hufEntry s.huf.info.maxBits.toNat s.inByte base n count out r) :
    hufStream base n count dst (s.setLits x) =
      .error r (s.setLits { x with mem := x.mem.writeList dst out }) := by
  rw [run_hufStream_at]
  rcases h with ⟨rfl, h⟩ | ⟨start, pos, hs, h0, hw, h⟩
  · rw [h]
    rfl
  · rw [hs]
    dsimp only
    rcases h with ⟨h1, h2, h3, rfl⟩ | ⟨rfl, h2, rfl⟩
    · rw [← h0, hufSymbols_of_walk hw (.inr ⟨h1, h2, h3⟩)]
      exact if_pos h3
    · rw [← h0, hufSymbols_of_walk hw (.inl ⟨rfl, fun _ => by omega⟩)]
      exact (if_neg (by omega)).trans (if_pos (by omega))

/-- Every stream decodes or fails. -/
theorem hufDecodes_or_fails (tab : Nat → HufEntry) (maxBits : Nat) (byte : Nat → Byte)
    (base n count : Nat) :
    (∃ out, out.length = count ∧ HufDecodes tab maxBits byte base n out) ∨
    ∃ out r, HufFails tab maxBits byte base n count out r := by
  cases hs : backStart byte base n with
  | error e => exact .inr ⟨[], e, .inl ⟨rfl, hs⟩⟩
  | ok start =>
    obtain ⟨pos, h0, hw, hl, hc⟩ := walk_of_hufSymbols tab maxBits byte base count start
    generalize hufSymbols tab maxBits byte base count start = r at hw hl hc
    rcases hc with ⟨h1, h2⟩ | ⟨h1, h2, h3⟩
    · rw [h1] at hl
      by_cases hz : pos count = 0
      · exact .inl ⟨r.1, h1, start, pos, hs, h0, hw, by rw [h1]; exact hz⟩
      · refine .inr ⟨r.1, _, .inr ⟨start, pos, hs, h0, hw, .inr ⟨h1, ?_, rfl⟩⟩⟩
        rcases Nat.eq_zero_or_pos count with hc | hc
        · subst hc
          rw [h0] at hz ⊢
          omega
        · have := h2 hc
          omega
    · exact .inr ⟨r.1, _, .inr ⟨start, pos, hs, h0, hw, .inl ⟨h1, h2, by rw [hl]; exact h3, rfl⟩⟩⟩

/-- The streams of a section decode or fail (rule R210). -/
theorem streams_decode_or_fail (tab : Nat → HufEntry) (maxBits : Nat) (byte : Nat → Byte)
    (a fin regen : Nat) (streams : Streams) :
    (∃ out, StreamsDecode tab maxBits byte a fin regen out streams) ∨
    ∃ out r, StreamsFail tab maxBits byte a fin regen out r streams := by
  cases streams with
  | one => exact hufDecodes_or_fails tab maxBits byte a (fin - a) regen
  | four =>
    by_cases ha : fin < a + 6
    · exact .inr ⟨[], _, .inl ⟨ha, rfl, rfl⟩⟩
    generalize hz1 : (byte a).toNat + 256 * (byte (a + 1)).toNat = z1
    generalize hz2 : (byte (a + 2)).toNat + 256 * (byte (a + 3)).toNat = z2
    generalize hz3 : (byte (a + 4)).toNat + 256 * (byte (a + 5)).toNat = z3
    have key : ∀ out r,
        (fin < a + 6 + z1 + z2 + z3 ∧ out = [] ∧ r = ⟨.shortRead, (a + 6 : Nat)⟩ ∨
          a + 6 + z1 + z2 + z3 ≤ fin ∧ regen < 3 * ((regen + 3) / 4) ∧ out = [] ∧
            r = ⟨.literalsOverflow, (3 * ((regen + 3) / 4) : Nat)⟩ ∨
          a + 6 + z1 + z2 + z3 ≤ fin ∧ 3 * ((regen + 3) / 4) ≤ regen ∧
            SegmentsFail tab maxBits byte
              [(a + 6, z1, (regen + 3) / 4), (a + 6 + z1, z2, (regen + 3) / 4),
                (a + 6 + z1 + z2, z3, (regen + 3) / 4),
                (a + 6 + z1 + z2 + z3, fin - (a + 6 + z1 + z2 + z3),
                  regen - 3 * ((regen + 3) / 4))] out r) →
        StreamsFail tab maxBits byte a fin regen out r .four :=
      fun out r h => .inr ⟨_, z1, z2, z3, _, rfl, by omega, hz1.symm, hz2.symm, hz3.symm, rfl, h⟩
    by_cases hp : fin < a + 6 + z1 + z2 + z3
    · exact .inr ⟨[], _, key _ _ (.inl ⟨hp, rfl, rfl⟩)⟩
    by_cases hseg : regen < 3 * ((regen + 3) / 4)
    · exact .inr ⟨[], _, key _ _ (.inr (.inl ⟨by omega, hseg, rfl, rfl⟩))⟩
    have fails : ∀ {out r}, _ → ∃ out r, StreamsFail tab maxBits byte a fin regen out r .four :=
      fun {out r} h => ⟨out, r, key out r (.inr (.inr ⟨by omega, by omega, h⟩))⟩
    rcases hufDecodes_or_fails tab maxBits byte (a + 6) z1 ((regen + 3) / 4) with
      ⟨o1, l1, d1⟩ | ⟨o, r, f⟩
    case inr => exact .inr (fails (.inl f))
    rcases hufDecodes_or_fails tab maxBits byte (a + 6 + z1) z2 ((regen + 3) / 4) with
      ⟨o2, l2, d2⟩ | ⟨o, r, f⟩
    case inr => exact .inr (fails (.inr ⟨o1, _, rfl, l1, d1, .inl f⟩))
    rcases hufDecodes_or_fails tab maxBits byte (a + 6 + z1 + z2) z3 ((regen + 3) / 4) with
      ⟨o3, l3, d3⟩ | ⟨o, r, f⟩
    case inr => exact .inr (fails (.inr ⟨o1, _, rfl, l1, d1, .inr ⟨o2, _, rfl, l2, d2, .inl f⟩⟩))
    rcases hufDecodes_or_fails tab maxBits byte (a + 6 + z1 + z2 + z3)
      (fin - (a + 6 + z1 + z2 + z3)) (regen - 3 * ((regen + 3) / 4)) with
      ⟨o4, l4, d4⟩ | ⟨o, r, f⟩
    case inr =>
      exact .inr (fails
        (.inr ⟨o1, _, rfl, l1, d1, .inr ⟨o2, _, rfl, l2, d2, .inr ⟨o3, _, rfl, l3, d3, .inl f⟩⟩⟩))
    exact .inl ⟨_, z1, z2, z3, _, o1, o2, o3, o4, by omega, hz1.symm, hz2.symm, hz3.symm, rfl,
      by simp only [List.length_append]; omega, l1, l2, l3, d1, d2, d3, d4⟩

/-- What the four-stream form does (rule R210): the checks of the jump table, then the four streams,
each a call of `HufStream`. -/
theorem run_fourStreams (fin regen : Nat) (s : State) :
    fourStreams fin regen s =
      let p := s.reader.rpos.toNat + 6
      let z1 := jumpSize s.inByte s.reader.rpos.toNat
      let z2 := jumpSize s.inByte (s.reader.rpos.toNat + 2)
      let z3 := jumpSize s.inByte (s.reader.rpos.toNat + 4)
      let seg := (regen + 3) / 4
      if p > fin then .error ⟨.shortRead, s.reader.rpos.toNat⟩ s
      else if p + z1 + z2 + z3 > fin then .error ⟨.shortRead, p⟩ s
      else if 3 * seg > regen then .error ⟨.literalsOverflow, (3 * seg : Nat)⟩ s
      else
        (do hufStream p z1 seg 0
            hufStream (p + z1) z2 seg seg
            hufStream (p + z1 + z2) z3 seg (2 * seg)
            hufStream (p + z1 + z2 + z3) (fin - p - (z1 + z2 + z3)) (regen - 3 * seg)
              (3 * seg)) s := by
  dsimp only
  rw [fourStreams]
  simp only [run_bind, run_current]
  by_cases h1 : s.reader.rpos.toNat + 6 > fin
  · simp only [run_raiseIf_pos h1, if_pos h1]
  simp only [run_raiseIf_neg h1, if_neg h1]
  by_cases h2 : s.reader.rpos.toNat + 6 + jumpSize s.inByte s.reader.rpos.toNat +
      jumpSize s.inByte (s.reader.rpos.toNat + 2) + jumpSize s.inByte (s.reader.rpos.toNat + 4) > fin
  · simp only [run_raiseIf_pos h2, if_pos h2]
  simp only [run_raiseIf_neg h2, if_neg h2]
  by_cases h3 : 3 * ((regen + 3) / 4) > regen
  · simp only [run_raiseIf_pos h3, if_pos h3]
  simp only [run_raiseIf_neg h3, if_neg h3]

/-- The literals of decoding streams are stored from address 0 (rule R210). -/
theorem run_hufStreams_decodes {streams : Streams} {fin regen : Nat} {s : State} {out : List Byte}
    (h : StreamsDecode s.hufEntry s.huf.info.maxBits.toNat s.inByte s.reader.rpos.toNat fin regen out
      streams) :
    hufStreams streams fin regen s =
      .ok () (s.setLits { s.lits with mem := s.lits.mem.writeList 0 out }) := by
  cases streams with
  | one => exact run_hufStream_decodes s.lits h.1 h.2
  | four =>
    obtain ⟨z1, z2, z3, z4, o1, o2, o3, o4, hf, h1, h2, h3, rfl, hl, l1, l2, l3, d1, d2, d3, d4⟩ := h
    simp only [List.length_append] at hl
    rw [hufStreams, run_fourStreams]
    simp only [jumpSize, Nat.add_assoc s.reader.rpos.toNat 2 1, Nat.add_assoc s.reader.rpos.toNat 4 1,
      Nat.reduceAdd]
    simp only [← h1, ← h2, ← h3]
    rw [if_neg (by omega), if_neg (by omega), if_neg (by omega)]
    have e1 := run_hufStream_decodes (dst := 0) s.lits l1 d1
    have e2 := run_hufStream_decodes (dst := (regen + 3) / 4)
      { s.lits with mem := s.lits.mem.writeList 0 o1 } l2 d2
    have e3 := run_hufStream_decodes (dst := 2 * ((regen + 3) / 4))
      { s.lits with
        mem := (s.lits.mem.writeList 0 o1).writeList ((regen + 3) / 4) o2 } l3 d3
    have e4 := run_hufStream_decodes (dst := 3 * ((regen + 3) / 4))
      { s.lits with
        mem := ((s.lits.mem.writeList 0 o1).writeList ((regen + 3) / 4) o2).writeList
          (2 * ((regen + 3) / 4)) o3 } (show o4.length = regen - 3 * ((regen + 3) / 4) by omega) d4
    rw [show s.setLits s.lits = s from rfl] at e1
    rw [show fin - (s.reader.rpos.toNat + 6) - (z1 + z2 + z3) = z4 by omega]
    simp only [run_bind, e1, e2, e3, e4]
    simp only [Memory.writeList_append, List.length_append, Nat.zero_add, l1, l2, l3]
    rw [show (regen + 3) / 4 + (regen + 3) / 4 = 2 * ((regen + 3) / 4) by omega,
      show 2 * ((regen + 3) / 4) + (regen + 3) / 4 = 3 * ((regen + 3) / 4) by omega]

/-- The literals decoded before the streams fail are stored from address 0 (rule R210). -/
theorem run_hufStreams_fails {streams : Streams} {fin regen : Nat} {s : State} {out : List Byte}
    {r : Raise}
    (h : StreamsFail s.hufEntry s.huf.info.maxBits.toNat s.inByte s.reader.rpos.toNat fin regen out
      r streams) :
    hufStreams streams fin regen s =
      .error r (s.setLits { s.lits with mem := s.lits.mem.writeList 0 out }) := by
  cases streams with
  | one => exact run_hufStream_fails s.lits h
  | four =>
    rw [hufStreams, run_fourStreams]
    rcases h with ⟨hf, rfl, rfl⟩ | ⟨p, z1, z2, z3, seg, rfl, hp, h1, h2, h3, rfl, h⟩
    · exact if_pos (by omega)
    simp only [jumpSize, Nat.add_assoc s.reader.rpos.toNat 2 1, Nat.add_assoc s.reader.rpos.toNat 4 1,
      Nat.reduceAdd]
    simp only [← h1, ← h2, ← h3]
    rw [if_neg (by omega)]
    rcases h with ⟨hf, rfl, rfl⟩ | ⟨hf, hs, rfl, rfl⟩ | ⟨hf, hs, h⟩
    · exact if_pos (by omega)
    · exact (if_neg (by omega)).trans (if_pos (by omega))
    rw [if_neg (by omega), if_neg (by omega)]
    rw [show fin - (s.reader.rpos.toNat + 6) - (z1 + z2 + z3) =
      fin - (s.reader.rpos.toNat + 6 + z1 + z2 + z3) by omega]
    simp only [run_bind]
    rcases h with h | ⟨o1, _, rfl, l1, d1, h⟩
    · have e := run_hufStream_fails (dst := 0) s.lits h
      rw [show s.setLits s.lits = s from rfl] at e
      simp only [e]
    have e1 := run_hufStream_decodes (dst := 0) s.lits l1 d1
    rw [show s.setLits s.lits = s from rfl] at e1
    simp only [e1]
    generalize hx1 : s.lits.mem.writeList 0 o1 = m1
    rcases h with h | ⟨o2, _, rfl, l2, d2, h⟩
    · simp only [run_hufStream_fails (dst := (regen + 3) / 4) { s.lits with mem := m1 } h,
        Memory.writeList_append, hx1, l1, Nat.zero_add]
    simp only [run_hufStream_decodes (dst := (regen + 3) / 4) { s.lits with mem := m1 } l2 d2]
    generalize hx2 : m1.writeList ((regen + 3) / 4) o2 = m2
    have d : (regen + 3) / 4 + (regen + 3) / 4 = 2 * ((regen + 3) / 4) := by omega
    rcases h with h | ⟨o3, _, rfl, l3, d3, h⟩
    · simp only [run_hufStream_fails (dst := 2 * ((regen + 3) / 4)) { s.lits with mem := m2 } h,
        Memory.writeList_append, hx1, hx2, l1, l2, Nat.zero_add, d]
    simp only [run_hufStream_decodes (dst := 2 * ((regen + 3) / 4)) { s.lits with mem := m2 } l3 d3]
    generalize hx3 : m2.writeList (2 * ((regen + 3) / 4)) o3 = m3
    rcases h with h | ⟨o4, _, rfl, l4, d4, h⟩
    · simp only [run_hufStream_fails (dst := 3 * ((regen + 3) / 4)) { s.lits with mem := m3 } h,
        Memory.writeList_append, hx1, hx2, hx3, l1, l2, l3, Nat.zero_add, d,
        show 2 * ((regen + 3) / 4) + (regen + 3) / 4 = 3 * ((regen + 3) / 4) by omega]
    · exact h.elim

/-! ### FSE-coded weights (rule R206) -/

/-- The two states of rule R206 as one sequence, from what `codedWeights` reads first. -/
theorem WeightWalk.codedWeights_eq {tab : Nat → FseEntry} {byte : Nat → Byte} {al base n : Nat}
    {st : Nat → Nat} {pos : Nat → Int} (h : WeightWalk tab byte al base n st pos) :
    codedWeights tab byte al base n =
      if pos 0 < 0 then .error ⟨.bitstreamOverrun, pos 0⟩
      else weightLoop tab byte base 128 (st 0) (st 1) (pos 0) [] := by
  obtain ⟨start, hs, h0, h1, hp, -⟩ := h
  rw [codedWeights, hs, h0, h1, hp]
  rfl

/-- The first `i` symbols of the walk. -/
def walkSymbols (tab : Nat → FseEntry) (st : Nat → Nat) (i : Nat) : List Nat :=
  (List.range i).map fun k => (tab (st k)).sym.toNat

theorem walkSymbols_succ (tab : Nat → FseEntry) (st : Nat → Nat) (i : Nat) :
    walkSymbols tab st (i + 1) = walkSymbols tab st i ++ [(tab (st i)).sym.toNat] := by
  simp [walkSymbols, List.range_succ]

@[simp] theorem length_walkSymbols (tab : Nat → FseEntry) (st : Nat → Nat) (i : Nat) :
    (walkSymbols tab st i).length = i := by
  simp [walkSymbols]

/-- One pass of the loop of rule R206, over two steps of the walk. -/
theorem weightLoop_pass {tab : Nat → FseEntry} {byte : Nat → Byte} {base : Nat} {st : Nat → Nat}
    {pos : Nat → Int} (hst : ∀ i, st (i + 2) = (tab (st i)).base.toNat +
        backBits byte base (pos i) (tab (st i)).nb.toNat ∧
      pos (i + 1) = pos i - (tab (st i)).nb.toNat) (fuel i : Nat) :
    weightLoop tab byte base (fuel + 1) (st i) (st (i + 1)) (pos i) (walkSymbols tab st i) =
      if i ≥ 254 then .error ⟨.invalidHuffmanWeights, i⟩
      else if pos (i + 1) < 0 then .ok (walkSymbols tab st (i + 2))
      else if pos (i + 2) < 0 then .ok (walkSymbols tab st (i + 3))
      else
        weightLoop tab byte base fuel (st (i + 2)) (st (i + 3)) (pos (i + 2))
          (walkSymbols tab st (i + 2)) := by
  rw [weightLoop]
  simp only [length_walkSymbols]
  rw [← (hst i).1, ← (hst i).2, ← (hst (i + 1)).1, ← (hst (i + 1)).2]
  simp only [walkSymbols_succ, List.append_assoc, List.cons_append, List.nil_append]

/-- A walk that ends within 255 weights. -/
theorem weightLoop_ok {tab : Nat → FseEntry} {byte : Nat → Byte} {base : Nat} {st : Nat → Nat}
    {pos : Nat → Int} (hst : ∀ i, st (i + 2) = (tab (st i)).base.toNat +
        backBits byte base (pos i) (tab (st i)).nb.toNat ∧
      pos (i + 1) = pos i - (tab (st i)).nb.toNat) {n : Nat} (hn : n ≤ 255)
    (hpos : ∀ i, i + 1 < n → 0 ≤ pos i) (hend : pos (n - 1) < 0) (fuel i : Nat)
    (hi : i + 2 * fuel = 256) (hin : i + 2 ≤ n) :
    weightLoop tab byte base fuel (st i) (st (i + 1)) (pos i) (walkSymbols tab st i) =
      .ok (walkSymbols tab st n) := by
  induction fuel generalizing i with
  | zero => omega
  | succ fuel ih =>
    rw [weightLoop_pass hst, if_neg (by omega)]
    by_cases h1 : pos (i + 1) < 0
    · have : n = i + 2 := by
        by_contra hne
        exact absurd (hpos (i + 1) (by omega)) (by omega)
      rw [if_pos h1, this]
    rw [if_neg h1]
    have h2n : n ≠ i + 2 := by
      rintro rfl
      exact h1 hend
    by_cases h2 : pos (i + 2) < 0
    · have : n = i + 3 := by
        by_contra hne
        exact absurd (hpos (i + 2) (by omega)) (by omega)
      rw [if_pos h2, this]
    rw [if_neg h2]
    have h3n : n ≠ i + 3 := by
      rintro rfl
      exact h2 hend
    exact ih (i + 2) (by omega) (by omega)

/-- A walk that goes on beyond 255 weights. -/
theorem weightLoop_error {tab : Nat → FseEntry} {byte : Nat → Byte} {base : Nat} {st : Nat → Nat}
    {pos : Nat → Int} (hst : ∀ i, st (i + 2) = (tab (st i)).base.toNat +
        backBits byte base (pos i) (tab (st i)).nb.toNat ∧
      pos (i + 1) = pos i - (tab (st i)).nb.toNat)
    (hpos : ∀ i, i ≤ 254 → 0 ≤ pos i) (fuel i : Nat) (hi : i + 2 * fuel = 256) (hlt : i ≤ 254) :
    weightLoop tab byte base fuel (st i) (st (i + 1)) (pos i) (walkSymbols tab st i) =
      .error ⟨.invalidHuffmanWeights, 254⟩ := by
  induction fuel generalizing i with
  | zero => omega
  | succ fuel ih =>
    rw [weightLoop_pass hst]
    by_cases h : i = 254
    · subst h
      rfl
    have h1 := hpos (i + 1) (by omega)
    have h2 := hpos (i + 2) (by omega)
    rw [if_neg (by omega), if_neg (by omega), if_neg (by omega)]
    exact ih (i + 2) (by omega) (by omega)

/-- The weights of a bitstream that decodes. -/
theorem codedWeights_decodes {tab : Nat → FseEntry} {byte : Nat → Byte} {al base n : Nat}
    {w : List Nat} (h : WeightsDecode tab byte al base n w) :
    codedWeights tab byte al base n = .ok w := by
  obtain ⟨st, pos, hw, h2, h255, hget, hpos, hend⟩ := h
  obtain ⟨_, -, -, -, -, hst⟩ := id hw
  have hp := hpos 0 (by omega)
  rw [hw.codedWeights_eq, if_neg (by omega)]
  have hws : w = walkSymbols tab st w.length :=
    List.ext_getElem (by simp) fun i hi _ => by simp [walkSymbols, hget i hi]
  rw [hws]
  simpa [walkSymbols] using weightLoop_ok hst h255 hpos hend 128 0 rfl h2

/-- The fault of a bitstream that is no list of weights. -/
theorem codedWeights_fails {tab : Nat → FseEntry} {byte : Nat → Byte} {al base n : Nat} {r : Raise}
    (h : WeightsFail tab byte al base n r) : codedWeights tab byte al base n = .error r := by
  rcases h with h | ⟨st, pos, hw, ⟨h0, rfl⟩ | ⟨hpos, rfl⟩⟩
  · rw [codedWeights, h]
    rfl
  · rw [hw.codedWeights_eq, if_pos h0]
  · obtain ⟨_, -, -, -, -, hst⟩ := id hw
    have hp := hpos 0 (by omega)
    rw [hw.codedWeights_eq, if_neg (by omega)]
    simpa [walkSymbols] using weightLoop_error hst hpos 128 0 rfl (by omega)

/-- The walk of rule R206 step by step: states `i` and `i + 1`, and position `i`. -/
def walkAt (tab : Nat → FseEntry) (byte : Nat → Byte) (base s0 s1 : Nat) (p0 : Int) :
    Nat → Nat × Nat × Int
  | 0 => (s0, s1, p0)
  | i + 1 =>
    let (x, y, p) := walkAt tab byte base s0 s1 p0 i
    (y, (tab x).base.toNat + backBits byte base p (tab x).nb.toNat, p - (tab x).nb.toNat)

/-- Every bitstream with an end mark has a walk. -/
theorem exists_weightWalk {byte : Nat → Byte} {base n start : Nat}
    (h : backStart byte base n = .ok start) (tab : Nat → FseEntry) (al : Nat) :
    ∃ st pos, WeightWalk tab byte al base n st pos := by
  refine ⟨fun i => (walkAt tab byte base (backBits byte base start al)
      (backBits byte base ((start : Int) - al) al) ((start : Int) - al - al) i).1,
    fun i => (walkAt tab byte base (backBits byte base start al)
      (backBits byte base ((start : Int) - al) al) ((start : Int) - al - al) i).2.2,
    start, h, rfl, rfl, rfl, fun i => ⟨rfl, rfl⟩⟩

/-- Every bitstream is a list of weights or is none. -/
theorem weights_decode_or_fail (tab : Nat → FseEntry) (byte : Nat → Byte) (al base n : Nat) :
    (∃ w, WeightsDecode tab byte al base n w) ∨ ∃ r, WeightsFail tab byte al base n r := by
  cases hs : backStart byte base n with
  | error e => exact .inr ⟨e, .inl hs⟩
  | ok start =>
    obtain ⟨st, pos, hw⟩ := exists_weightWalk hs tab al
    by_cases h0 : pos 0 < 0
    · exact .inr ⟨_, .inr ⟨st, pos, hw, .inl ⟨h0, rfl⟩⟩⟩
    by_cases hall : ∀ i, i ≤ 254 → 0 ≤ pos i
    · exact .inr ⟨_, .inr ⟨st, pos, hw, .inr ⟨hall, rfl⟩⟩⟩
    have hex : ∃ i, i ≤ 254 ∧ pos i < 0 := by
      by_contra hne
      exact hall fun i hi => by
        by_contra hlt
        exact hne ⟨i, hi, by omega⟩
    have hmin : ∀ k, k < Nat.find hex → 0 ≤ pos k := fun k hk => by
      have h1 := Nat.find_min hex hk
      have h2 := (Nat.find_spec hex).1
      by_contra hlt
      exact h1 ⟨by omega, by omega⟩
    obtain ⟨hle, hneg⟩ := Nat.find_spec hex
    have hpos : Nat.find hex ≠ 0 := fun h => h0 (h ▸ hneg)
    generalize Nat.find hex = m at hmin hle hneg hpos
    exact .inl ⟨walkSymbols tab st (m + 1), st, pos, hw, by simp; omega, by simp; omega,
      fun i hi => by simp [walkSymbols], fun i hi => hmin i (by simp at hi; omega),
      by simpa using hneg⟩

/-- The weight decode answers a list exactly when the bitstream decodes to it. -/
theorem codedWeights_eq_ok {tab : Nat → FseEntry} {byte : Nat → Byte} {al base n : Nat}
    {w : List Nat} :
    codedWeights tab byte al base n = .ok w ↔ WeightsDecode tab byte al base n w := by
  refine ⟨fun h => ?_, codedWeights_decodes⟩
  rcases weights_decode_or_fail tab byte al base n with ⟨w', hw⟩ | ⟨r, hr⟩
  · rw [codedWeights_decodes hw] at h
    cases h
    exact hw
  · rw [codedWeights_fails hr] at h
    cases h

/-- The weight decode raises exactly when the bitstream is no list of weights. -/
theorem codedWeights_eq_error {tab : Nat → FseEntry} {byte : Nat → Byte} {al base n : Nat}
    {r : Raise} :
    codedWeights tab byte al base n = .error r ↔ WeightsFail tab byte al base n r := by
  refine ⟨fun h => ?_, codedWeights_fails⟩
  rcases weights_decode_or_fail tab byte al base n with ⟨w, hw⟩ | ⟨r', hr⟩
  · rw [codedWeights_decodes hw] at h
    cases h
  · rw [codedWeights_fails hr] at h
    cases h
    exact hr

/-- Every tree description makes a table or fails (rule R206). -/
theorem tree_or_fails (p : Params) (byte : Nat → Byte) (before : Nat → FseEntry) (a fin : Nat) :
    (∃ w next t, weightTable p.hufMaxBits w = .ok t ∧
      (DirectTree byte a fin w next ∨ ∃ h, CodedTree p byte before a fin h w next)) ∨
    (∃ rpos r, TreeFails p byte a fin rpos r) ∨
    ∃ h rpos r, CodedTreeFails p byte before a fin h rpos r := by
  by_cases h1 : fin < a + 1
  · exact .inr (.inl ⟨_, _, .inl ⟨h1, rfl, rfl⟩⟩)
  have fails : ∀ {rpos r}, _ → ∃ rpos r, TreeFails p byte a fin rpos r :=
    fun {rpos r} h => ⟨rpos, r, .inr ⟨by omega, h⟩⟩
  by_cases hd : 128 ≤ (byte a).toNat
  · by_cases hf : fin < a + 1 + ((byte a).toNat - 127 + 1) / 2
    · exact .inr (.inl (fails (.inl ⟨hd, hf, rfl, rfl⟩)))
    have dt : DirectTree byte a fin
        ((List.range ((byte a).toNat - 127)).map (nibbleWeight byte (a + 1)))
        (a + 1 + ((byte a).toNat - 127 + 1) / 2) :=
      ⟨hd, by simp, by simp, by omega, fun i hi => by simp [nibbleWeight]⟩
    cases hw : weightTable p.hufMaxBits
        ((List.range ((byte a).toNat - 127)).map (nibbleWeight byte (a + 1))) with
    | ok t => exact .inl ⟨_, _, t, hw, .inl dt⟩
    | error r => exact .inr (.inl (fails (.inr (.inl ⟨_, dt, hw⟩))))
  · by_cases hz : (byte a).toNat = 0
    · exact .inr (.inl (fails (.inr (.inr (.inl ⟨hz, rfl, rfl⟩)))))
    by_cases hf : fin < a + 1 + (byte a).toNat
    · exact .inr (.inl (fails (.inr (.inr (.inr ⟨by omega, by omega, rfl, .inl ⟨hf, rfl⟩⟩)))))
    cases hh : fseReadHeader p byte .aux (a + 1) (a + 1 + (byte a).toNat) with
    | error r =>
      exact .inr (.inl (fails (.inr (.inr (.inr ⟨by omega, by omega, rfl, .inr ⟨by omega, hh⟩⟩)))))
    | ok h =>
      have ch : CodedHeader p byte a fin h (a + 1 + (byte a).toNat) :=
        ⟨by omega, by omega, rfl, by omega, hh⟩
      rcases weights_decode_or_fail (h.entry before) byte h.al h.next
        (a + 1 + (byte a).toNat - h.next) with ⟨w, hw⟩ | ⟨r, hr⟩
      · cases ht : weightTable p.hufMaxBits w with
        | ok t => exact .inl ⟨w, _, t, ht, .inr ⟨h, ch, hw⟩⟩
        | error r => exact .inr (.inr ⟨h, _, r, .inr ⟨w, ⟨ch, hw⟩, ht⟩⟩)
      · exact .inr (.inr ⟨h, _, r, .inl ⟨_, ch, rfl, hr⟩⟩)

/-! ### The tree description (rule R206) -/

theorem toNat_setRpos_rpos (s : State) {v : Nat} (h : v < 2 ^ 32) :
    (s.setRpos v).reader.rpos.toNat = v := by
  simp only [State.setRpos_reader, BitVec.toNat_ofNat]
  omega

theorem setRpos_rpos (s : State) : s.setRpos s.reader.rpos.toNat = s := by
  simp [State.setRpos, State.setReader]

/-- What `HufTree` does after its first byte (rule R206). -/
theorem run_hufTree (fin : Nat) (s : State) :
    hufTree fin s =
      if s.reader.rpos.toNat + 1 > fin then .error ⟨.shortRead, s.reader.rpos.toNat⟩ s
      else
        (do let w ←
              if (s.inByte s.reader.rpos.toNat).toNat ≥ 128 then
                directWeights fin ((s.inByte s.reader.rpos.toNat).toNat - 127)
              else fseWeights fin (s.inByte s.reader.rpos.toNat).toNat
            hufFromWeights w) (s.setRpos (s.reader.rpos.toNat + 1)) := by
  rw [hufTree]
  simp only [run_bind, run_current]
  by_cases h : s.reader.rpos.toNat + 1 > fin
  · simp only [run_raiseIf_pos h, if_pos h]
  · simp only [run_raiseIf_neg h, if_neg h, run_skip]

/-- The direct form (rule R206). -/
theorem run_directWeights (fin n : Nat) (s : State) :
    directWeights fin n s =
      if s.reader.rpos.toNat + (n + 1) / 2 > fin then .error ⟨.shortRead, s.reader.rpos.toNat⟩ s
      else .ok ((List.range n).map (nibbleWeight s.inByte s.reader.rpos.toNat))
        (s.setRpos (s.reader.rpos.toNat + (n + 1) / 2)) := by
  rw [directWeights]
  simp only [run_bind, run_current]
  by_cases h : s.reader.rpos.toNat + (n + 1) / 2 > fin
  · simp only [run_raiseIf_pos h, if_pos h]
  · simp only [run_raiseIf_neg h, if_neg h, run_skip, run_pure]

/-- A direct tree description is read to its end; its weights decide. -/
theorem run_hufTree_direct {s : State} {fin next : Nat} {w : List Nat} (hfin : fin < 2 ^ 32)
    (h : DirectTree s.inByte s.reader.rpos.toNat fin w next) :
    hufTree fin s = hufFromWeights w (s.setRpos next) := by
  obtain ⟨h1, hl, rfl, hle, hw⟩ := h
  have hr := toNat_setRpos_rpos s (v := s.reader.rpos.toNat + 1) (by omega)
  have hws : (List.range ((s.inByte s.reader.rpos.toNat).toNat - 127)).map
      (nibbleWeight s.inByte (s.reader.rpos.toNat + 1)) = w :=
    List.ext_getElem (by simp [hl]) fun i hi hi' => by simp [nibbleWeight, hw i hi']
  rw [run_hufTree, if_neg (by omega)]
  simp only [run_bind, if_pos h1, run_directWeights]
  rw [hr, if_neg (by omega), show (s.setRpos (s.reader.rpos.toNat + 1)).inByte = s.inByte from rfl, hws]
  simp only [hl]
  rfl

/-- What the coded form does once its header is read (rule R206). -/
theorem run_fseWeights {s : State} {fin hb : Nat} {h : Header} (h0 : hb ≠ 0)
    (hsub : s.reader.rpos.toNat + hb ≤ fin) (hfin : fin < 2 ^ 32)
    (hh : fseReadHeader s.params s.inByte .aux s.reader.rpos.toNat (s.reader.rpos.toNat + hb) =
      .ok h)
    (hd : checkDist s.params .aux h.al h.probs = .ok ())
    (hn : h.next ≤ s.reader.rpos.toNat + hb) :
    fseWeights fin hb s =
      let t := (s.setRpos h.next).setSlot .aux
        ((s.slot .aux).build h.al h.probs.length (spread h.al h.probs))
      match codedWeights (h.entry (s.fseEntry .aux)) s.inByte h.al h.next
          (s.reader.rpos.toNat + hb - h.next) with
      | .error e => .error e t
      | .ok w => .ok w (t.setRpos (s.reader.rpos.toNat + hb)) := by
  have he : ((s.setRpos h.next).setSlot .aux
      ((s.slot .aux).build h.al h.probs.length (spread h.al h.probs))).fseEntry .aux =
      h.entry (s.fseEntry .aux) := by
    funext k
    show (((s.slot .aux).tab.writeList 0 (spread h.al h.probs)).lookup k).getD _ = _
    rw [Memory.lookup_writeList]
    simp only [Header.entry]
    by_cases hk : k < (spread h.al h.probs).length
    · simp [hk]
    · simp only [Nat.zero_le, Nat.zero_add, hk, and_false, if_false, List.getElem?_eq_none (Nat.not_lt.1 hk)]
      rfl
  rw [fseWeights]
  simp only [run_bind, run_raiseIf_neg h0, run_current]
  rw [run_raiseIf_neg (by omega)]
  simp only [run_readHeader, hh, run_fseFromDist, State.setRpos_params, hd]
  rw [show ((s.setRpos h.next).slot .aux) = s.slot .aux from rfl, he]
  rw [show ((s.setRpos h.next).setSlot .aux
      ((s.slot .aux).build h.al h.probs.length (spread h.al h.probs))).reader.rpos.toNat = h.next from
    toNat_setRpos_rpos s (by omega)]
  rw [show ((s.setRpos h.next).setSlot .aux
      ((s.slot .aux).build h.al h.probs.length (spread h.al h.probs))).inByte = s.inByte from rfl]
  cases codedWeights (h.entry (s.fseEntry .aux)) s.inByte h.al h.next
    (s.reader.rpos.toNat + hb - h.next) <;> rfl

/-- A coded tree description whose header is read: the weights decide, in the state where slot `AUX`
is built. -/
theorem run_hufTree_coded {s : State} {fin next : Nat} {h : Header} (hfin : fin < 2 ^ 32)
    (hc : CodedHeader s.params s.inByte s.reader.rpos.toNat fin h next)
    (hd : checkDist s.params .aux h.al h.probs = .ok ()) (hn : h.next ≤ next) :
    hufTree fin s =
      let t := (s.setRpos h.next).setSlot .aux
        ((s.slot .aux).build h.al h.probs.length (spread h.al h.probs))
      match codedWeights (h.entry (s.fseEntry .aux)) s.inByte h.al h.next (next - h.next) with
      | .error e => .error e t
      | .ok w => hufFromWeights w (t.setRpos next) := by
  obtain ⟨h1, h2, rfl, hle, hh⟩ := hc
  have hr := toNat_setRpos_rpos s (v := s.reader.rpos.toNat + 1) (by omega)
  have e := run_fseWeights (s := s.setRpos (s.reader.rpos.toNat + 1)) (h := h)
    (hb := (s.inByte s.reader.rpos.toNat).toNat) (by omega) (by rw [hr]; exact hle) hfin
    (by rw [hr]; exact hh) hd (by rw [hr]; exact hn)
  rw [hr, show (s.setRpos (s.reader.rpos.toNat + 1)).inByte = s.inByte from rfl,
    show (s.setRpos (s.reader.rpos.toNat + 1)).fseEntry .aux = s.fseEntry .aux from rfl] at e
  rw [run_hufTree, if_neg (by omega), if_neg (by omega), run_bind, e]
  cases codedWeights (h.entry (s.fseEntry .aux)) s.inByte h.al h.next
    (s.reader.rpos.toNat + 1 + (s.inByte s.reader.rpos.toNat).toNat - h.next) <;> rfl

/-- A bad tree description faults before anything is built. -/
theorem run_hufTree_fails {s : State} {fin rpos : Nat} {r : Raise} (hfin : fin < 2 ^ 32)
    (h : TreeFails s.params s.inByte s.reader.rpos.toNat fin rpos r) :
    hufTree fin s = .error r (s.setRpos rpos) := by
  rcases h with ⟨h1, rfl, rfl⟩ | ⟨h1, h⟩
  · rw [run_hufTree, if_pos (by omega), setRpos_rpos]
  have hr := toNat_setRpos_rpos s (v := s.reader.rpos.toNat + 1) (by omega)
  have hb : (s.setRpos (s.reader.rpos.toNat + 1)).inByte = s.inByte := rfl
  rcases h with ⟨h2, h3, rfl, rfl⟩ | ⟨w, hw, he⟩ | ⟨h2, rfl, rfl⟩ | ⟨h2, h3, rfl, h⟩
  · rw [run_hufTree, if_neg (by omega)]
    simp only [run_bind, if_pos h2, run_directWeights]
    rw [hr, if_pos (by omega)]
  · rw [run_hufTree_direct hfin hw, run_hufFromWeights, State.setRpos_params, he]
  · rw [run_hufTree, if_neg (by omega)]
    rw [if_neg (by omega), fseWeights]
    simp only [run_bind, run_raiseIf_pos h2]
  · rw [run_hufTree, if_neg (by omega)]
    rw [if_neg (by omega), fseWeights]
    simp only [run_bind, run_current]
    rw [run_raiseIf_neg (by omega)]
    simp only [hr]
    rcases h with ⟨h4, rfl⟩ | ⟨h4, he⟩
    · rw [run_raiseIf_pos (by omega)]
    · rw [run_raiseIf_neg (by omega)]
      simp only [run_readHeader, hr, hb, State.setRpos_params, he]

end Sys2Proof.Machine
end

