-- ==== Sys2Proof/Laws/PerInstr.lean ====
section
/-! SUPPORT. Per-instruction families: statements about an instruction as syntax, one lemma per
constructor. -/

namespace Sys2Proof.Laws.TableRow

/-- The encoding of the instruction carries the opcode that the opcode table gives the row of its
mnemonic (rule R94). -/
def Statement (i : Instr) : Prop :=
  ∃ r ∈ opcodeRows, r.mnemonic = i.mnemonic ∧
    r.pattern.extractLsb' 88 8 = (encodeFields i).opcode

/-- The row at index `k` settles the statement. -/
theorem of_row {i : Instr} (k : Nat) (h : k < opcodeRows.length)
    (hm : opcodeRows[k].mnemonic = i.mnemonic)
    (ho : opcodeRows[k].pattern.extractLsb' 88 8 = (encodeFields i).opcode) : Statement i :=
  ⟨_, List.getElem_mem h, hm, ho⟩

theorem nop : Statement .nop :=
  of_row 0 (by decide) rfl rfl

theorem frameInit (capacity : Word) : Statement (.frameInit capacity) :=
  of_row 1 (by decide) rfl rfl

theorem rdOpen (rpos inLen : Word) : Statement (.rdOpen rpos inLen) :=
  of_row 2 (by decide) rfl rfl

theorem frameEnd (hasSize : Bool) (sizeLo sizeHi : Word) : Statement (.frameEnd hasSize sizeLo sizeHi) :=
  of_row 3 (by decide) rfl rfl

theorem wRaw (n : Word) : Statement (.wRaw n) :=
  of_row 4 (by decide) rfl rfl

theorem wRle (n : Word) : Statement (.wRle n) :=
  of_row 5 (by decide) rfl rfl

theorem wLit (n : Word) : Statement (.wLit n) :=
  of_row 6 (by decide) rfl rfl

theorem wLitrest : Statement .wLitrest :=
  of_row 7 (by decide) rfl rfl

theorem wCopy (offset length : Word) : Statement (.wCopy offset length) :=
  of_row 8 (by decide) rfl rfl

theorem litRaw (n : Word) : Statement (.litRaw n) :=
  of_row 9 (by decide) rfl rfl

theorem litRle (n : Word) : Statement (.litRle n) :=
  of_row 10 (by decide) rfl rfl

theorem litHuf (streams : Streams) (regen comp : Word) : Statement (.litHuf streams regen comp) :=
  of_row 11 (by decide) rfl rfl

theorem litHufr (streams : Streams) (regen comp : Word) : Statement (.litHufr streams regen comp) :=
  of_row 12 (by decide) rfl rfl

theorem fseBuild (slot : Slot) : Statement (.fseBuild slot) :=
  of_row 13 (by decide) rfl rfl

theorem fseLoad (slot : Slot) (al : BitVec 16) (n : Word) : Statement (.fseLoad slot al n) :=
  of_row 14 (by decide) rfl rfl

theorem fsePredef (slot : Slot) : Statement (.fsePredef slot) :=
  of_row 15 (by decide) rfl rfl

theorem fseRle (slot : Slot) (symbol : BitVec 16) : Statement (.fseRle slot symbol) :=
  of_row 16 (by decide) rfl rfl

theorem bsOpen (n : Word) : Statement (.bsOpen n) :=
  of_row 17 (by decide) rfl rfl

theorem bsRead (k : BitVec 16) : Statement (.bsRead k) :=
  of_row 18 (by decide) rfl rfl

theorem bsClose : Statement .bsClose :=
  of_row 19 (by decide) rfl rfl

theorem fseInit (slot : Slot) : Statement (.fseInit slot) :=
  of_row 20 (by decide) rfl rfl

theorem fseEmit (slot : Slot) : Statement (.fseEmit slot) :=
  of_row 21 (by decide) rfl rfl

theorem fseNext (slot : Slot) : Statement (.fseNext slot) :=
  of_row 22 (by decide) rfl rfl

theorem seqOpen (n count : Word) : Statement (.seqOpen n count) :=
  of_row 23 (by decide) rfl rfl

theorem seqNext : Statement .seqNext :=
  of_row 24 (by decide) rfl rfl

theorem seqExec : Statement .seqExec :=
  of_row 25 (by decide) rfl rfl

theorem seqRun : Statement .seqRun :=
  of_row 26 (by decide) rfl rfl

end Sys2Proof.Laws.TableRow
end

