-- ==== Sys2Proof/Laws/Port.lean ====
section
/-! SUPPORT. The ports and the step: what each move of the host does, once. -/

namespace Sys2Proof.Machine

/-- Only the host's side changes when its moves do. -/
theorem withMoves_eq (s : State) (ms : List HostMove) :
    s.withMoves ms = { s with host := { s.host with moves := ms } } := rfl

theorem step_idle {s : State} (h : s.host.moves = []) : step s = .next s := by
  simp [step, h]

theorem step_move {s : State} {m : HostMove} {rest : List HostMove}
    (h : s.host.moves = m :: rest) : step s = runMove m (s.withMoves rest) := by
  simp [step, h]

theorem presentWord_ok {c : CmdWord} {i : Instr} (h : decode c = .ok i) (s : State) :
    presentWord c s = exec i s := by
  simp [presentWord, h]

theorem presentWord_error {c : CmdWord} {e : Reject} (h : decode c = .error e) (s : State) :
    presentWord c s = presentIllegal c s := by
  simp [presentWord, h]

/-- An illegal word presented to a ready unit (rules R95, R121). -/
theorem presentIllegal_ready {c : CmdWord} {s : State} (hb : s.status.busy = false)
    (hf : s.status.fault = false) :
    presentIllegal c s = .next (faultEntry ⟨.illegalCommand, c.w0.toNat⟩ (begin s)) := by
  simp only [presentIllegal, presentBody, hb, hf, run_raise]
  rfl

/-- Presenting a word, once: ignored, refused, or a command's or an illegal word's outcome. -/
theorem presentWord_latched (c : CmdWord) {s : State} (hb : s.status.busy = false)
    (hf : s.status.fault = true) : presentWord c s = .next s := by
  cases h : decode c with
  | ok i => rw [presentWord_ok h, exec_eq_present, present, presentBody_latched hb hf]
  | error e => rw [presentWord_error h, presentIllegal, presentBody_latched hb hf]

theorem presentWord_busy (c : CmdWord) {s : State} (hb : s.status.busy = true) :
    presentWord c s = .refused .whileBusy := by
  cases h : decode c with
  | ok i => rw [presentWord_ok h, exec_eq_present, present, presentBody_busy hb]
  | error e => rw [presentWord_error h, presentIllegal, presentBody_busy hb]

theorem withinSpace_inside {sp : Space} {a : Nat} {t s : State} (h : a < s.params.capacity sp) :
    withinSpace sp a t s = .next t := if_pos h

theorem withinSpace_outside {sp : Space} {a : Nat} {t s : State} (h : s.params.capacity sp ≤ a) :
    withinSpace sp a t s = .fault (.hostAddressOutside sp a) := if_neg (Nat.not_lt.2 h)

theorem whenIdle_idle {s : State} {r : Host.Outcome State Fault Refusal}
    (h : s.status.busy = false) : whenIdle s r = r := by
  simp [whenIdle, h]

theorem whenIdle_busy {s : State} {r : Host.Outcome State Fault Refusal}
    (h : s.status.busy = true) : whenIdle s r = .refused .whileBusy := by
  simp [whenIdle, h]

/-- Registers 0 to 32 exist, the others do not (rule R24). -/
theorem register_isSome (s : State) (n : Nat) : (s.register n).isSome = decide (n ≤ 32) := by
  by_cases h : n ≤ 32
  · interval_cases n <;> rfl
  · obtain ⟨k, rfl⟩ : ∃ k, n = k + 33 := ⟨n - 33, by omega⟩
    rw [decide_eq_false h]
    rfl

/-- The moves that are not commands and not reset, once: the host's own side or a byte of `IN`
changes, or the model stops. -/
theorem runMove_quiet {m : HostMove} {s t : State} (h : runMove m s = .next t)
    (hc : ∀ c, m ≠ .command c) (hr : m ≠ .reset) :
    (∃ a b, m = .writeIn a b ∧ a < s.params.inCap ∧
      t = s.setReader { s.reader with mem := s.reader.mem.write a b }) ∨
    ∃ x, t = s.setHost x ∧ x.moves = s.host.moves ∧ x.epoch = s.host.epoch := by
  cases m with
  | command c => exact absurd rfl (hc c)
  | reset => exact absurd rfl hr
  | writeIn a b =>
    simp only [runMove, whenIdle, hostWriteIn, withinSpace] at h
    split at h
    · cases h
    · split at h
      · injection h with h
        exact .inl ⟨a, b, rfl, ‹_›, h.symm⟩
      · cases h
  | readMem sp a =>
    simp only [runMove, whenIdle, hostReadMem, withinSpace] at h
    split at h
    · cases h
    · split at h
      · injection h with h
        exact .inr ⟨_, h.symm, rfl, rfl⟩
      · cases h
  | readReg n =>
    simp only [runMove, whenIdle, hostReadReg] at h
    split at h
    · cases h
    · split at h
      · injection h with h
        exact .inr ⟨_, h.symm, rfl, rfl⟩
      · injection h with h
        exact .inr ⟨_, h.symm, rfl, rfl⟩

end Sys2Proof.Machine
end

