-- ==== Sys2Proof/Laws/Run.lean ====
section
/-! SUPPORT. From the equation of a command's body to what presenting the command answers, and what
stores of a list and the byte loop of a copy leave in a memory (`Memory.Stores`). -/

namespace Sys2Proof.Machine

/-! ### From a body to an outcome -/

/-- A command whose body completes answers the completed state. -/
theorem exec_of_ok {i : Instr} {s t : State} (h : s.Ready) (hw : i.wf = true)
    (hb : bodyOf i (begin s) = .ok () t) : exec i s = .next (complete t) := by
  rw [exec_ready h.1 h.2 hw, hb]

/-- A command whose body raises answers the state of fault entry. -/
theorem exec_of_error {i : Instr} {s t : State} {r : Raise} (h : s.Ready) (hw : i.wf = true)
    (hb : bodyOf i (begin s) = .error r t) : exec i s = .next (faultEntry r t) := by
  rw [exec_ready h.1 h.2 hw, hb]

theorem busy_cleared {s : State} (h : s.Ready) : { s.status with busy := false } = s.status := by
  obtain ⟨h1, _⟩ := h
  cases hs : s.status
  simp_all

/-- Fault entry from the state a command began in only latches. -/
theorem faultEntry_begin {s : State} (h : s.Ready) (r : Raise) :
    faultEntry r (begin s) = s.latched r.fault r.info := by
  obtain ⟨h1, h2⟩ := h
  apply State.ext_parts <;> simp [State.latched]
  cases hs : s.status
  simp_all

/-- A command whose body raises before it changes anything only latches. -/
theorem exec_latched {i : Instr} {s : State} {r : Raise} (h : s.Ready) (hw : i.wf = true)
    (hb : bodyOf i (begin s) = .error r (begin s)) :
    exec i s = .next (s.latched r.fault r.info) := by
  rw [exec_of_error h hw hb, faultEntry_begin h]

/-! ### Stores -/

/-- Writing a list stores its elements. -/
theorem stores_writeList {α : Type} (m : Memory α) (a : Nat) (v : List α) (n : Nat) (f : Nat → α)
    (hn : v.length = n) (hf : ∀ k, k < n → v[k]? = some (f k)) :
    m.Stores (m.writeList a v) a n f := by
  intro b
  rw [Memory.lookup_writeList, hn]
  by_cases h : a ≤ b ∧ b < a + n
  · rw [if_pos h, if_pos h, hf _ (by omega)]
  · rw [if_neg h, if_neg h]

theorem getElem?_memRead (byte : Nat → Byte) (a n k : Nat) (h : k < n) :
    (memRead byte a n)[k]? = some (byte (a + k)) := by
  rw [List.getElem?_eq_getElem (by simpa using h), getElem_memRead]

/-- The byte loop from `o` bytes back stores the periodic repetition of the `o` bytes before the
cursor. -/
theorem stores_copyForward (free : Nat → Byte) (n : Nat) (m : Memory Byte) (src o : Nat)
    (ho : 1 ≤ o) :
    m.Stores (copyForward free n m src (src + o)) (src + o) n
      (fun k => m.byte free (src + k % o)) := by
  induction n generalizing m src with
  | zero => intro b; rw [copyForward, if_neg (by omega)]
  | succ n ih =>
    intro b
    rw [copyForward, show src + o + 1 = (src + 1) + o by omega, ih]
    by_cases h1 : src + 1 + o ≤ b ∧ b < src + 1 + o + n
    · rw [if_pos h1, if_pos (by omega)]
      congr 1
      beta_reduce
      rw [Memory.byte_write]
      obtain ⟨j, rfl⟩ : ∃ j, b = src + 1 + o + j := ⟨b - (src + 1 + o), by omega⟩
      have e1 : src + 1 + o + j - (src + 1 + o) = j := by omega
      have e2 : src + 1 + o + j - (src + o) = j + 1 := by omega
      rw [e1, e2]
      have hlt := Nat.mod_lt j ho
      by_cases h2 : j % o = o - 1
      · have : (j + 1) % o = 0 := by
          rw [Nat.add_mod, h2]
          rcases Nat.lt_or_ge 1 o with h | h
          · rw [Nat.mod_eq_of_lt h, show o - 1 + 1 = o by omega, Nat.mod_self]
          · obtain rfl : o = 1 := by omega
            simp
        rw [if_pos (by omega), this, Nat.add_zero]
      · have : (j + 1) % o = j % o + 1 := by
          rw [Nat.add_mod, Nat.mod_eq_of_lt (show 1 < o by omega), Nat.mod_eq_of_lt (by omega)]
        rw [if_neg (by omega), this]
        congr 1
        omega
    · rw [if_neg h1, Memory.lookup_write]
      by_cases h3 : b = src + o
      · subst h3
        rw [if_pos rfl, if_pos (by omega)]
        simp
      · rw [if_neg h3, if_neg (by omega)]

end Sys2Proof.Machine
end

