-- ==== Sys2Proof/Tests/Slice0.lean ====
section
/-! SUPPORT. The model's own tests, every expected value from `spec/95_test_vectors.md` (named in
each docstring) or the rule it names, and one witness per statement: concrete states and operands
that meet the hypotheses of its clauses. -/

namespace Sys2Proof.Tests

set_option Elab.async false

open Sys2Proof.Machine

/-! ### Small states -/

/-- The state an outcome answers; reset where it answers none. -/
def result (o : Host.Outcome State Fault Refusal) : State :=
  match o with
  | .next t => t
  | _ => State.reset

/-- The outcome is a next state. -/
def isNext (o : Host.Outcome State Fault Refusal) : Bool :=
  match o with
  | .next _ => true
  | _ => false

theorem eq_next {o : Host.Outcome State Fault Refusal} (h : isNext o = true) :
    o = .next (result o) := by
  cases o with
  | next t => rfl
  | fault e => cases h
  | refused r => cases h

/-- Bytes laid out from address 0. -/
def cells (bytes : List Byte) : Memory Byte := Memory.writeList [] 0 bytes

/-- The input bytes as a function of the address. -/
def bytesAt (bytes : List Byte) (a : Nat) : Byte := bytes.getD a 0

/-- From reset, with the capacities of the vectors: the input bytes opened from address 0, a window
of 64 bytes. -/
def loaded (bytes : List Byte) : State :=
  { State.reset with
    reader := { rpos := 0, len := BitVec.ofNat 32 bytes.length, mem := cells bytes }
    window := { index := 0, size := 0, capr := 64, mem := [] }
    params := { inCap := 4096, winCap := 4096, litCap := 131072 } }

/-- The same with these window contents. -/
def windowed (w bytes : List Byte) : State :=
  { loaded bytes with
    window := { index := BitVec.ofNat 32 w.length, size := BitVec.ofNat 32 w.length, capr := 64,
                mem := cells w } }

/-- The same with these literals, none consumed. -/
def lettered (l : List Byte) (bytes : List Byte) : State :=
  { loaded bytes with
    lits := { pos := 0, len := BitVec.ofNat 32 l.length, mem := cells l } }

/-- The input opened as a bitstream with `pos` bits left. -/
def streaming (bytes : List Byte) (pos : Int) : State :=
  { loaded bytes with
    bits := { base := 0, len := BitVec.ofNat 32 bytes.length, pos := BitVec.ofInt 32 pos }
    status := { Status.clear with bsOpen := true } }

/-- A slot with the table of a distribution. -/
def slotOf (al : Nat) (probs : List Int) : FseSlot :=
  FseSlot.reset.build al probs.length (spread al probs)

/-- A slot with a one-symbol table. -/
def slotRle (symbol : Nat) : FseSlot :=
  FseSlot.reset.build 0 (symbol + 1) [{ sym := BitVec.ofNat 8 symbol, nb := 0, base := 0 }]

/-- The slot's state, initialised. -/
def started (x : FseSlot) (state : Nat) : FseSlot :=
  { x with state := BitVec.ofNat 32 state, info := { x.info with sinit := true } }

/-- The predefined slots (`spec/41_fse_table.md` R152). -/
def slotPredef (sl : Slot) : FseSlot :=
  match Config.resetParams.predef sl with
  | some (al, probs) => slotOf al probs
  | none => FseSlot.reset

/-- A state with the given `LL`, `OF`, `ML` slots. -/
def tabled (s : State) (ll of ml : FseSlot) : State :=
  { s with slots := { ll := ll, of := of, ml := ml, aux := FseSlot.reset } }

/-- A sequences section open with `left` sequences, in the state `s`. -/
def decoding (s : State) (left : Nat) : State :=
  { s with
    seq := { s.seq with left := BitVec.ofNat 32 left }
    status := { s.status with bsOpen := true, seqActive := true } }

/-- A decoded sequence waits. -/
def waiting (s : State) (ll ml off : Nat) : State :=
  { s with
    seq := { s.seq with ll := BitVec.ofNat 32 ll, ml := BitVec.ofNat 32 ml,
                        off := BitVec.ofNat 32 off }
    status := { s.status with seqValid := true } }

/-- What a fault left: `ERR`, `ERRINFO`, `CP` and `STATUS`. -/
def faulted (s : State) : Word × Word × Word × Word := (s.err, s.errInfo, s.cp, s.status.word)

def hello : List Byte := [0x68, 0x65, 0x6C, 0x6C, 0x6F]
def abc : List Byte := [0x61, 0x62, 0x63]
/-- Table header of V-FSE-1. -/
def headerBytes : List Byte := [0x50, 0x97, 0x38]
/-- Input of V-HUF-1. -/
def hufBytes : List Byte := [0x82, 0x21, 0x10, 0x83, 0x0D, 0x83, 0x0D]
/-- Input of V-HUF-9. -/
def codedBytes : List Byte := [0x05, 0x90, 0xDA, 0x1E, 0x08, 0x1B, 0x83, 0x0D]
/-- Input of V-HUF-8 (a). -/
def fourBytes : List Byte :=
  [0x82, 0x21, 0x10, 0x01, 0x00, 0x01, 0x00, 0x01, 0x00, 0x28, 0x13, 0x07, 0x21]
/-- Input of V-SEQ-2. -/
def seqBytes : List Byte :=
  [0x61, 0x62, 0x63, 0x64, 0x65, 0x66, 0x2F, 0x20, 0x08, 0x82, 0x80, 0x1B, 0x02]

/-! ### WellFormed -/

/-- FSE_PREDEF has no slot AUX (V-ILL-4): the term is refused, the others are not. -/
theorem test_wf_predef :
    (Instr.fsePredef .aux).wf = false ∧ (Instr.fsePredef .ll).wf = true ∧
      (Instr.fsePredef .of).wf = true ∧ (Instr.fsePredef .ml).wf = true := by decide

/-- FRAME_END without a declared size has no size (V-ILL-6). -/
theorem test_wf_frameEnd :
    (Instr.frameEnd false 5 0).wf = false ∧ (Instr.frameEnd false 0 1).wf = false ∧
      (Instr.frameEnd false 0 0).wf = true ∧ (Instr.frameEnd true 5 0).wf = true := by decide

/-! ### Decoding: words written out in the vectors -/

/-- V-SYS-1, V-SYS-4. -/
theorem test_decode_system :
    decode 0x000000000000000000000000 = .ok .nop ∧
    decode 0x010000000000040000000000 = .ok (.frameInit 1024) ∧
    decode 0x02000000000000090000000E = .ok (.rdOpen 9 14) ∧
    decode 0x030100000000000500000001 = .ok (.frameEnd true 5 1) ∧
    decode 0x030000000000000000000000 = .ok (.frameEnd false 0 0) := by decide +kernel

/-- Sections 1, 4 and 5 of the vectors. -/
theorem test_decode_window :
    decode 0x100000000000000500000000 = .ok (.wRaw 5) ∧
    decode 0x110000000000000400000000 = .ok (.wRle 4) ∧
    decode 0x120000000000000200000000 = .ok (.wLit 2) ∧
    decode 0x130000000000000000000000 = .ok .wLitrest ∧
    decode 0x14000000000000030000000A = .ok (.wCopy 3 10) := by decide +kernel

/-- Section 9 of the vectors. -/
theorem test_decode_literals :
    decode 0x200000000002000100000000 = .ok (.litRaw 131073) ∧
    decode 0x210000000000000400000000 = .ok (.litRle 4) ∧
    decode 0x22040000000000080000000D = .ok (.litHuf .four 8 13) ∧
    decode 0x230100000000000600000002 = .ok (.litHufr .one 6 2) := by decide +kernel

/-- Section 6 of the vectors. -/
theorem test_decode_table :
    decode 0x300100000000000000000000 = .ok (.fseBuild .of) ∧
    decode 0x310300070000000200000000 = .ok (.fseLoad .aux 7 2) ∧
    decode 0x320200000000000000000000 = .ok (.fsePredef .ml) ∧
    decode 0x330100200000000000000000 = .ok (.fseRle .of 32) := by decide +kernel

/-- Sections 7 and 8 of the vectors. -/
theorem test_decode_bitstream :
    decode 0x380000000000000500000000 = .ok (.bsOpen 5) ∧
    decode 0x390000210000000000000000 = .ok (.bsRead 33) ∧
    decode 0x3A0000000000000000000000 = .ok .bsClose ∧
    decode 0x3B0300000000000000000000 = .ok (.fseInit .aux) ∧
    decode 0x3C0100000000000000000000 = .ok (.fseEmit .of) ∧
    decode 0x3D0300000000000000000000 = .ok (.fseNext .aux) := by decide +kernel

/-- Section 10 of the vectors. -/
theorem test_decode_sequences :
    decode 0x400000000000000700000003 = .ok (.seqOpen 7 3) ∧
    decode 0x410000000000000000000000 = .ok .seqNext ∧
    decode 0x420000000000000000000000 = .ok .seqExec ∧
    decode 0x430000000000000000000000 = .ok .seqRun := by decide +kernel

/-- V-ILL-1 to V-ILL-10. -/
theorem test_decode_illegal :
    decode 0x040000000000000000000000 = .error .unusedOpcode ∧
    decode 0xFFFFFFFFFFFFFFFFFFFFFFFF = .error .unusedOpcode ∧
    decode 0x000000000000000000000001 = .error .fieldNotZero ∧
    decode 0x320300000000000000000000 = .error .badSelector ∧
    decode 0x220200000000000600000005 = .error .badSelector ∧
    decode 0x030000000000000500000000 = .error .sizeWithoutFlag ∧
    decode 0x030200000000000000000000 = .error .badSelector ∧
    decode 0x300400000000000000000000 = .error .badSelector ∧
    decode 0x100000010000000500000000 = .error .fieldNotZero ∧
    decode 0x390000010000000100000000 = .error .fieldNotZero := by decide +kernel

/-- The 12 bytes of `LIT_HUF 1, 6, 5` (V-HUF-1), and too few bytes. -/
theorem test_decodeBytes :
    decodeBytes [0x22, 0x01, 0, 0, 0, 0, 0, 6, 0, 0, 0, 5, 0xEE] =
      .ok (.litHuf .one 6 5, [0xEE]) ∧
    decodeBytes [0x22, 0x01, 0, 0, 0, 0, 0, 6, 0, 0, 0] = .error .truncated := by decide +kernel

/-- The written form of the vectors. -/
theorem test_asm :
    (Instr.litHuf .one 6 5).asm = "LIT_HUF 1, 6, 5" ∧
    (Instr.frameEnd true 5 1).asm = "FRAME_END 4294967301" ∧
    (Instr.fseLoad .ll 5 2).asm = "FSE_LOAD LL, 5, 2" := by decide +kernel

/-! ### System commands -/

/-- V-SYS-1. -/
theorem test_nop : (result (exec .nop State.reset)).cp = 1 := by decide +kernel

/-- V-SYS-2: `IllegalOperand(0)` and `IllegalOperand(0x1001)`. -/
theorem test_frameInit_faults :
    faulted (result (exec (.frameInit 0) (loaded []))) = (16, 0, 0, 2) ∧
    faulted (result (exec (.frameInit 4097) (loaded []))) = (16, 0x1001, 0, 2) := by
  decide +kernel

/-- V-SYS-6: an open bitstream is abandoned and every table dropped. -/
theorem test_frameInit_drops :
    let t := result (exec (.frameInit 8)
      (tabled (streaming [0x01] 0) FseSlot.reset (slotRle 3) FseSlot.reset))
    (t.status.word, t.register 21, t.bits.len, t.window.capr) = (0, some 0, 0, 8) := by
  decide +kernel

/-- V-SYS-1, V-SYS-3. -/
theorem test_rdOpen :
    (result (exec (.rdOpen 9 14) State.reset)).reader.rpos = 9 ∧
    (result (exec (.rdOpen 9 14) State.reset)).reader.len = 14 ∧
    faulted (result (exec (.rdOpen 6 5) State.reset)) = (16, 6, 0, 2) ∧
    faulted (result (exec (.rdOpen 0 4097) (loaded []))) = (16, 0x1001, 0, 2) := by
  decide +kernel

/-- V-SYS-4. -/
theorem test_frameEnd :
    (result (exec (.frameEnd true 5 0) (windowed hello []))).cp = 1 ∧
    faulted (result (exec (.frameEnd true 6 0) (windowed hello []))) = (6, 5, 0, 2) ∧
    faulted (result (exec (.frameEnd true 5 1) (windowed hello []))) = (6, 5, 0, 2) := by
  decide +kernel

/-! ### Window commands -/

/-- S1. -/
theorem test_wRaw :
    let t := result (exec (.wRaw 5) (loaded hello))
    (t.window.mem, t.window.index, t.window.size, t.reader.rpos) = (cells hello, 5, 5, 5) := by
  decide +kernel

/-- V-WIN-2, V-WIN-4: the input check comes first, the window has no capacity after reset. -/
theorem test_wRaw_faults :
    faulted (result (exec (.wRaw 6) (loaded hello))) = (1, 0, 0, 2) ∧
    faulted (result (exec (.wRaw 1) { loaded hello with window := State.reset.window })) =
      (8, 1, 0, 2) := by decide +kernel

/-- V-WIN-6. -/
theorem test_wRle :
    let t := result (exec (.wRle 4) (loaded [0x41]))
    (t.window.mem, t.window.index, t.reader.rpos) = (cells [0x41, 0x41, 0x41, 0x41], 4, 1) := by
  decide +kernel

/-- V-WIN-7: the byte is consumed also for a run of 0. -/
theorem test_wRle_zero :
    let t := result (exec (.wRle 0) (loaded [0x41]))
    (t.window.mem, t.reader.rpos, t.cp) = ([], 1, 1) := by decide +kernel

/-- V-WIN-10. -/
theorem test_wLit :
    let t := result (exec (.wLit 2) (lettered abc []))
    (t.window.mem, t.lits.pos) = (cells [0x61, 0x62], 2) := by decide +kernel

/-- V-WIN-14: underflow is checked before room. -/
theorem test_wLit_underflow :
    faulted (result (exec (.wLit 4)
      { lettered abc [] with window := { State.reset.window with capr := 2 } })) =
      (4, 3, 0, 2) := by decide +kernel

/-- V-WIN-12, V-WIN-13. -/
theorem test_wLitrest :
    let t := result (exec .wLitrest (lettered abc []))
    (t.window.mem, t.lits.pos) = (cells abc, 3) ∧
    faulted (result (exec .wLitrest
      { lettered abc [] with window := { State.reset.window with capr := 2 } })) =
      (8, 3, 0, 2) := by decide +kernel

/-- V-COPY-1, the periodic continuation. -/
theorem test_wCopy_overlap :
    let t := result (exec (.wCopy 3 10) (windowed abc []))
    (t.window.mem, t.window.index) =
      (cells [0x61, 0x62, 0x63, 0x61, 0x62, 0x63, 0x61, 0x62, 0x63, 0x61, 0x62, 0x63, 0x61],
        13) := by decide +kernel

/-- V-COPY-9: the offset is checked even for length 0. -/
theorem test_wCopy_bounds :
    faulted (result (exec (.wCopy 4 0) (windowed abc []))) = (5, 4, 0, 2) := by decide +kernel

/-! ### Literals commands -/

/-- V-LIT-8: the buffer is replaced. -/
theorem test_litRaw :
    let t := result (exec (.litRaw 3) (lettered [0x7A, 0x7A, 0x7A, 0x7A] abc))
    (t.lits.mem, t.lits.len, t.lits.pos, t.reader.rpos) =
      (cells [0x61, 0x62, 0x63, 0x7A], 3, 0, 3) := by decide +kernel

/-- V-LIT-4. -/
theorem test_litRaw_overflow :
    faulted (result (exec (.litRaw 131073) (loaded abc))) = (9, 0x00020001, 0, 2) := by
  decide +kernel

/-- V-LIT-5, V-LIT-6. -/
theorem test_litRle :
    let t := result (exec (.litRle 4) (loaded [0x7A]))
    (t.lits.mem, t.lits.len, t.reader.rpos) = (cells [0x7A, 0x7A, 0x7A, 0x7A], 4, 1) ∧
    (result (exec (.litRle 0) (loaded [0x7A]))).reader.rpos = 1 := by decide +kernel

/-- V-HUF-1: direct weights, one stream. -/
theorem test_litHuf_direct :
    let t := result (exec (.litHuf .one 6 5) (loaded hufBytes))
    (t.lits.mem, t.lits.len, t.reader.rpos, t.register 24, t.hufEntry 0, t.hufEntry 3) =
      (cells [3, 0, 3, 1, 2, 3], 6, 5, some 0x00040031, ⟨1, 3⟩, ⟨0, 2⟩) := by decide +kernel

/-- V-HUF-9: coded weights through slot AUX. -/
theorem test_litHuf_coded :
    let t := result (exec (.litHuf .one 6 8) (loaded codedBytes))
    (t.lits.mem, t.reader.rpos, t.register 24, t.register 23, t.fseEntry .aux 22) =
      (cells [3, 0, 3, 1, 2, 3], 8, some 0x00040031, some 0x00040051, ⟨2, 2, 20⟩) := by
  decide +kernel

/-- V-HUF-2: the retained table of V-HUF-1 and its stream. -/
theorem test_litHufr :
    let t := result (exec (.litHufr .one 6 2)
      { loaded [0x83, 0x0D] with
        huf := { info := ⟨true, 3, 4⟩,
                 tab := Memory.writeList [] 0
                   [⟨1, 3⟩, ⟨2, 3⟩, ⟨0, 2⟩, ⟨0, 2⟩, ⟨3, 1⟩, ⟨3, 1⟩, ⟨3, 1⟩, ⟨3, 1⟩] } })
    (t.lits.mem, t.lits.len, t.reader.rpos) = (cells [3, 0, 3, 1, 2, 3], 6, 2) := by
  decide +kernel

/-- V-HUF-3 (a): nothing to reuse. -/
theorem test_litHufr_missing :
    faulted (result (exec (.litHufr .one 6 2) (loaded hufBytes))) = (7, 4, 0, 2) := by
  decide +kernel

/-! ### Table commands -/

/-- V-FSE-1. -/
theorem test_fseBuild :
    let t := result (exec (.fseBuild .of) (loaded headerBytes))
    (t.register 21, t.reader.rpos, t.fseEntry .of 0, t.fseEntry .of 18, t.fseEntry .of 30,
      t.fseEntry .of 31) =
      (some 0x00050051, 3, ⟨0, 1, 8⟩, ⟨4, 3, 0⟩, ⟨0, 0, 7⟩, ⟨2, 5, 0⟩) := by decide +kernel

/-- V-FSE-2a: a short header consumes nothing. -/
theorem test_fseBuild_short :
    let t := result (exec (.fseBuild .of)
      { loaded headerBytes with reader := { (loaded headerBytes).reader with len := 2 } })
    (faulted t, t.reader.rpos, t.register 21) = ((1, 2, 0, 2), 0, some 0) := by decide +kernel

/-- V-LOAD-4: two "less than one" symbols at the top. -/
theorem test_fseLoad :
    let t := result (exec (.fseLoad .ll 5 3) (loaded [0x1E, 0x00, 0xFF, 0xFF, 0xFF, 0xFF]))
    (t.register 20, t.fseEntry .ll 0, t.fseEntry .ll 29, t.fseEntry .ll 30, t.fseEntry .ll 31) =
      (some 0x00030051, ⟨0, 1, 28⟩, ⟨0, 0, 27⟩, ⟨2, 5, 0⟩, ⟨1, 5, 0⟩) := by decide +kernel

/-- V-LOAD-3, V-LOAD-5: negative contexts, the list consumed. -/
theorem test_fseLoad_faults :
    faulted (result (exec (.fseLoad .ll 5 2) (loaded [0x10, 0x00, 0x11, 0x00]))) =
      (3, 0xFFFFFFFF, 0, 2) ∧
    (result (exec (.fseLoad .ll 5 3) (loaded [0x20, 0x00, 0xFE, 0xFF, 0x02, 0x00]))).errInfo =
      0xFFFFFFFE ∧
    (result (exec (.fseLoad .ll 5 3)
      (loaded [0x20, 0x00, 0xFE, 0xFF, 0x02, 0x00]))).reader.rpos = 6 := by decide +kernel

/-- V-FSE-3: slot OF. -/
theorem test_fsePredef_of :
    let t := result (exec (.fsePredef .of) (loaded []))
    (t.register 21, t.fseEntry .of 13, t.fseEntry .of 15, t.fseEntry .of 27) =
      (some 0x001D0051, ⟨20, 5, 0⟩, ⟨7, 4, 16⟩, ⟨28, 5, 0⟩) := by decide +kernel

/-- V-FSE-3: slots LL and ML. -/
theorem test_fsePredef_ll_ml :
    let t := result (exec (.fsePredef .ml) (result (exec (.fsePredef .ll) (loaded []))))
    (t.register 20, t.register 22, t.fseEntry .ll 24, t.fseEntry .ll 63, t.fseEntry .ml 45,
      t.fseEntry .ml 57) =
      (some 0x00240061, some 0x00350061, ⟨2, 5, 0⟩, ⟨32, 6, 0⟩, ⟨2, 4, 16⟩, ⟨52, 6, 0⟩) := by
  decide +kernel

/-- V-RLE-1. -/
theorem test_fseRle :
    let t := result (exec (.fseRle .aux 255) (loaded []))
    (t.register 23, t.fseEntry .aux 0) = (some 0x01000001, ⟨255, 0, 0⟩) ∧
    faulted (result (exec (.fseRle .of 32) (loaded []))) = (2, 32, 0, 2) := by decide +kernel

/-! ### Bitstream and lookup commands -/

/-- V-BS-7. -/
theorem test_bsOpen :
    let t := result (exec (.bsOpen 2) (loaded [0xAB, 0x05]))
    (t.bits.base, t.bits.len, t.bits.pos, t.status.word, t.reader.rpos) = (0, 2, 10, 4, 0) := by
  decide +kernel

/-- V-BS-4, V-BS-3: the address of a zero last byte, or of an empty section. -/
theorem test_bsOpen_endMark :
    faulted (result (exec (.bsOpen 2)
      { loaded [0xAA, 0xAA, 0x05, 0x00] with
        reader := { rpos := 2, len := 4, mem := cells [0xAA, 0xAA, 0x05, 0x00] } })) =
      (10, 3, 0, 2) ∧
    faulted (result (exec (.bsOpen 0) (loaded [0xAB]))) = (10, 0, 0, 2) := by decide +kernel

/-- V-BS-9: bits below the beginning are zeros, the position goes negative. -/
theorem test_bsRead :
    let t := result (exec (.bsRead 12) (streaming [0xAB, 0x05] 10))
    (t.val, t.bits.pos, t.status.fault) = (0x6AC, 0xFFFFFFFE, false) := by decide +kernel

/-- V-BS-10, V-BS-11. -/
theorem test_bsRead_faults :
    faulted (result (exec (.bsRead 1) (streaming [0xAB, 0x05] (-2)))) =
      (11, 0xFFFFFFFE, 0, 6) ∧
    faulted (result (exec (.bsRead 33) (streaming [0xAB, 0x05] 10))) = (16, 33, 0, 6) := by
  decide +kernel

/-- V-BS-1. -/
theorem test_bsClose :
    let t := result (exec .bsClose (streaming [0x01] 0))
    (t.reader.rpos, t.status.word, t.cp) = (1, 0, 1) := by decide +kernel

/-- V-BS-8. -/
theorem test_bsClose_residue :
    let t := result (exec .bsClose (streaming [0xAB, 0x05] 8))
    (faulted t, t.reader.rpos) = ((12, 8, 0, 6), 0) := by decide +kernel

/-- The start of V-PRIM-1: the predefined `OF` table and the input `AB 05`. -/
def primitive1 (state : Nat) (pos : Int) : State :=
  tabled (streaming [0xAB, 0x05] pos) FseSlot.reset (started (slotPredef .of) state)
    FseSlot.reset

/-- V-PRIM-1. -/
theorem test_fseInit :
    let t := result (exec (.fseInit .of)
      (tabled (streaming [0xAB, 0x05] 10) FseSlot.reset (slotPredef .of) FseSlot.reset))
    (t.register 17, t.bits.pos, t.register 21) = (some 13, 5, some 0x001D0053) := by
  decide +kernel

/-- V-PRIM-3: one bit is present, five are wanted. -/
theorem test_fseInit_padded :
    let t := result (exec (.fseInit .of)
      (tabled (streaming [0x03] 1) FseSlot.reset (slotPredef .of) FseSlot.reset))
    (t.register 17, t.bits.pos) = (some 16, 0xFFFFFFFC) := by decide +kernel

/-- V-PRIM-1, V-PRIM-5 (c). -/
theorem test_fseEmit :
    (result (exec (.fseEmit .of) (primitive1 13 5))).sym = 20 ∧
    (result (exec (.fseEmit .of) (primitive1 11 0))).sym = 8 ∧
    faulted (result (exec (.fseEmit .ll) (primitive1 13 5))) = (7, 0, 0, 6) := by decide +kernel

/-- V-PRIM-1. -/
theorem test_fseNext :
    let t := result (exec (.fseNext .of) (primitive1 13 5))
    (t.register 17, t.bits.pos) = (some 11, 0) := by decide +kernel

/-- V-PRIM-2: a read that starts below the beginning. -/
theorem test_fseNext_overrun :
    faulted (result (exec (.fseNext .of) (primitive1 0 (-4)))) = (11, 0xFFFFFFFC, 0, 6) := by
  decide +kernel

/-! ### Sequences commands -/

/-- The state of V-SEQ-2 before SEQ_OPEN. -/
def beforeSeq2 : State :=
  tabled
    { lettered [0x61, 0x62, 0x63, 0x64, 0x65, 0x66] seqBytes with
      reader := { rpos := 6, len := 13, mem := cells seqBytes } }
    (slotPredef .ll) (slotPredef .of) (slotPredef .ml)

/-- The open section of V-SEQ-2 with `left` sequences, the given states, `pos` bits left and the
history `r`. -/
def inSeq2 (left sLL sOF sML : Nat) (pos : Int) (r : Reps) : State :=
  decoding
    { tabled beforeSeq2 (started (slotPredef .ll) sLL) (started (slotPredef .of) sOF)
        (started (slotPredef .ml) sML) with
      bits := { base := 6, len := 7, pos := BitVec.ofInt 32 pos }
      reps := r } left

/-- V-SEQ-2, `SEQ_OPEN 7, 3`. -/
theorem test_seqOpen :
    let t := result (exec (.seqOpen 7 3) beforeSeq2)
    (t.status.word, t.bits.base, t.bits.len, t.bits.pos, t.register 16, t.register 17,
      t.register 18, t.seq.left, t.reader.rpos) =
      (0x0C, 6, 7, 32, some 3, some 14, some 0, 3, 6) := by decide +kernel

/-- V-SEQ-3e, V-SEQ-3f. -/
theorem test_seqOpen_faults :
    faulted (result (exec (.seqOpen 7 3)
      (tabled beforeSeq2 (slotPredef .ll) (slotPredef .of) FseSlot.reset))) = (7, 2, 0, 2) ∧
    faulted (result (exec (.seqOpen 7 0) beforeSeq2)) = (16, 0, 0, 2) := by decide +kernel

/-- V-SEQ-2, the first SEQ_NEXT. -/
theorem test_seqNext :
    let t := result (exec .seqNext (inSeq2 3 3 14 0 32 ⟨1, 4, 8⟩))
    (t.seq, t.reps, t.bits.pos, t.status.word) = (⟨2, 3, 3, 6, 3⟩, ⟨3, 1, 4⟩, 14, 0x1C) ∧
    (t.register 16, t.register 17, t.register 18) = (some 1, some 0, some 1) := by
  decide +kernel

/-- V-SEQ-2, the third SEQ_NEXT: the section closes. -/
theorem test_seqNext_last :
    let t := result (exec .seqNext (inSeq2 1 24 23 0 1 ⟨1, 3, 4⟩))
    (t.seq, t.reps, t.bits.pos, t.status.word, t.reader.rpos, t.register 20) =
      (⟨0, 2, 3, 3, 4⟩, ⟨4, 1, 3⟩, 0, 0x10, 13, some 0x00240061) := by decide +kernel

/-- V-SEQ-2, the first SEQ_EXEC. -/
theorem test_seqExec :
    let t := result (exec .seqExec (waiting (lettered [0x61, 0x62, 0x63] []) 3 3 3))
    (t.window.mem, t.lits.pos, t.status.word) =
      (cells [0x61, 0x62, 0x63, 0x61, 0x62, 0x63], 3, 0) := by decide +kernel

/-- V-SEQ-6a: the literal is appended, then the offset is out of bounds. -/
theorem test_seqExec_bounds :
    let t := result (exec .seqExec (waiting (lettered [0x61, 0x62] []) 1 3 5))
    (faulted t, t.window.mem, t.lits.pos) = ((5, 5, 0, 2), cells [0x61], 1) := by decide +kernel

/-- The state of V-SEQ-7 after SEQ_OPEN: three one-symbol tables, two sequences. -/
def inSeq7 : State :=
  decoding
    (tabled
      { lettered [0x61, 0x62, 0x63, 0x64, 0x65] [0x15] with
        bits := { base := 0, len := 1, pos := 4 } }
      (started (slotRle 2) 0) (started (slotRle 2) 0) (started (slotRle 0) 0)) 2

/-- V-SEQ-7 (the section at address 0). -/
theorem test_seqRun :
    let t := result (exec .seqRun inSeq7)
    (t.window.mem, t.reps, t.lits.pos, t.status.word, t.cp) =
      (cells [0x61, 0x62, 0x61, 0x62, 0x61, 0x63, 0x64, 0x63, 0x64, 0x63, 0x65], ⟨2, 2, 1⟩, 5, 0,
        1) := by decide +kernel

/-- V-SEQ-4a. -/
theorem test_seqRun_nothing :
    faulted (result (exec .seqRun (loaded []))) = (17, 0, 0, 2) := by decide +kernel

/-! ### The machine -/

/-- V-ILL-11, V-SYS-5: legality before state; the latch ignores what follows. -/
theorem test_illegal_and_latch :
    faulted (result (presentWord 0x380100000000000200000000 (streaming [0x01] 0))) =
      (15, 0x38010000, 0, 6) ∧
    faulted (result (presentWord 0x380000000000000200000000 (streaming [0x01] 0))) =
      (17, 4, 0, 6) ∧
    result (presentWord 0 ((loaded []).latched .contentSizeMismatch 5)) =
      (loaded []).latched .contentSizeMismatch 5 := by decide +kernel

/-- The first step after reset runs the presented command (R22). -/
theorem test_step_runs :
    (result (step (State.reset.withFetchWord 96 0x010000000000040000000000))).window.capr =
      1024 ∧
    decodeTableWord 96 0x400000000000000700000003 = some (.seqOpen 7 3) ∧
    decodeTableWord 96 0x040000000000000000000000 = none := by decide +kernel

end Sys2Proof.Tests
end

