-- ==== Sys2Proof/Tests/Witnesses.lean ====
section
/-! SUPPORT. One witness per statement of `Certificates/Slice0/Obligations.lean` that has
hypotheses: concrete states and operands that meet the hypotheses of its clauses, at the boundaries
of their ranges. -/

namespace Sys2Proof.Tests

open Sys2Proof.Machine

set_option Elab.async false

/-- The state with this status. -/
def flagged (s : State) (t : Status) : State := { s with status := t }

/-- A faulted state: the latch is set with a code of the table. -/
def latchedState : State := (loaded hello).latched .shortRead 0

/-- The states of the commands that `Quiet()` guards: quiet, a bitstream open, a section open. -/
theorem witness_quiet :
    (loaded hello).Ready ∧ (loaded hello).Quiet ∧
    (streaming hello 3).Ready ∧ ¬ (streaming hello 3).Quiet ∧ (streaming hello 3).Primitive ∧
    (decoding (loaded hello) 1).Ready ∧ ¬ (decoding (loaded hello) 1).Quiet ∧
    ¬ (decoding (loaded hello) 1).Primitive ∧ ¬ (loaded hello).Primitive := by decide +kernel

/-! ### Encoding -/

theorem witness_DecodeOfEncode :
    (Instr.frameEnd false 0 0).wf = true ∧ (Instr.frameEnd true 5 0xFFFFFFFF).wf = true ∧
    (Instr.fsePredef .ml).wf = true ∧ (Instr.bsRead 0xFFFF).wf = true := by decide

theorem witness_DecoderIsTheOpcodeTable :
    (∃ r ∈ opcodeRows, r.accepts 0x031F00000000000000000000 = true ∨ r.mnemonic = "SEQ_RUN") ∧
    tableAccepts 0x430000000000000000000000 = true ∧
    tableAccepts 0x440000000000000000000000 = false := by decide +kernel

/-- One word for each condition of rule R95, and legal words beside them. -/
theorem witness_IllegalWordRaises :
    State.reset.Ready ∧
    Illegal (Fields.ofWord 0x440000000000000000000000) ∧
    Illegal (Fields.ofWord 0x410100000000000000000000) ∧
    Illegal (Fields.ofWord 0x100000010000000500000000) ∧
    Illegal (Fields.ofWord 0x390000010000000100000000) ∧
    Illegal (Fields.ofWord 0x000000000000000000000001) ∧
    Illegal (Fields.ofWord 0x300400000000000000000000) ∧
    Illegal (Fields.ofWord 0x320300000000000000000000) ∧
    Illegal (Fields.ofWord 0x220200000000000600000005) ∧
    Illegal (Fields.ofWord 0x030200000000000000000000) ∧
    Illegal (Fields.ofWord 0x030000000000000500000000) ∧
    ¬ Illegal (Fields.ofWord 0x300300000000000000000000) ∧
    ¬ Illegal (Fields.ofWord 0x320200000000000000000000) ∧
    ¬ Illegal (Fields.ofWord 0x030100000000000500000000) := by
  and_intros
  all_goals first | decide | (unfold Illegal; decide +kernel)

/-! For each command, words of its opcode whose other fields are not as its rule requires, one for
each field (`IllegalUnless`). -/

/-- The word has this opcode and its other fields are not as required. -/
def violates (op : BitVec 8) (ok : Fields → Prop) [DecidablePred ok] (c : CmdWord) : Bool :=
  decide ((Fields.ofWord c).opcode = op ∧ ¬ ok (Fields.ofWord c))

/-- The state after reset is one that every such word may be presented in. -/
theorem witness_IllegalUnless_ready : State.reset.Ready := by decide

theorem witness_IllegalUnless_NopAdvancesCp :
    [0x000100000000000000000000, 0x000000010000000000000000, 0x000000000000000100000000,
     0x000000000000000000000001].all
      (violates 0x00 fun f => f.sel = 0 ∧ f.imm = 0 ∧ f.a = 0 ∧ f.b = 0) = true := by
  decide +kernel

theorem witness_IllegalUnless_FrameInitBeginsAFrame :
    [0x010100000000000000000000, 0x010000010000000000000000, 0x010000000000000000000001].all
      (violates 0x01 fun f => f.sel = 0 ∧ f.imm = 0 ∧ f.b = 0) = true := by
  decide +kernel

theorem witness_IllegalUnless_RdOpenPlacesTheReader :
    [0x020100000000000000000000, 0x020000010000000000000000].all
      (violates 0x02 fun f => f.sel = 0 ∧ f.imm = 0) = true := by
  decide +kernel

theorem witness_IllegalUnless_FrameEndChecksTheSize :
    [0x030200000000000000000000, 0x030000000000000000000001, 0x030000010000000000000000].all
      (violates 0x03 fun f => (f.sel = 0 ∧ f.a = 0 ∧ f.b = 0 ∨ f.sel = 1) ∧ f.imm = 0) = true := by
  decide +kernel

theorem witness_IllegalUnless_WRawAppendsInput :
    [0x100100000000000000000000, 0x100000010000000000000000, 0x100000000000000000000001].all
      (violates 0x10 fun f => f.sel = 0 ∧ f.imm = 0 ∧ f.b = 0) = true := by
  decide +kernel

theorem witness_IllegalUnless_WRleAppendsARun :
    [0x110100000000000000000000, 0x110000010000000000000000, 0x110000000000000000000001].all
      (violates 0x11 fun f => f.sel = 0 ∧ f.imm = 0 ∧ f.b = 0) = true := by
  decide +kernel

theorem witness_IllegalUnless_WLitAppendsLiterals :
    [0x120100000000000000000000, 0x120000010000000000000000, 0x120000000000000000000001].all
      (violates 0x12 fun f => f.sel = 0 ∧ f.imm = 0 ∧ f.b = 0) = true := by
  decide +kernel

theorem witness_IllegalUnless_WLitrestAppendsTheRest :
    [0x130100000000000000000000, 0x130000010000000000000000, 0x130000000000000100000000,
     0x130000000000000000000001].all
      (violates 0x13 fun f => f.sel = 0 ∧ f.imm = 0 ∧ f.a = 0 ∧ f.b = 0) = true := by
  decide +kernel

theorem witness_IllegalUnless_WCopyRepeatsHistory :
    [0x140100000000000000000000, 0x140000010000000000000000].all
      (violates 0x14 fun f => f.sel = 0 ∧ f.imm = 0) = true := by
  decide +kernel

theorem witness_IllegalUnless_LitRawFillsTheBuffer :
    [0x200100000000000000000000, 0x200000010000000000000000, 0x200000000000000000000001].all
      (violates 0x20 fun f => f.sel = 0 ∧ f.imm = 0 ∧ f.b = 0) = true := by
  decide +kernel

theorem witness_IllegalUnless_LitRleFillsTheBuffer :
    [0x210100000000000000000000, 0x210000010000000000000000, 0x210000000000000000000001].all
      (violates 0x21 fun f => f.sel = 0 ∧ f.imm = 0 ∧ f.b = 0) = true := by
  decide +kernel

theorem witness_IllegalUnless_LitHufDecodesWithAFreshTable :
    [0x220200000000000000000000, 0x220100010000000000000000].all
      (violates 0x22 fun f => (f.sel = 1 ∨ f.sel = 4) ∧ f.imm = 0) = true := by
  decide +kernel

theorem witness_IllegalUnless_LitHufrDecodesWithTheRetainedTable :
    [0x230200000000000000000000, 0x230100010000000000000000].all
      (violates 0x23 fun f => (f.sel = 1 ∨ f.sel = 4) ∧ f.imm = 0) = true := by
  decide +kernel

theorem witness_IllegalUnless_FseBuildBuildsFromTheHeader :
    [0x300400000000000000000000, 0x300000010000000000000000, 0x300000000000000100000000,
     0x300000000000000000000001].all
      (violates 0x30 fun f => f.sel.toNat ≤ 3 ∧ f.imm = 0 ∧ f.a = 0 ∧ f.b = 0) = true := by
  decide +kernel

theorem witness_IllegalUnless_FseLoadBuildsFromTheList :
    [0x310400000000000000000000, 0x310000000000000000000001].all
      (violates 0x31 fun f => f.sel.toNat ≤ 3 ∧ f.b = 0) = true := by
  decide +kernel

theorem witness_IllegalUnless_FsePredefBuildsTheDefaultTable :
    [0x320300000000000000000000, 0x320000010000000000000000, 0x320000000000000100000000,
     0x320000000000000000000001].all
      (violates 0x32 fun f => f.sel.toNat ≤ 2 ∧ f.imm = 0 ∧ f.a = 0 ∧ f.b = 0) = true := by
  decide +kernel

theorem witness_IllegalUnless_FseRleBuildsAOneStateTable :
    [0x330400000000000000000000, 0x330000000000000100000000, 0x330000000000000000000001].all
      (violates 0x33 fun f => f.sel.toNat ≤ 3 ∧ f.a = 0 ∧ f.b = 0) = true := by
  decide +kernel

theorem witness_IllegalUnless_BsOpenOpensTheSection :
    [0x380100000000000000000000, 0x380000010000000000000000, 0x380000000000000000000001].all
      (violates 0x38 fun f => f.sel = 0 ∧ f.imm = 0 ∧ f.b = 0) = true := by
  decide +kernel

theorem witness_IllegalUnless_BsReadReadsBits :
    [0x390100000000000000000000, 0x390000000000000100000000, 0x390000000000000000000001].all
      (violates 0x39 fun f => f.sel = 0 ∧ f.a = 0 ∧ f.b = 0) = true := by
  decide +kernel

theorem witness_IllegalUnless_BsCloseClosesTheSection :
    [0x3A0100000000000000000000, 0x3A0000010000000000000000, 0x3A0000000000000100000000,
     0x3A0000000000000000000001].all
      (violates 0x3A fun f => f.sel = 0 ∧ f.imm = 0 ∧ f.a = 0 ∧ f.b = 0) = true := by
  decide +kernel

theorem witness_IllegalUnless_FseInitReadsTheState :
    [0x3B0400000000000000000000, 0x3B0000010000000000000000, 0x3B0000000000000100000000,
     0x3B0000000000000000000001].all
      (violates 0x3B fun f => f.sel.toNat ≤ 3 ∧ f.imm = 0 ∧ f.a = 0 ∧ f.b = 0) = true := by
  decide +kernel

theorem witness_IllegalUnless_FseEmitEmitsTheSymbol :
    [0x3C0400000000000000000000, 0x3C0000010000000000000000, 0x3C0000000000000100000000,
     0x3C0000000000000000000001].all
      (violates 0x3C fun f => f.sel.toNat ≤ 3 ∧ f.imm = 0 ∧ f.a = 0 ∧ f.b = 0) = true := by
  decide +kernel

theorem witness_IllegalUnless_FseNextMovesTheState :
    [0x3D0400000000000000000000, 0x3D0000010000000000000000, 0x3D0000000000000100000000,
     0x3D0000000000000000000001].all
      (violates 0x3D fun f => f.sel.toNat ≤ 3 ∧ f.imm = 0 ∧ f.a = 0 ∧ f.b = 0) = true := by
  decide +kernel

theorem witness_IllegalUnless_SeqOpenReadsTheStates :
    [0x400100000000000000000000, 0x400000010000000000000000].all
      (violates 0x40 fun f => f.sel = 0 ∧ f.imm = 0) = true := by
  decide +kernel

theorem witness_IllegalUnless_SeqNextDecodesASequence :
    [0x410100000000000000000000, 0x410000010000000000000000, 0x410000000000000100000000,
     0x410000000000000000000001].all
      (violates 0x41 fun f => f.sel = 0 ∧ f.imm = 0 ∧ f.a = 0 ∧ f.b = 0) = true := by
  decide +kernel

theorem witness_IllegalUnless_SeqExecExecutesTheSequence :
    [0x420100000000000000000000, 0x420000010000000000000000, 0x420000000000000100000000,
     0x420000000000000000000001].all
      (violates 0x42 fun f => f.sel = 0 ∧ f.imm = 0 ∧ f.a = 0 ∧ f.b = 0) = true := by
  decide +kernel

theorem witness_IllegalUnless_SeqRunIsTheCommandsByHand :
    [0x430100000000000000000000, 0x430000010000000000000000, 0x430000000000000100000000,
     0x430000000000000000000001].all
      (violates 0x43 fun f => f.sel = 0 ∧ f.imm = 0 ∧ f.a = 0 ∧ f.b = 0) = true := by
  decide +kernel

theorem witness_IllFormedTermRaises :
    State.reset.Ready ∧ (Instr.fsePredef .aux).wf = false ∧
    (Instr.frameEnd false 0 1).wf = false := by decide

theorem witness_TransportedCommandDecodes : (Instr.rdOpen 9 14).wf = true := by decide

/-! ### The machine as a whole -/

/-- A state whose next move is `m`. -/
def moving (s : State) (m : HostMove) : State := s.withMoves [m]

theorem witness_StepRunsDecodedCommand :
    (moving State.reset (.command 0x010000000000040000000000)).host.moves =
      .command 0x010000000000040000000000 :: [] ∧
    decode 0x010000000000040000000000 = .ok (.frameInit 1024) ∧
    0x010000000000040000000000 < 2 ^ 96 ∧
    decode (BitVec.ofNat 96 0x010000000000040000000000) = .ok (.frameInit 1024) := by
  decide +kernel

/-- Each clause at the first and the last address or number of its range. -/
theorem witness_HostPortsReadAndWrite :
    State.reset.host.moves = [] ∧ State.reset.status.busy = false ∧
    (moving (loaded []) (.writeIn 4095 7)).host.moves = .writeIn 4095 7 :: [] ∧
    4095 < (loaded []).params.inCap ∧ (loaded []).params.inCap ≤ 4096 ∧
    4095 < (loaded []).params.capacity .win ∧ (loaded []).params.capacity .win ≤ 4096 ∧
    (moving (loaded []) (.readMem .win 4096)).host.moves = .readMem .win 4096 :: [] ∧
    (moving (loaded []) (.readReg 32)).host.moves = .readReg 32 :: [] ∧
    (moving (loaded []) (.readReg 33)).host.moves = .readReg 33 :: [] ∧
    (flagged (loaded []) { Status.clear with busy := true }).status.busy = true ∧
    HostMove.readReg 0 ≠ .reset := by decide +kernel

theorem witness_ResetMoveRestarts :
    (moving latchedState .reset).host.moves = .reset :: [] := by decide

theorem witness_FaultLatchIgnoresCommands :
    latchedState.status.fault = true ∧ latchedState.status.busy = false ∧
    step (moving latchedState (.readReg 1)) =
      .next (result (step (moving latchedState (.readReg 1)))) ∧
    (moving latchedState (.readReg 1)).host.moves.head? ≠ some .reset :=
  ⟨rfl, rfl, eq_next (by decide +kernel), by decide +kernel⟩

/-- A completed command, a faulting one, and a stream whose second word faults. -/
theorem witness_CpCountsCompletedCommands :
    exec .nop (loaded []) = .next (result (exec .nop (loaded []))) ∧
    exec (.wRaw 1) (loaded []) = .next (result (exec (.wRaw 1) (loaded []))) ∧
    (loaded []).status.busy = false ∧
    (result (exec .nop (loaded []))).status.fault = false ∧
    (result (exec (.wRaw 1) (loaded []))).status.fault = true ∧
    (loaded []).Ready ∧ (loaded []).cp = 0 ∧
    (result (runAll presentWord [0, 0] (loaded []))).status.fault = false ∧
    (result (runAll presentWord [0, 1] (loaded []))).status.fault = true :=
  ⟨eq_next (by decide +kernel), eq_next (by decide +kernel), by decide +kernel⟩

theorem witness_StepKeepsErrRecord :
    ErrRecord (moving (loaded []) (.command 1)) ∧
    step (moving (loaded []) (.command 1)) =
      .next (result (step (moving (loaded []) (.command 1)))) :=
  ⟨⟨fun _ => ⟨rfl, rfl⟩, fun h => by cases h⟩, eq_next (by decide +kernel)⟩

theorem witness_FaultsAreRaisedByTheirCommands :
    exec (.wRaw 1) (loaded []) = .next (result (exec (.wRaw 1) (loaded []))) ∧
    exec (.wRaw 0) (loaded []) = .next (result (exec (.wRaw 0) (loaded []))) ∧
    (loaded []).Ready ∧ (loaded []).params.wf = true ∧
    (result (exec (.wRaw 1) (loaded []))).status.fault = true ∧
    (result (exec (.wRaw 0) (loaded []))).status.fault = false :=
  ⟨eq_next (by decide +kernel), eq_next (by decide +kernel), by decide +kernel⟩

theorem witness_EveryCommandAnswersNext : State.reset.status.busy = false := by decide

/-- A register a command does not write, and the last SEQ_NEXT, which moves `RPOS`. -/
theorem witness_RegistersAreWrittenByTheirCommands :
    exec .seqNext (inSeq2 1 24 23 0 1 ⟨1, 3, 4⟩) =
      .next (result (exec .seqNext (inSeq2 1 24 23 0 1 ⟨1, 3, 4⟩))) ∧
    (inSeq2 1 24 23 0 1 ⟨1, 3, 4⟩).Ready ∧ Instr.seqNext.writes 14 = false ∧
    (result (exec .seqNext (inSeq2 1 24 23 0 1 ⟨1, 3, 4⟩))).status.fault = false ∧
    (result (exec .seqNext (inSeq2 1 24 23 0 1 ⟨1, 3, 4⟩))).register 4 ≠
      (inSeq2 1 24 23 0 1 ⟨1, 3, 4⟩).register 4 :=
  ⟨eq_next (by decide +kernel), by decide +kernel⟩

/-- Each flag set and cleared by a command. -/
theorem witness_StatusFlagsAreWrittenByTheirCommands :
    (loaded [0x01]).Ready ∧ (inSeq2 1 24 23 0 1 ⟨1, 3, 4⟩).Ready ∧
    1 ≤ (inSeq2 1 24 23 0 1 ⟨1, 3, 4⟩).seq.left.toNat ∧
    isNext (exec (.bsOpen 1) (loaded [0x01])) = true ∧
    (loaded [0x01]).status.bsOpen = false ∧
    (result (exec (.bsOpen 1) (loaded [0x01]))).status.bsOpen = true ∧
    (result (exec .bsClose (streaming [0x01] 0))).status.bsOpen = false ∧
    beforeSeq2.status.seqActive = false ∧
    (result (exec (.seqOpen 7 3) beforeSeq2)).status.seqActive = true ∧
    (result (exec .seqNext (inSeq2 1 24 23 0 1 ⟨1, 3, 4⟩))).status.seqActive = false ∧
    (result (exec .seqNext (inSeq2 1 24 23 0 1 ⟨1, 3, 4⟩))).status.seqValid = true ∧
    (waiting (loaded []) 0 3 1).status.seqValid = true ∧
    (result (exec .seqExec (waiting (loaded []) 0 3 1))).status.seqValid = false := by
  decide +kernel

theorem witness_MemoriesAreWrittenByTheirCommands :
    (∀ n a b, Instr.wRaw 5 ≠ .litHuf n a b) ∧
    (loaded hello).Ready ∧ isNext (exec (.wRaw 5) (loaded hello)) = true ∧
    (Instr.wRaw 5).fillsLits = false ∧ (Instr.litRaw 5).writesWin = false ∧
    (Instr.litHuf .one 6 5).buildsSlot .ll = false :=
  ⟨by intros; nofun, by decide +kernel⟩

theorem witness_WindowHistoryIsNeverRewritten :
    (∀ c, Instr.wCopy 3 10 ≠ .frameInit c) ∧
    (windowed abc []).Ready ∧ 2 < (windowed abc []).window.index.toNat ∧
    isNext (exec (.wCopy 3 10) (windowed abc [])) = true ∧
    (result (exec (.wCopy 3 10) (windowed abc []))).window.index.toNat ≤ 13 :=
  ⟨by intros; nofun, by decide +kernel⟩

/-! ### Invariants -/

/-- A state in the middle of a frame: a bitstream is open on the input, slot `OF` holds an
initialised one-symbol table, the window and the literals buffer hold bytes; NOP comes next. -/
def midFrame : State :=
  { loaded [0x15] with
    status := { Status.clear with bsOpen := true }
    bits := { base := 0, len := 1, pos := 4 }
    window := { index := 3, size := 3, capr := 64, mem := cells abc }
    lits := { pos := 1, len := 3, mem := cells abc }
    slots := { ll := FseSlot.reset, of := started (slotRle 2) 0, ml := FseSlot.reset,
               aux := FseSlot.reset }
    host := { moves := [.command 0], readData := 0, draws := 0, epoch := 0 } }

theorem midFrame_valid {sl : Slot} (h : (midFrame.slot sl).info.valid = true) : sl = .of := by
  revert h
  cases sl <;> decide +kernel

theorem midFrame_sinit {sl : Slot} (h : (midFrame.slot sl).info.sinit = true) : sl = .of := by
  revert h
  cases sl <;> decide +kernel

theorem midFrame_idle : Idle midFrame where
  reader := by decide +kernel
  window := by decide +kernel
  lits := by decide +kernel
  active := by
    intro h
    cases (show False from by revert h; decide +kernel)
  section_ := by decide +kernel
  sinit := by
    intro sl h
    cases midFrame_sinit h
    decide +kernel
  position := by decide +kernel
  table := by
    intro sl h
    cases midFrame_valid h
    decide +kernel
  reps := by decide +kernel

theorem midFrame_ranges : Ranges midFrame where
  fse := by
    intro sl h
    cases midFrame_valid h
    decide +kernel
  huf := by
    intro h
    revert h
    decide +kernel
  bits := by decide +kernel
  seq := by decide +kernel

theorem midFrame_written : Written midFrame where
  fse := by
    intro sl h
    cases midFrame_valid h
    decide +kernel
  huf := by
    intro h
    revert h
    decide +kernel
  lits := by decide +kernel
  win := by decide +kernel

theorem midFrame_inv : Inv midFrame where
  idle := by decide +kernel
  params := by decide +kernel
  rules := fun _ => ⟨midFrame_idle, midFrame_ranges⟩

theorem witness_StepKeepsMemoryForm :
    MemoryForm midFrame ∧ step midFrame = .next (result (step midFrame)) := by
  refine ⟨⟨?_, ?_, ?_, ?_, ?_⟩, eq_next (by decide +kernel)⟩
  · decide +kernel
  · decide +kernel
  · decide +kernel
  · intro sl
    cases sl <;> decide +kernel
  · decide +kernel

theorem witness_StepKeepsTheInvariant :
    Inv midFrame ∧ step midFrame = .next (result (step midFrame)) :=
  ⟨midFrame_inv, eq_next (by decide +kernel)⟩

theorem witness_StepKeepsGuardedMemoryWritten :
    Inv midFrame ∧ (midFrame.status.fault = false → Written midFrame) ∧
    step midFrame = .next (result (step midFrame)) ∧
    (result (step midFrame)).status.fault = false :=
  ⟨midFrame_inv, fun _ => midFrame_written, eq_next (by decide +kernel), by decide +kernel⟩

/-! ### The shared operations -/

/-- `len` bytes opened with `rpos` consumed. -/
def cursorAt (rpos len : Word) : State :=
  { loaded hello with reader := { rpos := rpos, len := len, mem := cells hello } }

/-- The last reads that fit, and the first that do not. -/
theorem witness_ReaderReadsLittleEndian :
    (cursorAt 1 5).reader.rpos.toNat + 4 ≤ (cursorAt 1 5).reader.len.toNat ∧
    (cursorAt 2 5).reader.rpos.toNat + 4 > (cursorAt 2 5).reader.len.toNat ∧
    (cursorAt 3 5).reader.rpos.toNat + 2 ≤ (cursorAt 3 5).reader.len.toNat ∧
    (cursorAt 4 5).reader.rpos.toNat + 2 > (cursorAt 4 5).reader.len.toNat ∧
    (cursorAt 4 5).reader.rpos.toNat + 1 ≤ (cursorAt 4 5).reader.len.toNat ∧
    (cursorAt 5 5).reader.rpos.toNat + 1 > (cursorAt 5 5).reader.len.toNat := by decide +kernel

/-- Takes that end at the limit and one bit past it. -/
theorem witness_ForwardReaderTakesBits :
    8 * 2 + 5 + 3 ≤ 8 * 3 ∧ 8 * 2 + 5 + 4 > 8 * 3 ∧ 7 < 8 ∧ 2 + (5 + 2) / 8 < 3 := by decide

/-- An end mark at bit 7 and at bit 0, a zero last byte; a read that starts at 0 and one below. -/
theorem witness_BackwardReaderReadsBits :
    (1 : Nat) ≤ 1 ∧ 2 ^ 7 ≤ (bytesAt [0x80] (0 + 1 - 1)).toNat ∧
    (bytesAt [0x80] (0 + 1 - 1)).toNat < 2 ^ (7 + 1) ∧
    2 ^ 0 ≤ (bytesAt [0x01] (0 + 1 - 1)).toNat ∧
    (bytesAt [0x01] (0 + 1 - 1)).toNat < 2 ^ (0 + 1) ∧
    (bytesAt [0x00] (0 + 1 - 1)).toNat = 0 ∧
    (0 : Int) - (3 : Nat) + (2 : Nat) < 0 ∧ (3 : Int) - (3 : Nat) + (0 : Nat) = (0 : Nat) ∧
    (streaming hello 0).bsPos ≥ 0 ∧ (streaming hello (-1)).bsPos < 0 ∧ 32 ≤ 32 := by
  decide +kernel

/-- The header of V-FSE-1. -/
theorem witness_HeaderIsANormalizedDistribution :
    Config.resetParams.wf = true ∧
    fseReadHeader Config.resetParams (bytesAt headerBytes) .of 0 3 =
      .ok { al := 5, probs := [20, 8, -1, 0, 3], next := 3 } := by decide +kernel

/-- The distribution of V-FSE-1, with a "less than one" and a zero probability. -/
theorem witness_BuiltTableCoversEveryState :
    Config.resetParams.wf = true ∧
    checkDist Config.resetParams .of 5 [20, 8, -1, 0, 3] = .ok () ∧ 31 < 2 ^ 5 := by
  decide +kernel

/-- The weights of V-HUF-1 and of V-HUF-7 (no weight 1, a weight 0). -/
theorem witness_HuffmanTableIsFilledExactly :
    (∃ t, weightTable 11 [2, 1, 1] = .ok t) ∧ ∃ t, weightTable 11 [2, 0] = .ok t :=
  ⟨⟨_, rfl⟩, ⟨_, rfl⟩⟩

/-- Each check of rule R204: no weight, too many, V-HUF-6a, V-HUF-6b, a code of 12 bits, V-HUF-6c; and
V-HUF-1, which passes. -/
theorem witness_HuffmanTableIsFilledExactly_checks :
    (∀ k, 3 ≠ 2 ^ k) ∧ 11 ≤ 15 ∧ ([] : List Nat).length = 0 ∧ (List.replicate 256 1).length > 255 ∧
    [2, 12] = [2] ++ 12 :: [] ∧ (∀ y ∈ [2], y ≤ 11) ∧ 12 > 11 ∧
    0 = ([0].map (fun x => if x = 0 then 0 else 2 ^ (x - 1))).sum ∧
    2 ^ 11 ≤ ([11, 11].map (fun x => if x = 0 then 0 else 2 ^ (x - 1))).sum ∧ 11 + 1 > 11 ∧
    3 + ([3, 1, 0].map (fun x => if x = 0 then 0 else 2 ^ (x - 1))).sum = 2 ^ (2 + 1) ∧
    2 ^ 2 ≤ ([2, 1, 1].map (fun x => if x = 0 then 0 else 2 ^ (x - 1))).sum ∧
    4 + ([2, 1, 1].map (fun x => if x = 0 then 0 else 2 ^ (x - 1))).sum = 2 ^ (2 + 1) ∧
    4 = 2 ^ 2 := by
  refine ⟨fun k h => ?_, by decide +kernel⟩
  match k with
  | 0 | 1 => cases h
  | k + 2 => rw [Nat.pow_add] at h; omega

theorem witness_ThreeCaseCopyIsTheByteLoop :
    (cells abc).wf ∧ 1 ≤ 1 ∧ 1 ≤ 3 ∧ 3 ≤ 3 := by decide +kernel

/-- Each of the five cases. -/
theorem witness_OffsetResolvesThroughTheHistory :
    4 > 3 ∧ 1 ≤ 1 ∧ 3 ≤ 3 ∧ (3 : Nat) < 2 ^ 32 ∧
    (0 : Nat) = 1 - 1 + (if (5 : Nat) = 0 then 1 else 0) ∧
    (1 : Nat) = 1 - 1 + (if (0 : Nat) = 0 then 1 else 0) ∧
    (2 : Nat) = 3 - 1 + (if (5 : Nat) = 0 then 1 else 0) ∧
    (3 : Nat) = 3 - 1 + (if (0 : Nat) = 0 then 1 else 0) ∧
    (Reps.init Config.resetParams).r1 = 1 ∧ (⟨2, 1, 4⟩ : Reps).r1 ≠ 1 := by decide +kernel

/-! ### The system and window commands -/

theorem witness_NopAdvancesCp : State.reset.Ready := by decide

theorem witness_FrameInitBeginsAFrame :
    (loaded []).Ready ∧ 1 ≤ (4096 : Word).toNat ∧
    (4096 : Word).toNat ≤ (loaded []).params.winCap ∧ (0 : Word).toNat = 0 ∧
    (4097 : Word).toNat > (loaded []).params.winCap := by decide +kernel

theorem witness_RdOpenPlacesTheReader :
    (loaded []).Ready ∧ (loaded []).Quiet ∧ (4096 : Word).toNat ≤ (loaded []).params.inCap ∧
    (4096 : Word).toNat ≤ (4096 : Word).toNat ∧ ¬ (streaming hello 0).Quiet ∧
    (4097 : Word).toNat > (loaded []).params.inCap ∧ (6 : Word).toNat > (5 : Word).toNat := by
  decide +kernel

theorem witness_FrameEndChecksTheSize :
    (windowed hello []).Ready ∧ (windowed hello []).Quiet ∧ ¬ (streaming hello 0).Quiet ∧
    (5 : Word).toNat + 2 ^ 32 * (0 : Word).toNat = (windowed hello []).window.index.toNat ∧
    (5 : Word).toNat + 2 ^ 32 * (1 : Word).toNat ≠ (windowed hello []).window.index.toNat := by
  decide +kernel

/-- A window with no room left. -/
def full : State :=
  { loaded hello with window := { index := 64, size := 64, capr := 64, mem := cells abc }
                      lits := { pos := 0, len := 3, mem := cells abc } }

theorem witness_WRawAppendsInput :
    (loaded hello).Ready ∧ (loaded hello).Quiet ∧
    (loaded hello).reader.rpos.toNat + (5 : Word).toNat ≤ (loaded hello).reader.len.toNat ∧
    (loaded hello).window.index.toNat + (5 : Word).toNat ≤ (loaded hello).window.capr.toNat ∧
    ¬ (streaming hello 0).Quiet ∧
    (loaded hello).reader.rpos.toNat + (6 : Word).toNat > (loaded hello).reader.len.toNat ∧
    full.Ready ∧ full.Quiet ∧
    full.reader.rpos.toNat + (1 : Word).toNat ≤ full.reader.len.toNat ∧
    full.window.index.toNat + (1 : Word).toNat > full.window.capr.toNat := by decide +kernel

theorem witness_WRleAppendsARun :
    (loaded [0x41]).Ready ∧ (loaded [0x41]).Quiet ∧
    (loaded [0x41]).reader.rpos.toNat + 1 ≤ (loaded [0x41]).reader.len.toNat ∧
    (loaded [0x41]).window.index.toNat + (64 : Word).toNat ≤
      (loaded [0x41]).window.capr.toNat ∧
    (loaded []).reader.rpos.toNat + 1 > (loaded []).reader.len.toNat ∧
    full.window.index.toNat + (1 : Word).toNat > full.window.capr.toNat := by decide +kernel

theorem witness_WLitAppendsLiterals :
    (lettered abc []).Ready ∧ (lettered abc []).lits.pos.toNat ≤ (lettered abc []).lits.len.toNat ∧
    (lettered abc []).lits.pos.toNat + (3 : Word).toNat ≤
      (lettered abc []).lits.len.toNat ∧
    (lettered abc []).window.index.toNat + (3 : Word).toNat ≤
      (lettered abc []).window.capr.toNat ∧
    (lettered abc []).lits.pos.toNat + (4 : Word).toNat >
      (lettered abc []).lits.len.toNat ∧
    full.Ready ∧ full.lits.pos.toNat + (3 : Word).toNat ≤ full.lits.len.toNat ∧
    full.window.index.toNat + (3 : Word).toNat > full.window.capr.toNat := by decide +kernel

theorem witness_WLitrestAppendsTheRest :
    (lettered abc []).Ready ∧ (lettered abc []).lits.pos.toNat + 3 =
      (lettered abc []).lits.len.toNat ∧
    (lettered abc []).window.index.toNat + 3 ≤ (lettered abc []).window.capr.toNat ∧
    full.Ready ∧ full.lits.pos.toNat + 3 = full.lits.len.toNat ∧
    full.window.index.toNat + 3 > full.window.capr.toNat := by decide +kernel

/-- The shortest and the longest offset of a history of 3 bytes, and both sides of it. -/
theorem witness_WCopyRepeatsHistory :
    (windowed abc []).Ready ∧ 1 ≤ (1 : Word).toNat ∧
    (3 : Word).toNat ≤ min (windowed abc []).window.index.toNat
      (windowed abc []).window.size.toNat ∧
    (windowed abc []).window.index.toNat + (61 : Word).toNat ≤
      (windowed abc []).window.capr.toNat ∧
    (0 : Word).toNat = 0 ∧
    (4 : Word).toNat > min (windowed abc []).window.index.toNat
      (windowed abc []).window.size.toNat ∧
    (windowed abc []).window.index.toNat + (62 : Word).toNat >
      (windowed abc []).window.capr.toNat := by decide +kernel

/-! ### The literals commands -/

theorem witness_LitRawFillsTheBuffer :
    (loaded abc).Ready ∧ (loaded abc).Quiet ∧ (3 : Word).toNat ≤ (loaded abc).params.litCap ∧
    (loaded abc).reader.rpos.toNat + (3 : Word).toNat ≤ (loaded abc).reader.len.toNat ∧
    ¬ (streaming abc 0).Quiet ∧ (131073 : Word).toNat > (loaded abc).params.litCap ∧
    (131072 : Word).toNat ≤ (loaded abc).params.litCap ∧
    (loaded abc).reader.rpos.toNat + (4 : Word).toNat > (loaded abc).reader.len.toNat := by
  decide +kernel

theorem witness_LitRleFillsTheBuffer :
    (loaded abc).Ready ∧ (loaded abc).Quiet ∧
    (131072 : Word).toNat ≤ (loaded abc).params.litCap ∧
    (loaded abc).reader.rpos.toNat + 1 ≤ (loaded abc).reader.len.toNat ∧
    (131073 : Word).toNat > (loaded abc).params.litCap ∧
    (loaded []).reader.rpos.toNat + 1 > (loaded []).reader.len.toNat := by decide +kernel

/-- The table of V-HUF-1. -/
def hufEntries : List HufEntry :=
  [⟨1, 3⟩, ⟨2, 3⟩, ⟨0, 2⟩, ⟨0, 2⟩, ⟨3, 1⟩, ⟨3, 1⟩, ⟨3, 1⟩, ⟨3, 1⟩]

/-- A state with the table of V-HUF-1 in use. -/
def hufReady (bytes : List Byte) : State :=
  { loaded bytes with
    huf := { info := ⟨true, 3, 4⟩, tab := Memory.writeList [] 0 hufEntries } }

/-- A stream whose decode is known decodes. -/
theorem hufDecodes_of {tab : Nat → HufEntry} {maxBits : Nat} {byte : Nat → Byte} {base n start : Nat}
    {out : List Byte} (hs : backStart byte base n = .ok start)
    (h : hufSymbols tab maxBits byte base out.length start = (out, 0)) :
    HufDecodes tab maxBits byte base n out := by
  obtain ⟨pos, h0, hw, hl, -⟩ := walk_of_hufSymbols tab maxBits byte base out.length start
  rw [h] at hw hl
  exact ⟨start, pos, hs, h0, hw, hl⟩

/-- A stream whose decode goes below the beginning fails. -/
theorem hufFails_overrun {tab : Nat → HufEntry} {maxBits : Nat} {byte : Nat → Byte}
    {base n start count : Nat} {out : List Byte} {p : Int} (hs : backStart byte base n = .ok start)
    (h : hufSymbols tab maxBits byte base count start = (out, p)) (ho : 1 ≤ out.length)
    (hc : out.length ≤ count) (hp : p < 0) :
    HufFails tab maxBits byte base n count out ⟨.bitstreamOverrun, p⟩ := by
  obtain ⟨pos, h0, hw, hl, -⟩ := walk_of_hufSymbols tab maxBits byte base count start
  rw [h] at hw hl
  exact .inr ⟨start, pos, hs, h0, hw, .inl ⟨ho, hc, by rw [hl]; exact hp, by rw [hl]⟩⟩

/-- A stream whose decode leaves bits over fails. -/
theorem hufFails_residue {tab : Nat → HufEntry} {maxBits : Nat} {byte : Nat → Byte}
    {base n start : Nat} {out : List Byte} {p : Int} (hs : backStart byte base n = .ok start)
    (h : hufSymbols tab maxBits byte base out.length start = (out, p)) (hp : 0 < p) :
    HufFails tab maxBits byte base n out.length out ⟨.bitstreamResidue, p⟩ := by
  obtain ⟨pos, h0, hw, hl, -⟩ := walk_of_hufSymbols tab maxBits byte base out.length start
  rw [h] at hw hl
  exact .inr ⟨start, pos, hs, h0, hw, .inr ⟨rfl, by rw [hl]; exact hp, by rw [hl]⟩⟩

/-- The state in which the streams of V-HUF-1 are decoded. -/
def hufMid : State := (hufReady hufBytes).setRpos 3

theorem witness_LitHufDecodesWithAFreshTable :
    StreamsDecode hufMid.hufEntry hufMid.huf.info.maxBits.toNat hufMid.inByte
      hufMid.reader.rpos.toNat 5 6 [3, 0, 3, 1, 2, 3] .one ∧
    DirectTree (loaded hufBytes).inByte 0 5 [2, 1, 1] 3 ∧
    weightTable (loaded hufBytes).params.hufMaxBits [2, 1, 1] =
      .ok { maxBits := 3, nsym := 4, entries := hufEntries } ∧
    (loaded hufBytes).Ready ∧ (loaded hufBytes).Quiet ∧
    (6 : Word).toNat ≤ (loaded hufBytes).params.litCap ∧
    (loaded hufBytes).reader.rpos.toNat + (5 : Word).toNat ≤
      (loaded hufBytes).reader.len.toNat ∧
    (131073 : Word).toNat > (loaded hufBytes).params.litCap ∧
    (loaded hufBytes).reader.rpos.toNat + (8 : Word).toNat >
      (loaded hufBytes).reader.len.toNat :=
  ⟨⟨rfl, hufDecodes_of (start := 11) (by decide +kernel) (by decide +kernel)⟩,
    ⟨by decide +kernel, rfl, rfl, by decide +kernel⟩, by decide +kernel⟩

/-- V-HUF-4c, V-HUF-4b and V-HUF-4a: no end mark; seven symbols are one too many; five leave a bit. -/
theorem witness_LitHufDecodesWithAFreshTable_streams :
    StreamsFail hufMid.hufEntry 3 (bytesAt [0x82, 0x21, 0x10, 0x83, 0x00]) 3 5 6 []
      ⟨.missingEndMark, 4⟩ .one ∧
    StreamsFail hufMid.hufEntry 3 hufMid.inByte 3 5 7 [3, 0, 3, 1, 2, 3, 1]
      ⟨.bitstreamOverrun, -3⟩ .one ∧
    StreamsFail hufMid.hufEntry 3 hufMid.inByte 3 5 5 [3, 0, 3, 1, 2] ⟨.bitstreamResidue, 1⟩
      .one :=
  ⟨.inl (by decide +kernel),
    hufFails_overrun (start := 11) (by decide +kernel) (by decide +kernel) (by decide) (by decide)
      (by decide),
    hufFails_residue (start := 11) (by decide +kernel) (by decide +kernel) (by decide)⟩

/-- The clauses of a bad tree: no byte; V-HUF-4e; V-HUF-6a, 6b, 6c; V-HUF-6d; V-HUF-10 (a), (b). -/
theorem witness_LitHufDecodesWithAFreshTable_tree :
    TreeFails Config.resetParams (bytesAt []) 0 0 0 ⟨.shortRead, 0⟩ ∧
    TreeFails Config.resetParams (bytesAt hufBytes) 0 2 1 ⟨.shortRead, 1⟩ ∧
    TreeFails Config.resetParams (bytesAt [0x81, 0xC0, 0x01]) 0 3 2 ⟨.invalidHuffmanWeights, 12⟩ ∧
    TreeFails Config.resetParams (bytesAt [0x81, 0x00, 0x01]) 0 3 2 ⟨.invalidHuffmanWeights, 0⟩ ∧
    TreeFails Config.resetParams (bytesAt [0x82, 0x31, 0x00, 0x01]) 0 4 3
      ⟨.invalidHuffmanWeights, 3⟩ ∧
    TreeFails Config.resetParams (bytesAt [0x00, 0x01]) 0 2 1 ⟨.invalidHuffmanWeights, 0⟩ ∧
    TreeFails Config.resetParams (bytesAt (0x09 :: codedBytes.tail)) 0 8 1 ⟨.shortRead, 1⟩ ∧
    TreeFails Config.resetParams (bytesAt [0x03, 0x02, 0x00, 0x01, 0x01]) 0 5 1
      ⟨.accuracyLogTooLarge, 7⟩ :=
  ⟨.inl (by decide), .inr ⟨by decide, .inl (by decide +kernel)⟩,
    .inr ⟨by decide, .inr (.inl ⟨[12, 0], ⟨by decide, rfl, rfl, by decide⟩, by decide +kernel⟩)⟩,
    .inr ⟨by decide, .inr (.inl ⟨[0, 0], ⟨by decide, rfl, rfl, by decide⟩, by decide +kernel⟩)⟩,
    .inr ⟨by decide, .inr (.inl ⟨[3, 1, 0], ⟨by decide, rfl, rfl, by decide⟩, by decide +kernel⟩)⟩,
    .inr ⟨by decide, .inr (.inr (.inl (by decide)))⟩,
    .inr ⟨by decide, .inr (.inr (.inr ⟨by decide, by decide, rfl, .inl (by decide)⟩))⟩,
    .inr ⟨by decide, .inr (.inr (.inr ⟨by decide, by decide, rfl, .inr (by decide +kernel)⟩))⟩⟩

/-- The header of V-HUF-9. -/
def codedHeader : Header := { al := 5, probs := [8, 12, 8, 4], next := 4 }

/-- The coded form: V-HUF-9. -/
theorem witness_LitHufDecodesWithAFreshTable_coded :
    CodedTree (loaded codedBytes).params (loaded codedBytes).inByte
      ((loaded codedBytes).fseEntry .aux) 0 8 codedHeader [2, 1, 1] 6 ∧
    (loaded codedBytes).Ready ∧ (loaded codedBytes).Quiet ∧ (loaded codedBytes).params.wf = true :=
  ⟨⟨⟨by decide +kernel, by decide +kernel, rfl, by decide, by decide +kernel⟩,
    codedWeights_eq_ok.1 (by decide +kernel)⟩, by decide +kernel⟩

/-- The clauses of a bad coded tree: the header of V-HUF-9 with no end mark after it, with too few
bits for two states, and with the weights 0, 0; a table that reads no bit, so that the list does not
end. -/
theorem witness_LitHufDecodesWithAFreshTable_codedFails :
    CodedTreeFails Config.resetParams (bytesAt [0x05, 0x90, 0xDA, 0x1E, 0x08, 0x00])
      (State.reset.fseEntry .aux) 0 6 codedHeader 4 ⟨.missingEndMark, 5⟩ ∧
    CodedTreeFails Config.resetParams (bytesAt [0x04, 0x90, 0xDA, 0x1E, 0x01])
      (State.reset.fseEntry .aux) 0 5 codedHeader 4 ⟨.bitstreamOverrun, -10⟩ ∧
    CodedTreeFails Config.resetParams (bytesAt [0x05, 0x90, 0xDA, 0x1E, 0x00, 0x04])
      (State.reset.fseEntry .aux) 0 6 codedHeader 6 ⟨.invalidHuffmanWeights, 0⟩ ∧
    CodedTreeFails Config.resetParams (bytesAt [0x04, 0xF0, 0x03, 0x00, 0x04])
      (State.reset.fseEntry .aux) 0 5 { al := 5, probs := [32], next := 3 } 3
      ⟨.invalidHuffmanWeights, 254⟩ :=
  ⟨.inl ⟨6, ⟨by decide, by decide, rfl, by decide, by decide +kernel⟩, rfl,
      codedWeights_eq_error.1 (by decide +kernel)⟩,
    .inl ⟨5, ⟨by decide, by decide, rfl, by decide, by decide +kernel⟩, rfl,
      codedWeights_eq_error.1 (by decide +kernel)⟩,
    .inr ⟨[0, 0], ⟨⟨by decide, by decide, rfl, by decide, by decide +kernel⟩,
      codedWeights_eq_ok.1 (by decide +kernel)⟩, by decide +kernel⟩,
    .inl ⟨5, ⟨by decide, by decide, rfl, by decide, by decide +kernel⟩, rfl,
      codedWeights_eq_error.1 (by decide +kernel)⟩⟩

theorem witness_LitHufrDecodesWithTheRetainedTable :
    StreamsDecode (hufReady [0x83, 0x0D]).hufEntry
      (hufReady [0x83, 0x0D]).huf.info.maxBits.toNat (hufReady [0x83, 0x0D]).inByte
      (hufReady [0x83, 0x0D]).reader.rpos.toNat 2 6 [3, 0, 3, 1, 2, 3] .one ∧
    (hufReady [0x83, 0x0D]).Ready ∧ (hufReady [0x83, 0x0D]).Quiet ∧
    (hufReady [0x83, 0x0D]).huf.info.valid = true ∧
    (hufReady [0x83, 0x0D]).reader.rpos.toNat + (2 : Word).toNat ≤
      (hufReady [0x83, 0x0D]).reader.len.toNat ∧
    (131073 : Word).toNat > (hufReady [0x83, 0x0D]).params.litCap ∧
    (hufReady [0x83, 0x0D]).reader.rpos.toNat + (3 : Word).toNat >
      (hufReady [0x83, 0x0D]).reader.len.toNat ∧
    (loaded hufBytes).huf.info.valid = false :=
  ⟨⟨rfl, hufDecodes_of (start := 11) (by decide +kernel) (by decide +kernel)⟩, by decide +kernel⟩

/-- Four streams: V-HUF-8 (a). -/
theorem witness_StreamsDecode_four :
    StreamsDecode hufMid.hufEntry 3 (loaded fourBytes).inByte 3 13 8 [0, 1, 2, 3, 3, 3, 1, 0]
      .four := by
  refine ⟨1, 1, 1, 1, [0, 1], [2, 3], [3, 3], [1, 0], rfl, by decide +kernel, by decide +kernel,
    by decide +kernel, rfl, rfl, rfl, rfl, rfl, ?_, ?_, ?_, ?_⟩
  · exact hufDecodes_of (start := 5) (by decide +kernel) (by decide +kernel)
  · exact hufDecodes_of (start := 4) (by decide +kernel) (by decide +kernel)
  · exact hufDecodes_of (start := 2) (by decide +kernel) (by decide +kernel)
  · exact hufDecodes_of (start := 5) (by decide +kernel) (by decide +kernel)

/-- Four streams that fail: a jump table cut short; sizes beyond the section; five literals, which
cannot be split (V-HUF-8 (c)); and a second stream that leaves bits over. -/
theorem witness_StreamsFail_four :
    StreamsFail hufMid.hufEntry 3 (loaded fourBytes).inByte 3 8 8 [] ⟨.shortRead, 3⟩ .four ∧
    StreamsFail hufMid.hufEntry 3 (loaded fourBytes).inByte 3 11 8 [] ⟨.shortRead, 9⟩ .four ∧
    StreamsFail hufMid.hufEntry 3 (loaded fourBytes).inByte 3 13 5 [] ⟨.literalsOverflow, 6⟩ .four ∧
    StreamsFail hufMid.hufEntry 3
      (bytesAt [0x82, 0x21, 0x10, 0x01, 0x00, 0x01, 0x00, 0x01, 0x00, 0x28, 0x83, 0x07, 0x21]) 3 13 8
      [0, 1, 1, 2] ⟨.bitstreamResidue, 1⟩ .four := by
  refine ⟨.inl (by decide), ?_, ?_, ?_⟩
  · exact .inr ⟨_, _, _, _, _, rfl, by decide, rfl, rfl, rfl, rfl, .inl (by decide +kernel)⟩
  · exact .inr ⟨_, _, _, _, _, rfl, by decide, rfl, rfl, rfl, rfl, .inr (.inl (by decide +kernel))⟩
  · refine .inr ⟨_, _, _, _, _, rfl, by decide, rfl, rfl, rfl, rfl, .inr (.inr ⟨by decide +kernel,
      by decide, .inr ⟨[0, 1], [1, 2], rfl, rfl, ?_, .inl ?_⟩⟩)⟩
    · exact hufDecodes_of (start := 5) (by decide +kernel) (by decide +kernel)
    · exact hufFails_residue (out := [1, 2]) (start := 7) (by decide +kernel) (by decide +kernel)
        (by decide)

/-! ### The table commands -/

theorem witness_FseBuildBuildsFromTheHeader :
    (loaded headerBytes).Ready ∧ (loaded headerBytes).Quiet ∧
    (loaded headerBytes).params.wf = true ∧
    fseReadHeader (loaded headerBytes).params (loaded headerBytes).inByte .of 0 3 =
      .ok { al := 5, probs := [20, 8, -1, 0, 3], next := 3 } ∧
    fseReadHeader (loaded headerBytes).params (loaded headerBytes).inByte .of 0 2 =
      .error ⟨.shortRead, 2⟩ ∧
    ¬ (streaming headerBytes 0).Quiet := by decide +kernel

/-- Each clause: too many symbols, a short list, `AL` 4 and 10, a probability of -2, sums 31 and
32. -/
theorem witness_FseLoadBuildsFromTheList :
    (loaded [0x10, 0x00, 0x10, 0x00]).Ready ∧ (loaded [0x10, 0x00, 0x10, 0x00]).Quiet ∧
    (37 : Word).toNat > (loaded []).params.maxSymbols.get .ll ∧
    (36 : Word).toNat ≤ (loaded []).params.maxSymbols.get .ll ∧
    (loaded [0x10, 0x00, 0x10, 0x00]).reader.rpos.toNat + 2 * (2 : Word).toNat ≤
      (loaded [0x10, 0x00, 0x10, 0x00]).reader.len.toNat ∧
    (loaded [0x10, 0x00, 0x10]).reader.rpos.toNat + 2 * (2 : Word).toNat >
      (loaded [0x10, 0x00, 0x10]).reader.len.toNat ∧
    [16, 16] = (List.range (2 : Word).toNat).map (fun k =>
      ((loaded [0x10, 0x00, 0x10, 0x00]).inByte (0 + 2 * k + 1) ++
        (loaded [0x10, 0x00, 0x10, 0x00]).inByte (0 + 2 * k)).toInt) ∧
    (4 : BitVec 16).toNat < (loaded []).params.minAL ∧
    (loaded []).params.minAL ≤ (5 : BitVec 16).toNat ∧
    (9 : BitVec 16).toNat ≤ (loaded []).params.maxAL.get .ll ∧
    (10 : BitVec 16).toNat > (loaded []).params.maxAL.get .ll ∧
    ([32, -2, 2] : List Int) = [32] ++ -2 :: [2] ∧ (∀ q ∈ ([32] : List Int), -1 ≤ q) ∧
    (-2 : Int) < -1 ∧ (∀ q ∈ ([30, -1, -1] : List Int), -1 ≤ q) ∧
    ([30, -1, -1].map (fun p : Int => if p = -1 then 1 else p)).sum = 2 ^ (5 : BitVec 16).toNat ∧
    ([16, 15].map (fun p : Int => if p = -1 then 1 else p)).sum ≠ 2 ^ (5 : BitVec 16).toNat := by
  decide +kernel

theorem witness_FsePredefBuildsTheDefaultTable :
    Slot.of ≠ .aux ∧ (loaded []).Ready ∧ (loaded []).Quiet ∧ (loaded []).params.wf = true ∧
    ¬ (streaming [0x01] 0).Quiet := by
  decide +kernel

theorem witness_FseRleBuildsAOneStateTable :
    (loaded []).Ready ∧ (loaded []).Quiet ∧
    (255 : BitVec 16).toNat < (loaded []).params.maxSymbols.get .aux ∧
    ¬ (streaming [0x01] 0).Quiet ∧ (32 : BitVec 16).toNat ≥ (loaded []).params.maxSymbols.get .of := by
  decide +kernel

/-! ### The bitstream and lookup commands -/

theorem witness_BsOpenOpensTheSection :
    (loaded [0xAB, 0x05]).Ready ∧ (loaded [0xAB, 0x05]).Quiet ∧
    1 ≤ (2 : Word).toNat ∧ (2 ^ 27 : Word).toNat ≤ 2 ^ 27 ∧
    (loaded [0xAB, 0x05]).reader.rpos.toNat + (2 : Word).toNat ≤
      (loaded [0xAB, 0x05]).reader.len.toNat ∧
    ((loaded [0xAB, 0x05]).inByte (0 + 2 - 1)).toNat ≠ 0 ∧ ¬ (streaming [0x01] 0).Quiet ∧
    (2 ^ 27 + 1 : Word).toNat > 2 ^ 27 ∧
    (loaded [0xAB, 0x05]).reader.rpos.toNat + (3 : Word).toNat >
      (loaded [0xAB, 0x05]).reader.len.toNat ∧
    (0 : Word).toNat = 0 ∧
    (loaded [0xAB, 0x05]).reader.rpos.toNat ≤ (loaded [0xAB, 0x05]).reader.len.toNat ∧
    ((loaded [0x05, 0x00]).inByte (0 + 2 - 1)).toNat = 0 := by decide +kernel

theorem witness_BsReadReadsBits :
    (streaming [0xAB, 0x05] 0).Ready ∧ (streaming [0xAB, 0x05] 0).Primitive ∧
    (32 : BitVec 16).toNat ≤ 32 ∧ 0 ≤ (streaming [0xAB, 0x05] 0).bsPos ∧
    ¬ (loaded []).Primitive ∧ (33 : BitVec 16).toNat > 32 ∧
    (streaming [0xAB, 0x05] (-1)).bsPos < 0 := by decide +kernel

theorem witness_BsCloseClosesTheSection :
    (streaming [0x01] 0).Ready ∧ (streaming [0x01] 0).Primitive ∧ (streaming [0x01] 0).bsPos = 0 ∧
    ¬ (loaded []).Primitive ∧ (streaming [0x01] (-1)).bsPos < 0 ∧
    0 < (streaming [0x03] 1).bsPos := by decide +kernel

theorem witness_FseInitReadsTheState :
    (primitive1 0 0).Ready ∧ 5 = ((primitive1 0 0).slot .of).info.al.toNat ∧
    (primitive1 0 0).Primitive ∧ ((primitive1 0 0).slot .of).info.valid = true ∧
    0 ≤ (primitive1 0 0).bsPos ∧ ¬ (loaded []).Primitive ∧
    ((primitive1 0 0).slot .ll).info.valid = false ∧ (primitive1 0 (-1)).bsPos < 0 := by
  decide +kernel

theorem witness_FseEmitEmitsTheSymbol :
    (primitive1 13 5).Ready ∧ (primitive1 13 5).status.seqActive = false ∧
    ((primitive1 13 5).slot .of).info.valid = true ∧
    ((primitive1 13 5).slot .of).info.sinit = true ∧
    (decoding (loaded []) 1).status.seqActive = true ∧
    ((primitive1 13 5).slot .ll).info.valid = false ∧
    (tabled (streaming [0x01] 0) (slotRle 2) FseSlot.reset FseSlot.reset).status.seqActive =
      false ∧
    ((tabled (streaming [0x01] 0) (slotRle 2) FseSlot.reset FseSlot.reset).slot .ll).info.valid =
      true ∧
    ((tabled (streaming [0x01] 0) (slotRle 2) FseSlot.reset FseSlot.reset).slot .ll).info.sinit =
      false := by decide +kernel

theorem witness_FseNextMovesTheState :
    (primitive1 13 0).Ready ∧
    ⟨20, 5, 0⟩ = (primitive1 13 0).fseEntry .of ((primitive1 13 0).slot .of).state.toNat ∧
    (primitive1 13 0).Primitive ∧ ((primitive1 13 0).slot .of).info.valid = true ∧
    ((primitive1 13 0).slot .of).info.sinit = true ∧ 0 ≤ (primitive1 13 0).bsPos ∧
    (primitive1 13 (-1)).bsPos < 0 ∧ ¬ (loaded []).Primitive ∧
    ((primitive1 13 0).slot .ll).info.valid = false ∧
    ((tabled (streaming [0x01] 0) (slotRle 2) FseSlot.reset FseSlot.reset).slot .ll).info.sinit =
      false := by decide +kernel

/-! ### The sequences commands -/

/-- Before SEQ_OPEN with three one-symbol tables (V-SEQ-7). -/
def beforeSeq7 (bytes : List Byte) : State :=
  tabled (loaded bytes) (slotRle 2) (slotRle 2) (slotRle 0)

theorem witness_SeqOpenReadsTheStates :
    beforeSeq2.Ready ∧ beforeSeq2.Quiet ∧
    2 = (beforeSeq2.inByte (beforeSeq2.reader.rpos.toNat + (7 : Word).toNat - 1)).toNat ∧
    49 = 8 * ((7 : Word).toNat - 1) + Nat.log2 2 ∧
    6 = beforeSeq2.slots.ll.info.al.toNat ∧ 5 = beforeSeq2.slots.of.info.al.toNat ∧
    6 = beforeSeq2.slots.ml.info.al.toNat ∧ 49 = 32 + 6 + 5 + 6 ∧
    ¬ (streaming [0x01] 0).Quiet ∧ (2 ^ 27 + 1 : Word).toNat > 2 ^ 27 ∧
    (7 : Word).toNat ≤ 2 ^ 27 ∧ (3 : Word) ≠ 0 ∧ beforeSeq2.slots.ll.info.valid = true ∧
    beforeSeq2.slots.of.info.valid = true ∧ beforeSeq2.slots.ml.info.valid = true ∧
    beforeSeq2.reader.rpos.toNat + (7 : Word).toNat ≤ beforeSeq2.reader.len.toNat ∧
    beforeSeq2.reader.rpos.toNat + (8 : Word).toNat > beforeSeq2.reader.len.toNat ∧
    (0 : Word).toNat = 0 ∧ beforeSeq2.reader.rpos.toNat ≤ beforeSeq2.reader.len.toNat ∧
    ((beforeSeq7 [0x00]).inByte (0 + 1 - 1)).toNat = 0 ∧
    (loaded []).slots.ll.info.valid = false ∧
    (tabled (loaded []) (slotRle 2) FseSlot.reset FseSlot.reset).slots.of.info.valid = false ∧
    (tabled (loaded []) (slotRle 2) (slotRle 2) FseSlot.reset).slots.ml.info.valid = false ∧
    7 < 6 + 5 + 6 := by decide +kernel

/-- V-SEQ-2: the first decode, which advances, with its values `(V, ml, ll) = (6, 3, 3)`. -/
theorem witness_SeqNextDecodesASequence :
    SeqRead (inSeq2 3 3 14 0 32 ⟨1, 4, 8⟩) 6 3 3 30 ∧
    SeqAdvance (inSeq2 3 3 14 0 32 ⟨1, 4, 8⟩) 30 1 1 0 14 ∧
    (inSeq2 3 3 14 0 32 ⟨1, 4, 8⟩).Ready ∧
    (inSeq2 3 3 14 0 32 ⟨1, 4, 8⟩).status.seqActive = true ∧
    (inSeq2 3 3 14 0 32 ⟨1, 4, 8⟩).status.seqValid = false ∧
    resolveOffset 6 3 ⟨1, 4, 8⟩ = .ok (3, ⟨3, 1, 4⟩) ∧
    2 ≤ (inSeq2 3 3 14 0 32 ⟨1, 4, 8⟩).seq.left.toNat :=
  ⟨⟨2, 0, 0, 3, 3, by decide +kernel⟩, ⟨_, _, _, rfl, rfl, rfl, by decide +kernel⟩,
    by decide +kernel⟩

/-- V-SEQ-2: the last decode, which closes; with one more bit it leaves a residue. -/
theorem witness_SeqNextDecodesASequence_last :
    SeqRead (inSeq2 1 24 23 0 1 ⟨1, 3, 4⟩) 3 3 2 0 ∧
    (inSeq2 1 24 23 0 1 ⟨1, 3, 4⟩).seq.left.toNat = 1 ∧
    resolveOffset 3 2 ⟨1, 3, 4⟩ = .ok (4, ⟨4, 1, 3⟩) ∧
    SeqRead (inSeq2 1 24 23 0 9 ⟨1, 3, 4⟩) 2 3 2 8 ∧
    resolveOffset 2 2 ⟨1, 3, 4⟩ = .ok (3, ⟨3, 1, 4⟩) := by
  exact ⟨⟨1, 0, 0, 3, 2, by decide +kernel⟩, by decide +kernel, by decide +kernel,
    ⟨1, 0, 0, 3, 2, by decide +kernel⟩, by decide +kernel⟩

/-- Nothing open; a short read (one bit wanted, none left); a short advance (V-SEQ-3a's kind); an
offset of 0 (V-SEQ-5's kind). -/
theorem witness_SeqNextFaultsInOrder :
    SeqRead (inSeq2 2 24 23 0 1 ⟨1, 3, 4⟩) 3 3 2 0 ∧
    SeqRead (inSeq2 1 0 23 0 1 ⟨1, 3, 4⟩) 3 3 0 0 ∧
    (loaded []).Ready ∧ (loaded []).status.seqActive = false ∧
    (waiting (decoding (loaded []) 1) 0 3 1).status.seqValid = true ∧
    (inSeq2 1 24 23 0 0 ⟨1, 3, 4⟩).status.seqActive = true ∧
    1 ≤ (inSeq2 1 24 23 0 0 ⟨1, 3, 4⟩).seq.left.toNat ∧
    (inSeq2 1 24 23 0 0 ⟨1, 3, 4⟩).params.wf = true ∧
    ((inSeq2 1 24 23 0 0 ⟨1, 3, 4⟩).currentEntry .ml).sym.toNat <
      (inSeq2 1 24 23 0 0 ⟨1, 3, 4⟩).params.mlCodes.length ∧
    ((inSeq2 1 24 23 0 0 ⟨1, 3, 4⟩).currentEntry .ll).sym.toNat <
      (inSeq2 1 24 23 0 0 ⟨1, 3, 4⟩).params.llCodes.length ∧
    1 = ((inSeq2 1 24 23 0 0 ⟨1, 3, 4⟩).currentEntry .of).sym.toNat ∧
    0 ≤ (inSeq2 1 24 23 0 0 ⟨1, 3, 4⟩).bsPos ∧
    (inSeq2 1 24 23 0 0 ⟨1, 3, 4⟩).bsPos < (1 : Nat) + (0 : Nat) + (0 : Nat) ∧
    0 < ((inSeq2 2 24 23 0 1 ⟨1, 3, 4⟩).currentEntry .ll).nb.toNat +
      ((inSeq2 2 24 23 0 1 ⟨1, 3, 4⟩).currentEntry .ml).nb.toNat +
      ((inSeq2 2 24 23 0 1 ⟨1, 3, 4⟩).currentEntry .of).nb.toNat ∧
    resolveOffset 3 0 ⟨1, 3, 4⟩ = .error ⟨.copyOutOfBounds, 0⟩ :=
  ⟨⟨1, 0, 0, 3, 2, by decide +kernel⟩, ⟨1, 0, 0, 3, 0, by decide +kernel⟩, by decide +kernel⟩

/-- A sequence that fits; a literals underflow; no room for the literals; an offset of 0, the
longest offset and one past it; no room for the match. -/
theorem witness_SeqExecExecutesTheSequence :
    (waiting (lettered abc []) 3 61 3).Ready ∧
    (waiting (lettered abc []) 3 61 3).lits.pos.toNat ≤
      (waiting (lettered abc []) 3 61 3).lits.len.toNat ∧
    (loaded []).status.seqValid = false ∧
    (waiting (lettered abc []) 3 61 3).status.seqValid = true ∧
    0 + 4 > (lettered abc []).lits.len.toNat ∧ 0 + 3 ≤ (lettered abc []).lits.len.toNat ∧
    full.window.index.toNat + 3 > full.window.capr.toNat ∧
    0 + 3 ≤ (lettered abc []).window.capr.toNat ∧ 4 > 0 + 3 ∧ 3 ≤ 0 + 3 ∧
    0 + 3 + 61 ≤ (lettered abc []).window.capr.toNat ∧
    0 + 3 + 62 > (lettered abc []).window.capr.toNat := by decide +kernel

/-- Nothing to run; a section with two sequences; only a waiting sequence. -/
theorem witness_SeqRunIsTheCommandsByHand :
    (loaded []).Ready ∧ (loaded []).status.seqActive = false ∧
    (loaded []).status.seqValid = false ∧ inSeq7.Ready ∧ inSeq7.status.seqActive = true ∧
    1 ≤ inSeq7.seq.left.toNat ∧ (waiting (lettered abc []) 2 3 1).status.seqValid = true := by
  decide +kernel

/-- The last sequence waits and one literal is left after it; a SEQ_RUN that completes. -/
theorem witness_SeqRunAppendsTheFinalLiterals :
    exec .seqRun inSeq7 = .next (result (exec .seqRun inSeq7)) ∧
    (waiting (lettered abc []) 2 61 2).Ready ∧
    (waiting (lettered abc []) 2 61 2).lits.pos.toNat ≤
      (waiting (lettered abc []) 2 61 2).lits.len.toNat ∧
    (waiting (lettered abc []) 2 61 2).status.seqActive = false ∧
    (waiting (lettered abc []) 2 61 2).status.bsOpen = false ∧
    (waiting (lettered abc []) 2 61 2).status.seqValid = true ∧
    0 + 2 + 1 = (lettered abc []).lits.len.toNat ∧ 2 ≤ 0 + 2 ∧
    0 + 2 + 61 + 1 ≤ (lettered abc []).window.capr.toNat ∧
    1 ≤ inSeq7.seq.left.toNat ∧ (result (exec .seqRun inSeq7)).status.fault = false :=
  ⟨eq_next (by decide +kernel), by decide +kernel⟩

end Sys2Proof.Tests
end

namespace Sys2Proof

/-! # The invariant of the idle unit (rule R42) -/

/-! ### Parameters that fit the unit (rule R6, log 7) -/

/-- What the invariant uses of parameters that fit the unit, item by item. -/
structure Params.Fits (p : Params) : Prop where
  inCap : p.inCap < 2 ^ 32
  winCap : p.winCap < 2 ^ 32
  litCap : p.litCap < 2 ^ 32
  symbols : ∀ sl, p.maxSymbols.get sl ≤ 256
  logs : ∀ sl, p.maxAL.get sl ≤ 9
  offsets : p.maxSymbols.of ≤ 32
  huf : p.hufMaxBits ≤ 15
  reps : p.repInit.1 ≠ 0 ∧ p.repInit.2.1 ≠ 0 ∧ p.repInit.2.2 ≠ 0
  llCodes : Params.codesOk p.llCodes p.maxSymbols.ll 0 131071 = true
  mlCodes : Params.codesOk p.mlCodes p.maxSymbols.ml 3 131074 = true

theorem Params.fits_of_wf {p : Params} (h : p.wf = true) : p.Fits := by
  simp only [Params.wf, List.all_cons, List.all_nil, Bool.and_eq_true, decide_eq_true_eq,
    bne_iff_ne, ne_eq] at h
  constructor
  case symbols => intro sl; cases sl <;> omega
  case logs => intro sl; cases sl <;> omega
  all_goals tauto

/-- A code of a table that covers it has its base and its extra bits in range (rules R37, R242). -/
theorem Params.codesOk_get {codes : List (Nat × Nat)} {n lo hi c : Nat}
    (h : Params.codesOk codes n lo hi = true) (hc : c < n) (outside : Nat × Nat) :
    lo ≤ ((codes[c]?).getD outside).1 ∧
      ((codes[c]?).getD outside).1 + 2 ^ ((codes[c]?).getD outside).2 ≤ hi + 1 := by
  simp only [Params.codesOk, Bool.and_eq_true, decide_eq_true_eq, List.all_eq_true] at h
  obtain ⟨hn, hall⟩ := h
  have hlt : c < codes.length := by omega
  rw [List.getElem?_eq_getElem hlt]
  exact hall _ (List.getElem_mem hlt)

namespace Machine

/-! ### Completed computations -/

theorem except_bind_ok {ε α β : Type} {x : Except ε α} {f : α → Except ε β} {b : β} :
    (x >>= f) = .ok b ↔ ∃ a, x = .ok a ∧ f a = .ok b := by
  cases x <;> simp [bind, Except.bind]

/-- A check that raises has passed when the whole completes. -/
theorem check_ok {ε α : Type} {c : Prop} [Decidable c] {e : ε} {x : Except ε α} {a : α} :
    (if c then .error e else x) = .ok a ↔ ¬c ∧ x = .ok a := by
  split <;> simp_all

/-! ### A distribution's table (rules R141, R142) -/

/-- The entries of a whole table of accuracy log `al` and `nsym` symbols (rules R38, R143). -/
structure FseTableFits (al nsym : Nat) (entries : List FseEntry) : Prop where
  length : entries.length = 2 ^ al
  inRange : ∀ e ∈ entries, e.InRange al nsym

/-- A list of `len` states, each with a symbol below `n`. -/
abbrev SymbolsBelow (n len : Nat) (t : List Nat) : Prop := t.length = len ∧ ∀ x ∈ t, x < n

theorem SymbolsBelow.set {n len : Nat} {t : List Nat} (h : SymbolsBelow n len t) (i : Nat) {s : Nat}
    (hs : s < n) : SymbolsBelow n len (t.set i s) := by
  refine ⟨by simpa using h.1, fun x hx => ?_⟩
  rcases List.mem_or_eq_of_mem_set hx with hx | rfl
  · exact h.2 x hx
  · exact hs

theorem SymbolsBelow.placeLow {n len : Nat} {probs : List Int} {s high : Nat} {t : List Nat}
    (h : SymbolsBelow n len t) (hs : s + probs.length ≤ n) :
    SymbolsBelow n len (placeLow probs s high t).2 := by
  induction probs generalizing s high t with
  | nil => exact h
  | cons p ps ih =>
    simp only [List.length_cons] at hs
    rw [Machine.placeLow]
    split
    · exact ih (h.set _ (by omega)) (by omega)
    · exact ih h (by omega)

theorem SymbolsBelow.placeSymbol {n len step mask high s count pos : Nat} {t : List Nat}
    (h : SymbolsBelow n len t) (hs : s < n) :
    SymbolsBelow n len (placeSymbol step mask high s count pos t).2 := by
  induction count generalizing pos t with
  | zero => exact h
  | succ count ih => exact ih (h.set pos hs)

theorem SymbolsBelow.placeWalk {n len step mask high : Nat} {probs : List Int} {s pos : Nat}
    {t : List Nat} (h : SymbolsBelow n len t) (hs : s + probs.length ≤ n) :
    SymbolsBelow n len (placeWalk step mask high probs s pos t) := by
  induction probs generalizing s pos t with
  | nil => exact h
  | cons p ps ih =>
    simp only [List.length_cons] at hs
    exact ih (h.placeSymbol (by omega)) (by omega)

/-- Every state of the spread has a symbol of the distribution. -/
theorem spreadSymbols_below {al : Nat} {probs : List Int} (h : probs ≠ []) :
    SymbolsBelow probs.length (2 ^ al) (spreadSymbols al probs) := by
  have h0 : SymbolsBelow probs.length (2 ^ al) (List.replicate (2 ^ al) 0) := by
    refine ⟨List.length_replicate, fun x hx => ?_⟩
    rw [List.eq_of_mem_replicate hx]
    exact List.length_pos_iff.2 h
  exact (h0.placeLow (by omega)).placeWalk (by omega)

/-- A counter below twice the table size gives an entry in range (rule R143 (4)). -/
theorem spreadEntry_inRange {al n s x : Nat} (hal : al ≤ 9) (hn : n ≤ 256) (hs : s < n)
    (hx : x < 2 ^ (al + 1)) : (spreadEntry al s x).InRange al n := by
  have hlog : Nat.log2 x ≤ al := by
    by_cases h0 : x = 0
    · simp [h0]
    · have := (Nat.log2_lt h0).2 hx
      omega
  have hnb : al - Nat.log2 x < 2 ^ 4 := by omega
  have hsize : 2 ^ al ≤ 2 ^ 9 := Nat.pow_le_pow_right (by decide) hal
  have hpow : 2 ^ Nat.log2 x * 2 ^ (al - Nat.log2 x) = 2 ^ al := by
    rw [← Nat.pow_add]
    congr 1
    omega
  have hup : x + 1 ≤ 2 * 2 ^ Nat.log2 x := by
    have := Nat.lt_log2_self (n := x)
    rw [Nat.pow_succ] at this
    omega
  have hmul : (x + 1) * 2 ^ (al - Nat.log2 x) ≤ 2 * 2 ^ al := by
    rw [← hpow, ← Nat.mul_assoc]
    exact Nat.mul_le_mul_right _ hup
  rw [Nat.add_mul, Nat.one_mul] at hmul
  have hle : 2 ^ (al - Nat.log2 x) ≤ 2 ^ al := Nat.pow_le_pow_right (by decide) (by omega)
  have hbase : x * 2 ^ (al - Nat.log2 x) - 2 ^ al + 2 ^ (al - Nat.log2 x) ≤ 2 ^ al := by omega
  have hpos : 0 < 2 ^ (al - Nat.log2 x) := Nat.two_pow_pos _
  simp only [spreadEntry, FseEntry.InRange, BitVec.toNat_ofNat]
  rw [Nat.mod_eq_of_lt (by omega : s < 2 ^ 8), Nat.mod_eq_of_lt hnb, Nat.mod_eq_of_lt (by omega)]
  exact ⟨hs, by omega, hbase⟩

/-- The counter a state takes is the symbol's first one plus the states before it, so it stays below
twice the table size. -/
theorem spreadEntries_inRange {al n : Nat} (hal : al ≤ 9) (hn : n ≤ 256) {syms next : List Nat}
    (hs : ∀ s ∈ syms, s < n) (hnext : ∀ s, next.getD s 0 + syms.length ≤ 2 ^ (al + 1)) :
    ∀ e ∈ spreadEntries al syms next, e.InRange al n := by
  induction syms generalizing next with
  | nil => simp [spreadEntries]
  | cons s ss ih =>
    simp only [List.length_cons] at hnext
    intro e he
    rcases List.mem_cons.1 he with rfl | he
    · exact spreadEntry_inRange hal hn (hs s List.mem_cons_self) (by have := hnext s; omega)
    · refine ih (fun x hx => hs x (List.mem_cons_of_mem _ hx)) (fun x => ?_) e he
      have hx := hnext x
      have hs' := hnext s
      simp only [List.getD_eq_getElem?_getD, List.getElem?_set] at hx hs' ⊢
      split
      · next h => subst h; split <;> simp_all <;> omega
      · omega

theorem length_spreadEntries (al : Nat) (syms next : List Nat) :
    (spreadEntries al syms next).length = syms.length := by
  induction syms generalizing next with
  | nil => rfl
  | cons s ss ih => simp [spreadEntries, ih]

/-- A distribution that passes: what is left over, and each symbol's share (rule R141). -/
theorem distRemaining_ok {probs : List Int} {total left : Int}
    (h : distRemaining probs total = .ok left) :
    left ≤ total ∧ ∀ x ∈ initialNext probs, (x : Int) + left ≤ total := by
  induction probs generalizing total with
  | nil => cases h; simp [initialNext]
  | cons p ps ih =>
    rw [distRemaining, check_ok] at h
    obtain ⟨hp, h⟩ := h
    rw [initialNext, List.map_cons, List.forall_mem_cons]
    split at h
    · next h1 =>
      obtain ⟨hle, hall⟩ := ih h
      rw [if_pos h1]
      exact ⟨by omega, by omega, fun x hx => by have := hall x hx; omega⟩
    · next h1 =>
      obtain ⟨hle, hall⟩ := ih h
      rw [if_neg h1]
      exact ⟨by omega, by omega, fun x hx => by have := hall x hx; omega⟩

/-- The checks of `FseFromDist` that pass (rule R141). -/
theorem checkDist_ok {p : Params} {sl : Slot} {al : Nat} {probs : List Int}
    (h : checkDist p sl al probs = .ok ()) :
    p.minAL ≤ al ∧ al ≤ p.maxAL.get sl ∧ probs.length ≤ p.maxSymbols.get sl ∧
      distRemaining probs ((2 ^ al : Nat) : Int) = .ok 0 := by
  simp only [checkDist, check_ok] at h
  obtain ⟨h1, h2, h3, h⟩ := h
  cases hd : distRemaining probs ((2 ^ al : Nat) : Int) with
  | error e =>
    rw [hd] at h
    cases h
  | ok left =>
    simp only [hd, check_ok] at h
    obtain ⟨h4, -⟩ := h
    rw [not_not] at h4
    subst h4
    exact ⟨by omega, by omega, by omega, rfl⟩

/-- A distribution that sums to the table size has a symbol. -/
theorem probs_ne_nil {al : Nat} {probs : List Int}
    (h : distRemaining probs ((2 ^ al : Nat) : Int) = .ok 0) : probs ≠ [] := by
  rintro rfl
  have hpos := Nat.two_pow_pos al
  simp only [distRemaining, Except.ok.injEq] at h
  omega

/-- The table of a distribution that passes the checks (rules R142, R143). -/
theorem spread_fits {al : Nat} {probs : List Int} (hal : al ≤ 9) (hn : probs.length ≤ 256)
    (h : distRemaining probs ((2 ^ al : Nat) : Int) = .ok 0) :
    FseTableFits al probs.length (spread al probs) := by
  obtain ⟨hlen, hbelow⟩ := spreadSymbols_below (al := al) (probs_ne_nil h)
  refine ⟨(length_spreadEntries _ _ _).trans hlen, spreadEntries_inRange hal hn hbelow fun s => ?_⟩
  have hshare : (initialNext probs).getD s 0 ≤ 2 ^ al := by
    rw [List.getD_eq_getElem?_getD]
    cases hs : (initialNext probs)[s]? with
    | none => simp
    | some x =>
      have := (distRemaining_ok h).2 x (List.mem_of_getElem? hs)
      simp only [Option.getD_some]
      omega
  rw [hlen, Nat.pow_succ]
  omega

/-! ### The end of a header (rules R70, R144) -/

theorem fwdTake_ok {fb fe fpos k q : Nat} (h : fwdTake fb fe fpos k = .ok q) :
    fwdEnd fb q ≤ fe := by
  rw [fwdTake, check_ok] at h
  obtain ⟨hle, h⟩ := h
  cases h
  omega

theorem headerValue_end {byte : Nat → Byte} {fb fe remaining fpos : Nat} {r : Nat × Nat}
    (h : headerValue byte fb fe remaining fpos = .ok r) : fwdEnd fb r.2 ≤ fe := by
  unfold headerValue at h
  dsimp only at h
  split at h <;>
  · rw [except_bind_ok] at h
    obtain ⟨q, hq, h⟩ := h
    cases h
    exact fwdTake_ok hq

theorem zeroRun_end {byte : Nat → Byte} {fb fe maxSym fuel fpos : Nat} {probs : List Int}
    {r : Nat × List Int} (h : zeroRun byte fb fe maxSym fuel fpos probs = .ok r) :
    fwdEnd fb r.1 ≤ fe := by
  induction fuel generalizing fpos probs with
  | zero => cases h
  | succ fuel ih =>
    simp only [zeroRun, except_bind_ok] at h
    obtain ⟨q, hq, ps, -, h⟩ := h
    split at h
    · exact ih h
    · cases h
      exact fwdTake_ok hq

theorem headerLoop_end {byte : Nat → Byte} {fb fe maxSym fuel remaining fpos : Nat}
    {probs : List Int} {r : Nat × List Int}
    (h : headerLoop byte fb fe maxSym fuel remaining fpos probs = .ok r)
    (hp : fwdEnd fb fpos ≤ fe) : fwdEnd fb r.1 ≤ fe := by
  induction fuel generalizing remaining fpos probs with
  | zero => cases h
  | succ fuel ih =>
    rw [headerLoop] at h
    split at h
    · cases h
      exact hp
    · rw [check_ok, except_bind_ok] at h
      obtain ⟨-, v, hv, h⟩ := h
      dsimp only at h
      split at h
      · obtain ⟨z, hz, h⟩ := except_bind_ok.1 h
        exact ih h (zeroRun_end hz)
      · exact ih h (headerValue_end hv)

/-- A header that is read ends within its limit. -/
theorem fseReadHeader_next_le {p : Params} {byte : Nat → Byte} {sl : Slot} {fb fe : Nat}
    {h : Header} (hh : fseReadHeader p byte sl fb fe = .ok h) : h.next ≤ fe := by
  simp only [fseReadHeader, except_bind_ok, check_ok] at hh
  obtain ⟨q, hq, -, r, hr, hh⟩ := hh
  cases hh
  exact headerLoop_end hr (fwdTake_ok hq)

end Machine
end Sys2Proof

namespace Sys2Proof.Machine

/-! ### The Huffman table of a list of weights (rules R39, R204) -/

/-- A whole Huffman table within `limit` (rules R35, R39). -/
structure HufTable.Fits (t : HufTable) (limit : Nat) : Prop where
  maxBits : 1 ≤ t.maxBits ∧ t.maxBits ≤ limit
  nsym : 2 ≤ t.nsym ∧ t.nsym ≤ 256
  length : t.entries.length = 2 ^ t.maxBits
  inRange : ∀ e ∈ t.entries, 1 ≤ e.nb.toNat ∧ e.nb.toNat ≤ t.maxBits ∧ e.sym.toNat < t.nsym

/-- The share of the code space that a weight takes (rule R204). -/
def weightShare (w : Nat) : Nat := if w > 0 then 2 ^ (w - 1) else 0

theorem weightTotal_ok {limit : Nat} {ws : List Nat} {start total : Nat}
    (h : weightTotal limit ws start = .ok total) : total = start + (ws.map weightShare).sum := by
  induction ws generalizing start with
  | nil => cases h; simp
  | cons w ws ih =>
    rw [weightTotal, check_ok] at h
    rw [ih h.2, List.map_cons, List.sum_cons, weightShare]
    split <;> omega

theorem length_hufLevel (maxBits b : Nat) (lens : List Nat) (s : Nat) :
    (hufLevel maxBits b lens s).length =
      (lens.map fun nb => if nb = b then 2 ^ (maxBits - b) else 0).sum := by
  induction lens generalizing s with
  | nil => rfl
  | cons nb lens ih =>
    rw [hufLevel, List.length_append, ih, List.map_cons, List.sum_cons]
    split <;> simp

/-- The levels up to `b` hold the shares of the codes of at most `b` bits. -/
theorem length_hufLevels (maxBits b : Nat) (lens : List Nat) :
    (hufLevels maxBits lens b).length =
      (lens.map fun nb => if 1 ≤ nb ∧ nb ≤ b then 2 ^ (maxBits - nb) else 0).sum := by
  induction b with
  | zero =>
    have h : (fun nb => if 1 ≤ nb ∧ nb ≤ 0 then 2 ^ (maxBits - nb) else 0) = fun _ => 0 := by
      funext nb
      exact if_neg (by omega)
    rw [h]
    simp [hufLevels]
  | succ b ih =>
    rw [hufLevels, List.length_append, length_hufLevel, ih, ← List.sum_map_add]
    congr 2
    funext nb
    by_cases h : nb = b + 1
    · subst h
      simp
    · rw [if_neg h, Nat.zero_add]
      exact if_congr (by omega) rfl rfl

theorem mem_hufLevel {maxBits b : Nat} {lens : List Nat} {s : Nat} {e : HufEntry}
    (h : e ∈ hufLevel maxBits b lens s) :
    e.nb = BitVec.ofNat 4 b ∧ ∃ k, k < s + lens.length ∧ e.sym = BitVec.ofNat 8 k := by
  induction lens generalizing s with
  | nil => cases h
  | cons nb lens ih =>
    rw [hufLevel, List.mem_append] at h
    rw [List.length_cons]
    rcases h with h | h
    · split at h
      · rw [List.eq_of_mem_replicate h]
        exact ⟨rfl, s, by omega, rfl⟩
      · cases h
    · obtain ⟨hnb, k, hk, hsym⟩ := ih h
      exact ⟨hnb, k, by omega, hsym⟩

theorem mem_hufLevels {maxBits b : Nat} {lens : List Nat} {e : HufEntry}
    (h : e ∈ hufLevels maxBits lens b) :
    ∃ c k, 1 ≤ c ∧ c ≤ b ∧ k < lens.length ∧ e.nb = BitVec.ofNat 4 c ∧
      e.sym = BitVec.ofNat 8 k := by
  induction b with
  | zero => cases h
  | succ b ih =>
    rcases List.mem_append.1 h with h | h
    · obtain ⟨hnb, k, hk, hsym⟩ := mem_hufLevel h
      exact ⟨b + 1, k, by omega, by omega, by omega, hnb, hsym⟩
    · obtain ⟨c, k, h1, h2, hk, hnb, hsym⟩ := ih h
      exact ⟨c, k, h1, by omega, hk, hnb, hsym⟩

/-- The codes of weights of at most `maxBits` take the weights' shares of the table. -/
theorem length_hufLevels_codeLength {maxBits : Nat} {ws : List Nat} (hle : ∀ w ∈ ws, w ≤ maxBits) :
    (hufLevels maxBits (ws.map (codeLength maxBits)) maxBits).length =
      (ws.map weightShare).sum := by
  rw [length_hufLevels, List.map_map]
  congr 1
  refine List.map_congr_left fun w hw => ?_
  have := hle w hw
  by_cases h0 : w > 0
  · have hc : codeLength maxBits w = maxBits + 1 - w := if_pos h0
    simp only [Function.comp, hc, weightShare]
    rw [if_pos h0, if_pos (by omega)]
    congr 1
    omega
  · have hc : codeLength maxBits w = 0 := if_neg h0
    simp [hc, weightShare, h0]

/-- A weight whose share is within a sum below `2 ^ m` is at most `m`. -/
theorem weight_le_of_sum_lt {ws : List Nat} {m w : Nat} (hw : w ∈ ws)
    (h : (ws.map weightShare).sum < 2 ^ m) : w ≤ m := by
  have h1 := List.le_sum_of_mem (List.mem_map_of_mem (f := weightShare) hw)
  rw [weightShare] at h1
  split at h1
  · have := (Nat.pow_lt_pow_iff_right (by decide : 1 < 2)).1 (Nat.lt_of_le_of_lt h1 h)
    omega
  · omega

/-- What is left to the next power of two above `total`. -/
theorem left_bounds {total : Nat} (h : total ≠ 0) :
    1 ≤ 2 ^ (Nat.log2 total + 1) - total ∧
      2 ^ (Nat.log2 total + 1) - total ≤ 2 ^ Nat.log2 total := by
  have h1 := Nat.lt_log2_self (n := total)
  have h2 := Nat.log2_self_le h
  rw [Nat.pow_succ] at h1 ⊢
  omega

/-- The weights that pass the checks make a whole table (rule R204). -/
theorem weightTable_fits {limit : Nat} (hlimit : limit ≤ 15) {w : List Nat} {t : HufTable}
    (h : weightTable limit w = .ok t) : t.Fits limit := by
  simp only [weightTable, check_ok, except_bind_ok] at h
  obtain ⟨hlen, total, htot, h0, hmax, hleft, h⟩ := h
  rw [not_not] at hleft
  have hsum := weightTotal_ok htot
  rw [Nat.zero_add] at hsum
  obtain ⟨hl1, hl2⟩ := left_bounds h0
  have htop := Nat.lt_log2_self (n := total)
  generalize hL : 2 ^ (Nat.log2 total + 1) - total = left at hleft hl1 hl2 h
  generalize Nat.log2 total = m at hmax hl2 h hL htop
  have hlog : Nat.log2 left ≤ m := by
    rw [← hleft] at hl2
    exact (Nat.pow_le_pow_iff_right (by decide : 1 < 2)).1 hl2
  have hshares : ((w ++ [Nat.log2 left + 1]).map weightShare).sum = 2 ^ (m + 1) := by
    have hlast : weightShare (Nat.log2 left + 1) = left := hleft
    rw [List.map_append, List.sum_append, ← hsum, List.map_singleton, List.sum_singleton, hlast]
    omega
  have hle : ∀ x ∈ w ++ [Nat.log2 left + 1], x ≤ m + 1 := by
    simp only [List.mem_append, List.mem_singleton]
    rintro x (hx | rfl)
    · exact weight_le_of_sum_lt hx (hsum ▸ htop)
    · omega
  cases h
  refine ⟨⟨by simp only; omega, by simp only; omega⟩, ⟨by simp only; omega, by simp only; omega⟩,
    (length_hufLevels_codeLength hle).trans hshares, fun e he => ?_⟩
  obtain ⟨c, k, hc1, hc2, hk, hnb, hsym⟩ := mem_hufLevels he
  simp only [List.length_map, List.length_append, List.length_singleton] at hk
  rw [hnb, hsym]
  simp only [BitVec.toNat_ofNat]
  omega

end Sys2Proof.Machine

namespace Sys2Proof.Machine

/-! ### The rules of an idle unit, by the part of the state they speak of

`Idle` and `Ranges` of rule R42 regrouped: `Steady` holds at every point of a command, `Live` while
a sequences section is open, so that the pieces of a sequences command can be taken one by one. -/

/-- A table of slot `sl` whose entries are `entry` (items 6 and 8 of rule R42, rules R34, R141). -/
structure TableOk (p : Params) (sl : Slot) (al nsym : Nat) (entry : Nat → FseEntry) : Prop where
  inRange : ∀ k, k < 2 ^ al → (entry k).InRange al nsym
  descriptor : 1 ≤ nsym ∧ nsym ≤ p.maxSymbols.get sl ∧ (al = 0 ∨ p.minAL ≤ al) ∧ al ≤ p.maxAL.get sl

/-- A Huffman table whose entries are `entry` (rules R35, R39). -/
abbrev HufOk (p : Params) (maxBits nsym : Nat) (entry : Nat → HufEntry) : Prop :=
  1 ≤ maxBits ∧ maxBits ≤ p.hufMaxBits ∧ 2 ≤ nsym ∧ nsym ≤ 256 ∧
    ∀ k, k < 2 ^ maxBits →
      1 ≤ (entry k).nb.toNat ∧ (entry k).nb.toNat ≤ maxBits ∧ (entry k).sym.toNat < nsym

/-- A decoded sequence in its registers (rule R37). -/
abbrev SeqRegs.Ok (q : SeqRegs) : Prop :=
  q.ll.toNat ≤ 131071 ∧ 3 ≤ q.ml.toNat ∧ q.ml.toNat ≤ 131074 ∧ 1 ≤ q.ofv.toNat ∧ 1 ≤ q.off.toNat

/-- Item 1 of rule R42. -/
abbrev Reader.Ok (x : Reader) (p : Params) : Prop :=
  x.rpos.toNat ≤ x.len.toNat ∧ x.len.toNat ≤ p.inCap

/-- Item 2 of rule R42. -/
abbrev Window.Ok (w : Window) (p : Params) : Prop :=
  w.index = w.size ∧ w.size.toNat ≤ w.capr.toNat ∧ w.capr.toNat ≤ p.winCap

/-- Item 3 of rule R42. -/
abbrev Literals.Ok (l : Literals) (p : Params) : Prop :=
  l.pos.toNat ≤ l.len.toNat ∧ l.len.toNat ≤ p.litCap

/-- Item 9 of rule R42. -/
abbrev Reps.Ok (h : Reps) : Prop := h.r1 ≠ 0 ∧ h.r2 ≠ 0 ∧ h.r3 ≠ 0

/-- Item 6 of rule R42 for one slot. -/
abbrev FseSlot.StateOk (x : FseSlot) (opened : Bool) : Prop :=
  x.info.sinit = true →
    opened = true ∧ x.info.valid = true ∧ x.state.toNat < 2 ^ x.info.al.toNat

/-- Item 5 of rule R42 with the range of `BS_POS` (rule R31). -/
structure SectionOk (x : Reader) (b : Bitstream) : Prop where
  inside : b.base.toNat + b.len.toNat ≤ x.len.toNat
  length : 1 ≤ b.len.toNat ∧ b.len.toNat ≤ Config.bsMaxBytes
  cursor : x.rpos = b.base
  position : -32 ≤ b.pos.toInt ∧ b.pos.toInt < 8 * b.len.toNat

/-- The rules that every piece of a command keeps: all of rule R42 and the ranges but items 4 and 7,
with parameters that fit the unit. -/
structure Steady (s : State) : Prop where
  params : s.params.wf = true
  reader : s.reader.Ok s.params
  window : s.window.Ok s.params
  lits : s.lits.Ok s.params
  bits : s.status.bsOpen = true → SectionOk s.reader s.bits
  states : ∀ sl, (s.slot sl).StateOk s.status.bsOpen
  tables : ∀ sl, (s.slot sl).info.valid = true →
    TableOk s.params sl (s.slot sl).info.al.toNat (s.slot sl).info.nsym.toNat (s.fseEntry sl)
  huf : s.huf.info.valid = true →
    HufOk s.params s.huf.info.maxBits.toNat s.huf.info.nsym.toNat s.hufEntry
  reps : s.reps.Ok
  seq : s.status.seqValid = true → s.seq.Ok

/-- A sequences section in progress: items 4 and 7 of rule R42 but for `SEQ_LEFT`. -/
structure Live (s : State) : Prop where
  opened : s.status.bsOpen = true
  states : ∀ sl, sl ≠ .aux → (s.slot sl).info.valid = true ∧ (s.slot sl).info.sinit = true
  position : 0 ≤ s.bsPos

/-- The rules of the idle unit while the latch is clear. -/
structure Rules (s : State) : Prop where
  steady : Steady s
  active : s.status.seqActive = true → Live s ∧ 1 ≤ s.seq.left.toNat

/-- `Rules` is rule R42 with the ranges, for parameters that fit. -/
theorem rules_iff {s : State} : Rules s ↔ s.params.wf = true ∧ Idle s ∧ Ranges s := by
  constructor
  · rintro ⟨h, ha⟩
    refine ⟨h.params, ⟨h.reader, h.window, h.lits, fun x => ?_, fun x => ?_, h.states,
      fun x => (ha x).1.position, fun sl hv => (h.tables sl hv).inRange, h.reps⟩,
      ⟨fun sl hv => (h.tables sl hv).descriptor, h.huf, fun x => (h.bits x).position, h.seq⟩⟩
    · exact ⟨(ha x).1.opened, (ha x).2, (ha x).1.states⟩
    · exact ⟨(h.bits x).inside, (h.bits x).length.1, (h.bits x).length.2, (h.bits x).cursor⟩
  · rintro ⟨hp, hi, hr⟩
    refine ⟨⟨hp, hi.reader, hi.window, hi.lits, fun x => ?_, hi.sinit,
      fun sl hv => ⟨hi.table sl hv, hr.fse sl hv⟩, hr.huf, hi.reps, hr.seq⟩, fun x => ?_⟩
    · obtain ⟨h1, h2, h3, h4⟩ := hi.section_ x
      exact ⟨h1, ⟨h2, h3⟩, h4, hr.bits x⟩
    · obtain ⟨h1, h2, h3⟩ := hi.active x
      exact ⟨⟨h1, h3, hi.position x⟩, h2⟩

/-- The invariant in these terms. -/
theorem inv_iff {s : State} :
    Inv s ↔ s.status.busy = false ∧ s.params.wf = true ∧ (s.status.fault = false → Rules s) :=
  ⟨fun h => ⟨h.idle, h.params, fun hf => rules_iff.2 ⟨h.params, h.rules hf⟩⟩,
    fun ⟨hi, hp, hr⟩ => ⟨hi, hp, fun hf => (rules_iff.1 (hr hf)).2⟩⟩

/-! ### One rule per update of State -/

/-- A location of a whole table written from entry 0. -/
theorem lookup_writeList_zero {α : Type} (m : Memory α) {vs : List α} {i : Nat}
    (h : i < vs.length) : (m.writeList 0 vs).lookup i = some vs[i] := by
  have := Memory.lookup_writeList_inside vs m (a := 0) h
  rwa [Nat.zero_add] at this

namespace Steady

variable {s : State} (h : Steady s)
include h

theorem fits : s.params.Fits := Params.fits_of_wf h.params

/-- With no section open the Reader may be placed anywhere within the input. -/
theorem setReader {x : Reader} (hx : x.Ok s.params) (hq : s.status.bsOpen = false) :
    Steady (s.setReader x) :=
  ⟨h.params, hx, h.window, h.lits, fun ho => absurd (hq.symm.trans ho) (by decide), h.states,
    h.tables, h.huf, h.reps, h.seq⟩

theorem setRpos {v : Nat} (hv : v ≤ s.reader.len.toNat) (hq : s.status.bsOpen = false) :
    Steady (s.setRpos v) := by
  refine h.setReader (x := { s.reader with rpos := BitVec.ofNat 32 v }) ⟨?_, h.reader.2⟩ hq
  rw [BitVec.toNat_ofNat]
  exact Nat.le_trans (Nat.mod_le _ _) hv

/-- The host's write of a byte of `IN`. -/
theorem setInput (m : Memory Byte) : Steady (s.setReader { s.reader with mem := m }) :=
  ⟨h.params, h.reader, h.window, h.lits,
    fun ho => ⟨(h.bits ho).inside, (h.bits ho).length, (h.bits ho).cursor, (h.bits ho).position⟩,
    h.states, h.tables, h.huf, h.reps, h.seq⟩

theorem setWindow {w : Window} (hw : w.Ok s.params) : Steady (s.setWindow w) :=
  ⟨h.params, h.reader, hw, h.lits, h.bits, h.states, h.tables, h.huf, h.reps, h.seq⟩

theorem setLits {l : Literals} (hl : l.Ok s.params) : Steady (s.setLits l) :=
  ⟨h.params, h.reader, h.window, hl, h.bits, h.states, h.tables, h.huf, h.reps, h.seq⟩

theorem setVal (x : Word) : Steady (s.setVal x) :=
  ⟨h.params, h.reader, h.window, h.lits, h.bits, h.states, h.tables, h.huf, h.reps, h.seq⟩

theorem setSym (x : Word) : Steady (s.setSym x) :=
  ⟨h.params, h.reader, h.window, h.lits, h.bits, h.states, h.tables, h.huf, h.reps, h.seq⟩

theorem setCp (x : Word) : Steady (s.setCp x) :=
  ⟨h.params, h.reader, h.window, h.lits, h.bits, h.states, h.tables, h.huf, h.reps, h.seq⟩

theorem setReps {x : Reps} (hx : x.Ok) : Steady (s.setReps x) :=
  ⟨h.params, h.reader, h.window, h.lits, h.bits, h.states, h.tables, h.huf, hx, h.seq⟩

theorem setSeq {x : SeqRegs} (hx : s.status.seqValid = true → x.Ok) : Steady (s.setSeq x) :=
  ⟨h.params, h.reader, h.window, h.lits, h.bits, h.states, h.tables, h.huf, h.reps, hx⟩

/-- The host's side has a part in the rules only by the number of resets, which gives the unwritten
locations their values. -/
theorem setHost {x : HostSide} (hx : x.epoch = s.host.epoch) : Steady (s.setHost x) := by
  have hf : ∀ sl, (s.setHost x).fseEntry sl = s.fseEntry sl := fun sl => by
    funext k
    show ((s.slot sl).tab.lookup k).getD (Config.unwrittenFse x.epoch sl k) = _
    rw [hx]
    rfl
  have hh : (s.setHost x).hufEntry = s.hufEntry := by
    funext k
    show (s.huf.tab.lookup k).getD (Config.unwrittenHuf x.epoch k) = _
    rw [hx]
    rfl
  exact ⟨h.params, h.reader, h.window, h.lits, h.bits, h.states,
    fun sl hv => (hf sl).symm ▸ h.tables sl hv, fun hv => hh.symm ▸ h.huf hv, h.reps, h.seq⟩

/-- Flags that leave `BS_OPEN` as it is. -/
theorem setStatus {x : Status} (ho : x.bsOpen = s.status.bsOpen)
    (hv : x.seqValid = true → s.seq.Ok) : Steady (s.setStatus x) :=
  ⟨h.params, h.reader, h.window, h.lits, fun hx => h.bits (ho.symm.trans hx),
    fun sl hx => ho.symm ▸ h.states sl hx, h.tables, h.huf, h.reps, hv⟩

/-- With no section open no slot has a state. -/
theorem sinit_closed (hq : s.status.bsOpen = false) (sl : Slot) :
    (s.slot sl).info.sinit = false := by
  cases hs : (s.slot sl).info.sinit with
  | false => rfl
  | true => exact absurd (hq.symm.trans (h.states sl hs).1) (by decide)

/-- Opening a section at the Reader cursor. -/
theorem openSection {b : Bitstream} {x : Status} (hb : SectionOk s.reader b)
    (hq : s.status.bsOpen = false) (hv : x.seqValid = true → s.seq.Ok) :
    Steady ((s.setBits b).setStatus x) :=
  ⟨h.params, h.reader, h.window, h.lits, fun _ => hb,
    fun sl hs => absurd ((h.sinit_closed hq sl).symm.trans hs) (by decide), h.tables, h.huf, h.reps,
    hv⟩

/-- `BS_POS` only falls, and not below -32. -/
theorem setBsPos {p : Int} (h1 : -32 ≤ p) (h2 : p ≤ s.bsPos) : Steady (s.setBsPos p) := by
  have hp : (BitVec.ofInt 32 p).toInt = p :=
    bsPos_setBsPos s p (by omega) (by have := (bsPos_range s).2; omega)
  refine ⟨h.params, h.reader, h.window, h.lits, fun ho => ?_, h.states, h.tables, h.huf, h.reps,
    h.seq⟩
  obtain ⟨hi, hl, hc, -, hlt⟩ := h.bits ho
  refine ⟨hi, hl, hc, ?_⟩
  rw [show (s.setBsPos p).bits.pos.toInt = p from hp]
  exact ⟨h1, Int.lt_of_le_of_lt h2 hlt⟩

theorem setHuf {x : Huffman}
    (hx : x.info.valid = true → HufOk s.params x.info.maxBits.toNat x.info.nsym.toNat
      fun k => (x.tab.lookup k).getD (Config.unwrittenHuf s.host.epoch k)) : Steady (s.setHuf x) :=
  ⟨h.params, h.reader, h.window, h.lits, h.bits, h.states, h.tables, hx, h.reps, h.seq⟩

/-- A slot replaced by one whose state and table are in order. -/
theorem setSlot {sl : Slot} {x : FseSlot} (hs : x.StateOk s.status.bsOpen)
    (ht : x.info.valid = true → TableOk s.params sl x.info.al.toNat x.info.nsym.toNat
      fun k => (x.tab.lookup k).getD (Config.unwrittenFse s.host.epoch sl k)) :
    Steady (s.setSlot sl x) := by
  have hne : ∀ sl', sl' ≠ sl → (s.setSlot sl x).fseEntry sl' = s.fseEntry sl' := fun sl' hne =>
    fseEntry_congr (by rw [State.slot_setSlot_ne s hne]) rfl
  have heq : (s.setSlot sl x).fseEntry sl =
      fun k => (x.tab.lookup k).getD (Config.unwrittenFse s.host.epoch sl k) := by
    funext k
    rw [State.fseEntry, State.slot_setSlot_same]
    rfl
  refine ⟨h.params, h.reader, h.window, h.lits, h.bits, fun sl' => ?_, fun sl' => ?_, h.huf, h.reps,
    h.seq⟩
  · by_cases hsl : sl' = sl
    · subst hsl
      rw [State.slot_setSlot_same]
      exact hs
    · rw [State.slot_setSlot_ne s hsl]
      exact h.states sl'
  · by_cases hsl : sl' = sl
    · subst hsl
      rw [State.slot_setSlot_same, heq]
      exact ht
    · rw [State.slot_setSlot_ne s hsl, hne sl' hsl]
      exact h.tables sl'

theorem setFseState {sl : Slot} {v : Nat} (hv : v < 2 ^ (s.slot sl).info.al.toNat) :
    Steady (s.setFseState sl v) := by
  refine h.setSlot (fun hs => ?_) (h.tables sl)
  obtain ⟨ho, hvalid, -⟩ := h.states sl hs
  refine ⟨ho, hvalid, ?_⟩
  rw [BitVec.toNat_ofNat]
  exact Nat.lt_of_le_of_lt (Nat.mod_le _ _) hv

theorem setSinit {sl : Slot} (ho : s.status.bsOpen = true) (hvalid : (s.slot sl).info.valid = true)
    (hs : (s.slot sl).state.toNat < 2 ^ (s.slot sl).info.al.toNat) : Steady (s.setSinit sl) :=
  h.setSlot (fun _ => ⟨ho, hvalid, hs⟩) (h.tables sl)

/-- A newly built table: entries `0 .. 2^al - 1` are written (rule R141). -/
theorem build {sl : Slot} {al nsym : Nat} {entries : List FseEntry}
    (hfit : FseTableFits al nsym entries) (h1 : 1 ≤ nsym) (hn : nsym ≤ s.params.maxSymbols.get sl)
    (hmin : al = 0 ∨ s.params.minAL ≤ al) (hmax : al ≤ s.params.maxAL.get sl) :
    Steady (s.setSlot sl ((s.slot sl).build al nsym entries)) := by
  have hal : (BitVec.ofNat 4 al).toNat = al := by
    have := h.fits.logs sl
    rw [BitVec.toNat_ofNat, Nat.mod_eq_of_lt (by omega)]
  have hns : (BitVec.ofNat 9 nsym).toNat = nsym := by
    have := h.fits.symbols sl
    rw [BitVec.toNat_ofNat, Nat.mod_eq_of_lt (by omega)]
  refine h.setSlot (nofun) fun _ => ?_
  simp only [FseSlot.build, hal, hns]
  refine ⟨fun k hk => ?_, h1, hn, hmin, hmax⟩
  have hlt : k < entries.length := hfit.length ▸ hk
  rw [lookup_writeList_zero _ hlt]
  exact hfit.inRange _ (List.getElem_mem hlt)

/-- The table of a distribution that passes the checks (rule R141). -/
theorem buildDist {sl : Slot} {al : Nat} {probs : List Int}
    (hd : checkDist s.params sl al probs = .ok ()) :
    Steady (s.setSlot sl ((s.slot sl).build al probs.length (spread al probs))) := by
  obtain ⟨hmin, hmax, hlen, hsum⟩ := checkDist_ok hd
  have hlogs := h.fits.logs sl
  have hsymbols := h.fits.symbols sl
  exact h.build (spread_fits (by omega) (by omega) hsum)
    (List.length_pos_iff.2 (probs_ne_nil hsum)) hlen (.inr hmin) hmax

/-- A newly built Huffman table (rule R204). -/
theorem buildHuf {t : HufTable} (ht : t.Fits s.params.hufMaxBits) :
    Steady (s.setHuf (s.huf.build t)) := by
  obtain ⟨⟨hm1, hm2⟩, ⟨hn1, hn2⟩, hlen, hrange⟩ := ht
  have hlimit := h.fits.huf
  have hm : (BitVec.ofNat 4 t.maxBits).toNat = t.maxBits := by
    rw [BitVec.toNat_ofNat, Nat.mod_eq_of_lt (by omega)]
  have hn : (BitVec.ofNat 9 t.nsym).toNat = t.nsym := by
    rw [BitVec.toNat_ofNat, Nat.mod_eq_of_lt (by omega)]
  refine h.setHuf fun _ => ?_
  simp only [Huffman.build, hm, hn]
  refine ⟨hm1, hm2, hn1, hn2, fun k hk => ?_⟩
  have hlt : k < t.entries.length := hlen ▸ hk
  beta_reduce
  rw [lookup_writeList_zero _ hlt]
  exact hrange _ (List.getElem_mem hlt)

/-- The end of a section: the Reader moves past it and no slot keeps a state (rules R176, R246). -/
theorem closeSection {x : Status} (ho : s.status.bsOpen = true) (hx : x.bsOpen = false)
    (hv : x.seqValid = true → s.seq.Ok) : Steady (s.setStatus x).closeSection := by
  have hslot : ∀ sl, (s.setStatus x).closeSection.slot sl =
      { s.slot sl with info := { (s.slot sl).info with sinit := false } } :=
    fun sl => Slots.get_clearSinit s.slots sl
  refine ⟨h.params, ⟨?_, h.reader.2⟩, h.window, h.lits,
    fun hx' => absurd (hx.symm.trans hx') (by decide), fun sl => ?_, fun sl => ?_, h.huf, h.reps,
    hv⟩
  · simp only [State.closeSection_reader, State.setStatus_reader, State.setStatus_bits,
      BitVec.toNat_ofNat]
    exact Nat.le_trans (Nat.mod_le _ _) (h.bits ho).inside
  · rw [hslot]
    exact nofun
  · rw [hslot, show (s.setStatus x).closeSection.fseEntry sl = s.fseEntry sl from
      fseEntry_congr (by rw [hslot]) rfl]
    exact h.tables sl

/-- FRAME_INIT drops every table, the section and the sequence, and restarts the history (rule
R124). -/
theorem frameInit {c : Word} (hc : c.toNat ≤ s.params.winCap) : Steady (s.frameInit c) := by
  have hslot : ∀ sl, (s.frameInit c).slot sl = { s.slot sl with info := FseInfo.none } :=
    fun sl => Slots.get_clearInfo s.slots sl
  refine ⟨h.params, h.reader, ⟨rfl, Nat.zero_le _, hc⟩, ⟨Nat.zero_le _, Nat.zero_le _⟩,
    nofun, fun sl => ?_, fun sl => ?_,
    nofun, h.fits.reps, nofun⟩
  · rw [hslot]
    exact nofun
  · rw [hslot]
    exact nofun

/-- Rules without a sequences section. -/
theorem rules (ha : s.status.seqActive = false) : Rules s :=
  ⟨h, fun hx => absurd (ha.symm.trans hx) (by decide)⟩

end Steady

/-- The rules right after a reset with parameters that fit (rules R42, R44). -/
theorem applyReset_rules {s : State} (hp : s.params.wf = true) : Rules (applyReset s) := by
  have hslot : ∀ sl, (applyReset s).slot sl = FseSlot.reset := fun sl => by cases sl <;> rfl
  refine Steady.rules ⟨hp, ⟨Nat.zero_le _, Nat.zero_le _⟩, ⟨rfl, Nat.zero_le _, Nat.zero_le _⟩,
    ⟨Nat.zero_le _, Nat.zero_le _⟩, nofun, fun sl => ?_,
    fun sl => ?_, nofun, (Params.fits_of_wf hp).reps,
    nofun⟩ rfl
  · rw [hslot]
    exact nofun
  · rw [hslot]
    exact nofun

end Sys2Proof.Machine

namespace Sys2Proof.Machine

/-! ### Parts of the state that a piece of a command leaves alone -/

/-- Every run of `x`, completed or not, leaves the part `g` of the state as it was. -/
def Cmd.Fixes {α β : Type} (g : State → β) (x : Cmd α) : Prop :=
  Cmd.Keeps (fun s t => g t = g s) x

namespace Cmd.Fixes

variable {α β γ : Type} {g : State → γ}

theorem pure (a : α) : Cmd.Fixes g (pure a : Cmd α) := fun _ => rfl

theorem current : Cmd.Fixes g current := fun _ => rfl

theorem raiseIf (c : Prop) [Decidable c] (f : UnitFault) (info : Int) :
    Cmd.Fixes g (raiseIf c f info) :=
  Cmd.Keeps.raiseIf (R := fun s t => g t = g s) (fun _ => rfl) c f info

theorem lift (r : Except Raise α) : Cmd.Fixes g (lift r) :=
  Cmd.Keeps.lift (R := fun s t => g t = g s) (fun _ => rfl) r

theorem update {f : State → State} (h : ∀ s, g (f s) = g s) : Cmd.Fixes g (update f) := h

theorem bind {x : Cmd α} {f : α → Cmd β} (hx : Cmd.Fixes g x) (hf : ∀ a, Cmd.Fixes g (f a)) :
    Cmd.Fixes g (x >>= f) :=
  Cmd.Keeps.bind (fun _ _ _ h1 h2 => h2.trans h1) hx hf

theorem ite {c : Prop} [Decidable c] {x y : Cmd α} (hx : Cmd.Fixes g x) (hy : Cmd.Fixes g y) :
    Cmd.Fixes g (if c then x else y) := by
  split <;> assumption

theorem of_error {x : Cmd α} (hx : Cmd.Fixes g x) {s t : State} {e : Raise}
    (h : x s = .error e t) : g t = g s :=
  Cmd.Keeps.of_error (R := fun s t => g t = g s) hx h

/-- A check of the state changes nothing. -/
theorem check (c : State → Prop) [∀ s, Decidable (c s)] (f : UnitFault) (info : State → Int) :
    Cmd.Fixes g (do let s ← Machine.current; Machine.raiseIf (c s) f (info s)) :=
  bind current fun _ => raiseIf _ _ _

theorem stateCheck (c : Status → Bool) : Cmd.Fixes g (stateCheck c) := check _ _ _

theorem quiet : Cmd.Fixes g quiet := stateCheck _

theorem primitiveOpen : Cmd.Fixes g primitiveOpen := stateCheck _

theorem need (n : Nat) : Cmd.Fixes g (need n) := check _ _ _

theorem winRoom (n : Nat) : Cmd.Fixes g (winRoom n) := check _ _ _

theorem litAvailable (n : Nat) : Cmd.Fixes g (litAvailable n) := check _ _ _

theorem overrun : Cmd.Fixes g overrun := check _ _ _

theorem tableValid (sl : Slot) : Cmd.Fixes g (tableValid sl) := check _ _ _

theorem stateReady (sl : Slot) : Cmd.Fixes g (stateReady sl) := check _ _ _

end Cmd.Fixes

/-! ### No command changes a parameter (log 7) -/

theorem skip_params (n : Nat) : Cmd.Fixes State.params (skip n) := .update fun _ => rfl

theorem readU8_params : Cmd.Fixes State.params readU8 :=
  .bind (.need 1) fun _ => .bind .current fun _ => .bind (skip_params 1) fun _ => .pure _

theorem readLE_params (n : Nat) : Cmd.Fixes State.params (readLE n) :=
  .bind (.need n) fun _ => .bind .current fun _ => .bind (skip_params n) fun _ => .pure _

theorem readProbs_params (n : Nat) : Cmd.Fixes State.params (readProbs n) := by
  induction n with
  | zero => exact .pure _
  | succ n ih =>
    exact .bind (.bind (readLE_params 2) fun _ => .pure _) fun _ => .bind ih fun _ => .pure _

theorem winAppend_params (v : List Byte) : Cmd.Fixes State.params (winAppend v) :=
  .bind (.winRoom _) fun _ => .update fun _ => rfl

theorem litTake_params (n : Nat) : Cmd.Fixes State.params (litTake n) :=
  .bind (.litAvailable n) fun _ => .bind .current fun _ => .bind (.update fun _ => rfl) fun _ =>
    .pure _

theorem backRead_params (k : Nat) : Cmd.Fixes State.params (backRead k) :=
  .bind .overrun fun _ => .bind .current fun _ => .bind (.update fun _ => rfl) fun _ => .pure _

theorem initState_params (sl : Slot) : Cmd.Fixes State.params (initState sl) :=
  .bind .current fun _ => .bind (backRead_params _) fun _ => .update fun _ => rfl

theorem advanceState_params (sl : Slot) : Cmd.Fixes State.params (advanceState sl) :=
  .bind .current fun _ => .bind (backRead_params _) fun _ => .update fun _ => rfl

theorem openSection_params (n : Word) : Cmd.Fixes State.params (openSection n) :=
  .bind (.need _) fun _ => .bind .current fun _ => .bind (.lift _) fun _ => .update fun _ => rfl

theorem fseFromDist_params (sl : Slot) (al : Nat) (probs : List Int) :
    Cmd.Fixes State.params (fseFromDist sl al probs) :=
  .bind .current fun _ => .bind (.lift _) fun _ => .update fun _ => rfl

theorem readHeader_params (sl : Slot) (fin : Nat) : Cmd.Fixes State.params (readHeader sl fin) :=
  .bind .current fun _ => .bind (.lift _) fun _ => .bind (.update fun _ => rfl) fun _ => .pure _

theorem hufTree_params (fin : Nat) : Cmd.Fixes State.params (hufTree fin) := by
  have hweights : ∀ w, Cmd.Fixes State.params (hufFromWeights w) := fun w =>
    .bind .current fun _ => .bind (.lift _) fun _ => .update fun _ => rfl
  have hdirect : ∀ n, Cmd.Fixes State.params (directWeights fin n) := fun n =>
    .bind .current fun _ => .bind (.raiseIf _ _ _) fun _ => .bind (skip_params _) fun _ => .pure _
  have hcoded : ∀ hb, Cmd.Fixes State.params (fseWeights fin hb) := fun hb =>
    .bind (.raiseIf _ _ _) fun _ => .bind .current fun _ => .bind (.raiseIf _ _ _) fun _ =>
      .bind (readHeader_params _ _) fun _ => .bind (fseFromDist_params _ _ _) fun _ =>
        .bind .current fun _ => .bind (.lift _) fun _ => .bind (.update fun _ => rfl) fun _ =>
          .pure _
  exact .bind .current fun _ => .bind (.raiseIf _ _ _) fun _ => .bind (skip_params 1) fun _ =>
    .ite (.bind (hdirect _) hweights) (.bind (hcoded _) hweights)

theorem hufStream_params (base n count dst : Nat) :
    Cmd.Fixes State.params (hufStream base n count dst) :=
  .bind .current fun _ => .bind (.lift _) fun _ => .bind (.update fun _ => rfl) fun _ =>
    .bind (.raiseIf _ _ _) fun _ => .raiseIf _ _ _

theorem hufStreams_params (streams : Streams) (fin regen : Nat) :
    Cmd.Fixes State.params (hufStreams streams fin regen) := by
  cases streams with
  | one => exact .bind .current fun _ => hufStream_params _ _ _ _
  | four =>
    exact .bind .current fun _ => .bind (.raiseIf _ _ _) fun _ => .bind (.raiseIf _ _ _) fun _ =>
      .bind (.raiseIf _ _ _) fun _ => .bind (hufStream_params _ _ _ _) fun _ =>
        .bind (hufStream_params _ _ _ _) fun _ => .bind (hufStream_params _ _ _ _) fun _ =>
          hufStream_params _ _ _ _

theorem litHufBody_params (streams : Streams) (regen comp : Word) (fresh : Bool) :
    Cmd.Fixes State.params (litHufBody streams regen comp fresh) :=
  .bind .quiet fun _ => .bind .current fun _ => .bind (.raiseIf _ _ _) fun _ =>
    .bind (.need _) fun _ =>
      .bind (.ite (hufTree_params _) (.check _ _ _)) fun _ =>
        .bind (hufStreams_params _ _ _) fun _ => .update fun _ => rfl

theorem wLitBody_params (n : Nat) : Cmd.Fixes State.params (wLitBody n) :=
  .bind (.litAvailable n) fun _ => .bind (.winRoom n) fun _ => .bind (litTake_params n) fun _ =>
    winAppend_params _

theorem wLitrestBody_params : Cmd.Fixes State.params wLitrestBody :=
  .bind .current fun _ => .bind (.winRoom _) fun _ => .bind (litTake_params _) fun _ =>
    winAppend_params _

theorem wCopyBody_params (offset length : Nat) :
    Cmd.Fixes State.params (wCopyBody offset length) :=
  .bind .current fun _ => .bind (.raiseIf _ _ _) fun _ => .bind (.winRoom _) fun _ =>
    .update fun _ => rfl

theorem seqNextBody_params : Cmd.Fixes State.params seqNextBody := by
  have hread : ∀ code, Cmd.Fixes State.params (readCode code) := fun code =>
    .bind (.bind (backRead_params _) fun _ => .bind .overrun fun _ => .pure _) fun _ => .pure _
  have hadvance : ∀ sl, Cmd.Fixes State.params (advanceStateOver sl) := fun sl =>
    .bind (advanceState_params sl) fun _ => .overrun
  have hstore : ∀ v ml ll, Cmd.Fixes State.params (storeSequence v ml ll) := fun v ml ll =>
    .bind .current fun _ => .bind (.lift _) fun _ => .bind (.update fun _ => rfl) fun _ =>
      .bind (.update fun _ => rfl) fun _ => .update fun _ => rfl
  have hclose : Cmd.Fixes State.params closeSequences :=
    .bind .current fun _ => .bind (.raiseIf _ _ _) fun _ => .update fun _ => rfl
  have hadvances : Cmd.Fixes State.params advanceStates :=
    .bind (hadvance _) fun _ => .bind (hadvance _) fun _ => hadvance _
  refine .bind (.stateCheck _) fun _ => .bind .current fun _ => .bind (hread _) fun _ =>
    .bind (hread _) fun _ => .bind (hread _) fun _ => .bind (.update fun _ => rfl) fun _ =>
      .bind .current fun _ => .ite (.bind hadvances fun _ => ?_) ?_ <;>
  exact .bind (hstore _ _ _) fun _ => .ite hclose (.pure _)

theorem seqExecBody_params : Cmd.Fixes State.params seqExecBody :=
  .bind (.stateCheck _) fun _ => .bind (.update fun _ => rfl) fun _ => .bind .current fun _ =>
    .bind (wLitBody_params _) fun _ => wCopyBody_params _ _

theorem seqLoop_params (fuel : Nat) : Cmd.Fixes State.params (seqLoop fuel) := by
  induction fuel with
  | zero => exact .pure _
  | succ fuel ih =>
    refine .bind .current fun _ => .ite (.bind seqExecBody_params fun _ => ?_) ?_ <;>
    exact .bind .current fun _ => .ite (.bind seqNextBody_params fun _ => ih) (.pure _)

theorem bodyOf_params (i : Instr) : Cmd.Fixes State.params (bodyOf i) := by
  cases i with
  | nop => exact .pure _
  | frameInit c =>
    exact .bind .current fun _ => .bind (.raiseIf _ _ _) fun _ => .update fun _ => rfl
  | rdOpen rpos len =>
    exact .bind .quiet fun _ => .bind .current fun _ => .bind (.raiseIf _ _ _) fun _ =>
      .bind (.raiseIf _ _ _) fun _ => .update fun _ => rfl
  | frameEnd hasSize lo hi =>
    exact .bind .quiet fun _ => .bind .current fun _ => .raiseIf _ _ _
  | wRaw n =>
    exact .bind .quiet fun _ => .bind (.need _) fun _ => .bind (.winRoom _) fun _ =>
      .bind .current fun _ => .bind (winAppend_params _) fun _ => skip_params _
  | wRle n =>
    exact .bind .quiet fun _ => .bind (.need _) fun _ => .bind (.winRoom _) fun _ =>
      .bind readU8_params fun _ => winAppend_params _
  | wLit n => exact wLitBody_params _
  | wLitrest => exact wLitrestBody_params
  | wCopy offset length => exact wCopyBody_params _ _
  | litRaw n =>
    exact .bind .quiet fun _ => .bind .current fun _ => .bind (.raiseIf _ _ _) fun _ =>
      .bind (.need _) fun _ => .bind (.update fun _ => rfl) fun _ => .bind (skip_params _) fun _ =>
        .update fun _ => rfl
  | litRle n =>
    exact .bind .quiet fun _ => .bind .current fun _ => .bind (.raiseIf _ _ _) fun _ =>
      .bind readU8_params fun _ => .bind (.update fun _ => rfl) fun _ => .update fun _ => rfl
  | litHuf streams regen comp => exact litHufBody_params _ _ _ _
  | litHufr streams regen comp => exact litHufBody_params _ _ _ _
  | fseBuild sl =>
    exact .bind .quiet fun _ => .bind .current fun _ => .bind (readHeader_params _ _) fun _ =>
      fseFromDist_params _ _ _
  | fseLoad sl al n =>
    exact .bind .quiet fun _ => .bind .current fun _ => .bind (.raiseIf _ _ _) fun _ =>
      .bind (.need _) fun _ => .bind (readProbs_params _) fun _ => fseFromDist_params _ _ _
  | fsePredef sl =>
    refine .bind .quiet fun _ => .bind .current fun s => ?_
    cases s.params.predef sl with
    | none => exact .pure _
    | some d => exact fseFromDist_params _ _ _
  | fseRle sl symbol =>
    exact .bind .quiet fun _ => .bind .current fun _ => .bind (.raiseIf _ _ _) fun _ =>
      .update fun _ => rfl
  | bsOpen n =>
    exact .bind .quiet fun _ => .bind (.raiseIf _ _ _) fun _ =>
      .bind (openSection_params _) fun _ => .update fun _ => rfl
  | bsRead k =>
    exact .bind .primitiveOpen fun _ => .bind (.raiseIf _ _ _) fun _ =>
      .bind (backRead_params _) fun _ => .update fun _ => rfl
  | bsClose =>
    exact .bind .primitiveOpen fun _ => .bind .overrun fun _ => .bind .current fun _ =>
      .bind (.raiseIf _ _ _) fun _ => .update fun _ => rfl
  | fseInit sl =>
    exact .bind .primitiveOpen fun _ => .bind (.tableValid _) fun _ => initState_params _
  | fseEmit sl =>
    exact .bind (.stateCheck _) fun _ => .bind (.tableValid _) fun _ =>
      .bind (.stateReady _) fun _ => .update fun _ => rfl
  | fseNext sl =>
    exact .bind .primitiveOpen fun _ => .bind (.tableValid _) fun _ =>
      .bind (.stateReady _) fun _ => advanceState_params _
  | seqOpen n count =>
    have hinit : ∀ sl, Cmd.Fixes State.params (initStateOver sl) := fun sl =>
      .bind (initState_params sl) fun _ => .overrun
    exact .bind .quiet fun _ => .bind (.raiseIf _ _ _) fun _ => .bind (.raiseIf _ _ _) fun _ =>
      .bind (.tableValid _) fun _ => .bind (.tableValid _) fun _ => .bind (.tableValid _) fun _ =>
        .bind (openSection_params _) fun _ => .bind (.update fun _ => rfl) fun _ =>
          .bind (.update fun _ => rfl) fun _ => .bind (hinit _) fun _ => .bind (hinit _) fun _ =>
            hinit _
  | seqNext => exact seqNextBody_params
  | seqExec => exact seqExecBody_params
  | seqRun =>
    exact .bind (.stateCheck _) fun _ => .bind .current fun _ => .bind (seqLoop_params _) fun _ =>
      wLitrestBody_params

end Sys2Proof.Machine

namespace Sys2Proof.Machine

/-! ### What a completed piece of a command leaves -/

section

variable {α : Type} {c : Prop} [Decidable c] {e : Raise} {s t : State} {a : α}
  {x : EStateM.Result Raise State α}

/-- A run that completes has passed a check that faults when `c` holds. -/
theorem passed_ok : (if c then .error e s else x) = .ok a t ↔ ¬c ∧ x = .ok a t := by
  split <;> simp_all

/-- A run that completes has passed a check that faults when `c` fails. -/
theorem guarded_ok : (if c then x else .error e s) = .ok a t ↔ c ∧ x = .ok a t := by
  split <;> simp_all

end

/-! The laws of completed runs once more, for any result of type `Unit` and with the state after as
the one replaced: with `bind_ok` they take a body apart piece by piece. -/

section

variable {α : Type} {s t : State}

theorem raiseIf_passed {c : Prop} [Decidable c] {f : UnitFault} {info : Int} {u : Unit} :
    raiseIf c f info s = .ok u t ↔ ¬c ∧ s = t := raiseIf_ok.trans (and_congr_right' eq_comm)

theorem update_done {f : State → State} {u : Unit} : update f s = .ok u t ↔ f s = t :=
  update_ok.trans eq_comm

theorem lift_done {r : Except Raise α} {a : α} : lift r s = .ok a t ↔ r = .ok a ∧ s = t :=
  lift_ok.trans (and_congr_right' eq_comm)

theorem current_done {b : State} : current s = .ok b t ↔ s = b ∧ s = t :=
  current_ok.trans (and_congr eq_comm eq_comm)

theorem overrun_passed {u : Unit} : overrun s = .ok u t ↔ 0 ≤ s.bsPos ∧ s = t := by
  rw [run_overrun, passed_ok, EStateM.Result.ok.injEq]
  simp

theorem tableValid_passed {sl : Slot} {u : Unit} :
    tableValid sl s = .ok u t ↔ (s.slot sl).info.valid = true ∧ s = t := by
  rw [run_tableValid, passed_ok, EStateM.Result.ok.injEq]
  simp

theorem readHeader_done {sl : Slot} {fin : Nat} {hd : Header}
    (h : readHeader sl fin s = .ok hd t) : hd.next ≤ fin ∧ s.setRpos hd.next = t := by
  simp only [readHeader, bind_ok, current_done, lift_done, update_done, pure_ok] at h
  obtain ⟨_, _, ⟨rfl, rfl⟩, _, _, ⟨hh, rfl⟩, _, _, rfl, rfl, rfl⟩ := h
  exact ⟨fseReadHeader_next_le hh, rfl⟩

theorem fseFromDist_done {sl : Slot} {al : Nat} {probs : List Int} {u : Unit}
    (h : fseFromDist sl al probs s = .ok u t) :
    checkDist s.params sl al probs = .ok () ∧
      s.setSlot sl ((s.slot sl).build al probs.length (spread al probs)) = t := by
  simp only [fseFromDist, bind_ok, current_done, lift_done, update_done] at h
  obtain ⟨_, _, ⟨rfl, rfl⟩, _, _, ⟨hd, rfl⟩, rfl⟩ := h
  exact ⟨hd, rfl⟩

theorem hufFromWeights_done {w : List Nat} {u : Unit} (h : hufFromWeights w s = .ok u t) :
    ∃ tab, weightTable s.params.hufMaxBits w = .ok tab ∧ s.setHuf (s.huf.build tab) = t := by
  simp only [hufFromWeights, bind_ok, current_done, lift_done, update_done] at h
  obtain ⟨_, _, ⟨rfl, rfl⟩, tab, _, ⟨hw, rfl⟩, rfl⟩ := h
  exact ⟨tab, hw, rfl⟩

end

/-- The piece, when it completes, keeps the rules. -/
def Cmd.KeepsRules (x : Cmd Unit) : Prop := ∀ {s t : State}, Rules s → x s = .ok () t → Rules t

namespace Rules

variable {s : State} (h : Rules s)
include h

/-- A change of parts that a sequences section does not use. -/
theorem of_steady {t : State} (ht : Steady t) (hs : t.status = s.status) (hb : t.bits = s.bits)
    (hsl : t.slots = s.slots) (hq : t.seq = s.seq) : Rules t := by
  refine ⟨ht, fun ha => ?_⟩
  obtain ⟨⟨h1, h2, h3⟩, h4⟩ := h.active (hs ▸ ha)
  refine ⟨⟨hs ▸ h1, fun sl hne => ?_, ?_⟩, hq ▸ h4⟩
  · rw [State.slot_of_slots_eq hsl]
    exact h2 sl hne
  · rw [State.bsPos, hb]
    exact h3

theorem setWindow {w : Window} (hw : w.Ok s.params) : Rules (s.setWindow w) :=
  h.of_steady (h.steady.setWindow hw) rfl rfl rfl rfl

theorem setLits {l : Literals} (hl : l.Ok s.params) : Rules (s.setLits l) :=
  h.of_steady (h.steady.setLits hl) rfl rfl rfl rfl

theorem setInput (m : Memory Byte) : Rules (s.setReader { s.reader with mem := m }) :=
  h.of_steady (h.steady.setInput m) rfl rfl rfl rfl

theorem setHost {x : HostSide} (hx : x.epoch = s.host.epoch) : Rules (s.setHost x) :=
  h.of_steady (h.steady.setHost hx) rfl rfl rfl rfl

theorem setCp (x : Word) : Rules (s.setCp x) := h.of_steady (h.steady.setCp x) rfl rfl rfl rfl

/-- Flags that leave the section as it is. -/
theorem setStatus {x : Status} (ho : x.bsOpen = s.status.bsOpen)
    (ha : x.seqActive = s.status.seqActive) (hv : x.seqValid = true → s.status.seqValid = true) :
    Rules (s.setStatus x) := by
  refine ⟨h.steady.setStatus ho fun hx => h.steady.seq (hv hx), fun hx => ?_⟩
  obtain ⟨⟨h1, h2, h3⟩, h4⟩ := h.active (ha.symm.trans hx)
  exact ⟨⟨ho.trans h1, h2, h3⟩, h4⟩

theorem begin : Rules (begin s) := h.setStatus (x := { s.status with busy := true }) rfl rfl id

theorem complete : Rules (complete s) :=
  (h.setCp (s.cp + 1)).setStatus (x := { s.status with busy := false }) rfl rfl id

end Rules

/-! ### System -/

theorem keepsRules_nop : Cmd.KeepsRules nopBody := fun h hr => by
  cases hr
  exact h

theorem keepsRules_frameInit (c : Word) : Cmd.KeepsRules (frameInitBody c) := fun h hr => by
  rw [run_frameInitBody, passed_ok, EStateM.Result.ok.injEq] at hr
  obtain ⟨hc, -, rfl⟩ := hr
  exact (h.steady.frameInit (by omega)).rules rfl

theorem keepsRules_rdOpen (rpos len : Word) : Cmd.KeepsRules (rdOpenBody rpos len) := fun h hr => by
  rw [run_rdOpenBody, guarded_ok, passed_ok, passed_ok, EStateM.Result.ok.injEq] at hr
  obtain ⟨⟨hq, ha⟩, h1, h2, -, rfl⟩ := hr
  exact (h.steady.setReader ⟨by simpa using h2, by simpa using h1⟩ hq).rules ha

theorem keepsRules_frameEnd (hasSize : Bool) (lo hi : Word) :
    Cmd.KeepsRules (frameEndBody hasSize lo hi) := fun h hr => by
  rw [run_frameEndBody, guarded_ok, passed_ok, EStateM.Result.ok.injEq] at hr
  obtain ⟨-, -, -, rfl⟩ := hr
  exact h

/-! ### Window -/

/-- The cursor and the high-water mark move together (rule R281). -/
theorem Window.Ok.advance {w : Window} {p : Params} (h : w.Ok p) {n : Nat}
    (hn : ¬ w.index.toNat + n > w.capr.toNat) : (w.advance n).Ok p := by
  obtain ⟨h1, h2, h3⟩ := h
  have hlt := w.capr.isLt
  have hmax : max w.size.toNat (w.index.toNat + n) = w.index.toNat + n := by
    rw [← h1]
    omega
  refine ⟨?_, ?_, h3⟩
  · simp only [Window.advance, hmax]
  · simp only [Window.advance, hmax, BitVec.toNat_ofNat]
    omega

theorem Window.Ok.append {w : Window} {p : Params} (h : w.Ok p) {v : List Byte} {n : Nat}
    (hv : v.length = n) (hn : ¬ w.index.toNat + n > w.capr.toNat) : (w.append v).Ok p := by
  subst hv
  exact h.advance hn

theorem Literals.Ok.take {l : Literals} {p : Params} (h : l.Ok p) {n : Nat} (hn : ¬ n > l.rest) :
    Literals.Ok { l with pos := BitVec.ofNat 32 (l.pos.toNat + n) } p := by
  obtain ⟨h1, h2⟩ := h
  rw [Literals.rest] at hn
  refine ⟨?_, h2⟩
  simp only [BitVec.toNat_ofNat]
  omega

theorem Literals.Ok.fill (l : Literals) {p : Params} {n : Nat} (hn : ¬ n > p.litCap) :
    (l.filled n).Ok p := by
  refine ⟨Nat.zero_le _, ?_⟩
  rw [Literals.filled, BitVec.toNat_ofNat]
  exact Nat.le_trans (Nat.mod_le _ _) (Nat.not_lt.1 hn)

theorem keepsRules_wRaw (n : Word) : Cmd.KeepsRules (wRawBody n) := fun h hr => by
  rw [run_wRawBody, guarded_ok, passed_ok, passed_ok, EStateM.Result.ok.injEq] at hr
  obtain ⟨⟨hq, ha⟩, h1, h2, -, rfl⟩ := hr
  exact ((h.steady.setWindow (h.steady.window.append (length_memRead ..) h2)).setRpos
    (Nat.not_lt.1 h1) hq).rules ha

theorem keepsRules_wRle (n : Word) : Cmd.KeepsRules (wRleBody n) := fun h hr => by
  rw [run_wRleBody, guarded_ok, passed_ok, passed_ok, EStateM.Result.ok.injEq] at hr
  obtain ⟨⟨hq, ha⟩, h1, h2, -, rfl⟩ := hr
  exact ((h.steady.setRpos (Nat.not_lt.1 h1) hq).setWindow
    (h.steady.window.append List.length_replicate h2)).rules ha

theorem keepsRules_wLit (n : Nat) : Cmd.KeepsRules (wLitBody n) := fun h hr => by
  rw [run_wLitBody, passed_ok, passed_ok, EStateM.Result.ok.injEq] at hr
  obtain ⟨h1, h2, -, rfl⟩ := hr
  exact (h.setLits (h.steady.lits.take h1)).setWindow
    (h.steady.window.append (length_memRead ..) h2)

theorem keepsRules_wLitrest : Cmd.KeepsRules wLitrestBody := fun h hr => by
  rw [run_wLitrestBody, passed_ok, EStateM.Result.ok.injEq] at hr
  obtain ⟨h1, -, rfl⟩ := hr
  exact (h.setLits (h.steady.lits.take (Nat.lt_irrefl _))).setWindow
    (h.steady.window.append (length_memRead ..) h1)

theorem keepsRules_wCopy (offset length : Nat) : Cmd.KeepsRules (wCopyBody offset length) :=
  fun h hr => by
    rw [run_wCopyBody, passed_ok, passed_ok, EStateM.Result.ok.injEq] at hr
    obtain ⟨-, h2, -, rfl⟩ := hr
    exact h.setWindow (h.steady.window.advance h2)

/-! ### Literals -/

theorem keepsRules_litRaw (n : Word) : Cmd.KeepsRules (litRawBody n) := fun h hr => by
  rw [run_litRawBody, guarded_ok, passed_ok, passed_ok, EStateM.Result.ok.injEq] at hr
  obtain ⟨⟨hq, ha⟩, h1, h2, -, rfl⟩ := hr
  exact ((h.steady.setRpos (Nat.not_lt.1 h2) hq).setLits (Literals.Ok.fill _ h1)).rules ha

theorem keepsRules_litRle (n : Word) : Cmd.KeepsRules (litRleBody n) := fun h hr => by
  rw [run_litRleBody, guarded_ok, passed_ok, passed_ok, EStateM.Result.ok.injEq] at hr
  obtain ⟨⟨hq, ha⟩, h1, h2, -, rfl⟩ := hr
  exact ((h.steady.setRpos (Nat.not_lt.1 h2) hq).setLits (Literals.Ok.fill _ h1)).rules ha

/-- A Huffman literals command of `regen` literals at work on the input below `fin`. -/
structure Filling (fin regen : Nat) (s : State) : Prop where
  steady : Steady s
  closed : s.status.bsOpen = false
  idle : s.status.seqActive = false
  limit : fin ≤ s.reader.len.toNat
  room : ¬ regen > s.params.litCap

namespace Filling

variable {fin regen : Nat} {s t : State} (h : Filling fin regen s)
include h

theorem setRpos {v : Nat} (hv : v ≤ fin) : Filling fin regen (s.setRpos v) :=
  ⟨h.steady.setRpos (Nat.le_trans hv h.limit) h.closed, h.closed, h.idle, h.limit, h.room⟩

theorem hufFromWeights {w : List Nat} (hr : hufFromWeights w s = .ok () t) :
    Filling fin regen t := by
  obtain ⟨tab, ht, rfl⟩ := hufFromWeights_done hr
  exact ⟨h.steady.buildHuf (weightTable_fits h.steady.fits.huf ht), h.closed, h.idle, h.limit,
    h.room⟩

theorem readHeader {sl : Slot} {sub : Nat} {hd : Header} (hsub : sub ≤ fin)
    (hr : readHeader sl sub s = .ok hd t) : Filling fin regen t := by
  obtain ⟨hle, rfl⟩ := readHeader_done hr
  exact h.setRpos (Nat.le_trans hle hsub)

theorem fseFromDist {sl : Slot} {al : Nat} {probs : List Int}
    (hr : fseFromDist sl al probs s = .ok () t) : Filling fin regen t := by
  obtain ⟨hd, rfl⟩ := fseFromDist_done hr
  exact ⟨h.steady.buildDist hd, h.closed, h.idle, h.limit, h.room⟩

theorem directWeights {n : Nat} {w : List Nat} (hr : directWeights fin n s = .ok w t) :
    Filling fin regen t := by
  rw [run_directWeights, passed_ok, EStateM.Result.ok.injEq] at hr
  obtain ⟨hle, -, rfl⟩ := hr
  exact h.setRpos (Nat.not_lt.1 hle)

theorem fseWeights {hb : Nat} {w : List Nat} (hr : fseWeights fin hb s = .ok w t) :
    Filling fin regen t := by
  simp only [Machine.fseWeights, bind_ok, raiseIf_passed, current_done, lift_done, update_done,
    pure_ok] at hr
  obtain ⟨_, _, ⟨-, rfl⟩, _, _, ⟨rfl, rfl⟩, _, _, ⟨hle, rfl⟩, hd, s1, h1, _, s2, h2, _, _,
    ⟨rfl, rfl⟩, _, _, ⟨-, rfl⟩, _, _, rfl, -, rfl⟩ := hr
  have hle := Nat.not_lt.1 hle
  exact ((h.readHeader hle h1).fseFromDist h2).setRpos hle

/-- The tree description is read within the section (rule R206). -/
theorem hufTree (hr : hufTree fin s = .ok () t) : Filling fin regen t := by
  rw [run_hufTree, passed_ok] at hr
  obtain ⟨hle, hr⟩ := hr
  have h1 := h.setRpos (Nat.not_lt.1 hle)
  dsimp only at hr
  split at hr
  · obtain ⟨w, u, hw, hr⟩ := bind_ok.1 hr
    exact (h1.directWeights hw).hufFromWeights hr
  · obtain ⟨w, u, hw, hr⟩ := bind_ok.1 hr
    exact (h1.fseWeights hw).hufFromWeights hr

theorem hufSource {fresh : Bool} (hr : hufSource fresh fin s = .ok () t) :
    Filling fin regen t := by
  cases fresh with
  | true => exact h.hufTree hr
  | false =>
    obtain ⟨_, _, hc, hr⟩ := bind_ok.1 hr
    obtain ⟨rfl, rfl⟩ := current_done.1 hc
    obtain ⟨-, rfl⟩ := raiseIf_passed.1 hr
    exact h

/-- The streams only store literals (rule R210). -/
theorem hufStreams {streams : Streams} {n : Nat} (hr : hufStreams streams fin n s = .ok () t) :
    Filling fin regen t := by
  rcases streams_decode_or_fail s.hufEntry s.huf.info.maxBits.toNat s.inByte s.reader.rpos.toNat fin
    n streams with ⟨out, hd⟩ | ⟨out, r, hf⟩
  · rw [run_hufStreams_decodes hd] at hr
    cases hr
    exact ⟨h.steady.setLits h.steady.lits, h.closed, h.idle, h.limit, h.room⟩
  · rw [run_hufStreams_fails hf] at hr
    cases hr

end Filling

theorem keepsRules_litHuf (streams : Streams) (regen comp : Word) (fresh : Bool) :
    Cmd.KeepsRules (litHufBody streams regen comp fresh) := fun {s _} h hr => by
  simp only [litHufBody, bind_ok, run_quiet, guarded_ok, EStateM.Result.ok.injEq, current_done,
    raiseIf_passed, run_need, passed_ok, update_done] at hr
  obtain ⟨_, _, ⟨⟨hq, ha⟩, -, rfl⟩, _, _, ⟨rfl, rfl⟩, _, _, ⟨hroom, rfl⟩, _, _, ⟨hlen, -, rfl⟩,
    _, _, h1, _, _, h2, rfl⟩ := hr
  have hf : Filling _ regen.toNat s := ⟨h.steady, hq, ha, Nat.not_lt.1 hlen, hroom⟩
  obtain ⟨hs, hq', ha', hlim, hroom'⟩ := (hf.hufSource h1).hufStreams h2
  exact ((hs.setLits (Literals.Ok.fill _ hroom')).setRpos hlim hq').rules ha'

/-! ### Tables -/

/-- A table built with no sequences section active. -/
theorem fseFromDist_rules {sl : Slot} {al : Nat} {probs : List Int} {s t : State} (h : Steady s)
    (ha : s.status.seqActive = false) (hr : fseFromDist sl al probs s = .ok () t) : Rules t := by
  obtain ⟨hd, rfl⟩ := fseFromDist_done hr
  exact (h.buildDist hd).rules ha

theorem keepsRules_fseBuild (sl : Slot) : Cmd.KeepsRules (fseBuildBody sl) := fun h hr => by
  simp only [fseBuildBody, bind_ok, run_quiet, guarded_ok, EStateM.Result.ok.injEq,
    current_done] at hr
  obtain ⟨_, _, ⟨⟨hq, ha⟩, -, rfl⟩, _, _, ⟨rfl, rfl⟩, hd, _, h1, h2⟩ := hr
  obtain ⟨hle, rfl⟩ := readHeader_done h1
  exact fseFromDist_rules (h.steady.setRpos hle hq) ha h2

theorem keepsRules_fseLoad (sl : Slot) (al : BitVec 16) (n : Word) :
    Cmd.KeepsRules (fseLoadBody sl al n) := fun h hr => by
  rw [run_fseLoadBody, guarded_ok, passed_ok, passed_ok] at hr
  obtain ⟨⟨hq, ha⟩, -, h2, hr⟩ := hr
  exact fseFromDist_rules (h.steady.setRpos (Nat.not_lt.1 h2) hq) ha hr

theorem keepsRules_fsePredef (sl : Slot) : Cmd.KeepsRules (fsePredefBody sl) := fun {s _} h hr => by
  rw [run_fsePredefBody, guarded_ok] at hr
  obtain ⟨⟨hq, ha⟩, hr⟩ := hr
  cases hp : s.params.predef sl with
  | none =>
    rw [hp] at hr
    cases hr
    exact h
  | some d =>
    rw [hp] at hr
    exact fseFromDist_rules h.steady ha hr

/-- The one-state table of FSE_RLE (rule R154). -/
theorem rleTable_fits {symbol : Nat} (h : symbol < 256) :
    FseTableFits 0 (symbol + 1) [{ sym := BitVec.ofNat 8 symbol, nb := 0, base := 0 }] := by
  refine ⟨rfl, fun e he => ?_⟩
  rw [List.mem_singleton.1 he]
  refine ⟨?_, Nat.le_refl _, Nat.le_refl _⟩
  rw [BitVec.toNat_ofNat]
  omega

theorem keepsRules_fseRle (sl : Slot) (symbol : BitVec 16) :
    Cmd.KeepsRules (fseRleBody sl symbol) := fun h hr => by
  rw [run_fseRleBody, guarded_ok, passed_ok, EStateM.Result.ok.injEq] at hr
  obtain ⟨⟨-, ha⟩, h1, -, rfl⟩ := hr
  have hsymbols := h.steady.fits.symbols sl
  exact (h.steady.build (rleTable_fits (by omega)) (by omega) (by omega) (.inl rfl)
    (Nat.zero_le _)).rules ha

/-! ### Bitstream and lookup -/

/-- A section opens at the Reader cursor, with `BS_POS` at its end mark (rules R71, R172). -/
theorem openSection_done {s t : State} {n : Word} {u : Unit} (hn : ¬ n.toNat > Config.bsMaxBytes)
    (h : openSection n s = .ok u t) : ∃ b, SectionOk s.reader b ∧ s.setBits b = t := by
  simp only [openSection, bind_ok, run_need, passed_ok, EStateM.Result.ok.injEq, current_done,
    lift_done, update_done] at h
  obtain ⟨_, _, ⟨hlen, -, rfl⟩, _, _, ⟨rfl, rfl⟩, pos, _, ⟨hpos, rfl⟩, rfl⟩ := h
  have h0 : n.toNat ≠ 0 := (backStart_ok.1 hpos).1
  have hlt := backStart_lt hpos
  have hmax : Config.bsMaxBytes = 2 ^ 27 := rfl
  have hint : (BitVec.ofNat 32 pos).toInt = pos := by
    rw [BitVec.toInt_ofNat']
    exact Int.bmod_eq_of_le (by omega) (by omega)
  refine ⟨_, ⟨Nat.not_lt.1 hlen, ⟨Nat.pos_of_ne_zero h0, Nat.not_lt.1 hn⟩, rfl, ?_⟩, rfl⟩
  simp only [hint]
  omega

theorem keepsRules_bsOpen (n : Word) : Cmd.KeepsRules (bsOpenBody n) := fun {s _} h hr => by
  simp only [bsOpenBody, bind_ok, run_quiet, guarded_ok, EStateM.Result.ok.injEq, raiseIf_passed,
    update_done] at hr
  obtain ⟨_, _, ⟨⟨hq, ha⟩, -, rfl⟩, _, _, ⟨hn, rfl⟩, _, _, hopen, rfl⟩ := hr
  obtain ⟨b, hb, rfl⟩ := openSection_done hn hopen
  exact (h.steady.openSection (x := { s.status with bsOpen := true }) hb hq h.steady.seq).rules ha

theorem keepsRules_bsRead (k : BitVec 16) : Cmd.KeepsRules (bsReadBody k) := fun h hr => by
  rw [run_bsReadBody, guarded_ok, passed_ok, passed_ok, EStateM.Result.ok.injEq] at hr
  obtain ⟨⟨-, ha⟩, h1, h2, -, rfl⟩ := hr
  exact ((h.steady.setBsPos (by omega) (by omega)).setVal _).rules ha

theorem keepsRules_bsClose : Cmd.KeepsRules bsCloseBody := fun {s _} h hr => by
  rw [run_bsCloseBody, guarded_ok, passed_ok, passed_ok, EStateM.Result.ok.injEq] at hr
  obtain ⟨⟨ho, ha⟩, -, -, -, rfl⟩ := hr
  exact (h.steady.closeSection (x := { s.status with bsOpen := false }) ho rfl
    h.steady.seq).rules ha

/-- The entry of a slot's state is in range (items 6 and 8 of rule R42). -/
theorem Steady.currentEntry_inRange {s : State} (h : Steady s) {sl : Slot}
    (hs : (s.slot sl).info.sinit = true) :
    (s.currentEntry sl).InRange (s.slot sl).info.al.toNat (s.slot sl).info.nsym.toNat := by
  obtain ⟨-, hv, hlt⟩ := h.states sl hs
  exact (h.tables sl hv).inRange _ hlt

/-- Reading a state gives one of the table's states (rule R178). -/
theorem Steady.initState {s t : State} (h : Steady s) {sl : Slot} (ho : s.status.bsOpen = true)
    (hv : (s.slot sl).info.valid = true) (hr : initState sl s = .ok () t) : Steady t := by
  rw [run_initState, passed_ok, EStateM.Result.ok.injEq] at hr
  obtain ⟨hpos, -, rfl⟩ := hr
  have hal := (s.slot sl).info.al.isLt
  have hlt : s.peekBack (s.slot sl).info.al.toNat < 2 ^ (s.slot sl).info.al.toNat := backBits_lt ..
  have h1 : Steady (s.setBsPos (s.bsPos - (s.slot sl).info.al.toNat)) :=
    h.setBsPos (by omega) (by omega)
  refine (h1.setFseState (sl := sl) hlt).setSinit ho ?_ ?_ <;>
    rw [State.setFseState, State.slot_setSlot_same]
  · exact hv
  · exact Nat.lt_of_le_of_lt (by rw [BitVec.toNat_ofNat]; exact Nat.mod_le _ _) hlt

/-- A state advance gives one of the table's states (rules R143 (4), R182). -/
theorem Steady.advanceState {s t : State} (h : Steady s) {sl : Slot}
    (hs : (s.slot sl).info.sinit = true) (hr : advanceState sl s = .ok () t) : Steady t := by
  rw [run_advanceState, passed_ok, EStateM.Result.ok.injEq] at hr
  obtain ⟨hpos, -, rfl⟩ := hr
  obtain ⟨-, -, hbase⟩ := h.currentEntry_inRange hs
  have hnb := (s.currentEntry sl).nb.isLt
  have hlt : s.peekBack (s.currentEntry sl).nb.toNat < 2 ^ (s.currentEntry sl).nb.toNat :=
    backBits_lt ..
  have h1 : Steady (s.setBsPos (s.bsPos - (s.currentEntry sl).nb.toNat)) :=
    h.setBsPos (by omega) (by omega)
  exact h1.setFseState (sl := sl) (Nat.lt_of_lt_of_le (Nat.add_lt_add_left hlt _) hbase)

theorem initState_status {s t : State} {sl : Slot} (hr : initState sl s = .ok () t) :
    t.status = s.status := by
  rw [run_initState, passed_ok, EStateM.Result.ok.injEq] at hr
  obtain ⟨-, -, rfl⟩ := hr
  rfl

theorem advanceState_status {s t : State} {sl : Slot} (hr : advanceState sl s = .ok () t) :
    t.status = s.status := by
  rw [run_advanceState, passed_ok, EStateM.Result.ok.injEq] at hr
  obtain ⟨-, -, rfl⟩ := hr
  rfl

theorem keepsRules_fseInit (sl : Slot) : Cmd.KeepsRules (fseInitBody sl) := fun h hr => by
  rw [run_fseInitBody, guarded_ok, passed_ok] at hr
  obtain ⟨⟨ho, ha⟩, hv, hr⟩ := hr
  exact (h.steady.initState ho (by simpa using hv) hr).rules (by rw [initState_status hr]; exact ha)

theorem keepsRules_fseEmit (sl : Slot) : Cmd.KeepsRules (fseEmitBody sl) := fun h hr => by
  rw [run_fseEmitBody, passed_ok, passed_ok, passed_ok, EStateM.Result.ok.injEq] at hr
  obtain ⟨ha, -, -, -, rfl⟩ := hr
  exact (h.steady.setSym _).rules (by simpa using ha)

theorem keepsRules_fseNext (sl : Slot) : Cmd.KeepsRules (fseNextBody sl) := fun h hr => by
  rw [run_fseNextBody, guarded_ok, passed_ok, passed_ok] at hr
  obtain ⟨⟨-, ha⟩, -, hs, hr⟩ := hr
  exact (h.steady.advanceState (by simpa using hs) hr).rules
    (by rw [advanceState_status hr]; exact ha)

end Sys2Proof.Machine

namespace Sys2Proof.Machine

/-! ### Opening a sequences section (rule R244) -/

/-- What initialising the state of slot `sl` in an open section leaves. -/
structure Initialized (sl : Slot) (s t : State) : Prop where
  steady : Steady t
  status : t.status = s.status
  seq : t.seq = s.seq
  position : 0 ≤ t.bsPos
  valid : ∀ sl', (t.slot sl').info.valid = (s.slot sl').info.valid
  kept : ∀ sl', (s.slot sl').info.sinit = true → (t.slot sl').info.sinit = true
  sinit : (t.slot sl).info.sinit = true

/-- Reading the state of slot `sl` sets `SINIT` in its descriptor and changes no other one. -/
theorem slot_info_initialized (s : State) (sl sl' : Slot) (p : Int) (v : Nat) :
    ((((s.setBsPos p).setFseState sl v).setSinit sl).slot sl').info =
      if sl' = sl then { (s.slot sl').info with sinit := true } else (s.slot sl').info := by
  by_cases h : sl' = sl
  · subst h
    rw [if_pos rfl, State.setSinit, State.slot_setSlot_same, State.setFseState,
      State.slot_setSlot_same]
    rfl
  · rw [if_neg h, State.setSinit, State.slot_setSlot_ne _ h, State.setFseState,
      State.slot_setSlot_ne _ h]
    rfl

theorem initStateOver_initialized {sl : Slot} {s t : State} {u : Unit} (h : Steady s)
    (ho : s.status.bsOpen = true) (hv : (s.slot sl).info.valid = true)
    (hr : initStateOver sl s = .ok u t) : Initialized sl s t := by
  obtain ⟨_, t', hi, hover⟩ := bind_ok.1 hr
  obtain ⟨hpos, rfl⟩ := overrun_passed.1 hover
  have hs := h.initState ho hv hi
  rw [run_initState, passed_ok, EStateM.Result.ok.injEq] at hi
  obtain ⟨-, -, rfl⟩ := hi
  refine ⟨hs, rfl, rfl, hpos, fun sl' => ?_, fun sl' hsl => ?_, ?_⟩ <;> rw [slot_info_initialized]
  · split <;> rfl
  · split
    · rfl
    · exact hsl
  · rw [if_pos rfl]

theorem keepsRules_seqOpen (n count : Word) : Cmd.KeepsRules (seqOpenBody n count) :=
  fun {s _} h hr => by
    simp only [seqOpenBody, bind_ok, run_quiet, guarded_ok, EStateM.Result.ok.injEq, raiseIf_passed,
      tableValid_passed, update_done] at hr
    obtain ⟨_, _, ⟨⟨hq, ha⟩, -, rfl⟩, _, _, ⟨hn, rfl⟩, _, _, ⟨hcount, rfl⟩, _, _, ⟨hvl, rfl⟩, _, _,
      ⟨hvo, rfl⟩, _, _, ⟨hvm, rfl⟩, _, _, hopen, _, _, rfl, _, _, rfl, _, s1, i1, _, s2, i2,
      i3⟩ := hr
    obtain ⟨b, hb, rfl⟩ := openSection_done hn hopen
    have h0 := (h.steady.openSection
      (x := { s.status with bsOpen := true, seqActive := true, seqValid := false }) hb hq
      nofun).setSeq (x := { s.seq with left := count }) nofun
    have k1 := initStateOver_initialized h0 rfl hvl i1
    have o1 : s1.status.bsOpen = true := by rw [k1.status]; rfl
    have k2 := initStateOver_initialized k1.steady o1 ((k1.valid .of).trans hvo) i2
    have o2 : s2.status.bsOpen = true := by rw [k2.status]; exact o1
    have k3 := initStateOver_initialized k2.steady o2
      ((k2.valid .ml).trans ((k1.valid .ml).trans hvm)) i3
    have hvalid : ∀ sl, _ = (s.slot sl).info.valid := fun sl =>
      (k3.valid sl).trans ((k2.valid sl).trans (k1.valid sl))
    have hleft : count.toNat ≠ 0 := fun h0 => hcount (BitVec.eq_of_toNat_eq h0)
    refine ⟨k3.steady, fun _ => ⟨⟨by rw [k3.status]; exact o2, fun sl hsl => ?_, k3.position⟩, ?_⟩⟩
    · rw [hvalid]
      cases sl with
      | ll => exact ⟨hvl, k3.kept .ll (k2.kept .ll k1.sinit)⟩
      | of => exact ⟨hvo, k3.kept .of k2.sinit⟩
      | ml => exact ⟨hvm, k3.sinit⟩
      | aux => exact absurd rfl hsl
    · rw [k3.seq, k2.seq, k1.seq]
      exact Nat.pos_of_ne_zero hleft

/-! ### One sequence (rules R246, R247) -/

/-- The value of a code read in a section. -/
theorem readCode_ok {code : Nat × Nat} {s t : State} {v : Nat} (h : Steady s) (l : Live s)
    (hk : code.2 ≤ 31) (hr : readCode code s = .ok v t) :
    Steady t ∧ Live t ∧ code.1 ≤ v ∧ v < code.1 + 2 ^ code.2 := by
  simp only [readCode, bind_ok, run_backReadOver, passed_ok, EStateM.Result.ok.injEq,
    run_pure] at hr
  obtain ⟨w, u, ⟨-, hover, rfl, rfl⟩, rfl, rfl⟩ := hr
  have hpos := l.position
  have hlt : s.peekBack code.2 < 2 ^ code.2 := backBits_lt ..
  exact ⟨h.setBsPos (by omega) (by omega), ⟨l.opened, l.states, Int.not_lt.1 hover⟩,
    by omega, by omega⟩

/-- A state advance in a section. -/
theorem advanceStateOver_ok {sl : Slot} {s t : State} {u : Unit} (h : Steady s) (l : Live s)
    (hsl : sl ≠ .aux) (hr : advanceStateOver sl s = .ok u t) :
    Steady t ∧ Live t ∧ t.seq = s.seq := by
  obtain ⟨_, t', hadv, hover⟩ := bind_ok.1 hr
  obtain ⟨hpos, rfl⟩ := overrun_passed.1 hover
  have hs := h.advanceState (l.states sl hsl).2 hadv
  rw [run_advanceState, passed_ok, EStateM.Result.ok.injEq] at hadv
  obtain ⟨-, -, rfl⟩ := hadv
  refine ⟨hs, ⟨l.opened, fun sl' hsl' => ?_, hpos⟩, rfl⟩
  by_cases heq : sl' = sl
  · subst heq
    rw [State.setFseState, State.slot_setSlot_same]
    exact l.states sl' hsl'
  · rw [State.setFseState, State.slot_setSlot_ne _ heq]
    exact l.states sl' hsl'

theorem advanceStates_ok {s t : State} {u : Unit} (h : Steady s) (l : Live s)
    (hr : advanceStates s = .ok u t) : Steady t ∧ Live t ∧ t.seq = s.seq := by
  simp only [advanceStates, bind_ok] at hr
  obtain ⟨_, s1, h1, _, s2, h2, h3⟩ := hr
  obtain ⟨k1, l1, q1⟩ := advanceStateOver_ok h l (by decide) h1
  obtain ⟨k2, l2, q2⟩ := advanceStateOver_ok k1 l1 (by decide) h2
  obtain ⟨k3, l3, q3⟩ := advanceStateOver_ok k2 l2 (by decide) h3
  exact ⟨k3, l3, q3.trans (q2.trans q1)⟩

/-- A history without 0 gives an offset and a history without 0 (rule R247). -/
theorem resolveRepeat_ok {k : Nat} {h : Reps} {r : Word × Reps} (hh : h.Ok)
    (hr : resolveRepeat k h = .ok r) : r.1 ≠ 0 ∧ r.2.Ok := by
  obtain ⟨h1, h2, h3⟩ := hh
  unfold resolveRepeat at hr
  split at hr
  · cases hr; exact ⟨h1, h1, h2, h3⟩
  · cases hr; exact ⟨h2, h2, h1, h3⟩
  · cases hr; exact ⟨h3, h3, h1, h2⟩
  · obtain ⟨hne, hr⟩ := check_ok.1 hr
    cases hr
    exact ⟨hne, hne, h1, h2⟩

theorem resolveOffset_ok {v ll : Nat} {h : Reps} {r : Word × Reps} (hh : h.Ok) (hv : v < 2 ^ 32)
    (hr : resolveOffset v ll h = .ok r) : r.1 ≠ 0 ∧ r.2.Ok := by
  unfold resolveOffset at hr
  split at hr
  · cases hr
    have hne : BitVec.ofNat 32 (v - 3) ≠ 0 := fun h0 => by
      have := congrArg BitVec.toNat h0
      rw [BitVec.toNat_ofNat, Nat.mod_eq_of_lt (by omega)] at this
      exact absurd this (show v - 3 ≠ 0 by omega)
    exact ⟨hne, hne, hh.1, hh.2.1⟩
  · exact resolveRepeat_ok hh hr

/-- The decoded sequence in its registers (rules R37, R246). -/
theorem storeSequence_ok {v ml ll : Nat} {s t : State} {u : Unit} (h : Steady s) (l : Live s)
    (hv : 1 ≤ v ∧ v < 2 ^ 32) (hml : 3 ≤ ml ∧ ml ≤ 131074) (hll : ll ≤ 131071)
    (hr : storeSequence v ml ll s = .ok u t) :
    Steady t ∧ Live t ∧ t.seq.left = s.seq.left := by
  simp only [storeSequence, bind_ok, current_done, lift_done, update_done] at hr
  obtain ⟨_, _, ⟨rfl, rfl⟩, r, _, ⟨hres, rfl⟩, _, _, rfl, _, _, rfl, rfl⟩ := hr
  obtain ⟨hoff, hreps⟩ := resolveOffset_ok h.reps hv.2 hres
  have hq : SeqRegs.Ok { s.seq with ll := BitVec.ofNat 32 ll, ml := BitVec.ofNat 32 ml,
                                    ofv := BitVec.ofNat 32 v, off := r.1 } := by
    have hpos : 1 ≤ r.1.toNat := Nat.pos_of_ne_zero fun h0 => hoff (BitVec.eq_of_toNat_eq h0)
    refine ⟨?_, ?_, ?_, ?_, hpos⟩ <;> simp only [BitVec.toNat_ofNat] <;> omega
  exact ⟨((h.setReps hreps).setSeq fun _ => hq).setStatus rfl fun _ => hq,
    ⟨l.opened, l.states, l.position⟩, rfl⟩

theorem closeSequences_ok {s t : State} (h : Steady s) (l : Live s)
    (hr : closeSequences s = .ok () t) : Rules t := by
  simp only [closeSequences, bind_ok, current_done, raiseIf_passed, update_done] at hr
  obtain ⟨_, _, ⟨rfl, rfl⟩, _, _, ⟨-, rfl⟩, rfl⟩ := hr
  exact (h.closeSection (x := { s.status with bsOpen := false, seqActive := false }) l.opened rfl
    h.seq).rules rfl

/-- The codes of the tables' symbols have at most 31 extra bits and their values are in range (rules
R37, R242). -/
theorem Steady.codes {s : State} (h : Steady s) (l : Live s) :
    (s.currentEntry .of).sym.toNat ≤ 31 ∧
    (s.params.mlCode (s.currentEntry .ml).sym.toNat).2 ≤ 31 ∧
    (s.params.llCode (s.currentEntry .ll).sym.toNat).2 ≤ 31 ∧
    (3 ≤ (s.params.mlCode (s.currentEntry .ml).sym.toNat).1 ∧
      (s.params.mlCode (s.currentEntry .ml).sym.toNat).1 +
        2 ^ (s.params.mlCode (s.currentEntry .ml).sym.toNat).2 ≤ 131075) ∧
    (s.params.llCode (s.currentEntry .ll).sym.toNat).1 +
      2 ^ (s.params.llCode (s.currentEntry .ll).sym.toNat).2 ≤ 131072 := by
  have hsym : ∀ sl, sl ≠ .aux → (s.currentEntry sl).sym.toNat < s.params.maxSymbols.get sl :=
    fun sl hsl => by
      obtain ⟨hv, hs⟩ := l.states sl hsl
      have h1 := (h.currentEntry_inRange hs).1
      have h2 := (h.tables sl hv).descriptor.2.1
      omega
  have hbits : ∀ {b : Nat}, 2 ^ b ≤ 131075 → b ≤ 31 := fun {b} hb => by
    by_contra hlt
    have := Nat.pow_le_pow_right (by decide : 0 < 2) (by omega : 32 ≤ b)
    omega
  have hof := hsym .of (by decide)
  have hof' := h.fits.offsets
  have hml := Params.codesOk_get h.fits.mlCodes (hsym .ml (by decide))
    (Config.codeOutsideTable .ml (s.currentEntry .ml).sym.toNat)
  have hll := Params.codesOk_get h.fits.llCodes (hsym .ll (by decide))
    (Config.codeOutsideTable .ll (s.currentEntry .ll).sym.toNat)
  refine ⟨?_, hbits (Nat.le_trans (Nat.le_add_left _ _) hml.2),
    hbits (Nat.le_trans (Nat.le_trans (Nat.le_add_left _ _) hll.2) (by decide)), hml, hll.2⟩
  simp only [PerSlot.get] at hof
  omega

/-- The last part of SEQ_NEXT: the sequence is stored, and the section closed after the last one. -/
theorem finishSequence_ok {v ml ll : Nat} {s t : State} (left : Word) (h : Steady s) (l : Live s)
    (hv : 1 ≤ v ∧ v < 2 ^ 32) (hml : 3 ≤ ml ∧ ml ≤ 131074) (hll : ll ≤ 131071)
    (hleft : s.seq.left = left)
    (hr : (do storeSequence v ml ll
              if left.toNat = 0 then closeSequences else pure () : Cmd Unit) s = .ok () t) :
    Rules t := by
  obtain ⟨_, u, hstore, hr⟩ := bind_ok.1 hr
  obtain ⟨k, l', hq⟩ := storeSequence_ok h l hv hml hll hstore
  split at hr
  · exact closeSequences_ok k l' hr
  · next hne =>
    cases hr
    exact ⟨k, fun _ => ⟨l', by rw [hq, hleft]; exact Nat.pos_of_ne_zero hne⟩⟩

theorem keepsRules_seqNext : Cmd.KeepsRules seqNextBody := fun {s t} h hr => by
  simp only [seqNextBody, bind_ok, run_stateCheck, passed_ok, EStateM.Result.ok.injEq, current_done,
    update_done] at hr
  obtain ⟨_, _, ⟨hdec, -, rfl⟩, _, _, ⟨rfl, rfl⟩, v, s1, h1, ml, s2, h2, ll, s3, h3, _, _, rfl,
    _, _, ⟨rfl, rfl⟩, hr⟩ := hr
  have ha : s.status.seqActive = true := by
    cases hx : s.status.seqActive with
    | true => rfl
    | false => exact absurd (by simp [Status.cannotDecode, hx]) hdec
  obtain ⟨l, -⟩ := h.active ha
  obtain ⟨hof, hmb, hlb, hmr, hlr⟩ := h.steady.codes l
  obtain ⟨k1, l1, hv1, hv2⟩ := readCode_ok h.steady l hof h1
  obtain ⟨k2, l2, hm1, hm2⟩ := readCode_ok k1 l1 hmb h2
  obtain ⟨k3, l3, hl1, hl2⟩ := readCode_ok k2 l2 hlb h3
  have hv : 1 ≤ v ∧ v < 2 ^ 32 := by
    have hpow := Nat.pow_le_pow_right (by decide : 0 < 2) hof
    have hpos := Nat.two_pow_pos (s.currentEntry .of).sym.toNat
    simp only at hv1 hv2
    omega
  have k4 : Steady (s3.setSeq { s3.seq with left := BitVec.ofNat 32 (s3.seq.left.toNat - 1) }) :=
    k3.setSeq k3.seq
  have l4 : Live (s3.setSeq { s3.seq with left := BitVec.ofNat 32 (s3.seq.left.toNat - 1) }) :=
    ⟨l3.opened, l3.states, l3.position⟩
  split at hr
  · obtain ⟨_, s5, hadv, hr⟩ := bind_ok.1 hr
    obtain ⟨k5, l5, q5⟩ := advanceStates_ok k4 l4 hadv
    exact finishSequence_ok _ k5 l5 hv (by omega) (by omega) (congrArg SeqRegs.left q5) hr
  · exact finishSequence_ok _ k4 l4 hv (by omega) (by omega) rfl hr

/-! ### Executing sequences (rules R250, R252) -/

theorem keepsRules_seqExec : Cmd.KeepsRules seqExecBody := fun {s _} h hr => by
  simp only [seqExecBody, bind_ok, run_stateCheck, passed_ok, EStateM.Result.ok.injEq, current_done,
    update_done] at hr
  obtain ⟨_, _, ⟨-, -, rfl⟩, _, _, rfl, _, _, ⟨rfl, rfl⟩, _, u, hlit, hcopy⟩ := hr
  have h0 := h.setStatus (x := { s.status with seqValid := false }) rfl rfl
    nofun
  exact keepsRules_wCopy _ _ (keepsRules_wLit _ h0 hlit) hcopy

theorem keepsRules_seqLoop (fuel : Nat) : Cmd.KeepsRules (seqLoop fuel) := by
  induction fuel with
  | zero =>
    intro s t h hr
    cases hr
    exact h
  | succ fuel ih =>
    have hnext : ∀ {s t : State}, Rules s →
        (do let u ← current
            if u.status.seqActive then do
              seqNextBody
              seqLoop fuel
            else pure () : Cmd Unit) s = .ok () t → Rules t := fun {s t} h hr => by
      simp only [bind_ok, current_done] at hr
      obtain ⟨_, _, ⟨rfl, rfl⟩, hr⟩ := hr
      split at hr
      · obtain ⟨_, u, h1, h2⟩ := bind_ok.1 hr
        exact ih (keepsRules_seqNext h h1) h2
      · cases hr
        exact h
    intro s t h hr
    rw [seqLoop, bind_ok] at hr
    obtain ⟨_, _, hc, hr⟩ := hr
    obtain ⟨rfl, rfl⟩ := current_done.1 hc
    dsimp only at hr
    split at hr
    · obtain ⟨_, u, h1, h2⟩ := bind_ok.1 hr
      exact hnext (keepsRules_seqExec h h1) h2
    · exact hnext h hr

theorem keepsRules_seqRun : Cmd.KeepsRules seqRunBody := fun h hr => by
  simp only [seqRunBody, bind_ok, run_stateCheck, passed_ok, EStateM.Result.ok.injEq,
    current_done] at hr
  obtain ⟨_, _, ⟨-, -, rfl⟩, _, _, ⟨rfl, rfl⟩, _, u, hloop, hrest⟩ := hr
  exact keepsRules_wLitrest (keepsRules_seqLoop _ h hloop) hrest

/-! ### Every command, every move, every step -/

/-- A command that completes keeps the rules. -/
theorem keepsRules_bodyOf (i : Instr) : Cmd.KeepsRules (bodyOf i) := by
  cases i with
  | nop => exact keepsRules_nop
  | frameInit c => exact keepsRules_frameInit c
  | rdOpen rpos len => exact keepsRules_rdOpen rpos len
  | frameEnd hasSize lo hi => exact keepsRules_frameEnd hasSize lo hi
  | wRaw n => exact keepsRules_wRaw n
  | wRle n => exact keepsRules_wRle n
  | wLit n => exact keepsRules_wLit n.toNat
  | wLitrest => exact keepsRules_wLitrest
  | wCopy offset length => exact keepsRules_wCopy offset.toNat length.toNat
  | litRaw n => exact keepsRules_litRaw n
  | litRle n => exact keepsRules_litRle n
  | litHuf streams regen comp => exact keepsRules_litHuf streams regen comp true
  | litHufr streams regen comp => exact keepsRules_litHuf streams regen comp false
  | fseBuild sl => exact keepsRules_fseBuild sl
  | fseLoad sl al n => exact keepsRules_fseLoad sl al n
  | fsePredef sl => exact keepsRules_fsePredef sl
  | fseRle sl symbol => exact keepsRules_fseRle sl symbol
  | bsOpen n => exact keepsRules_bsOpen n
  | bsRead k => exact keepsRules_bsRead k
  | bsClose => exact keepsRules_bsClose
  | fseInit sl => exact keepsRules_fseInit sl
  | fseEmit sl => exact keepsRules_fseEmit sl
  | fseNext sl => exact keepsRules_fseNext sl
  | seqOpen n count => exact keepsRules_seqOpen n count
  | seqNext => exact keepsRules_seqNext
  | seqExec => exact keepsRules_seqExec
  | seqRun => exact keepsRules_seqRun

/-- Fault entry promises only the parameters: the latch is set. -/
theorem inv_faultEntry {s : State} (hp : s.params.wf = true) (r : Raise) : Inv (faultEntry r s) :=
  inv_iff.2 ⟨rfl, hp, nofun⟩

theorem exec_keeps_inv {i : Instr} {s t : State} (h : Inv s) (hr : exec i s = .next t) : Inv t := by
  rw [exec_eq_present] at hr
  rcases present_cases hr with ⟨-, -, rfl⟩ | ⟨-, hf, -, u, hb, rfl⟩ | ⟨-, -, -, r, u, hb, rfl⟩ |
    ⟨-, -, -, rfl⟩
  · exact h
  · have hu := keepsRules_bodyOf i ((inv_iff.1 h).2.2 hf).begin hb
    exact inv_iff.2 ⟨rfl, hu.steady.params, fun _ => hu.complete⟩
  · have hp : u.params = (begin s).params := (bodyOf_params i).of_error hb
    exact inv_faultEntry (by rw [hp]; exact h.params) r
  · exact inv_faultEntry h.params _

theorem presentWord_keeps_inv {c : CmdWord} {s t : State} (h : Inv s)
    (hr : presentWord c s = .next t) : Inv t := by
  cases hd : decode c with
  | ok i => exact exec_keeps_inv h (presentWord_ok hd s ▸ hr)
  | error e =>
    cases hf : s.status.fault with
    | true =>
      rw [presentWord_latched c h.idle hf] at hr
      cases hr
      exact h
    | false =>
      rw [presentWord_error hd, presentIllegal_ready h.idle hf] at hr
      cases hr
      exact inv_faultEntry h.params _

/-- A change that leaves `BUSY`, `FAULT` and the parameters, and keeps the rules. -/
theorem Inv.of_rules {s t : State} (h : Inv s) (hs : t.status = s.status) (hp : t.params = s.params)
    (hr : Rules s → Rules t) : Inv t :=
  inv_iff.2 ⟨by rw [hs]; exact h.idle, by rw [hp]; exact h.params,
    fun hf => hr ((inv_iff.1 h).2.2 (by rw [← hs]; exact hf))⟩

theorem runMove_keeps_inv {m : HostMove} {s t : State} (h : Inv s) (hr : runMove m s = .next t) :
    Inv t := by
  cases m with
  | command c => exact presentWord_keeps_inv h hr
  | reset =>
    cases hr
    exact inv_iff.2 ⟨rfl, h.params, fun _ => applyReset_rules h.params⟩
  | writeIn a b | readReg n | readMem sp a =>
    rcases runMove_quiet hr (fun _ => nofun) nofun with ⟨a, b, -, -, rfl⟩ | ⟨x, rfl, -, hx⟩
    · exact h.of_rules rfl rfl fun k => k.setInput _
    · exact h.of_rules rfl rfl fun k => k.setHost hx

/-- Settles O22: each command keeps the items of rule R42 piece by piece (`Steady`, `Live`), a fault
leaves only the parameters to keep, and the host's other moves touch no part of the rules. -/
theorem stepKeepsTheInvariant : Obligations.StepKeepsTheInvariant := by
  intro s t h hr
  cases hm : s.host.moves with
  | nil =>
    rw [step_idle hm] at hr
    cases hr
    exact h
  | cons m rest =>
    rw [step_move hm] at hr
    exact runMove_keeps_inv (h.of_rules (t := s.withMoves rest) rfl rfl fun k => k.setHost rfl) hr

end Sys2Proof.Machine

namespace Sys2Proof.Machine

/-! # What a command may change (rules R24, R25, R38, R60)

Every run of a command is a path of assignments (`Edit`), the ones of its rule's pseudocode. What an
assignment changes is said once for each kind of assignment; what a command changes, completed or
faulted, follows from the list of its kinds (`Instr.edits`). -/

/-! ### The assignments of the pseudocode -/

/-- The kinds of assignment that the rules' pseudocode makes. -/
inductive Edit where
  /-- FRAME_INIT's assignments as one -/
  | frameInit
  /-- `RPOS` and `IN_LEN` -/
  | reader
  | rpos
  /-- `WinAppend` -/
  | append
  /-- the byte loop of W_COPY -/
  | copy
  | litPos
  /-- stores in `LIT` -/
  | litMem
  /-- `LIT_POS <- 0; LIT_LEN <- n` behind the stores -/
  | litFill
  /-- `BS_BASE`, `BS_LEN`, `BS_POS` -/
  | bits
  | bsPos
  | val
  | sym
  | fseState (sl : Slot)
  | sinit (sl : Slot)
  /-- a built FSE table with its descriptor -/
  | table (sl : Slot)
  /-- a built Huffman table with its descriptor -/
  | huffman
  | reps
  | seqLeft
  /-- `SEQ_LL`, `SEQ_ML`, `SEQ_OFV`, `SEQ_OFF` -/
  | sequence
  /-- `BS_OPEN <- 1` of BS_OPEN -/
  | openBits
  /-- the flags of SEQ_OPEN -/
  | openSeq
  /-- `SEQ_VALID <- 1` -/
  | offer
  /-- `SEQ_VALID <- 0` -/
  | consume
  /-- the end of BS_CLOSE -/
  | closeBits
  /-- the end of the section after its last sequence -/
  | closeSeq

/-- The assignment leads from a state to another; the conditions are what the pseudocode has checked
or computed when it makes the assignment. -/
inductive Edit.Makes : Edit → State → State → Prop
  | frameInit (s : State) (c : Word) : Makes .frameInit s (s.frameInit c)
  | reader (s : State) (r n : Word) :
      Makes .reader s (s.setReader { s.reader with rpos := r, len := n })
  | rpos (s : State) (v : Nat) : Makes .rpos s (s.setRpos v)
  | append (s : State) (v : List Byte)
      (room : s.window.index.toNat + v.length ≤ s.window.capr.toNat) :
      Makes .append s (s.setWindow (s.window.append v))
  | copy (s : State) (offset n : Nat) (valid : 1 ≤ offset ∧ offset ≤ s.window.avail)
      (room : s.window.index.toNat + n ≤ s.window.capr.toNat) :
      Makes .copy s (s.setWindow
        (s.window.copyWithin (Config.unwrittenByte s.host.epoch .win) offset n))
  | litPos (s : State) (v : Word) : Makes .litPos s (s.setLits { s.lits with pos := v })
  | litMem (s : State) (a : Nat) (v : List Byte) :
      Makes .litMem s (s.setLits { s.lits with mem := s.lits.mem.writeList a v })
  | litFill (s : State) (n : Nat) (filled : ∀ k, k < n → (s.lits.mem.lookup k).isSome = true) :
      Makes .litFill s (s.setLits (s.lits.filled n))
  | bits (s : State) (b : Bitstream) : Makes .bits s (s.setBits b)
  | bsPos (s : State) (p : Int) : Makes .bsPos s (s.setBsPos p)
  | val (s : State) (v : Word) : Makes .val s (s.setVal v)
  | sym (s : State) (v : Word) : Makes .sym s (s.setSym v)
  | fseState (s : State) (sl : Slot) (v : Nat) : Makes (.fseState sl) s (s.setFseState sl v)
  | sinit (s : State) (sl : Slot) : Makes (.sinit sl) s (s.setSinit sl)
  | table (s : State) (sl : Slot) (al nsym : Nat) (entries : List FseEntry)
      (whole : entries.length = 2 ^ al) :
      Makes (.table sl) s (s.setSlot sl ((s.slot sl).build al nsym entries))
  | huffman (s : State) (w : List Nat) (t : HufTable)
      (built : weightTable s.params.hufMaxBits w = .ok t) :
      Makes .huffman s (s.setHuf (s.huf.build t))
  | reps (s : State) (h : Reps) : Makes .reps s (s.setReps h)
  | seqLeft (s : State) (n : Word) : Makes .seqLeft s (s.setSeq { s.seq with left := n })
  | sequence (s : State) (ll ml ofv off : Word) :
      Makes .sequence s
        (s.setSeq { s.seq with ll := ll, ml := ml, ofv := ofv, off := off })
  | openBits (s : State) : Makes .openBits s (s.setStatus { s.status with bsOpen := true })
  | openSeq (s : State) :
      Makes .openSeq s
        (s.setStatus { s.status with bsOpen := true, seqActive := true, seqValid := false })
  | offer (s : State) : Makes .offer s (s.setStatus { s.status with seqValid := true })
  | consume (s : State) : Makes .consume s (s.setStatus { s.status with seqValid := false })
  | closeBits (s : State) :
      Makes .closeBits s (s.setStatus { s.status with bsOpen := false }).closeSection
  | closeSeq (s : State) :
      Makes .closeSeq s
        (s.setStatus { s.status with bsOpen := false, seqActive := false }).closeSection

/-- The assignments of a sequences section that read the bitstream (rule R246). -/
def readEdits : List Edit := [.bsPos, .fseState .ll, .fseState .ml, .fseState .of]

/-- The assignments of SEQ_NEXT up to the end of the section (rule R246). -/
def decodeEdits : List Edit := readEdits ++ [.seqLeft, .reps, .sequence, .offer]

/-- The assignments of SEQ_EXEC (rule R250). -/
def executeEdits : List Edit := [.consume, .litPos, .append, .copy]

end Sys2Proof.Machine

namespace Sys2Proof

open Machine in
/-- The kinds of assignment in each command's rule. -/
def Instr.edits : Instr → List Edit
  | .nop => []
  | .frameInit _ => [.frameInit]
  | .rdOpen _ _ => [.reader]
  | .frameEnd _ _ _ => []
  | .wRaw _ => [.append, .rpos]
  | .wRle _ => [.rpos, .append]
  | .wLit _ => [.litPos, .append]
  | .wLitrest => [.litPos, .append]
  | .wCopy _ _ => [.copy]
  | .litRaw _ => [.rpos, .litMem, .litFill]
  | .litRle _ => [.rpos, .litMem, .litFill]
  | .litHuf _ _ _ => [.rpos, .table .aux, .huffman, .litMem, .litFill]
  | .litHufr _ _ _ => [.rpos, .litMem, .litFill]
  | .fseBuild sl => [.rpos, .table sl]
  | .fseLoad sl _ _ => [.rpos, .table sl]
  | .fsePredef sl => [.table sl]
  | .fseRle sl _ => [.table sl]
  | .bsOpen _ => [.bits, .openBits]
  | .bsRead _ => [.bsPos, .val]
  | .bsClose => [.closeBits]
  | .fseInit sl => [.bsPos, .fseState sl, .sinit sl]
  | .fseEmit _ => [.sym]
  | .fseNext sl => [.bsPos, .fseState sl]
  | .seqOpen _ _ =>
    [.bits, .openSeq, .seqLeft, .bsPos, .fseState .ll, .sinit .ll, .fseState .of, .sinit .of,
      .fseState .ml, .sinit .ml]
  | .seqNext => decodeEdits ++ [.closeSeq]
  | .seqExec => executeEdits
  | .seqRun => decodeEdits ++ [.closeSeq] ++ executeEdits

end Sys2Proof

namespace Sys2Proof.Machine

/-! ### Pieces of a command as paths of assignments -/

/-- From a state to another by assignments of the listed kinds. -/
def Path (es : List Edit) : State → State → Prop :=
  Relation.ReflTransGen fun s t => ∃ e ∈ es, e.Makes s t

namespace Path

variable {es : List Edit} {s t u : State}

theorem refl : Path es s s := Relation.ReflTransGen.refl

theorem trans (h1 : Path es s t) (h2 : Path es t u) : Path es s u :=
  Relation.ReflTransGen.trans h1 h2

theorem step {e : Edit} (h : e.Makes s t) (he : e ∈ es) : Path es s t := .single ⟨e, he, h⟩

theorem mono {es' : List Edit} (hs : es ⊆ es') (h : Path es s t) : Path es' s t :=
  Relation.ReflTransGen.mono (fun _ _ ⟨e, he, hm⟩ => ⟨e, hs he, hm⟩) _ _ h

/-- What every assignment on a path keeps, the path keeps. -/
theorem keeps {R : State → State → Prop} (h : Path es s t) (hr : ∀ s, R s s)
    (ht : ∀ s t u, R s t → R t u → R s u)
    (he : ∀ e ∈ es, ∀ s t, e.Makes s t → R s t) : R s t := by
  induction h with
  | refl => exact hr _
  | tail _ hlast ih =>
    obtain ⟨e, hmem, hm⟩ := hlast
    exact ht _ _ _ ih (he e hmem _ _ hm)

/-- A part of the state that no assignment on the path changes. -/
theorem fixes {β : Type} {g : State → β} (h : Path es s t)
    (he : ∀ e ∈ es, ∀ s t, e.Makes s t → g t = g s) : g t = g s :=
  h.keeps (R := fun s t => g t = g s) (fun _ => rfl) (fun _ _ _ h1 h2 => h2.trans h1) he

end Path

/-- Every run of `x`, completed or not, makes assignments of the listed kinds only. -/
def Cmd.Edits {α : Type} (es : List Edit) (x : Cmd α) : Prop := Cmd.Keeps (Path es) x

namespace Cmd.Edits

variable {α β : Type} {es : List Edit}

/-- A piece that changes nothing. -/
theorem of_fixes {x : Cmd α} (h : Cmd.Fixes id x) : Cmd.Edits es x :=
  Cmd.Keeps.mono (fun s t (hst : t = s) => hst ▸ Path.refl) h

theorem pure (a : α) : Cmd.Edits es (pure a : Cmd α) := of_fixes (.pure a)

theorem current : Cmd.Edits es current := of_fixes .current

theorem raiseIf (c : Prop) [Decidable c] (f : UnitFault) (info : Int) :
    Cmd.Edits es (raiseIf c f info) := of_fixes (.raiseIf c f info)

theorem lift (r : Except Raise α) : Cmd.Edits es (lift r) := of_fixes (.lift r)

theorem quiet : Cmd.Edits es quiet := of_fixes .quiet

theorem primitiveOpen : Cmd.Edits es primitiveOpen := of_fixes .primitiveOpen

theorem stateCheck (c : Status → Bool) : Cmd.Edits es (stateCheck c) := of_fixes (.stateCheck c)

theorem need (n : Nat) : Cmd.Edits es (need n) := of_fixes (.need n)

theorem winRoom (n : Nat) : Cmd.Edits es (winRoom n) := of_fixes (.winRoom n)

theorem litAvailable (n : Nat) : Cmd.Edits es (litAvailable n) := of_fixes (.litAvailable n)

theorem overrun : Cmd.Edits es overrun := of_fixes .overrun

theorem tableValid (sl : Slot) : Cmd.Edits es (tableValid sl) := of_fixes (.tableValid sl)

theorem stateReady (sl : Slot) : Cmd.Edits es (stateReady sl) := of_fixes (.stateReady sl)

theorem bind {x : Cmd α} {f : α → Cmd β} (hx : Cmd.Edits es x) (hf : ∀ a, Cmd.Edits es (f a)) :
    Cmd.Edits es (x >>= f) :=
  Cmd.Keeps.bind (R := Path es) (fun _ _ _ h1 h2 => Path.trans h1 h2) hx hf

theorem ite {c : Prop} [Decidable c] {x y : Cmd α} (hx : Cmd.Edits es x) (hy : Cmd.Edits es y) :
    Cmd.Edits es (if c then x else y) := by
  split <;> assumption

/-- One assignment. -/
theorem update {f : State → State} {e : Edit} (h : ∀ s, e.Makes s (f s))
    (he : e ∈ es := by simp [Instr.edits, readEdits, decodeEdits, executeEdits]) :
    Cmd.Edits es (update f) := fun s => .step (h s) he

/-- An update made of two assignments. -/
theorem update₂ {f g : State → State} {e e' : Edit} (h : ∀ s, e.Makes s (f s))
    (h' : ∀ s, e'.Makes s (g s))
    (he : e ∈ es := by simp [Instr.edits]) (he' : e' ∈ es := by simp [Instr.edits]) :
    Cmd.Edits es (Machine.update fun s => g (f s)) :=
  fun s => .trans (.step (h s) he) (.step (h' (f s)) he')

theorem mono {es' : List Edit} {x : Cmd α} (hx : Cmd.Edits es x) (hs : es ⊆ es') :
    Cmd.Edits es' x :=
  Cmd.Keeps.mono (fun _ _ => Path.mono hs) hx

/-- A part of the state that no assignment of the piece changes. -/
theorem fixes {x : Cmd α} {g : State → β} (hx : Cmd.Edits es x)
    (he : ∀ e ∈ es, ∀ s t, e.Makes s t → g t = g s) : Cmd.Fixes g x :=
  Cmd.Keeps.mono (fun _ _ h => h.fixes he) hx

end Cmd.Edits

/-! ### The shared operations -/

section

variable {es : List Edit}

theorem skip_edits (n : Nat) (he : .rpos ∈ es := by simp [Instr.edits]) : Cmd.Edits es (skip n) :=
  .update (fun _ => .rpos _ _) he

theorem readU8_edits (he : .rpos ∈ es := by simp [Instr.edits]) : Cmd.Edits es readU8 :=
  .bind (.need 1) fun _ => .bind .current fun _ => .bind (skip_edits 1 he) fun _ => .pure _

theorem readProbs_edits (n : Nat) (he : .rpos ∈ es := by simp [Instr.edits]) :
    Cmd.Edits es (readProbs n) := by
  induction n with
  | zero => exact .pure _
  | succ n ih =>
    have hread : Cmd.Edits es readU16LE :=
      .bind (.bind (.need 2) fun _ => .bind .current fun _ => .bind (skip_edits 2 he) fun _ =>
        .pure _) fun _ => .pure _
    exact .bind hread fun _ => .bind ih fun _ => .pure _

theorem winAppend_edits (v : List Byte) (he : .append ∈ es := by simp [Instr.edits]) :
    Cmd.Edits es (winAppend v) := by
  intro s
  rw [run_winAppend]
  by_cases h : s.window.index.toNat + v.length > s.window.capr.toNat
  · rw [if_pos h]
    exact Path.refl
  · rw [if_neg h]
    exact Path.step (.append s v (Nat.not_lt.1 h)) he

theorem wCopyBody_edits (offset n : Nat)
    (he : .copy ∈ es := by simp [Instr.edits, executeEdits]) :
    Cmd.Edits es (wCopyBody offset n) := by
  intro s
  rw [run_wCopyBody]
  by_cases h : offset = 0 ∨ offset > s.window.avail
  · rw [if_pos h]
    exact Path.refl
  rw [if_neg h]
  by_cases hroom : s.window.index.toNat + n > s.window.capr.toNat
  · rw [if_pos hroom]
    exact Path.refl
  · rw [if_neg hroom]
    exact Path.step (.copy s offset n (by omega) (Nat.not_lt.1 hroom)) he

theorem litTake_edits (n : Nat) (he : .litPos ∈ es := by simp [Instr.edits]) :
    Cmd.Edits es (litTake n) :=
  .bind (.litAvailable n) fun _ => .bind .current fun _ =>
    .bind (.update (fun _ => .litPos _ _) he) fun _ => .pure _

theorem wLitBody_edits (n : Nat)
    (hp : .litPos ∈ es := by simp [Instr.edits, executeEdits])
    (ha : .append ∈ es := by simp [Instr.edits, executeEdits]) : Cmd.Edits es (wLitBody n) :=
  .bind (.litAvailable n) fun _ => .bind (.winRoom n) fun _ => .bind (litTake_edits n hp) fun _ =>
    winAppend_edits _ ha

theorem wLitrestBody_edits
    (hp : .litPos ∈ es := by simp [Instr.edits, executeEdits])
    (ha : .append ∈ es := by simp [Instr.edits, executeEdits]) : Cmd.Edits es wLitrestBody :=
  .bind .current fun _ => .bind (.winRoom _) fun _ => .bind (litTake_edits _ hp) fun _ =>
    winAppend_edits _ ha

theorem backRead_edits (k : Nat) (he : .bsPos ∈ es := by simp [Instr.edits, readEdits]) :
    Cmd.Edits es (backRead k) :=
  .bind .overrun fun _ => .bind .current fun _ => .bind (.update (fun _ => .bsPos _ _) he) fun _ =>
    .pure _

theorem initState_edits (sl : Slot) (hb : .bsPos ∈ es := by simp [Instr.edits])
    (hf : .fseState sl ∈ es := by simp [Instr.edits])
    (hs : .sinit sl ∈ es := by simp [Instr.edits]) : Cmd.Edits es (initState sl) :=
  .bind .current fun _ => .bind (backRead_edits _ hb) fun _ =>
    .update₂ (fun _ => .fseState _ _ _) (fun _ => .sinit _ _) hf hs

theorem advanceState_edits (sl : Slot)
    (hb : .bsPos ∈ es := by simp [Instr.edits, readEdits])
    (hf : .fseState sl ∈ es := by simp [Instr.edits, readEdits]) :
    Cmd.Edits es (advanceState sl) :=
  .bind .current fun _ => .bind (backRead_edits _ hb) fun _ =>
    .update (fun _ => .fseState _ _ _) hf

theorem openSection_edits (n : Word) (he : .bits ∈ es := by simp [Instr.edits]) :
    Cmd.Edits es (openSection n) :=
  .bind (.need _) fun _ => .bind .current fun _ => .bind (.lift _) fun _ =>
    .update (fun _ => .bits _ _) he

/-- A distribution that passes the checks makes a whole table. -/
theorem fseFromDist_edits (sl : Slot) (al : Nat) (probs : List Int)
    (he : .table sl ∈ es := by simp [Instr.edits]) : Cmd.Edits es (fseFromDist sl al probs) := by
  intro s
  rw [run_fseFromDist]
  cases hd : checkDist s.params sl al probs with
  | error e => exact Path.refl
  | ok _ =>
    obtain ⟨-, -, -, hsum⟩ := checkDist_ok hd
    have hlen : (spread al probs).length = 2 ^ al :=
      (length_spreadEntries _ _ _).trans (spreadSymbols_below (probs_ne_nil hsum)).1
    exact Path.step (.table s sl al _ _ hlen) he

theorem readHeader_edits (sl : Slot) (fin : Nat) (he : .rpos ∈ es := by simp [Instr.edits]) :
    Cmd.Edits es (readHeader sl fin) :=
  .bind .current fun _ => .bind (.lift _) fun _ => .bind (.update (fun _ => .rpos _ _) he) fun _ =>
    .pure _

end

/-! ### Huffman literals -/

theorem hufFromWeights_edits {es : List Edit} (w : List Nat) (he : .huffman ∈ es) :
    Cmd.Edits es (hufFromWeights w) := by
  intro s
  rw [run_hufFromWeights]
  cases hw : weightTable s.params.hufMaxBits w with
  | error e => exact Path.refl
  | ok t => exact Path.step (.huffman s w t hw) he

theorem hufTree_edits (fin : Nat) :
    Cmd.Edits [.rpos, .table .aux, .huffman] (hufTree fin) := by
  have hweights : ∀ w, Cmd.Edits [.rpos, .table .aux, .huffman] (hufFromWeights w) := fun w =>
    hufFromWeights_edits w (by simp)
  have hdirect : ∀ n, Cmd.Edits [.rpos, .table .aux, .huffman] (directWeights fin n) := fun n =>
    .bind .current fun _ => .bind (.raiseIf _ _ _) fun _ => .bind (skip_edits _) fun _ => .pure _
  have hcoded : ∀ hb, Cmd.Edits [.rpos, .table .aux, .huffman] (fseWeights fin hb) := fun hb =>
    .bind (.raiseIf _ _ _) fun _ => .bind .current fun _ => .bind (.raiseIf _ _ _) fun _ =>
      .bind (readHeader_edits _ _) fun _ => .bind (fseFromDist_edits _ _ _) fun _ =>
        .bind .current fun _ => .bind (.lift _) fun _ => .bind (.update fun _ => .rpos _ _) fun _ =>
          .pure _
  exact .bind .current fun _ => .bind (.raiseIf _ _ _) fun _ => .bind (skip_edits 1) fun _ =>
    .ite (.bind (hdirect _) hweights) (.bind (hcoded _) hweights)

/-- Streams that are decoded to the end store `regen` literals from address 0. -/
theorem hufStreams_edits {es : List Edit} (streams : Streams) (fin regen : Nat)
    (he : .litMem ∈ es) (s : State) :
    match hufStreams streams fin regen s with
    | .ok _ t => Path es s t ∧ ∀ k, k < regen → (t.lits.mem.lookup k).isSome = true
    | .error _ t => Path es s t := by
  rcases streams_decode_or_fail s.hufEntry s.huf.info.maxBits.toNat s.inByte s.reader.rpos.toNat fin
    regen streams with ⟨out, hd⟩ | ⟨out, r, hf⟩
  · rw [run_hufStreams_decodes hd]
    refine ⟨Path.step (.litMem s 0 out) he, fun k hk => ?_⟩
    have hlen : k < out.length := by
      cases streams with
      | one => exact hd.1.symm ▸ hk
      | four =>
        obtain ⟨-, -, -, -, -, -, -, -, -, -, -, -, -, hlen, -⟩ := hd
        exact hlen.symm ▸ hk
    rw [State.setLits_lits, lookup_writeList_zero _ hlen]
    rfl
  · rw [run_hufStreams_fails hf]
    exact Path.step (.litMem s 0 out) he

/-- The table, the streams and the end of a Huffman literals command whose table comes by `es`. -/
theorem litHufBody_edits {es : List Edit} (streams : Streams) (regen comp : Word) {fresh : Bool}
    (hsource : ∀ fin, Cmd.Edits es (hufSource fresh fin)) (hr : .rpos ∈ es) (hm : .litMem ∈ es)
    (hf : .litFill ∈ es) : Cmd.Edits es (litHufBody streams regen comp fresh) := by
  have hend : ∀ fin : Nat, Cmd.Edits es (do
      hufStreams streams fin regen.toNat
      update fun s => (s.setLits (s.lits.filled regen.toNat)).setRpos fin) := fun fin s => by
    have h := hufStreams_edits streams fin regen.toNat hm s
    rw [run_bind]
    cases hx : hufStreams streams fin regen.toNat s with
    | error e t =>
      rw [hx] at h
      exact h
    | ok _ t =>
      rw [hx] at h
      exact h.1.trans ((Path.step (.litFill t regen.toNat h.2) hf).trans
        (Path.step (.rpos _ fin) hr))
  exact .bind .quiet fun _ => .bind .current fun _ => .bind (.raiseIf _ _ _) fun _ =>
    .bind (.need _) fun _ => .bind (hsource _) fun _ => hend _

/-- The literals buffer filled with the list `v` behind a cursor move. -/
theorem path_fill {es : List Edit} (s : State) (r : Nat) (v : List Byte) {n : Nat}
    (hn : v.length = n) (hr : .rpos ∈ es) (hm : .litMem ∈ es) (hf : .litFill ∈ es) :
    Path es s ((s.setRpos r).setLits
      (Literals.filled { s.lits with mem := s.lits.mem.writeList 0 v } n)) := by
  refine (Path.step (.rpos s r) hr).trans ((Path.step (.litMem (s.setRpos r) 0 v) hm).trans
    (Path.step (.litFill _ n fun k hk => ?_) hf))
  rw [State.setLits_lits, lookup_writeList_zero _ (hn.symm ▸ hk)]
  rfl

theorem litRawBody_edits (n : Word) : Cmd.Edits (Instr.litRaw n).edits (litRawBody n) := by
  intro s
  rw [run_litRawBody]
  split_ifs
  · exact Path.refl
  · exact Path.refl
  · exact path_fill s _ _ (length_memRead ..) (by simp [Instr.edits]) (by simp [Instr.edits])
      (by simp [Instr.edits])
  · exact Path.refl

theorem litRleBody_edits (n : Word) : Cmd.Edits (Instr.litRle n).edits (litRleBody n) := by
  intro s
  rw [run_litRleBody]
  split_ifs
  · exact Path.refl
  · exact Path.refl
  · exact path_fill s _ _ List.length_replicate (by simp [Instr.edits]) (by simp [Instr.edits])
      (by simp [Instr.edits])
  · exact Path.refl

/-! ### Sequences -/

/-- SEQ_NEXT up to the end of the section: the sequence is decoded and stored, and the number of
sequences left is answered (rule R246). -/
def seqDecode : Cmd Nat := do
  stateCheck Status.cannotDecode
  let s ← current
  let n := (s.currentEntry .of).sym.toNat
  let mlc := (s.currentEntry .ml).sym.toNat
  let llc := (s.currentEntry .ll).sym.toNat
  let v ← readCode (2 ^ n, n)
  let ml ← readCode (s.params.mlCode mlc)
  let ll ← readCode (s.params.llCode llc)
  update fun s => s.setSeq { s.seq with left := BitVec.ofNat 32 (s.seq.left.toNat - 1) }
  let s ← current
  if s.seq.left.toNat > 0 then advanceStates else pure ()
  storeSequence v ml ll
  pure s.seq.left.toNat

/-- SEQ_NEXT is that, and the end of the section after the last sequence. -/
theorem seqNextBody_eq :
    seqNextBody = seqDecode >>= fun left => if left = 0 then closeSequences else pure () := by
  simp only [seqNextBody, seqDecode, bind_assoc]
  refine bind_congr fun _ => bind_congr fun s => bind_congr fun v => bind_congr fun ml =>
    bind_congr fun ll => bind_congr fun _ => bind_congr fun u => ?_
  split <;> simp only [bind_assoc, pure_bind]

theorem readCode_edits (code : Nat × Nat) : Cmd.Edits readEdits (readCode code) :=
  .bind (.bind (backRead_edits _) fun _ => .bind .overrun fun _ => .pure _) fun _ => .pure _

theorem advanceStates_edits : Cmd.Edits readEdits advanceStates :=
  .bind (.bind (advanceState_edits _) fun _ => .overrun) fun _ =>
    .bind (.bind (advanceState_edits _) fun _ => .overrun) fun _ =>
      .bind (advanceState_edits _) fun _ => .overrun

theorem storeSequence_edits (v ml ll : Nat) : Cmd.Edits decodeEdits (storeSequence v ml ll) :=
  .bind .current fun _ => .bind (.lift _) fun _ => .bind (.update fun _ => .reps _ _) fun _ =>
    .bind (.update fun _ => .sequence _ _ _ _ _) fun _ => .update fun _ => .offer _

theorem seqDecode_edits : Cmd.Edits decodeEdits seqDecode := by
  have hread : ∀ code, Cmd.Edits decodeEdits (readCode code) := fun code =>
    (readCode_edits code).mono (List.subset_append_left _ _)
  have hadvance : Cmd.Edits decodeEdits advanceStates :=
    advanceStates_edits.mono (List.subset_append_left _ _)
  refine .bind (.stateCheck _) fun _ => .bind .current fun _ => .bind (hread _) fun _ =>
    .bind (hread _) fun _ => .bind (hread _) fun _ => .bind (.update fun _ => .seqLeft _ _) fun _ =>
      .bind .current fun _ => .ite (.bind hadvance fun _ => ?_) ?_ <;>
  exact .bind (storeSequence_edits _ _ _) fun _ => .pure _

theorem closeSequences_edits : Cmd.Edits [.closeSeq] closeSequences :=
  .bind .current fun _ => .bind (.raiseIf _ _ _) fun _ => .update fun _ => .closeSeq _

theorem seqNextBody_edits : Cmd.Edits Instr.seqNext.edits seqNextBody := by
  rw [seqNextBody_eq]
  exact .bind (seqDecode_edits.mono (List.subset_append_left _ _)) fun _ =>
    .ite (closeSequences_edits.mono (List.subset_append_right _ _)) (.pure _)

theorem seqExecBody_edits : Cmd.Edits Instr.seqExec.edits seqExecBody :=
  .bind (.stateCheck _) fun _ => .bind (.update fun _ => .consume _) fun _ =>
    .bind .current fun _ => .bind (wLitBody_edits _) fun _ => wCopyBody_edits _ _

theorem seqLoop_edits (fuel : Nat) : Cmd.Edits Instr.seqRun.edits (seqLoop fuel) := by
  have hnext : Cmd.Edits Instr.seqRun.edits seqNextBody :=
    seqNextBody_edits.mono (List.subset_append_left _ _)
  have hexec : Cmd.Edits Instr.seqRun.edits seqExecBody :=
    seqExecBody_edits.mono (List.subset_append_right _ _)
  induction fuel with
  | zero => exact .pure _
  | succ fuel ih =>
    refine .bind .current fun _ => .ite (.bind hexec fun _ => ?_) ?_ <;>
    exact .bind .current fun _ => .ite (.bind hnext fun _ => ih) (.pure _)

/-! ### Every command -/

/-- Every run of a command, completed or faulted, is a path of its rule's assignments. -/
theorem bodyOf_edits (i : Instr) : Cmd.Edits i.edits (bodyOf i) := by
  cases i with
  | nop => exact .pure _
  | frameInit c =>
    exact .bind .current fun _ => .bind (.raiseIf _ _ _) fun _ => .update fun _ => .frameInit _ _
  | rdOpen rpos len =>
    exact .bind .quiet fun _ => .bind .current fun _ => .bind (.raiseIf _ _ _) fun _ =>
      .bind (.raiseIf _ _ _) fun _ => .update fun _ => .reader _ _ _
  | frameEnd hasSize lo hi =>
    exact .bind .quiet fun _ => .bind .current fun _ => .raiseIf _ _ _
  | wRaw n =>
    exact .bind .quiet fun _ => .bind (.need _) fun _ => .bind (.winRoom _) fun _ =>
      .bind .current fun _ => .bind (winAppend_edits _) fun _ => skip_edits _
  | wRle n =>
    exact .bind .quiet fun _ => .bind (.need _) fun _ => .bind (.winRoom _) fun _ =>
      .bind readU8_edits fun _ => winAppend_edits _
  | wLit n => exact wLitBody_edits _
  | wLitrest => exact wLitrestBody_edits
  | wCopy offset length => exact wCopyBody_edits _ _
  | litRaw n => exact litRawBody_edits n
  | litRle n => exact litRleBody_edits n
  | litHuf streams regen comp =>
    exact litHufBody_edits _ _ _ (fun fin => (hufTree_edits fin).mono (by simp [Instr.edits]))
      (by simp [Instr.edits]) (by simp [Instr.edits]) (by simp [Instr.edits])
  | litHufr streams regen comp =>
    exact litHufBody_edits _ _ _ (fun _ => .bind .current fun _ => .raiseIf _ _ _)
      (by simp [Instr.edits]) (by simp [Instr.edits]) (by simp [Instr.edits])
  | fseBuild sl =>
    exact .bind .quiet fun _ => .bind .current fun _ => .bind (readHeader_edits _ _) fun _ =>
      fseFromDist_edits _ _ _
  | fseLoad sl al n =>
    exact .bind .quiet fun _ => .bind .current fun _ => .bind (.raiseIf _ _ _) fun _ =>
      .bind (.need _) fun _ => .bind (readProbs_edits _) fun _ => fseFromDist_edits _ _ _
  | fsePredef sl =>
    refine .bind .quiet fun _ => .bind .current fun s => ?_
    cases s.params.predef sl with
    | none => exact .pure _
    | some d => exact fseFromDist_edits _ _ _
  | fseRle sl symbol =>
    exact .bind .quiet fun _ => .bind .current fun _ => .bind (.raiseIf _ _ _) fun _ =>
      .update fun _ => .table _ _ _ _ _ rfl
  | bsOpen n =>
    exact .bind .quiet fun _ => .bind (.raiseIf _ _ _) fun _ =>
      .bind (openSection_edits _) fun _ => .update fun _ => .openBits _
  | bsRead k =>
    exact .bind .primitiveOpen fun _ => .bind (.raiseIf _ _ _) fun _ =>
      .bind (backRead_edits _) fun _ => .update fun _ => .val _ _
  | bsClose =>
    exact .bind .primitiveOpen fun _ => .bind .overrun fun _ => .bind .current fun _ =>
      .bind (.raiseIf _ _ _) fun _ => .update fun _ => .closeBits _
  | fseInit sl =>
    exact .bind .primitiveOpen fun _ => .bind (.tableValid _) fun _ => initState_edits _
  | fseEmit sl =>
    exact .bind (.stateCheck _) fun _ => .bind (.tableValid _) fun _ =>
      .bind (.stateReady _) fun _ => .update fun _ => .sym _ _
  | fseNext sl =>
    exact .bind .primitiveOpen fun _ => .bind (.tableValid _) fun _ =>
      .bind (.stateReady _) fun _ => advanceState_edits _
  | seqOpen n count =>
    exact .bind .quiet fun _ => .bind (.raiseIf _ _ _) fun _ => .bind (.raiseIf _ _ _) fun _ =>
      .bind (.tableValid _) fun _ => .bind (.tableValid _) fun _ => .bind (.tableValid _) fun _ =>
        .bind (openSection_edits _) fun _ => .bind (.update fun _ => .openSeq _) fun _ =>
          .bind (.update fun _ => .seqLeft _ _) fun _ =>
            .bind (.bind (initState_edits _) fun _ => .overrun) fun _ =>
              .bind (.bind (initState_edits _) fun _ => .overrun) fun _ =>
                .bind (initState_edits _) fun _ => .overrun
  | seqNext => exact seqNextBody_edits
  | seqExec => exact seqExecBody_edits
  | seqRun =>
    exact .bind (.stateCheck _) fun _ => .bind .current fun _ => .bind (seqLoop_edits _) fun _ =>
      wLitrestBody_edits

end Sys2Proof.Machine

namespace Sys2Proof.Machine

/-! ### What each assignment changes -/

/-- The parts of the state that no assignment changes. -/
structure Untouched (s t : State) : Prop where
  fault : t.status.fault = s.status.fault
  err : t.err = s.err
  errInfo : t.errInfo = s.errInfo
  cp : t.cp = s.cp
  input : t.reader.mem = s.reader.mem
  params : t.params = s.params
  host : t.host = s.host

theorem Untouched.refl (s : State) : Untouched s s := ⟨rfl, rfl, rfl, rfl, rfl, rfl, rfl⟩

theorem Untouched.trans {s t u : State} (h : Untouched s t) (k : Untouched t u) : Untouched s u :=
  ⟨k.fault.trans h.fault, k.err.trans h.err, k.errInfo.trans h.errInfo, k.cp.trans h.cp,
    k.input.trans h.input, k.params.trans h.params, k.host.trans h.host⟩

theorem Edit.Makes.untouched {e : Edit} {s t : State} (h : e.Makes s t) : Untouched s t := by
  cases h <;> exact ⟨rfl, rfl, rfl, rfl, rfl, rfl, rfl⟩

theorem Path.untouched {es : List Edit} {s t : State} (h : Path es s t) : Untouched s t :=
  h.keeps Untouched.refl (fun _ _ _ => Untouched.trans) fun _ _ _ _ => Edit.Makes.untouched

/-- The numbered registers that an assignment may change, from 4 up (rule R24). -/
def Edit.registers : Edit → List Nat
  | .frameInit => [6, 7, 8, 9, 10, 11, 12, 13, 20, 21, 22, 23, 24, 25, 26, 27, 28]
  | .reader => [4, 5]
  | .rpos => [4]
  | .append | .copy => [6, 7]
  | .litPos => [9]
  | .litMem => []
  | .litFill => [9, 10]
  | .bits => [11, 12, 13]
  | .bsPos => [13]
  | .val => [14]
  | .sym => [15]
  | .fseState sl => [16 + sl.num]
  | .sinit sl | .table sl => [20 + sl.num]
  | .huffman => [24]
  | .reps => [25, 26, 27]
  | .seqLeft => [28]
  | .sequence => [29, 30, 31, 32]
  | .openBits | .openSeq | .offer | .consume => []
  | .closeBits | .closeSeq => [4, 20, 21, 22, 23]

theorem register_eq_none (s : State) {n : Nat} (h : 32 < n) : s.register n = none := by
  rw [← Option.isNone_iff_eq_none, ← Option.not_isSome, register_isSome]
  simpa using h

/-- A register number stands for a part the assignment leaves, or is one of its list. -/
theorem Edit.Makes.register {e : Edit} {s t : State} {n : Nat} (h : e.Makes s t) (h4 : 4 ≤ n)
    (hn : n ∉ e.registers) : t.register n = s.register n := by
  by_cases h32 : 32 < n
  · rw [register_eq_none t h32, register_eq_none s h32]
  have h32 := Nat.not_lt.1 h32
  cases h with
  | fseState _ sl _ | sinit _ sl | table _ sl _ _ _ _ =>
    cases sl <;> interval_cases n <;> first | rfl | simp [Edit.registers, Slot.num] at hn
  | _ => interval_cases n <;> first | rfl | simp [Edit.registers] at hn

/-- The flags of `STATUS` that commands write (rule R25). -/
inductive Flag where
  | bsOpen
  | seqActive
  | seqValid

def Flag.of (x : Status) : Flag → Bool
  | .bsOpen => x.bsOpen
  | .seqActive => x.seqActive
  | .seqValid => x.seqValid

/-- The assignments that set a flag, or clear it (rule R25). -/
def Edit.sets : Edit → Flag → (value : Bool) → Bool
  | .openBits, .bsOpen, true | .openSeq, .bsOpen, true | .openSeq, .seqActive, true
  | .offer, .seqValid, true => true
  | .closeBits, .bsOpen, false | .closeSeq, .bsOpen, false | .closeSeq, .seqActive, false
  | .openSeq, .seqValid, false | .consume, .seqValid, false | .frameInit, _, false => true
  | _, _, _ => false

/-- An assignment leaves the flag, or is one of those that set it so. -/
theorem Edit.Makes.flag {e : Edit} {s t : State} {f : Flag} {v : Bool} (h : e.Makes s t)
    (hs : f.of s.status ≠ v) (he : e.sets f v = false) : f.of t.status ≠ v := by
  cases h <;> cases f <;> cases v <;>
    first
    | exact hs
    | exact fun h => Bool.noConfusion h
    | exact Bool.noConfusion he

/-- A flag that a path changes is set by one of its assignments. -/
theorem Path.flag {es : List Edit} {s t : State} {f : Flag} {v : Bool} (h : Path es s t)
    (hs : f.of s.status ≠ v) (ht : f.of t.status = v) : ∃ e ∈ es, e.sets f v = true := by
  by_contra hno
  have hkeep := h.keeps (R := fun s t => f.of s.status ≠ v → f.of t.status ≠ v)
    (fun _ => id) (fun _ _ _ h1 h2 => h2 ∘ h1) fun e he s t hm hs =>
      hm.flag hs (by by_contra hne; exact hno ⟨e, he, by simpa using hne⟩)
  exact hkeep hs ht

/-! ### Presenting a command or a word, as a path -/

/-- A state that a command presented in `s` may leave: the path of its assignments, then completion
or fault entry (rules R121, R314). -/
inductive Ends (es : List Edit) (s : State) : State → Prop
  | completed (u : State) (path : Path es (begin s) u) : Ends es s (complete u)
  | faulted (r : Raise) (u : State) (path : Path es (begin s) u) : Ends es s (faultEntry r u)

/-- A command presented to a ready unit answers a next state, at the end of its path. -/
theorem exec_ends (i : Instr) {s : State} (h : s.Ready) :
    ∃ t, exec i s = .next t ∧ Ends i.edits s t := by
  obtain ⟨hb, hf⟩ := h
  cases hw : i.wf with
  | false =>
    exact ⟨_, by rw [exec_eq_present, present_illFormed hb hf hw], .faulted _ _ Path.refl⟩
  | true =>
    have hpath := bodyOf_edits i (begin s)
    rw [exec_ready hb hf hw]
    cases hx : bodyOf i (begin s) with
    | ok _ u =>
      rw [hx] at hpath
      exact ⟨_, rfl, .completed u hpath⟩
    | error r u =>
      rw [hx] at hpath
      exact ⟨_, rfl, .faulted r u hpath⟩

theorem ends_of_exec {i : Instr} {s t : State} (h : s.Ready) (hr : exec i s = .next t) :
    Ends i.edits s t := by
  obtain ⟨t', ht, he⟩ := exec_ends i h
  rw [ht] at hr
  cases hr
  exact he

/-- Every word presented to a ready unit ends so, an illegal one without an assignment. -/
theorem presentWord_ends (c : CmdWord) {s : State} (h : s.Ready) :
    ∃ t, presentWord c s = .next t ∧ ∃ es, Ends es s t := by
  cases hd : decode c with
  | ok i =>
    obtain ⟨t, ht, he⟩ := exec_ends i h
    exact ⟨t, by rw [presentWord_ok hd, ht], _, he⟩
  | error e =>
    exact ⟨_, by rw [presentWord_error hd, presentIllegal_ready h.1 h.2], [],
      .faulted _ _ Path.refl⟩

/-- A word that is answered was ignored by the latch, or ran to its end. -/
theorem presentWord_cases {c : CmdWord} {s t : State} (hr : presentWord c s = .next t) :
    s.status.fault = true ∧ t = s ∨ s.status.fault = false ∧ ∃ es, Ends es s t := by
  cases hb : s.status.busy with
  | true =>
    rw [presentWord_busy c hb] at hr
    cases hr
  | false =>
    cases hf : s.status.fault with
    | true =>
      rw [presentWord_latched c hb hf] at hr
      cases hr
      exact .inl ⟨rfl, rfl⟩
    | false =>
      obtain ⟨t', ht, he⟩ := presentWord_ends c ⟨hb, hf⟩
      rw [ht] at hr
      cases hr
      exact .inr ⟨rfl, he⟩

namespace Ends

variable {es : List Edit} {s t : State} (h : Ends es s t)
include h

theorem idle : t.status.busy = false := by
  cases h <;> rfl

/-- A completed command advances `CP`, a faulted one leaves it (rules R26, R121). -/
theorem cp (hf : s.status.fault = false) :
    (t.status.fault = false → t.cp = s.cp + 1) ∧ (t.status.fault = true → t.cp = s.cp) := by
  cases h with
  | completed u path =>
    refine ⟨fun _ => congrArg (· + 1) path.untouched.cp, fun ht => ?_⟩
    exact absurd ((path.untouched.fault.trans hf).symm.trans ht) nofun
  | faulted r u path => exact ⟨nofun, fun _ => path.untouched.cp⟩

/-- Only a fault writes `ERR` and `ERRINFO`, with a code of rule R310. -/
theorem err :
    (t.status.fault = false → t.err = s.err ∧ t.errInfo = s.errInfo) ∧
      (t.status.fault = true → s.status.fault = false → ∃ f : UnitFault, t.err = f.code) := by
  cases h with
  | completed u path =>
    refine ⟨fun _ => ⟨path.untouched.err, path.untouched.errInfo⟩, fun ht hf => ?_⟩
    exact absurd ((path.untouched.fault.trans hf).symm.trans ht) nofun
  | faulted r u path => exact ⟨nofun, fun _ _ => ⟨r.fault, rfl⟩⟩

/-- No command changes `IN`, a parameter or the host's side. -/
theorem untouched : t.reader.mem = s.reader.mem ∧ t.params = s.params ∧ t.host = s.host := by
  cases h with
  | completed u path | faulted r u path =>
    exact ⟨path.untouched.input, path.untouched.params, path.untouched.host⟩

/-- A flag that changes is set by one of the assignments. -/
theorem flag {f : Flag} {v : Bool} (hs : f.of s.status ≠ v) (ht : f.of t.status = v) :
    ∃ e ∈ es, e.sets f v = true := by
  have hs : f.of (begin s).status ≠ v := by cases f <;> exact hs
  cases h with
  | completed u path => exact path.flag hs (by cases f <;> exact ht)
  | faulted r u path => exact path.flag hs (by cases f <;> exact ht)

/-- A part of the state that neither the assignments nor the prologue and epilogue change. -/
theorem fixes {β : Type} {g : State → β} (hb : g (begin s) = g s) (hc : ∀ u, g (complete u) = g u)
    (hf : ∀ r u, g (faultEntry r u) = g u)
    (he : ∀ e ∈ es, ∀ s t, e.Makes s t → g t = g s) : g t = g s := by
  cases h with
  | completed u path => rw [hc, path.fixes he, hb]
  | faulted r u path => rw [hf, path.fixes he, hb]

end Ends

end Sys2Proof.Machine

namespace Sys2Proof.Machine

/-! # The machine as a whole -/

/-! ### Steps and ports -/

/-- Settles O7: the step takes the next move, and a presented word runs the command it decodes
to. -/
theorem stepRunsDecodedCommand : Obligations.StepRunsDecodedCommand := by
  refine ⟨fun s c rest i hm hd => ?_, fun s w i hw hd => ?_⟩
  · rw [step_move hm, runMove, presentWord_ok hd, withMoves_eq]
  · have hm : (s.withFetchWord 96 w).host.moves = .command (BitVec.ofNat 96 w) :: s.host.moves := by
      rw [State.withFetchWord, Nat.mod_eq_of_lt hw]
      rfl
    rw [step_move hm, runMove, presentWord_ok hd]
    rfl

/-- A move other than reset is refused while the unit is busy. -/
theorem runMove_busy {m : HostMove} {s : State} (hb : s.status.busy = true) (hm : m ≠ .reset) :
    runMove m s = .refused .whileBusy := by
  cases m with
  | command c => exact presentWord_busy c hb
  | writeIn a b | readReg n | readMem sp a => exact whenIdle_busy hb
  | reset => exact absurd rfl hm

/-- Settles O8: each move's outcome, inside its range and outside. -/
theorem hostPortsReadAndWrite : Obligations.HostPortsReadAndWrite := by
  intro s rest
  refine ⟨step_idle, fun hb => ⟨fun a b hm => ?_, fun sp a hm => ?_, fun n hm => ?_⟩,
    fun hb m hm hne => ?_⟩
  · rw [step_move hm, runMove, whenIdle_idle (s := s.withMoves rest) hb, hostWriteIn]
    refine ⟨fun ha => ⟨s.reader.mem.write a b, fun k => ?_, withinSpace_inside ha⟩,
      fun ha => withinSpace_outside ha⟩
    rw [Memory.lookup_write]
    exact if_congr (by omega) rfl rfl
  · rw [step_move hm, runMove, whenIdle_idle (s := s.withMoves rest) hb, hostReadMem]
    exact ⟨fun ha => withinSpace_inside ha, fun ha => withinSpace_outside ha⟩
  · rw [step_move hm, runMove, whenIdle_idle (s := s.withMoves rest) hb, hostReadReg]
    have hreg : (s.withMoves rest).register n = s.register n := rfl
    rw [hreg]
    refine ⟨fun hn => ?_, fun hn => ?_⟩
    · obtain ⟨v, hv⟩ := Option.isSome_iff_exists.1 ((register_isSome s n).trans (decide_eq_true hn))
      rw [hv]
      exact ⟨v, rfl, rfl⟩
    · rw [register_eq_none s hn]
      exact ⟨_, rfl⟩
  · rw [step_move hm]
    exact runMove_busy hb hne

/-- What every kind of move keeps, every step keeps. -/
theorem step_keeps {P : State → Prop}
    (hword : ∀ c s t, P s → presentWord c s = .next t → P t)
    (hreset : ∀ s, P s → P (applyReset s))
    (hinput : ∀ s a b, P s → P (s.setReader { s.reader with mem := s.reader.mem.write a b }))
    (hhost : ∀ s x, x.epoch = s.host.epoch → P s → P (s.setHost x))
    {s t : State} (hs : P s) (hr : step s = .next t) : P t := by
  cases hm : s.host.moves with
  | nil =>
    rw [step_idle hm] at hr
    cases hr
    exact hs
  | cons m rest =>
    rw [step_move hm] at hr
    have hs : P (s.withMoves rest) := hhost s _ rfl hs
    cases m with
    | command c => exact hword c _ t hs hr
    | reset =>
      cases hr
      exact hreset _ hs
    | writeIn a b | readReg n | readMem sp a =>
      rcases runMove_quiet hr (fun _ => nofun) nofun with ⟨a, b, -, -, rfl⟩ | ⟨x, rfl, -, hx⟩
      · exact hinput _ a b hs
      · exact hhost _ x hx hs

/-! ### Reset (rules R44, R350, R351) -/

/-- After a reset the registers to which rule R44 gives the value 0 have it. -/
theorem applyReset_register (s : State) :
    ∀ n ∈ [0, 1, 2, 3, 4, 5, 6, 7, 8, 9, 10, 11, 12, 13, 20, 21, 22, 23, 24, 28],
      (applyReset s).register n = some 0 := by
  intro n hn
  fin_cases hn <;> rfl

theorem applyReset_slot (s : State) (sl : Slot) : (applyReset s).slot sl = FseSlot.reset := by
  cases sl <;> rfl

/-- Settles O9: a reset move answers the reset state with the parameters and the later moves. -/
theorem resetMoveRestarts : Obligations.ResetMoveRestarts := by
  intro s rest hm
  refine ⟨_, step_move hm, applyReset_register _, rfl, rfl, rfl, rfl, fun sl => ?_, rfl,
    fun a => ⟨rfl, rfl, rfl, rfl⟩, fun sl a => ?_, rfl, rfl, Nat.succ_ne_self _⟩ <;>
  · rw [applyReset_slot]
    rfl

/-- Settles O10: `State.reset` has in its registers what a reset move leaves in them. -/
theorem resetGivesTheSpecsValues : Obligations.ResetGivesTheSpecsValues :=
  ⟨applyReset_register State.reset, rfl, rfl, rfl⟩

/-- Settles O11: no table is valid, nothing is open, and every memory is empty. -/
theorem resetMeetsTheInvariants : Obligations.ResetMeetsTheInvariants := by
  have hslot : ∀ sl, State.reset.slot sl = FseSlot.reset := fun sl => by cases sl <;> rfl
  have hp : State.reset.params.wf = true := by decide
  have hsteady : Steady State.reset := by
    refine ⟨hp, ⟨Nat.zero_le _, Nat.zero_le _⟩, ⟨rfl, Nat.zero_le _, Nat.zero_le _⟩,
      ⟨Nat.zero_le _, Nat.zero_le _⟩, nofun, fun sl => ?_, fun sl => ?_, nofun,
      (Params.fits_of_wf hp).reps, nofun⟩ <;>
    · rw [hslot]
      exact nofun
  refine ⟨inv_iff.2 ⟨rfl, hp, fun _ => hsteady.rules rfl⟩, ⟨fun sl => ?_, nofun, nofun, nofun⟩,
    ⟨Memory.wf_nil, Memory.wf_nil, Memory.wf_nil, fun sl => ?_, Memory.wf_nil⟩,
    fun _ => ⟨rfl, rfl⟩, nofun⟩ <;>
  rw [hslot]
  · exact nofun
  · exact Memory.wf_nil

/-! ### The fault record (rules R27, R310, R314) -/

theorem presentWord_keeps_errRecord {c : CmdWord} {s t : State} (h : ErrRecord s)
    (hr : presentWord c s = .next t) : ErrRecord t := by
  rcases presentWord_cases hr with ⟨-, rfl⟩ | ⟨hf, es, he⟩
  · exact h
  · obtain ⟨herr, hinfo⟩ := h.1 hf
    refine ⟨fun hf' => ?_, fun hf' => he.err.2 hf' hf⟩
    obtain ⟨e1, e2⟩ := he.err.1 hf'
    exact ⟨e1.trans herr, e2.trans hinfo⟩

/-- Settles O14: only a fault writes the record, and reset clears it. -/
theorem stepKeepsErrRecord : Obligations.StepKeepsErrRecord := by
  intro s t h hr
  exact step_keeps (fun _ _ _ => presentWord_keeps_errRecord)
    (fun _ _ => ⟨fun _ => ⟨rfl, rfl⟩, nofun⟩) (fun _ _ _ => id) (fun _ _ _ => id) h hr

/-! ### `CP` (rule R26) -/

theorem runAll_latched (cs : List CmdWord) {s : State} (hb : s.status.busy = false)
    (hf : s.status.fault = true) : runAll presentWord cs s = .next s := by
  induction cs with
  | nil => rfl
  | cons c cs ih =>
    rw [runAll, presentWord_latched c hb hf]
    exact ih

/-- What a stream of words presented to a ready unit leaves in `CP`: the number of words, or the
number before the one that faulted, on top of what it held. -/
theorem runAll_cp (cs : List CmdWord) {s : State} (h : s.Ready) :
    ∃ t, runAll presentWord cs s = .next t ∧
      (t.status.fault = false → t.cp = s.cp + BitVec.ofNat 32 cs.length) ∧
      (t.status.fault = true → ∃ k u, ∃ h : k < cs.length, t.cp = s.cp + BitVec.ofNat 32 k ∧
        runAll presentWord (cs.take k) s = .next u ∧ u.status.fault = false ∧
        presentWord cs[k] u = .next t) := by
  induction cs generalizing s with
  | nil =>
    exact ⟨s, rfl, fun _ => (BitVec.add_zero _).symm,
      fun hf => absurd (h.2.symm.trans hf) nofun⟩
  | cons c cs ih =>
    obtain ⟨s', hs', es, he⟩ := presentWord_ends c h
    obtain ⟨hdone, hfault⟩ := he.cp h.2
    simp only [runAll, hs']
    cases hf : s'.status.fault with
    | true =>
      refine ⟨s', runAll_latched cs he.idle hf, fun hf' => absurd (hf.symm.trans hf') nofun,
        fun _ => ?_⟩
      exact ⟨0, s, Nat.succ_pos _, (hfault hf).trans (BitVec.add_zero _).symm, rfl, h.2, hs'⟩
    | false =>
      have hshift (n : Nat) : s'.cp + BitVec.ofNat 32 n = s.cp + BitVec.ofNat 32 (n + 1) := by
        rw [hdone hf, BitVec.ofNat_add, BitVec.add_assoc, BitVec.add_comm 1]
        rfl
      obtain ⟨t, ht, htok, htfault⟩ := ih ⟨he.idle, hf⟩
      refine ⟨t, ht, fun hf' => (htok hf').trans (hshift _), fun hf' => ?_⟩
      obtain ⟨k, u, hk, hcp, hu, huf, hlast⟩ := htfault hf'
      exact ⟨k + 1, u, Nat.succ_lt_succ hk, hcp.trans (hshift k), by
        rw [List.take_succ_cons, runAll, hs']; exact hu, huf, hlast⟩

/-- Settles O13: one command by the end of its path, a stream by induction on its words. -/
theorem cpCountsCompletedCommands : Obligations.CpCountsCompletedCommands := by
  refine ⟨fun i s t hb hr => ?_, fun cs s h hcp => ?_⟩
  · cases hf : s.status.fault with
    | true =>
      rw [exec_eq_present, present, presentBody_latched hb hf] at hr
      cases hr
      exact ⟨fun hf' => absurd (hf.symm.trans hf') nofun, fun _ => rfl⟩
    | false => exact (ends_of_exec ⟨hb, hf⟩ hr).cp hf
  · have hrun := runAll_cp cs h
    simpa only [hcp, zero_add] using hrun

end Sys2Proof.Machine

namespace Sys2Proof.Machine

/-! # Who writes what (rules R24, R25, R38, R60) -/

/-! ### Memories -/

/-- The memories of the unit but `IN` (rules R38, R39, R60). -/
inductive Mem where
  | lit
  | win
  | fse (sl : Slot)
  | huf
deriving DecidableEq

/-- The memory an assignment stores in. -/
def Edit.stores : Edit → Option Mem
  | .append | .copy => some .win
  | .litMem => some .lit
  | .table sl => some (.fse sl)
  | .huffman => some .huf
  | _ => none

/-- The memory is the same in both states. -/
def Mem.Same (s t : State) : Mem → Prop
  | .lit => t.lits.mem = s.lits.mem
  | .win => t.window.mem = s.window.mem
  | .fse sl => (t.slot sl).tab = (s.slot sl).tab
  | .huf => t.huf.tab = s.huf.tab

theorem Edit.Makes.mem_same {e : Edit} {s t : State} (h : e.Makes s t) {m : Mem}
    (hm : e.stores ≠ some m) : m.Same s t := by
  cases m with
  | lit | win | huf => cases h <;> first | rfl | exact absurd rfl hm
  | fse sl =>
    cases h with
    | table _ sl' | fseState _ sl' | sinit _ sl' =>
      cases sl <;> cases sl' <;> first | rfl | exact absurd rfl hm
    | _ => cases sl <;> rfl

/-- A memory that none of the assignments stores in. -/
theorem Ends.mem_same {es : List Edit} {s t : State} (h : Ends es s t) {m : Mem}
    (hm : (es.any fun e => e.stores = some m) = false) : m.Same s t := by
  have hpath : ∀ {u : State}, Path es (begin s) u → m.Same (begin s) u := fun {u} path =>
    path.keeps (R := fun s t => m.Same s t) (fun _ => by cases m <;> rfl)
      (fun _ _ _ h1 h2 => by cases m <;> exact h2.trans h1)
      fun e he s t hmk => hmk.mem_same (by simpa using List.any_eq_false.1 hm e he)
  cases h with
  | completed u path | faulted r u path =>
    have hu := hpath path
    cases m <;> exact hu

theorem stores_lit {i : Instr} (h : i.fillsLits = false) :
    (i.edits.any fun e => e.stores = some .lit) = false := by
  cases i with
  | litRaw | litRle | litHuf | litHufr => exact Bool.noConfusion h
  | _ => rfl

theorem stores_win {i : Instr} (h : i.writesWin = false) :
    (i.edits.any fun e => e.stores = some .win) = false := by
  cases i with
  | wRaw | wRle | wLit | wLitrest | wCopy | seqExec | seqRun => exact Bool.noConfusion h
  | _ => rfl

theorem stores_fse {i : Instr} {sl : Slot} (h : i.buildsSlot sl = false) :
    (i.edits.any fun e => e.stores = some (.fse sl)) = false := by
  cases i with
  | fseBuild sl' | fseLoad sl' | fsePredef sl' | fseRle sl' =>
    cases sl <;> cases sl' <;> first | rfl | exact Bool.noConfusion h
  | litHuf => cases sl <;> first | rfl | exact Bool.noConfusion h
  | _ => rfl

theorem stores_huf {i : Instr} (h : ∀ n a b, i ≠ .litHuf n a b) :
    (i.edits.any fun e => e.stores = some .huf) = false := by
  cases i with
  | litHuf n a b => exact absurd rfl (h n a b)
  | _ => rfl

/-- Settles O19: no assignment changes `IN`, a parameter or the host's side, and the assignments
that store in a memory stand only in the commands listed for it. -/
theorem memoriesAreWrittenByTheirCommands : Obligations.MemoriesAreWrittenByTheirCommands := by
  intro i s t h hr
  have he := ends_of_exec h hr
  obtain ⟨hin, hparams, hhost⟩ := he.untouched
  exact ⟨hin, fun hi => he.mem_same (m := .lit) (stores_lit hi),
    fun hi => he.mem_same (m := .win) (stores_win hi),
    fun sl hi => he.mem_same (m := .fse sl) (stores_fse hi),
    fun hi => he.mem_same (m := .huf) (stores_huf hi), hparams, hhost⟩

/-! ### Numbered registers -/

/-- The registers that a command's assignments change are the ones it is listed for (rule R24). -/
theorem writes_of_edits (i : Instr) {e : Edit} (he : e ∈ i.edits) {n : Nat}
    (hn : n ∈ e.registers) : i.writes n = true := by
  have hall : (i.edits.all fun e => e.registers.all i.writes) = true := by
    cases i with
    | fseBuild sl | fseLoad sl | fsePredef sl | fseRle sl | fseInit sl | fseNext sl =>
      cases sl <;> rfl
    | _ => rfl
  exact List.all_eq_true.1 (List.all_eq_true.1 hall e he) n hn

/-- The registers from 4 up are not written by the prologue, the epilogue or fault entry. -/
theorem register_of_same_parts {n : Nat} (h : 4 ≤ n) (s : State) (x : Status) (e i c : Word) :
    ({ s with status := x, err := e, errInfo := i, cp := c } : State).register n =
      s.register n := by
  by_cases h32 : 32 < n
  · rw [register_eq_none _ h32, register_eq_none _ h32]
  have h32 := Nat.not_lt.1 h32
  interval_cases n <;> rfl

/-! ### One sequence and the end of its section (rule R246) -/

theorem readEdits_seq {s t : State} (h : Path readEdits s t) : t.seq = s.seq := by
  refine h.fixes (g := State.seq) fun e he s t hm => ?_
  simp only [readEdits, List.mem_cons, List.not_mem_nil, or_false] at he
  rcases he with rfl | rfl | rfl | rfl <;> cases hm <;> rfl

theorem storeSequence_left {v ml ll : Nat} {s t : State} {u : Unit}
    (h : storeSequence v ml ll s = .ok u t) : t.seq.left = s.seq.left := by
  simp only [storeSequence, bind_ok, current_done, lift_done, update_done] at h
  obtain ⟨_, _, ⟨rfl, rfl⟩, r, _, ⟨-, rfl⟩, _, _, rfl, _, _, rfl, rfl⟩ := h
  rfl

/-- A sequence that is decoded leaves one less, and the number left is answered. -/
theorem seqDecode_left {n : Nat} {s t : State} (h : seqDecode s = .ok n t) :
    t.seq.left.toNat = n ∧ n = s.seq.left.toNat - 1 := by
  simp only [seqDecode, bind_ok, run_stateCheck, passed_ok, EStateM.Result.ok.injEq, current_done,
    update_done] at h
  obtain ⟨_, _, ⟨-, -, rfl⟩, _, _, ⟨rfl, rfl⟩, v, s1, h1, ml, s2, h2, ll, s3, h3, _, _, rfl,
    _, _, ⟨rfl, rfl⟩, h⟩ := h
  have q1 := readEdits_seq ((readCode_edits _).of_ok h1)
  have q2 := readEdits_seq ((readCode_edits _).of_ok h2)
  have q3 := readEdits_seq ((readCode_edits _).of_ok h3)
  have hleft : (BitVec.ofNat 32 (s3.seq.left.toNat - 1)).toNat = s.seq.left.toNat - 1 := by
    have hlt := s3.seq.left.isLt
    rw [BitVec.toNat_ofNat, Nat.mod_eq_of_lt (by omega), q3, q2, q1]
  have hstore : ∀ {u : State}, u.seq.left = BitVec.ofNat 32 (s3.seq.left.toNat - 1) →
      (do storeSequence v ml ll
          pure (BitVec.ofNat 32 (s3.seq.left.toNat - 1)).toNat : Cmd Nat) u = .ok n t →
      t.seq.left.toNat = n ∧ n = s.seq.left.toNat - 1 := fun {u} hu h => by
    obtain ⟨_, _, hstore, h⟩ := bind_ok.1 h
    obtain ⟨rfl, rfl⟩ := pure_ok.1 h
    exact ⟨by rw [storeSequence_left hstore, hu], hleft⟩
  split at h
  · obtain ⟨_, s5, h5, h⟩ := bind_ok.1 h
    exact hstore (by rw [readEdits_seq (advanceStates_edits.of_ok h5)]; rfl) h
  · refine hstore ?_ h
    rfl

/-- Before the last sequence SEQ_NEXT leaves the Reader where it is. -/
theorem seqNextBody_reader {s : State} (h : 2 ≤ s.seq.left.toNat) :
    match seqNextBody s with
    | .ok _ t => t.reader = s.reader
    | .error _ t => t.reader = s.reader := by
  have hfix : Cmd.Fixes State.reader seqDecode := seqDecode_edits.fixes fun e he s t hm => by
    simp only [decodeEdits, readEdits, List.cons_append, List.nil_append, List.mem_cons,
      List.not_mem_nil, or_false] at he
    rcases he with rfl | rfl | rfl | rfl | rfl | rfl | rfl | rfl <;> cases hm <;> rfl
  rw [seqNextBody_eq, run_bind]
  cases hx : seqDecode s with
  | error r u => exact hfix.of_error hx
  | ok n u =>
    obtain ⟨-, hn⟩ := seqDecode_left hx
    simp only [if_neg (show n ≠ 0 by omega)]
    exact Cmd.Keeps.of_ok hfix hx

/-- Settles O17: the registers of a command's assignments are those it is listed for; before the
last sequence SEQ_NEXT does not reach the end of its section. -/
theorem registersAreWrittenByTheirCommands : Obligations.RegistersAreWrittenByTheirCommands := by
  intro i s t h hr
  have he := ends_of_exec h hr
  refine ⟨fun n h4 hn => ?_, fun hf => ?_, fun hi hne => ?_⟩
  · refine he.fixes (g := fun s => s.register n) (register_of_same_parts h4 s _ _ _ _)
      (fun u => register_of_same_parts h4 u _ _ _ _)
      (fun r u => register_of_same_parts h4 u _ _ _ _)
      fun e hmem s t hm => hm.register h4 fun hr => ?_
    exact absurd (hn.symm.trans (writes_of_edits i hmem hr)) nofun
  · obtain ⟨h1, h2⟩ := he.err.1 hf
    exact ⟨congrArg some h1, congrArg some h2⟩
  · subst hi
    by_contra hleft
    have hreader := seqNextBody_reader (s := begin s) (show 2 ≤ s.seq.left.toNat by omega)
    rw [exec_ready h.1 h.2 rfl, bodyOf] at hr
    cases hx : seqNextBody (begin s) with
    | ok _ u | error _ u =>
      rw [hx] at hr hreader
      cases hr
      exact hne (congrArg (fun x : Reader => some x.rpos) hreader)

/-! ### Flags -/

/-- What SEQ_NEXT completed leaves: a section with one sequence less, or no section. -/
theorem seqNextBody_done {s t : State} (h : seqNextBody s = .ok () t) :
    t.status.seqActive = true → 1 ≤ t.seq.left.toNat ∧ t.seq.left.toNat = s.seq.left.toNat - 1 := by
  rw [seqNextBody_eq] at h
  obtain ⟨n, u, hu, h⟩ := bind_ok.1 h
  obtain ⟨hleft, hn⟩ := seqDecode_left hu
  split at h
  · simp only [closeSequences, bind_ok, current_done, raiseIf_passed, update_done] at h
    obtain ⟨_, _, ⟨rfl, rfl⟩, _, _, ⟨-, rfl⟩, rfl⟩ := h
    exact nofun
  · cases h
    exact fun _ => ⟨by omega, by omega⟩

/-- What SEQ_EXEC completed leaves: no sequence waits, and the section is as it was. -/
theorem seqExecBody_done {s t : State} (h : seqExecBody s = .ok () t) :
    t.status = { s.status with seqValid := false } ∧ t.seq = s.seq := by
  simp only [seqExecBody, bind_ok, run_stateCheck, passed_ok, EStateM.Result.ok.injEq, current_done,
    update_done, run_wLitBody, run_wCopyBody] at h
  obtain ⟨_, _, ⟨-, -, rfl⟩, _, _, rfl, _, _, ⟨rfl, rfl⟩, _, _, ⟨-, -, -, rfl⟩, -, -, -, rfl⟩ := h
  exact ⟨rfl, rfl⟩

/-- The loop of SEQ_RUN, with passes for every sequence left and one more, ends with no sequence
waiting. -/
theorem seqLoop_done {fuel : Nat} {s t : State} (hfuel : 1 ≤ fuel)
    (hleft : s.status.seqActive = true → 1 ≤ s.seq.left.toNat ∧ s.seq.left.toNat + 1 ≤ fuel)
    (h : seqLoop fuel s = .ok () t) : t.status.seqValid = false := by
  induction fuel generalizing s with
  | zero => omega
  | succ fuel ih =>
    have hnext : ∀ {s : State}, s.status.seqValid = false →
        (s.status.seqActive = true → 1 ≤ s.seq.left.toNat ∧ s.seq.left.toNat ≤ fuel) →
        (do let u ← current
            if u.status.seqActive then do
              seqNextBody
              seqLoop fuel
            else pure () : Cmd Unit) s = .ok () t →
        t.status.seqValid = false := fun {s} hv hl h => by
      obtain ⟨_, _, hc, h⟩ := bind_ok.1 h
      obtain ⟨rfl, rfl⟩ := current_done.1 hc
      split at h
      · next ha =>
        obtain ⟨h1, h2⟩ := hl ha
        obtain ⟨_, u, hu, h⟩ := bind_ok.1 h
        refine ih (by omega) (fun ha' => ?_) h
        obtain ⟨h3, h4⟩ := seqNextBody_done hu ha'
        omega
      · cases h
        exact hv
    rw [seqLoop, bind_ok] at h
    obtain ⟨_, _, hc, h⟩ := h
    obtain ⟨rfl, rfl⟩ := current_done.1 hc
    dsimp only at h
    split at h
    · obtain ⟨_, u, hu, h⟩ := bind_ok.1 h
      obtain ⟨hs, hq⟩ := seqExecBody_done hu
      refine hnext (by rw [hs]) (fun ha => ?_) h
      rw [hs] at ha
      rw [hq]
      obtain ⟨h1, h2⟩ := hleft ha
      omega
    · next hv =>
      refine hnext (by simpa using hv) (fun ha => ?_) h
      obtain ⟨h1, h2⟩ := hleft ha
      omega

/-- SEQ_RUN completed leaves no sequence waiting (rule R252). -/
theorem seqRunBody_done {s t : State} (hleft : s.status.seqActive = true → 1 ≤ s.seq.left.toNat)
    (h : seqRunBody s = .ok () t) : t.status.seqValid = false := by
  simp only [seqRunBody, bind_ok, run_stateCheck, passed_ok, EStateM.Result.ok.injEq, current_done,
    run_wLitrestBody] at h
  obtain ⟨_, _, ⟨-, -, rfl⟩, _, _, ⟨rfl, rfl⟩, _, u, hu, -, -, rfl⟩ := h
  have hv := seqLoop_done (by omega) (fun ha => ⟨hleft ha, Nat.le_refl _⟩) hu
  exact hv

/-- The command has an assignment that sets the flag so (rule R25). -/
abbrev setsFlag (i : Instr) (f : Flag) (v : Bool) : Prop :=
  (i.edits.any fun e => e.sets f v) = true

theorem of_sets_bsOpen {i : Instr} (h : setsFlag i .bsOpen true) :
    (∃ n, i = .bsOpen n) ∨ ∃ n k, i = .seqOpen n k := by
  cases i with
  | bsOpen n => exact .inl ⟨n, rfl⟩
  | seqOpen n k => exact .inr ⟨n, k, rfl⟩
  | _ => exact Bool.noConfusion h

theorem of_clears_bsOpen {i : Instr} (h : setsFlag i .bsOpen false) :
    i = .bsClose ∨ i = .seqNext ∨ i = .seqRun ∨ ∃ c, i = .frameInit c := by
  cases i with
  | bsClose | seqNext | seqRun | frameInit c => simp
  | _ => exact Bool.noConfusion h

theorem of_sets_seqActive {i : Instr} (h : setsFlag i .seqActive true) :
    ∃ n k, i = .seqOpen n k := by
  cases i with
  | seqOpen n k => exact ⟨n, k, rfl⟩
  | _ => exact Bool.noConfusion h

theorem of_clears_seqActive {i : Instr} (h : setsFlag i .seqActive false) :
    i = .seqNext ∨ i = .seqRun ∨ ∃ c, i = .frameInit c := by
  cases i with
  | seqNext | seqRun | frameInit c => simp
  | _ => exact Bool.noConfusion h

theorem of_sets_seqValid {i : Instr} (h : setsFlag i .seqValid true) :
    i = .seqNext ∨ i = .seqRun := by
  cases i with
  | seqNext | seqRun => simp
  | _ => exact Bool.noConfusion h

theorem of_clears_seqValid {i : Instr} (h : setsFlag i .seqValid false) :
    i = .seqExec ∨ i = .seqRun ∨ (∃ n k, i = .seqOpen n k) ∨ ∃ c, i = .frameInit c := by
  cases i with
  | seqExec | seqRun | seqOpen n k | frameInit c => simp
  | _ => exact Bool.noConfusion h

/-- Settles O18: a flag changes by an assignment of the command's rule; the loop of SEQ_RUN runs
until no sequence waits. -/
theorem statusFlagsAreWrittenByTheirCommands :
    Obligations.StatusFlagsAreWrittenByTheirCommands := by
  intro i s t h hleft hr
  have he := ends_of_exec h hr
  have hset : ∀ (f : Flag) (v : Bool), f.of s.status = !v → f.of t.status = v → setsFlag i f v :=
    fun f v hs ht => List.any_eq_true.2 (he.flag (by rw [hs]; cases v <;> nofun) ht)
  refine ⟨he.idle, fun hs ht => of_sets_bsOpen (hset .bsOpen true hs ht),
    fun hs ht => of_clears_bsOpen (hset .bsOpen false hs ht),
    fun hs ht => of_sets_seqActive (hset .seqActive true hs ht),
    fun hs ht => of_clears_seqActive (hset .seqActive false hs ht),
    fun hs ht => (of_sets_seqValid (hset .seqValid true hs ht)).imp_right fun hi => ⟨hi, ?_⟩,
    fun hs ht => of_clears_seqValid (hset .seqValid false hs ht)⟩
  subst hi
  rw [exec_ready h.1 h.2 rfl, bodyOf] at hr
  cases hx : seqRunBody (begin s) with
  | ok _ u =>
    rw [hx] at hr
    cases hr
    exact absurd ((seqRunBody_done (s := begin s) hleft hx).symm.trans ht) nofun
  | error r u =>
    rw [hx] at hr
    cases hr
    rfl

end Sys2Proof.Machine

namespace Sys2Proof.Machine

/-! # What the guards let through has been written (rule R44) -/

/-- Stores keep what has been written, and write their range. -/
theorem Memory.Stores.isSome {α : Type} {m m' : Memory α} {a n k : Nat} {f : Nat → α}
    (h : m.Stores m' a n f) (hk : a ≤ k ∧ k < a + n ∨ (m.lookup k).isSome = true) :
    (m'.lookup k).isSome = true := by
  rw [h k]
  split
  · rfl
  · next hout => exact hk.resolve_left hout

theorem isSome_writeList {α : Type} {m : Memory α} {a k : Nat} {v : List α}
    (hk : a ≤ k ∧ k < a + v.length ∨ (m.lookup k).isSome = true) :
    ((m.writeList a v).lookup k).isSome = true := by
  rw [Memory.lookup_writeList]
  split
  · rw [List.getElem?_eq_getElem (by omega)]
    rfl
  · next hout => exact hk.resolve_left hout

/-- What every assignment keeps: the guarded locations are written, and the cursor of the window is
not above its high-water mark. -/
structure Guarded (s : State) : Prop where
  params : s.params.wf = true
  cursor : s.window.index.toNat ≤ s.window.size.toNat
  written : Written s

namespace Guarded

variable {s : State} (h : Guarded s)
include h

/-- A window whose cursor has moved over `n` written bytes. -/
theorem advance {n : Nat} {m : Memory Byte}
    (room : s.window.index.toNat + n ≤ s.window.capr.toNat)
    (hm : ∀ k, s.window.index.toNat ≤ k ∧ k < s.window.index.toNat + n ∨
      (s.window.mem.lookup k).isSome = true → (m.lookup k).isSome = true) :
    Guarded (s.setWindow { s.window.advance n with mem := m }) := by
  have hcapr := s.window.capr.isLt
  have hsize := s.window.size.isLt
  have hcursor := h.cursor
  refine ⟨h.params, ?_, h.written.fse, h.written.huf, h.written.lits, fun k hk => hm k ?_⟩
  · simp only [State.setWindow_window, Window.advance, BitVec.toNat_ofNat]
    omega
  · simp only [State.setWindow_window, Window.advance, BitVec.toNat_ofNat] at hk
    by_cases hlow : k < s.window.size.toNat
    · exact .inr (h.written.win k hlow)
    · exact .inl (by omega)

theorem setLits {l : Literals} (hl : ∀ k, k < l.len.toNat → (l.mem.lookup k).isSome = true) :
    Guarded (s.setLits l) :=
  ⟨h.params, h.cursor, h.written.fse, h.written.huf, hl, h.written.win⟩

theorem setSlot {sl : Slot} {x : FseSlot}
    (hx : x.info.valid = true → ∀ k, k < 2 ^ x.info.al.toNat → (x.tab.lookup k).isSome = true) :
    Guarded (s.setSlot sl x) := by
  refine ⟨h.params, h.cursor, fun sl' => ?_, h.written.huf, h.written.lits, h.written.win⟩
  by_cases hsl : sl' = sl
  · subst hsl
    rw [State.slot_setSlot_same]
    exact hx
  · rw [State.slot_setSlot_ne s hsl]
    exact h.written.fse sl'

/-- A change that leaves the parameters, the window, the literals and the tables. -/
theorem of_same {t : State} (hp : t.params = s.params) (hw : t.window = s.window)
    (hl : t.lits = s.lits) (hs : ∀ sl, (t.slot sl).tab = (s.slot sl).tab ∧
      (t.slot sl).info.al = (s.slot sl).info.al ∧ (t.slot sl).info.valid = (s.slot sl).info.valid)
    (hh : t.huf = s.huf) : Guarded t := by
  refine ⟨hp ▸ h.params, hw ▸ h.cursor, fun sl => ?_, hh ▸ h.written.huf, hl ▸ h.written.lits,
    hw ▸ h.written.win⟩
  obtain ⟨h1, h2, h3⟩ := hs sl
  rw [h1, h2, h3]
  exact h.written.fse sl

end Guarded

/-- Every assignment keeps the guarded locations written. -/
theorem Edit.Makes.guarded {e : Edit} {s t : State} (hm : e.Makes s t) (h : Guarded s) :
    Guarded t := by
  cases hm with
  | frameInit _ c =>
    refine ⟨h.params, Nat.le_refl _, fun sl => ?_, nofun, nofun, nofun⟩
    rw [show (s.frameInit c).slot sl = _ from Slots.get_clearInfo s.slots sl]
    exact nofun
  | append _ v room => exact h.advance room fun k => isSome_writeList
  | copy _ offset n valid room =>
    have hoff : s.window.index.toNat - offset + offset = s.window.index.toNat := by
      have := valid.2
      rw [Window.avail] at this
      omega
    have hst := stores_copyForward (Config.unwrittenByte s.host.epoch .win) n s.window.mem
      (s.window.index.toNat - offset) offset valid.1
    rw [hoff] at hst
    exact h.advance room fun k => hst.isSome
  | litPos _ v => exact h.setLits h.written.lits
  | litMem _ a v => exact h.setLits fun k hk => isSome_writeList (.inr (h.written.lits k hk))
  | litFill _ n filled =>
    refine h.setLits fun k hk => filled k (Nat.lt_of_lt_of_le hk ?_)
    rw [Literals.filled, BitVec.toNat_ofNat]
    exact Nat.mod_le _ _
  | table _ sl al nsym entries whole =>
    refine h.setSlot fun _ k hk => isSome_writeList (.inl ⟨Nat.zero_le k, ?_⟩)
    have hal : (BitVec.ofNat 4 al).toNat ≤ al := by
      rw [BitVec.toNat_ofNat]
      exact Nat.mod_le _ _
    rw [Nat.zero_add, whole]
    exact Nat.lt_of_lt_of_le hk (Nat.pow_le_pow_right (by decide) hal)
  | huffman _ w tab built =>
    refine ⟨h.params, h.cursor, h.written.fse, fun _ k hk => ?_, h.written.lits, h.written.win⟩
    have hfit := weightTable_fits (Params.fits_of_wf h.params).huf built
    have hbits : (BitVec.ofNat 4 tab.maxBits).toNat ≤ tab.maxBits := by
      rw [BitVec.toNat_ofNat]
      exact Nat.mod_le _ _
    refine isSome_writeList (.inl ⟨Nat.zero_le k, ?_⟩)
    rw [Nat.zero_add, hfit.length]
    exact Nat.lt_of_lt_of_le hk (Nat.pow_le_pow_right (by decide) hbits)
  | fseState _ sl v => exact h.setSlot (h.written.fse sl)
  | sinit _ sl => exact h.setSlot (h.written.fse sl)
  | closeBits | closeSeq =>
    exact h.of_same rfl rfl rfl (fun sl => by cases sl <;> exact ⟨rfl, rfl, rfl⟩) rfl
  | _ => exact h.of_same rfl rfl rfl (fun _ => ⟨rfl, rfl, rfl⟩) rfl

theorem Path.guarded {es : List Edit} {s t : State} (h : Path es s t) (hs : Guarded s) :
    Guarded t :=
  h.keeps (R := fun s t => Guarded s → Guarded t) (fun _ => id) (fun _ _ _ h1 h2 => h2 ∘ h1)
    (fun _ _ _ _ => Edit.Makes.guarded) hs

theorem Ends.guarded {es : List Edit} {s t : State} (h : Ends es s t) (hs : Guarded s) :
    Guarded t := by
  have hb : Guarded (begin s) := hs.of_same rfl rfl rfl (fun _ => ⟨rfl, rfl, rfl⟩) rfl
  cases h with
  | completed u path | faulted r u path =>
    exact (path.guarded hb).of_same rfl rfl rfl (fun _ => ⟨rfl, rfl, rfl⟩) rfl

/-- A reset leaves nothing that a guard lets through. -/
theorem guarded_applyReset {s : State} (hp : s.params.wf = true) : Guarded (applyReset s) := by
  refine ⟨hp, Nat.le_refl _, fun sl => ?_, nofun, nofun, nofun⟩
  rw [applyReset_slot]
  exact nofun

/-- What every step keeps: parameters that fit and, while the latch is clear, the guards. -/
def GuardedWhileClear (s : State) : Prop :=
  s.params.wf = true ∧ (s.status.fault = false → Guarded s)

theorem presentWord_keeps_guarded {c : CmdWord} {s t : State} (h : GuardedWhileClear s)
    (hr : presentWord c s = .next t) : GuardedWhileClear t := by
  rcases presentWord_cases hr with ⟨-, rfl⟩ | ⟨hf, es, he⟩
  · exact h
  · have ht := he.guarded (h.2 hf)
    exact ⟨ht.params, fun _ => ht⟩

/-- Settles O23: reset leaves nothing to read, and no assignment and no move of the host makes a
guard let through what has not been written. -/
theorem stepKeepsGuardedMemoryWritten : Obligations.StepKeepsGuardedMemoryWritten := by
  intro s t hinv hwritten hr hf
  have hs : GuardedWhileClear s := ⟨hinv.params, fun hf => by
    obtain ⟨hcursor, -⟩ := (hinv.rules hf).1.window
    exact ⟨hinv.params, by rw [hcursor], hwritten hf⟩⟩
  have hsame : ∀ {s t : State}, t.status = s.status → t.params = s.params → t.window = s.window →
      t.lits = s.lits → t.slots = s.slots → t.huf = s.huf → GuardedWhileClear s →
      GuardedWhileClear t := fun hstatus hp hw hl hsl hh h =>
    ⟨hp ▸ h.1, fun hf => (h.2 (hstatus ▸ hf)).of_same hp hw hl
      (fun sl => by rw [State.slot_of_slots_eq hsl]; exact ⟨rfl, rfl, rfl⟩) hh⟩
  have ht : GuardedWhileClear t := step_keeps (fun _ _ _ => presentWord_keeps_guarded)
    (fun s h => ⟨h.1, fun _ => guarded_applyReset h.1⟩)
    (fun _ _ _ => hsame rfl rfl rfl rfl rfl rfl) (fun _ _ _ => hsame rfl rfl rfl rfl rfl rfl) hs hr
  exact (ht.2 hf).written

end Sys2Proof.Machine

namespace Sys2Proof.Machine

/-! # The shared operations on memory (rules R62 to R73) -/

/-! ### The Reader -/

/-- Moving `RPOS` forward is an addition of words (rule R23). -/
theorem setRpos_add (s : State) (k : Nat) :
    s.setRpos (s.reader.rpos.toNat + k) =
      { s with reader := { s.reader with rpos := s.reader.rpos + BitVec.ofNat 32 k } } := by
  rw [State.setRpos, BitVec.ofNat_add, BitVec.ofNat_toNat, BitVec.setWidth_eq]
  rfl

theorem littleEndian_lt (bs : List Byte) : littleEndian bs < 2 ^ (8 * bs.length) := by
  induction bs with
  | nil => simp [littleEndian]
  | cons b bs ih =>
    have hb := b.isLt
    rw [littleEndian, List.length_cons, Nat.mul_add, Nat.pow_add]
    omega

/-- A read of `n` bytes fits in `8 * n` bits. -/
theorem toNat_littleEndian_memRead (byte : Nat → Byte) (a n : Nat) :
    (BitVec.ofNat (8 * n) (littleEndian (memRead byte a n))).toNat =
      littleEndian (memRead byte a n) := by
  have h := littleEndian_lt (memRead byte a n)
  rw [length_memRead] at h
  rw [BitVec.toNat_ofNat, Nat.mod_eq_of_lt h]

theorem run_readU32LE (s : State) :
    readU32LE s =
      if s.reader.rpos.toNat + 4 > s.reader.len.toNat then
        .error ⟨.shortRead, s.reader.rpos.toNat⟩ s
      else .ok (BitVec.ofNat 32 (littleEndian (memRead s.inByte s.reader.rpos.toNat 4)))
        (s.setRpos (s.reader.rpos.toNat + 4)) := by
  simp only [readU32LE, run_bind, run_readLE, run_pure]
  by_cases h : s.reader.rpos.toNat + 4 > s.reader.len.toNat <;> simp only [h, if_true, if_false]

/-- Settles O24: each read is `Need` and then the bytes at the cursor, least significant first. -/
theorem readerReadsLittleEndian : Obligations.ReaderReadsLittleEndian := by
  unfold Obligations.ReaderReadsLittleEndian
  intro s
  refine ⟨fun n => ⟨fun h => ?_, fun h => ?_⟩, fun k _ hshort => ⟨?_, ?_, ?_⟩, fun h => ?_,
    fun h => ⟨BitVec.ofNat 16 (littleEndian (memRead s.inByte s.reader.rpos.toNat 2)), ?_, ?_⟩,
    fun h => ⟨BitVec.ofNat 32 (littleEndian (memRead s.inByte s.reader.rpos.toNat 4)), ?_, ?_⟩⟩
  · rw [run_need, if_neg (by omega)]
  · rw [run_need, if_pos h]
  · rintro rfl
    rw [run_readU8, if_pos hshort]
  · rintro rfl
    rw [run_readU16LE, if_pos hshort]
  · rintro rfl
    rw [run_readU32LE, if_pos hshort]
  · rw [run_readU8, if_neg (by omega), setRpos_add]
    rfl
  · rw [run_readU16LE, if_neg (by omega), setRpos_add]
    rfl
  · rw [toNat_littleEndian_memRead _ _ 2]
    simp [memRead, littleEndian]
  · rw [run_readU32LE, if_neg (by omega), setRpos_add]
    rfl
  · rw [toNat_littleEndian_memRead _ _ 4]
    simp only [memRead, littleEndian, Nat.add_assoc, Nat.reduceAdd]
    omega

/-! ### The forward bit reader -/

/-- Settles O25: the bits are those that `gather` sums, and a take counts whole bytes. -/
theorem forwardReaderTakesBits : Obligations.ForwardReaderTakesBits := by
  unfold Obligations.ForwardReaderTakesBits
  intro byte fb fe fpos k
  refine ⟨fwdPeek_lt .., fun j hj => ?_, fun h => ?_, fun h => ?_, ?_, ?_⟩
  · rw [testBit_fwdPeek, decide_eq_true hj, Bool.true_and]
    by_cases hin : fb + (fpos + j) / 8 < fe
    · rw [if_pos hin, decide_eq_true hin, Bool.true_and]
      rfl
    · rw [if_neg hin, decide_eq_false hin, Bool.false_and]
  · rw [fwdTake, fwdEnd, if_neg (by omega)]
  · rw [fwdTake, fwdEnd, if_pos (by omega)]
  · rw [fwdEnd]
    omega
  · rw [fwdEnd]
    omega

/-! ### The backward bit reader -/

/-- Lowering `BS_POS` is a subtraction of words (rule R23). -/
theorem setBsPos_sub (s : State) (k : Nat) :
    s.setBsPos (s.bsPos - k) =
      { s with bits := { s.bits with pos := s.bits.pos - BitVec.ofNat 32 k } } := by
  rw [State.setBsPos, State.bsPos, Int.sub_eq_add_neg, BitVec.ofInt_add, BitVec.ofInt_neg,
    BitVec.ofInt_toInt, BitVec.ofInt_natCast, ← BitVec.sub_eq_add_neg]
  rfl

/-- `BackRead` from within the section (rule R73). -/
theorem backRead_inside {s : State} (h : 0 ≤ s.bsPos) (k : Nat) :
    backRead k s = .ok (s.peekBack k) (s.setBsPos (s.bsPos - k)) := by
  rw [run_backRead, if_neg (by omega)]

/-- A read of up to 32 bits from within the section leaves a position that `BS_POS` holds. -/
theorem bsPos_setBsPos_sub {s : State} {k : Nat} (h : 0 ≤ s.bsPos) (hk : k ≤ 32) :
    (s.setBsPos (s.bsPos - k)).bsPos = s.bsPos - k := by
  obtain ⟨-, hlt⟩ := bsPos_range s
  exact bsPos_setBsPos s _ (by omega) (by omega)

theorem backStart_empty (byte : Nat → Byte) (base : Nat) :
    backStart byte base 0 = .error ⟨.missingEndMark, base⟩ := if_pos rfl

theorem backStart_noEndMark {byte : Nat → Byte} {base n : Nat} (hn : 1 ≤ n)
    (h : (byte (base + n - 1)).toNat = 0) :
    backStart byte base n = .error ⟨.missingEndMark, (base + n - 1 : Nat)⟩ := by
  rw [backStart, if_neg (by omega)]
  exact if_pos h

/-- Settles O26: `BackStart` by its three cases, `BackBits` bit by bit, `BackRead` by its check. -/
theorem backwardReaderReadsBits : Obligations.BackwardReaderReadsBits := by
  unfold Obligations.BackwardReaderReadsBits
  refine ⟨fun byte base n => ⟨fun h => h ▸ backStart_empty byte base, backStart_noEndMark,
      fun hn h _ hlo hhi => ?_⟩,
    fun byte base pos k => ⟨backBits_lt .., fun j hj => ⟨fun hneg => ?_, fun b hb => ?_⟩⟩,
    fun s k hk => ⟨fun hneg => ?_, fun hpos => ⟨_, backRead_inside hpos k, setBsPos_sub s k, ?_⟩⟩⟩
  · have hlast : (byte (base + n - 1)).toNat ≠ 0 := by
      have := Nat.two_pow_pos h
      omega
    exact backStart_ok.2 ⟨by omega, hlast, by rw [(Nat.log2_eq_iff hlast).2 ⟨hlo, hhi⟩]⟩
  · rw [testBit_backBits, decide_eq_false (by omega : ¬ 0 ≤ pos - k + j), Bool.false_and,
      Bool.and_false]
  · rw [testBit_backBits, hb, decide_eq_true hj, decide_eq_true (by omega : (0 : Int) ≤ b)]
    rfl
  · rw [run_backRead, if_pos hneg]
  · rw [bsPos_setBsPos_sub hpos hk]
    omega

end Sys2Proof.Machine

namespace Sys2Proof.Machine

/-! ### A table header as a distribution (rules R141, R144) -/

/-- How many states a distribution takes, -1 counted as one (rule R141). -/
def statesTaken (probs : List Int) : Int := (probs.map fun q => if q = -1 then 1 else q).sum

@[simp] theorem statesTaken_nil : statesTaken [] = 0 := rfl

@[simp] theorem statesTaken_cons (q : Int) (qs : List Int) :
    statesTaken (q :: qs) = (if q = -1 then 1 else q) + statesTaken qs := by
  simp [statesTaken]

@[simp] theorem statesTaken_append (qs rs : List Int) :
    statesTaken (qs ++ rs) = statesTaken qs + statesTaken rs := by
  simp [statesTaken]

@[simp] theorem statesTaken_zeros (n : Nat) : statesTaken (List.replicate n 0) = 0 := by
  simp [statesTaken]

theorem distRemaining_eq {probs : List Int} (h : ∀ q ∈ probs, -1 ≤ q) (total : Int) :
    distRemaining probs total = .ok (total - statesTaken probs) := by
  induction probs generalizing total with
  | nil => simp [distRemaining]
  | cons p ps ih =>
    obtain ⟨hp, hps⟩ := List.forall_mem_cons.1 h
    rw [distRemaining, if_neg (by omega), statesTaken_cons]
    split <;> rw [ih hps, Int.sub_sub]

/-- A distribution within the bounds that takes exactly the table passes (rule R141). -/
theorem checkDist_passes {p : Params} {sl : Slot} {al : Nat} {probs : List Int}
    (hmin : p.minAL ≤ al) (hmax : al ≤ p.maxAL.get sl) (hlen : probs.length ≤ p.maxSymbols.get sl)
    (hge : ∀ q ∈ probs, -1 ≤ q) (hsum : statesTaken probs = 2 ^ al) :
    checkDist p sl al probs = .ok () := by
  rw [checkDist, if_neg (by omega), if_neg (by omega), if_neg (by omega), distRemaining_eq hge, hsum]
  simp

theorem fwdTake_eq {fb fe fpos k q : Nat} (h : fwdTake fb fe fpos k = .ok q) : q = fpos + k := by
  rw [fwdTake, check_ok] at h
  obtain ⟨-, h⟩ := h
  cases h
  rfl

/-- A value read takes at most what remains, and the reader only moves forward (rule R144). -/
theorem headerValue_le {byte : Nat → Byte} {fb fe remaining fpos : Nat} {r : Nat × Nat}
    (h : headerValue byte fb fe remaining fpos = .ok r) : r.1 ≤ remaining + 1 ∧ fpos ≤ r.2 := by
  have hlo : 2 ^ Nat.log2 (remaining + 1) ≤ remaining + 1 := Nat.log2_self_le (by omega)
  have hhi : remaining + 1 < 2 ^ (Nat.log2 (remaining + 1) + 1) := Nat.lt_log2_self
  have hdouble := Nat.pow_succ (n := 2) (m := Nat.log2 (remaining + 1))
  have hpeek := fwdPeek_lt byte fb fe fpos (Nat.log2 (remaining + 1) + 1)
  unfold headerValue at h
  dsimp only at h
  rw [Nat.add_sub_cancel] at h
  split at h
  all_goals
    rw [except_bind_ok] at h
    obtain ⟨q, hq, h⟩ := h
    cases h
    have := fwdTake_eq hq
    refine ⟨?_, by omega⟩
  · dsimp only
    omega
  · dsimp only
    split <;> omega

theorem appendZeros_eq {maxSym n : Nat} {probs ps : List Int}
    (h : appendZeros maxSym n probs = .ok ps) (hlen : probs.length ≤ maxSym) :
    ps = probs ++ List.replicate n 0 ∧ ps.length ≤ maxSym := by
  induction n generalizing probs with
  | zero =>
    cases h
    exact ⟨by simp, hlen⟩
  | succ n ih =>
    rw [appendZeros, check_ok] at h
    obtain ⟨hlt, h⟩ := h
    obtain ⟨rfl, hle⟩ := ih h (by rw [List.length_append, List.length_singleton]; omega)
    exact ⟨by simp [List.replicate_succ], hle⟩

/-- A zero run appends zeros within the symbol bound (rule R144). -/
theorem zeroRun_eq {byte : Nat → Byte} {fb fe maxSym fuel fpos : Nat} {probs : List Int}
    {r : Nat × List Int} (h : zeroRun byte fb fe maxSym fuel fpos probs = .ok r)
    (hlen : probs.length ≤ maxSym) :
    fpos ≤ r.1 ∧ r.2.length ≤ maxSym ∧ ∃ n, r.2 = probs ++ List.replicate n 0 := by
  induction fuel generalizing fpos probs with
  | zero => cases h
  | succ fuel ih =>
    simp only [zeroRun, except_bind_ok] at h
    obtain ⟨q, hq, ps, hps, h⟩ := h
    have hmoved := fwdTake_eq hq
    obtain ⟨rfl, hle⟩ := appendZeros_eq hps hlen
    split at h
    · obtain ⟨hpos, hle', n, heq⟩ := ih h hle
      exact ⟨by omega, hle', _, by rw [heq, List.append_assoc, ← List.replicate_add]⟩
    · cases h
      exact ⟨by dsimp only; omega, hle, _, rfl⟩

/-- What the loop over a header's symbols keeps: the symbol bound, the range of a probability, and
the states of the table, taken or remaining (rule R144). -/
structure HeaderPart (maxSym : Nat) (size : Int) (remaining : Nat) (probs : List Int) : Prop where
  length : probs.length ≤ maxSym
  ge : ∀ q ∈ probs, -1 ≤ q
  taken : statesTaken probs + remaining = size

namespace HeaderPart

variable {maxSym remaining : Nat} {size : Int} {probs : List Int}

/-- One more probability, within what remains. -/
theorem append {val : Nat} (h : HeaderPart maxSym size remaining probs)
    (hlen : probs.length < maxSym) (h0 : remaining ≠ 0) (hval : val ≤ remaining + 1) :
    HeaderPart maxSym size (headerRemaining remaining val) (probs ++ [(val : Int) - 1]) := by
  obtain ⟨-, hge, htaken⟩ := h
  refine ⟨by simpa using hlen, ?_, ?_⟩
  · rw [List.forall_mem_append, List.forall_mem_singleton]
    exact ⟨hge, by omega⟩
  · simp only [headerRemaining, statesTaken_append, statesTaken_cons, statesTaken_nil]
    split <;> split <;> omega

/-- Zeros take no state. -/
theorem zeros {n : Nat} (h : HeaderPart maxSym size remaining probs)
    (hlen : (probs ++ List.replicate n 0).length ≤ maxSym) :
    HeaderPart maxSym size remaining (probs ++ List.replicate n 0) := by
  obtain ⟨-, hge, htaken⟩ := h
  refine ⟨hlen, ?_, by simpa using htaken⟩
  rw [List.forall_mem_append]
  refine ⟨hge, fun q hq => ?_⟩
  rw [List.eq_of_mem_replicate hq]
  decide

end HeaderPart

/-- The loop ends with nothing remaining (rule R144). -/
theorem headerLoop_part {byte : Nat → Byte} {fb fe maxSym fuel remaining fpos : Nat}
    {probs : List Int} {size : Int} {r : Nat × List Int}
    (h : headerLoop byte fb fe maxSym fuel remaining fpos probs = .ok r)
    (hp : HeaderPart maxSym size remaining probs) :
    HeaderPart maxSym size 0 r.2 ∧ fpos ≤ r.1 := by
  induction fuel generalizing remaining fpos probs with
  | zero => cases h
  | succ fuel ih =>
    rw [headerLoop] at h
    split at h
    · next h0 =>
      cases h
      exact ⟨h0 ▸ hp, le_rfl⟩
    · next h0 =>
      rw [check_ok, except_bind_ok] at h
      obtain ⟨hlen, v, hv, h⟩ := h
      obtain ⟨hval, hpos⟩ := headerValue_le hv
      have hp' := hp.append (by omega) h0 hval
      dsimp only at h
      split at h
      · obtain ⟨z, hz, h⟩ := except_bind_ok.1 h
        obtain ⟨hpos', hlen', n, heq⟩ := zeroRun_eq hz hp'.length
        rw [heq] at h hlen'
        obtain ⟨hr, hle⟩ := ih h (hp'.zeros hlen')
        exact ⟨hr, by omega⟩
      · obtain ⟨hr, hle⟩ := ih h hp'
        exact ⟨hr, by omega⟩

/-- The parts of a header that is read to its end (rule R144). -/
theorem fseReadHeader_ok {p : Params} {byte : Nat → Byte} {sl : Slot} {fb fe : Nat} {h : Header}
    (hh : fseReadHeader p byte sl fb fe = .ok h) :
    h.al = fwdPeek byte fb fe 0 4 + 5 ∧ h.al ≤ p.maxAL.get sl ∧
      HeaderPart (p.maxSymbols.get sl) (2 ^ h.al) 0 h.probs ∧ fb < h.next := by
  simp only [fseReadHeader, except_bind_ok, check_ok] at hh
  obtain ⟨q, hq, hal, r, hr, hh⟩ := hh
  cases hh
  obtain ⟨hpart, hpos⟩ := headerLoop_part hr ⟨Nat.zero_le _, nofun, Int.zero_add _⟩
  have := fwdTake_eq hq
  refine ⟨rfl, by simpa using hal, by simpa using hpart, ?_⟩
  dsimp only [fwdEnd]
  omega

/-- The least accuracy log that fits the unit is a header's least (log 7). -/
theorem minAL_le_of_wf {p : Params} (h : p.wf = true) : p.minAL ≤ 5 := by
  simp only [Params.wf, Bool.and_eq_true, decide_eq_true_eq] at h
  tauto

/-- Settles O27: the loop keeps `HeaderPart`, which with nothing remaining is what `FseFromDist`
checks. -/
theorem headerIsANormalizedDistribution : Obligations.HeaderIsANormalizedDistribution := by
  unfold Obligations.HeaderIsANormalizedDistribution
  intro p byte slot fb fe h hwf hh
  obtain ⟨hal, hmax, ⟨hlen, hge, htaken⟩, hnext⟩ := fseReadHeader_ok hh
  have hsum : statesTaken h.probs = 2 ^ h.al := by simpa using htaken
  have hmin := minAL_le_of_wf hwf
  have hcheck := checkDist_passes (by omega) hmax hlen hge hsum
  obtain ⟨-, -, -, hzero⟩ := checkDist_ok hcheck
  exact ⟨hal, hmax, List.length_pos_iff.2 (probs_ne_nil hzero), hlen, hge, hsum, hnext,
    fseReadHeader_next_le hh, hcheck⟩

end Sys2Proof.Machine

namespace Sys2Proof

/-! ### A word and the command it decodes to (rules R94, R95) -/

theorem Slot.ofSel_eq_some {sel : BitVec 8} {sl : Slot} : Slot.ofSel sel = some sl ↔ sel = sl.toSel := by
  refine ⟨fun h => ?_, fun h => h ▸ Slot.ofSel_toSel sl⟩
  unfold Slot.ofSel at h
  split at h <;> cases h <;> exact BitVec.eq_of_toNat_eq ‹_›

theorem Streams.ofSel_eq_some {sel : BitVec 8} {n : Streams} :
    Streams.ofSel sel = some n ↔ sel = n.toSel := by
  refine ⟨fun h => ?_, fun h => h ▸ Streams.ofSel_toSel n⟩
  unfold Streams.ofSel at h
  split at h <;> cases h <;> exact BitVec.eq_of_toNat_eq ‹_›

theorem zeroed_ok {z : Bool} {i j : Instr} : zeroed z j = .ok i ↔ z = true ∧ j = i := by
  cases z <;> simp [zeroed]

theorem slotted_ok {f : Fields} {z : Bool} {mk : Slot → Instr} {i : Instr} :
    slotted f z mk = .ok i ↔ ∃ sl, f.sel = sl.toSel ∧ z = true ∧ mk sl = i := by
  simp only [← Slot.ofSel_eq_some, slotted]
  cases Slot.ofSel f.sel <;> simp [zeroed_ok]

theorem streamed_ok {f : Fields} {z : Bool} {mk : Streams → Instr} {i : Instr} :
    streamed f z mk = .ok i ↔ ∃ n, f.sel = n.toSel ∧ z = true ∧ mk n = i := by
  simp only [← Streams.ofSel_eq_some, streamed]
  cases Streams.ofSel f.sel <;> simp [zeroed_ok]

theorem decodeFrameEnd_ok {f : Fields} {i : Instr} (h : decodeFrameEnd f = .ok i) :
    f.imm = 0 ∧ ∃ hasSize : Bool, f.sel = (if hasSize then 1 else 0) ∧
      frameEndOk hasSize f.a f.b = true ∧ .frameEnd hasSize f.a f.b = i := by
  unfold decodeFrameEnd at h
  split at h
  · next hsel =>
    split at h
    · next hsize =>
      simp only [zeroed_ok, beq_iff_eq] at h
      exact ⟨h.1, false, BitVec.eq_of_toNat_eq hsel, hsize, h.2⟩
    · cases h
  · next hsel =>
    simp only [zeroed_ok, beq_iff_eq] at h
    exact ⟨h.1, true, BitVec.eq_of_toNat_eq hsel, rfl, h.2⟩
  · cases h

theorem decodeFsePredef_ok {f : Fields} {i : Instr} (h : decodeFsePredef f = .ok i) :
    ∃ sl, f.sel = sl.toSel ∧ sl.hasPredef = true ∧ (f.imm = 0 ∧ f.a = 0) ∧ f.b = 0 ∧
      .fsePredef sl = i := by
  unfold decodeFsePredef at h
  split at h
  · next sl hsel =>
    split at h
    · next hpre =>
      simp only [zeroed_ok, Bool.and_eq_true, beq_iff_eq] at h
      exact ⟨sl, Slot.ofSel_eq_some.1 hsel, hpre, h.1.1, h.1.2, h.2⟩
    · cases h
  · cases h

/-- What decodes is well-formed and has exactly the fields of its encoding (rules R94, R95): one case
per row of the opcode table. -/
theorem decodeFields_sound {f : Fields} {i : Instr} (h : decodeFields f = .ok i) :
    i.wf = true ∧ encodeFields i = f := by
  obtain ⟨op, sel, imm, a, b⟩ := f
  unfold decodeFields at h
  dsimp only at h
  split at h
  case h_28 => cases h
  case h_4 hop =>
    obtain ⟨himm, hasSize, hsel, hok, rfl⟩ := decodeFrameEnd_ok h
    obtain rfl := (BitVec.toNat_eq_nat.1 hop).2
    subst himm hsel
    exact ⟨hok, rfl⟩
  case h_16 hop =>
    obtain ⟨sl, hsel, hpre, ⟨himm, ha⟩, hb, rfl⟩ := decodeFsePredef_ok h
    obtain rfl := (BitVec.toNat_eq_nat.1 hop).2
    subst himm hsel ha hb
    exact ⟨hpre, rfl⟩
  all_goals
    next hop =>
    obtain rfl := (BitVec.toNat_eq_nat.1 hop).2
    simp only [zeroed_ok, slotted_ok, streamed_ok, Bool.and_eq_true, beq_iff_eq] at h
    casesm* _ ∧ _, ∃ _, _
    subst_vars
    exact ⟨rfl, rfl⟩

/-- The fields of a well-formed command decode to it (rule R94). -/
theorem decodeFields_encodeFields {i : Instr} (h : i.wf = true) :
    decodeFields (encodeFields i) = .ok i := by
  cases i with
  | frameEnd hasSize lo hi =>
    cases hasSize with
    | false =>
      obtain ⟨rfl, rfl⟩ : lo = 0 ∧ hi = 0 := by simpa [Instr.wf, frameEndOk] using h
      rfl
    | true => rfl
  | fsePredef sl =>
    cases sl with
    | aux => cases h
    | _ => rfl
  | litHuf n _ _ | litHufr n _ _ => cases n <;> rfl
  | fseBuild sl | fseLoad sl _ _ | fseRle sl _ | fseInit sl | fseEmit sl | fseNext sl =>
    cases sl <;> rfl
  | _ => rfl

/-- A word decodes to a command exactly when it is the encoding of a well-formed one. -/
theorem decode_ok {c : CmdWord} {i : Instr} : decode c = .ok i ↔ i.wf = true ∧ c = encode i := by
  constructor
  · intro h
    obtain ⟨hw, he⟩ := decodeFields_sound h
    exact ⟨hw, by rw [encode, he, Fields.toWord_ofWord]⟩
  · rintro ⟨hw, rfl⟩
    rw [encode, decode_toWord, decodeFields_encodeFields hw]

theorem Instr.encodedAs {i : Instr} (h : i.wf = true) : i.EncodedAs (encodeFields i) := fun _ =>
  decode_ok.trans (and_iff_right h)

namespace Machine

/-- Words of an opcode are illegal but for those whose fields a command of that opcode has (rule
R95). -/
theorem illegalUnless_of_encodeFields {op : BitVec 8} {ok : Fields → Prop}
    (h : ∀ i : Instr, (encodeFields i).opcode = op → ok (encodeFields i)) : IllegalUnless op ok := by
  intro c s hs hop hok
  cases hd : decode c with
  | ok i =>
    obtain ⟨-, he⟩ := decodeFields_sound hd
    rw [← he] at hop hok
    exact absurd (h i hop) hok
  | error e =>
    rw [presentWord_error hd, presentIllegal_ready hs.1 hs.2, faultEntry_begin hs]
    rfl

end Machine
end Sys2Proof

namespace Sys2Proof.Machine

/-! ### SEQ_OPEN (rule R244) -/

/-- Slot `sl` with its state read from the bitstream and `SINIT` set (rules R178, R244). -/
def State.stateRead (s : State) (sl : Slot) : State :=
  ((s.setBsPos (s.bsPos - (s.slot sl).info.al.toNat)).setFseState sl
    (s.peekBack (s.slot sl).info.al.toNat)).setSinit sl

namespace State

variable (s : State) (sl : Slot)

@[simp] theorem stateRead_status : (s.stateRead sl).status = s.status := rfl
@[simp] theorem stateRead_cp : (s.stateRead sl).cp = s.cp := rfl
@[simp] theorem stateRead_inByte : (s.stateRead sl).inByte = s.inByte := rfl

@[simp] theorem stateRead_bits :
    (s.stateRead sl).bits =
      { s.bits with pos := BitVec.ofInt 32 (s.bsPos - (s.slot sl).info.al.toNat) } := rfl

/-- No accuracy log changes. -/
@[simp] theorem stateRead_al (sl' : Slot) :
    ((s.stateRead sl).slot sl').info.al = (s.slot sl').info.al := by
  rw [stateRead, slot_info_initialized]
  split <;> rfl

/-- The position after the state of a slot is read from position `p`. -/
theorem bsPos_stateRead {s : State} {sl : Slot} {p : Int} {a : Nat} (hp : s.bsPos = p) (h0 : 0 ≤ p)
    (ha : (s.slot sl).info.al.toNat = a) : (s.stateRead sl).bsPos = p - a := by
  subst hp ha
  have hk : (s.slot sl).info.al.toNat ≤ 32 := by have := (s.slot sl).info.al.isLt; omega
  rw [← bsPos_setBsPos_sub h0 hk]
  rfl

@[simp] theorem stateRead_slots :
    (s.stateRead sl).slots = s.slots.set sl { s.slot sl with
      state := BitVec.ofNat 32 (s.peekBack (s.slot sl).info.al.toNat)
      info := { (s.slot sl).info with sinit := true } } := by
  cases sl <;> rfl


end State

/-- A state of accuracy log `a` read from position `p`: it crosses the beginning or does not. -/
theorem run_initStateOver {s : State} {sl : Slot} {p : Int} {a : Nat} (hp : s.bsPos = p)
    (h0 : 0 ≤ p) (ha : (s.slot sl).info.al.toNat = a) :
    initStateOver sl s =
      if p < a then .error ⟨.bitstreamOverrun, p - a⟩ (s.stateRead sl)
      else .ok () (s.stateRead sl) := by
  have hi : initState sl s = .ok () (s.stateRead sl) := by
    rw [run_initState, if_neg (by omega)]
    rfl
  rw [initStateOver, run_bind, hi]
  dsimp only
  rw [run_overrun, State.bsPos_stateRead hp h0 ha]
  by_cases hover : p < a
  · rw [if_pos hover, if_pos (by omega)]
  · rw [if_neg hover, if_neg (by omega)]

/-- The three state reads of SEQ_OPEN (rule R244). -/
def readStates : Cmd Unit := do
  initStateOver .ll
  initStateOver .of
  initStateOver .ml

section

variable {s : State} {p aLL aOF aML : Nat} (hp : s.bsPos = p)
  (hLL : (s.slot .ll).info.al.toNat = aLL) (hOF : (s.slot .of).info.al.toNat = aOF)
  (hML : (s.slot .ml).info.al.toNat = aML)

include hp hLL in
theorem bsPos_stateRead_ll : (s.stateRead .ll).bsPos = p - aLL :=
  State.bsPos_stateRead hp (by omega) hLL

include hp hLL hOF in
theorem bsPos_stateRead_of (h : aLL ≤ p) :
    ((s.stateRead .ll).stateRead .of).bsPos = p - aLL - aOF :=
  State.bsPos_stateRead (bsPos_stateRead_ll hp hLL) (by omega) (by rwa [State.stateRead_al])

include hp hLL hOF hML

/-- The three reads from position `p`: the first that crosses the beginning faults. -/
theorem run_readStates :
    readStates s =
      if p < aLL then .error ⟨.bitstreamOverrun, (p : Int) - aLL⟩ (s.stateRead .ll)
      else if p < aLL + aOF then
        .error ⟨.bitstreamOverrun, (p : Int) - aLL - aOF⟩ ((s.stateRead .ll).stateRead .of)
      else if p < aLL + aOF + aML then
        .error ⟨.bitstreamOverrun, (p : Int) - aLL - aOF - aML⟩
          (((s.stateRead .ll).stateRead .of).stateRead .ml)
      else .ok () (((s.stateRead .ll).stateRead .of).stateRead .ml) := by
  rw [readStates, run_bind, run_initStateOver hp (by omega) hLL]
  by_cases c1 : p < aLL
  · rw [if_pos (by omega), if_pos c1]
  rw [if_neg (by omega), if_neg c1]
  dsimp only
  rw [run_bind, run_initStateOver (a := aOF) (bsPos_stateRead_ll hp hLL) (by omega)
    (by rwa [State.stateRead_al])]
  by_cases c2 : p < aLL + aOF
  · rw [if_pos (by omega), if_pos c2]
  rw [if_neg (by omega), if_neg c2]
  dsimp only
  rw [run_initStateOver (a := aML) (bsPos_stateRead_of hp hLL hOF (by omega)) (by omega)
    (by rwa [State.stateRead_al, State.stateRead_al])]
  by_cases c3 : p < aLL + aOF + aML
  · rw [if_pos (by omega), if_pos c3]
  · rw [if_neg (by omega), if_neg c3]

theorem readStates_ok {q : Nat} (hq : p = q + aML + aOF + aLL) :
    readStates s = .ok () (((s.stateRead .ll).stateRead .of).stateRead .ml) := by
  rw [run_readStates hp hLL hOF hML, if_neg (by omega), if_neg (by omega), if_neg (by omega)]

/-- With too few bits for the three states, the read that crosses the beginning faults there. -/
theorem readStates_overrun (h : p < aLL + aOF + aML) :
    ∃ t, readStates s = .error ⟨.bitstreamOverrun,
        if p < aLL then (p : Int) - aLL
        else if p < aLL + aOF then (p : Int) - aLL - aOF
        else (p : Int) - aLL - aOF - aML⟩ t ∧
      t.status = s.status ∧ t.cp = s.cp := by
  rw [run_readStates hp hLL hOF hML]
  by_cases c1 : p < aLL
  · rw [if_pos c1, if_pos c1]
    exact ⟨_, rfl, by simp, by simp⟩
  by_cases c2 : p < aLL + aOF
  · rw [if_neg c1, if_neg c1, if_pos c2, if_pos c2]
    exact ⟨_, rfl, by simp, by simp⟩
  · rw [if_neg c1, if_neg c1, if_neg c2, if_neg c2, if_pos h]
    exact ⟨_, rfl, by simp, by simp⟩

/-- The position that the three reads leave. -/
theorem bits_readStates {q : Nat} (hq : p = q + aML + aOF + aLL) :
    (((s.stateRead .ll).stateRead .of).stateRead .ml).bits =
      { s.bits with pos := BitVec.ofNat 32 q } := by
  rw [State.stateRead_bits, bsPos_stateRead_of hp hLL hOF (by omega), State.stateRead_al,
    State.stateRead_al, hML, show (p : Int) - aLL - aOF - aML = q by omega, BitVec.ofInt_natCast]
  rfl

/-- The slots that the three reads leave. -/
theorem slots_readStates (h : aLL ≤ p) :
    (((s.stateRead .ll).stateRead .of).stateRead .ml).slots =
      { s.slots with
        ll := { s.slots.ll with
          state := BitVec.ofNat 32 (backBits s.inByte s.bits.base.toNat p aLL)
          info := { s.slots.ll.info with sinit := true } }
        of := { s.slots.of with
          state := BitVec.ofNat 32 (backBits s.inByte s.bits.base.toNat (p - aLL) aOF)
          info := { s.slots.of.info with sinit := true } }
        ml := { s.slots.ml with
          state := BitVec.ofNat 32 (backBits s.inByte s.bits.base.toNat (p - aLL - aOF) aML)
          info := { s.slots.ml.info with sinit := true } } } := by
  simp only [State.stateRead_slots, State.peekBack, State.stateRead_inByte, State.stateRead_bits,
    State.stateRead_al, hp, hLL, hOF, hML, bsPos_stateRead_ll hp hLL,
    bsPos_stateRead_of hp hLL hOF h]
  rfl

end

/-- A sequences section of `count` sequences opened at the Reader cursor, at position `p`
(rule R244). -/
def State.sectionOpened (s : State) (n count : Word) (p : Nat) : State :=
  ((s.setBits { base := s.reader.rpos, len := n, pos := BitVec.ofNat 32 p }).setStatus
    { s.status with bsOpen := true, seqActive := true, seqValid := false }).setSeq
    { s.seq with left := count }

theorem bsPos_sectionOpened (s : State) (n count : Word) {p : Nat} (h : p < 2 ^ 31) :
    (s.sectionOpened n count p).bsPos = p := by
  show (BitVec.ofNat 32 p).toInt = p
  rw [BitVec.toInt_ofNat', Int.bmod_eq_of_le (by omega) (by omega)]

/-- Opening the section and reading the states, after the checks (rule R244). -/
def openAndRead (n count : Word) : Cmd Unit := do
  openSection n
  update fun s => s.setStatus { s.status with bsOpen := true, seqActive := true, seqValid := false }
  update fun s => s.setSeq { s.seq with left := count }
  readStates

/-- The checks of SEQ_OPEN on its operands and on the tables, in their order. -/
theorem run_seqOpenBody (n count : Word) (s : State) :
    seqOpenBody n count s =
      if isQuiet s then
        if n.toNat > Config.bsMaxBytes then .error ⟨.illegalOperand, n.toNat⟩ s
        else if count = 0 then .error ⟨.illegalOperand, 0⟩ s
        else if (s.slot .ll).info.valid = false then .error ⟨.missingTable, 0⟩ s
        else if (s.slot .of).info.valid = false then .error ⟨.missingTable, 1⟩ s
        else if (s.slot .ml).info.valid = false then .error ⟨.missingTable, 2⟩ s
        else openAndRead n count s
      else .error (stateFault s) s := by
  simp only [seqOpenBody, run_bind, run_quiet, run_raiseIf, run_tableValid]
  by_cases h : isQuiet s
  case neg => simp only [if_neg h]
  simp only [if_pos h]
  by_cases h1 : n.toNat > Config.bsMaxBytes
  case pos => simp only [if_pos h1]
  simp only [if_neg h1]
  by_cases h2 : count = 0
  case pos => simp only [if_pos h2]
  simp only [if_neg h2]
  by_cases h3 : (s.slot .ll).info.valid = false
  case pos => simp only [if_pos h3]; rfl
  simp only [if_neg h3]
  by_cases h4 : (s.slot .of).info.valid = false
  case pos => simp only [if_pos h4]; rfl
  simp only [if_neg h4]
  by_cases h5 : (s.slot .ml).info.valid = false
  case pos => simp only [if_pos h5]; rfl
  simp only [if_neg h5, openAndRead, readStates, run_bind]

/-- A section that the input does not hold changes nothing (rule R66). -/
theorem openAndRead_short {n count : Word} {s : State}
    (h : s.reader.rpos.toNat + n.toNat > s.reader.len.toNat) :
    openAndRead n count s = .error ⟨.shortRead, s.reader.rpos.toNat⟩ s := by
  rw [openAndRead, run_bind, run_openSection, if_pos h]

/-- A section without an end mark changes nothing (rule R71). -/
theorem openAndRead_error {n count : Word} {s : State} {r : Raise}
    (hlen : s.reader.rpos.toNat + n.toNat ≤ s.reader.len.toNat)
    (hr : backStart s.inByte s.reader.rpos.toNat n.toNat = .error r) :
    openAndRead n count s = .error r s := by
  rw [openAndRead, run_bind, run_openSection, if_neg (by omega), hr]

/-- A section with an end mark opens, and the states are read from the mark down (rule R71). -/
theorem openAndRead_ok {n count : Word} {s : State} {p : Nat}
    (hlen : s.reader.rpos.toNat + n.toNat ≤ s.reader.len.toNat)
    (hp : backStart s.inByte s.reader.rpos.toNat n.toNat = .ok p) :
    openAndRead n count s = readStates (s.sectionOpened n count p) := by
  rw [openAndRead, run_bind, run_openSection, if_neg (by omega), hp]
  rfl

/-- The unit after SEQ_OPEN, part by part. -/
theorem complete_stateRead (n count : Word) {s : State} {p q aLL aOF aML : Nat} (h : s.Ready)
    (hlt : p < 2 ^ 31) (hq : p = q + aML + aOF + aLL)
    (hLL : (s.slot .ll).info.al.toNat = aLL) (hOF : (s.slot .of).info.al.toNat = aOF)
    (hML : (s.slot .ml).info.al.toNat = aML) :
    complete (((((begin s).sectionOpened n count p).stateRead .ll).stateRead .of).stateRead .ml) =
      { s.done with
        bits := { base := s.reader.rpos, len := n, pos := BitVec.ofNat 32 q }
        seq := { s.seq with left := count }
        status := { s.status with bsOpen := true, seqActive := true, seqValid := false }
        slots :=
          { s.slots with
            ll := { s.slots.ll with
              state := BitVec.ofNat 32 (backBits s.inByte s.reader.rpos.toNat p aLL)
              info := { s.slots.ll.info with sinit := true } }
            of := { s.slots.of with
              state := BitVec.ofNat 32 (backBits s.inByte s.reader.rpos.toNat (p - aLL) aOF)
              info := { s.slots.of.info with sinit := true } }
            ml := { s.slots.ml with
              state := BitVec.ofNat 32 (backBits s.inByte s.reader.rpos.toNat (p - aLL - aOF) aML)
              info := { s.slots.ml.info with sinit := true } } } } := by
  have h0 := bsPos_sectionOpened (begin s) n count hlt
  apply State.ext_parts
  case status => rw [← busy_cleared h]; rfl
  case bits => exact bits_readStates h0 hLL hOF hML hq
  case slots => exact slots_readStates h0 hLL hOF hML (by omega)
  all_goals rfl

/-- Settles O55: the checks in their order by `run_seqOpenBody`, then the section and the states by
`openAndRead` and `readStates`. -/
theorem seqOpenReadsTheStates : Obligations.SeqOpenReadsTheStates := by
  unfold Obligations.SeqOpenReadsTheStates
  refine ⟨illegalUnless_of_encodeFields fun i hop => ?_, fun n count =>
    ⟨Instr.encodedAs (i := .seqOpen n count) rfl, ?_⟩⟩
  · cases i with
    | seqOpen n count => exact ⟨rfl, rfl⟩
    | _ => simp [encodeFields] at hop
  rintro s last p aLL aOF aML hs rfl hp rfl rfl rfl
  have latch {r : Raise} (h : seqOpenBody n count (begin s) = .error r (begin s)) :
      exec (.seqOpen n count) s = .next (s.latched r.fault r.info) :=
    exec_latched (i := .seqOpen n count) hs rfl h
  have h0 := run_seqOpenBody n count (begin s)
  have h1 (hq : s.Quiet) := h0.trans (if_pos hq)
  have h2 (hq : s.Quiet) (hn : n.toNat ≤ 2 ^ 27) := (h1 hq).trans (if_neg (Nat.not_lt.2 hn))
  refine ⟨fun hq => latch (h0.trans (if_neg hq)), fun hq hn => latch ((h1 hq).trans (if_pos hn)),
    fun hq hn hc => latch ((h2 hq hn).trans (if_pos hc)), fun hq hn hc => ?_⟩
  have h3 := (h2 hq hn).trans (if_neg hc)
  have h4 (hl : s.slots.ll.info.valid = true) := h3.trans (if_neg (ne_false_of_eq_true hl))
  have h5 (hl : s.slots.ll.info.valid = true) (ho : s.slots.of.info.valid = true) :=
    (h4 hl).trans (if_neg (ne_false_of_eq_true ho))
  refine ⟨fun hl => latch (h3.trans (if_pos hl)), fun hl ho => latch ((h4 hl).trans (if_pos ho)),
    fun hl ho hm => latch ((h5 hl ho).trans (if_pos hm)), fun hl ho hm => ?_⟩
  have hrun := (h5 hl ho).trans (if_neg (ne_false_of_eq_true hm))
  refine ⟨fun hshort => latch (hrun.trans (openAndRead_short hshort)), fun h0 hlen => ?_,
    fun h1 hlen => ⟨fun hlast => ?_, fun hlast hover => ?_, fun hlast q hq => ?_⟩⟩
  · exact latch (hrun.trans (openAndRead_error (by simpa [h0] using hlen)
      (by rw [h0]; exact backStart_empty ..)))
  · exact latch (hrun.trans (openAndRead_error hlen (backStart_noEndMark h1 hlast)))
  all_goals
    have hstart := backStart_ok.2 ⟨by omega, hlast, hp⟩
    have hlt := backStart_lt hstart
    have hopen := hrun.trans (openAndRead_ok hlen hstart)
    have hpos := bsPos_sectionOpened (begin s) n count (p := p) (by omega)
  · obtain ⟨t, ht, hstatus, hcp⟩ := readStates_overrun hpos rfl rfl rfl hover
    refine ⟨_, exec_of_error (i := .seqOpen n count) hs rfl (hopen.trans ht), ?_, rfl, hcp, rfl⟩
    rw [faultEntry_status, hstatus]
    rfl
  · rw [← complete_stateRead n count hs (by omega) hq rfl rfl rfl]
    exact exec_of_ok (i := .seqOpen n count) hs rfl
      (hopen.trans (readStates_ok hpos rfl rfl rfl hq))

end Sys2Proof.Machine

namespace Sys2Proof

open Machine

/-! # The encoding (rules R91 to R96) -/

/-! ### The words that decode are those that meet no condition of rule R95 -/

theorem Slot.exists_toSel {sel : BitVec 8} : (∃ sl : Slot, sel = sl.toSel) ↔ sel.toNat ≤ 3 := by
  constructor
  · rintro ⟨sl, rfl⟩
    cases sl <;> decide
  · intro h
    obtain h | h | h | h : sel.toNat = 0 ∨ sel.toNat = 1 ∨ sel.toNat = 2 ∨ sel.toNat = 3 := by omega
    exacts [⟨.ll, BitVec.eq_of_toNat_eq h⟩, ⟨.of, BitVec.eq_of_toNat_eq h⟩,
      ⟨.ml, BitVec.eq_of_toNat_eq h⟩, ⟨.aux, BitVec.eq_of_toNat_eq h⟩]

theorem Slot.hasPredef_iff {sl : Slot} : sl.hasPredef = true ↔ sl.toSel.toNat ≤ 2 := by
  cases sl <;> decide

theorem Streams.exists_toSel {sel : BitVec 8} :
    (∃ n : Streams, sel = n.toSel) ↔ (sel ≠ 1 → sel = 4) := by
  rw [← or_iff_not_imp_left]
  constructor
  · rintro ⟨n, rfl⟩
    cases n <;> decide
  · exact fun h => h.elim (⟨.one, ·⟩) (⟨.four, ·⟩)

theorem exists_decodeFrameEnd {f : Fields} (himm : f.imm = 0) (hsel : f.sel.toNat ≤ 1)
    (hsize : f.sel = 0 → f.a = 0 ∧ f.b = 0) : ∃ i, decodeFrameEnd f = .ok i := by
  obtain h | h := Nat.le_one_iff_eq_zero_or_eq_one.1 hsel
  · simp [decodeFrameEnd, h, hsize (BitVec.eq_of_toNat_eq h), zeroed_ok, himm]
  · simp [decodeFrameEnd, h, zeroed_ok, himm]

theorem exists_decodeFsePredef {f : Fields} (hsel : f.sel.toNat ≤ 2)
    (h0 : f.imm = 0 ∧ f.a = 0 ∧ f.b = 0) : ∃ i, decodeFsePredef f = .ok i := by
  obtain ⟨sl, hsl⟩ := Slot.exists_toSel.2 (show f.sel.toNat ≤ 3 by omega)
  rw [hsl] at hsel
  simp [decodeFsePredef, hsl, Slot.hasPredef_iff.2 hsel, zeroed_ok, h0]

/-- One case per row of the opcode table, and the last for the unused opcodes. -/
theorem exists_decodeFields {f : Fields} (h : ¬ Illegal f) : ∃ i, decodeFields f = .ok i := by
  obtain ⟨op, sel, imm, a, b⟩ := f
  unfold decodeFields
  dsimp only
  split
  case h_28 =>
    refine absurd (.inl ?_) h
    simp only [List.mem_cons, List.not_mem_nil, or_false, ← BitVec.toNat_inj, not_or]
    and_intros <;> assumption
  all_goals
    rename_i hop
    obtain rfl := (BitVec.toNat_eq_nat.1 hop).2
    simp [Illegal] at h
  case h_4 => exact exists_decodeFrameEnd h.1 h.2.1 h.2.2
  case h_16 => exact exists_decodeFsePredef h.2.2.2 ⟨h.1, h.2.1, h.2.2.1⟩
  case h_12 | h_13 => simpa [streamed_ok, h.1, Streams.exists_toSel] using h.2
  all_goals simp [zeroed_ok, slotted_ok, Slot.exists_toSel, h]

theorem not_illegal_encodeFields {i : Instr} (h : i.wf = true) : ¬ Illegal (encodeFields i) := by
  cases i with
  | frameEnd hasSize lo hi =>
    cases hasSize with
    | false =>
      obtain ⟨rfl, rfl⟩ : lo = 0 ∧ hi = 0 := by simpa [Instr.wf, frameEndOk] using h
      simp [Illegal, encodeFields]
    | true => simp [Illegal, encodeFields]
  | fsePredef sl =>
    have hsel := Slot.hasPredef_iff.1 h
    simpa [Illegal, encodeFields] using hsel
  | litHuf n _ _ | litHufr n _ _ =>
    have hsel := Streams.exists_toSel.1 ⟨n, rfl⟩
    simpa [Illegal, encodeFields] using hsel
  | fseBuild sl | fseLoad sl _ _ | fseRle sl _ | fseInit sl | fseEmit sl | fseNext sl =>
    have hsel := Slot.exists_toSel.1 ⟨sl, rfl⟩
    simpa [Illegal, encodeFields] using hsel
  | _ => simp [Illegal, encodeFields]

theorem exists_decode_iff {c : CmdWord} :
    (∃ i, decode c = .ok i) ↔ ¬ Illegal (Fields.ofWord c) := by
  refine ⟨?_, exists_decodeFields⟩
  rintro ⟨i, h⟩
  obtain ⟨hw, he⟩ := decodeFields_sound h
  exact he ▸ not_illegal_encodeFields hw

/-! ### What a row of the opcode table accepts -/

theorem Fields.ofWord_inj {c d : CmdWord} : Fields.ofWord c = Fields.ofWord d ↔ c = d :=
  ⟨fun h => by rw [← Fields.toWord_ofWord c, h, Fields.toWord_ofWord], congrArg _⟩

theorem and_eq_iff_fields {c m p : CmdWord} :
    c &&& m = p ↔
      (Fields.ofWord c).opcode &&& (Fields.ofWord m).opcode = (Fields.ofWord p).opcode ∧
      (Fields.ofWord c).sel &&& (Fields.ofWord m).sel = (Fields.ofWord p).sel ∧
      (Fields.ofWord c).imm &&& (Fields.ofWord m).imm = (Fields.ofWord p).imm ∧
      (Fields.ofWord c).a &&& (Fields.ofWord m).a = (Fields.ofWord p).a ∧
      (Fields.ofWord c).b &&& (Fields.ofWord m).b = (Fields.ofWord p).b := by
  rw [← Fields.ofWord_inj]
  simp only [Fields.ofWord, BitVec.extractLsb'_and, Fields.mk.injEq]

theorem OpcodeRow.accepts_iff {r : OpcodeRow} {c : CmdWord} :
    r.accepts c = true ↔ c &&& r.mask = r.pattern ∧
      (∀ vs ∈ r.selValues, (Fields.ofWord c).sel.toNat ∈ vs) ∧
      (r.sizeNeedsFlag = true → (Fields.ofWord c).sel.getLsbD 0 = false →
        (Fields.ofWord c).a = 0 ∧ (Fields.ofWord c).b = 0) := by
  cases hv : r.selValues <;> simp [accepts, hv, and_assoc, or_iff_not_imp_left]

theorem and_eq_self {w : Nat} {m : BitVec w} (h : m = BitVec.allOnes w) (x : BitVec w) :
    x &&& m = x := h ▸ BitVec.and_allOnes

/-! A row's selector values as the conditions of rule R95, and its mask, which then says nothing
more. -/

section

variable {sel : BitVec 8}

theorem sel_slot_iff :
    (sel.toNat = 0 ∨ sel.toNat = 1 ∨ sel.toNat = 2 ∨ sel.toNat = 3) ↔ sel.toNat ≤ 3 := by omega

theorem sel_predef_iff : (sel.toNat = 0 ∨ sel.toNat = 1 ∨ sel.toNat = 2) ↔ sel.toNat ≤ 2 := by
  omega

theorem sel_streams_iff : (sel.toNat = 1 ∨ sel.toNat = 4) ↔ (¬ sel = 1#8 → sel = 4#8) := by
  rw [← or_iff_not_imp_left, BitVec.toNat_eq, BitVec.toNat_eq]
  rfl

theorem sel_flag_iff : (sel.toNat = 0 ∨ sel.toNat = 1) ↔ sel.toNat ≤ 1 := by omega

theorem sel_slot_masked (h : sel.toNat ≤ 3) : sel &&& 252#8 = 0#8 := by
  obtain ⟨sl, rfl⟩ := Slot.exists_toSel.2 h
  cases sl <;> decide

theorem sel_predef_masked (h : sel.toNat ≤ 2) : sel &&& 252#8 = 0#8 := sel_slot_masked (by omega)

theorem sel_streams_masked (h : ¬ sel = 1#8 → sel = 4#8) : sel &&& 250#8 = 0#8 := by
  obtain ⟨n, rfl⟩ := Streams.exists_toSel.2 h
  cases n <;> decide

theorem sel_flag_masked (h : sel.toNat ≤ 1) :
    sel &&& 254#8 = 0#8 ∧ (sel[0] = false ↔ sel = 0#8) := by
  obtain h | h := Nat.le_one_iff_eq_zero_or_eq_one.1 h
  all_goals
    obtain rfl := (BitVec.toNat_eq_nat.1 h).2
    decide

end

/-- The mask, the selector values and the size constraint of a row say together what rule R95 says of
the row's opcode. -/
theorem OpcodeRow.accepts_iff_not_illegal {r : OpcodeRow} (hr : r ∈ opcodeRows) {c : CmdWord} :
    r.accepts c = true ↔
      (Fields.ofWord c).opcode = (Fields.ofWord r.pattern).opcode ∧ ¬ Illegal (Fields.ofWord c) := by
  rw [accepts_iff, and_eq_iff_fields]
  generalize Fields.ofWord c = f
  obtain ⟨op, sel, imm, a, b⟩ := f
  simp only [opcodeRows, List.cons_append, List.nil_append, List.mem_cons, List.not_mem_nil,
    or_false] at hr
  casesm* _ ∨ _
  all_goals
    subst r
    simp only [Fields.ofWord, BitVec.reduceExtractLsb', and_eq_self (m := 255#8) rfl, and_assoc]
    refine and_congr_right ?_
    rintro rfl
    simp +contextual [Illegal, and_eq_self, sel_slot_iff, sel_predef_iff, sel_streams_iff,
      sel_flag_iff, sel_slot_masked, sel_predef_masked, sel_streams_masked]
  -- The row left is FRAME_END, whose size constraint reads the flag that the mask leaves free.
  exact ⟨fun ⟨_, himm, hsel, hsize⟩ => ⟨himm, hsel, fun h => hsize ((sel_flag_masked hsel).2.2 h)⟩,
    fun ⟨himm, hsel, hsize⟩ =>
      ⟨(sel_flag_masked hsel).1, himm, hsel, fun h => hsize ((sel_flag_masked hsel).2.1 h)⟩⟩

theorem exists_row (i : Instr) : ∃ r ∈ opcodeRows,
    (encodeFields i).opcode = (Fields.ofWord r.pattern).opcode ∧ r.mnemonic = i.mnemonic := by
  cases i <;> simp only [encodeFields, Instr.mnemonic] <;> decide +kernel

theorem row_eq_of_opcode_eq : ∀ r ∈ opcodeRows, ∀ r' ∈ opcodeRows,
    (Fields.ofWord r.pattern).opcode = (Fields.ofWord r'.pattern).opcode → r = r' := by
  decide +kernel

/-! ### The transported words and the written bytes (rule R92) -/

namespace CmdWord

theorem w0_ofWords (x y z : Word) : w0 (ofWords x y z) = x := by
  rw [w0, ofWords, BitVec.extractLsb'_append_eq_of_le (by decide)]
  exact BitVec.extractLsb'_append_eq_left

theorem w1_ofWords (x y z : Word) : w1 (ofWords x y z) = y := by
  rw [w1, ofWords, BitVec.extractLsb'_append_eq_of_le (by decide)]
  exact BitVec.extractLsb'_append_eq_right

theorem w2_ofWords (x y z : Word) : w2 (ofWords x y z) = z :=
  BitVec.extractLsb'_append_eq_right

/-- After `k` bytes the byte reader holds the `8 * k` most significant bits. -/
theorem foldl_bytes (c : CmdWord) {k : Nat} (hk : k ≤ 12) :
    ((List.range k).map (fun j => c.extractLsb' (88 - 8 * j) 8)).foldl
      (fun n b => n * 256 + b.toNat) 0 = c.toNat >>> (96 - 8 * k) := by
  induction k with
  | zero => simp [Nat.shiftRight_eq_zero, c.isLt]
  | succ k ih =>
    have hbefore : 96 - 8 * k = 88 - 8 * k + 8 := by omega
    have hafter : 96 - 8 * (k + 1) = 88 - 8 * k := by omega
    rw [List.range_succ, List.map_append, List.foldl_append, ih (by omega), hbefore, hafter,
      Nat.shiftRight_add]
    simp [BitVec.extractLsb'_toNat, Nat.shiftRight_eq_div_pow _ 8]
    omega

theorem ofBytes_bytes (c : CmdWord) :
    ofBytes ((List.range 12).map (fun k => c.extractLsb' (88 - 8 * k) 8)) = c := by
  rw [ofBytes, foldl_bytes c le_rfl, Nat.sub_self, Nat.shiftRight_zero, BitVec.ofNat_toNat,
    BitVec.setWidth_eq]

end CmdWord

theorem decodeBytes_append {bytes : List Byte} {i : Instr} (hlen : bytes.length = 12)
    (hd : decode (CmdWord.ofBytes bytes) = .ok i) (rest : List Byte) :
    decodeBytes (bytes ++ rest) = .ok (i, rest) := by
  simp [decodeBytes, hlen, List.take_left' hlen, List.drop_left' hlen, hd]

/-! ### The statements -/

/-- Settles O1: a word decodes to a command exactly when it is its encoding (`decode_ok`). -/
theorem decodeOfEncode : Obligations.DecodeOfEncode :=
  fun _ hw => decode_ok.2 ⟨hw, rfl⟩

/-- Settles O2: the decoder and the rows both accept what rule R95 leaves, and the rows' opcodes
differ. -/
theorem decoderIsTheOpcodeTable : Obligations.DecoderIsTheOpcodeTable := by
  refine ⟨fun c => ?_, row_eq_of_opcode_eq⟩
  cases hd : decode c with
  | ok i =>
    have hlegal := exists_decode_iff.1 ⟨i, hd⟩
    obtain ⟨hw, rfl⟩ := decode_ok.1 hd
    obtain ⟨r, hr, hop, hname⟩ := exists_row i
    rw [← Fields.ofWord_toWord (encodeFields i)] at hop
    refine .inl ⟨i, r, rfl, hw, rfl, hr, (OpcodeRow.accepts_iff_not_illegal hr).2 ⟨hop, hlegal⟩,
      hname, fun r' hr' h' => ?_⟩
    obtain ⟨hop', -⟩ := (OpcodeRow.accepts_iff_not_illegal hr').1 h'
    exact row_eq_of_opcode_eq r' hr' r hr (hop'.symm.trans hop)
  | error e =>
    refine .inr ⟨⟨e, rfl⟩, fun r hr => Bool.eq_false_iff.2 fun h => ?_⟩
    obtain ⟨-, hlegal⟩ := (OpcodeRow.accepts_iff_not_illegal hr).1 h
    obtain ⟨i, hi⟩ := exists_decode_iff.2 hlegal
    cases hd.symm.trans hi

/-- Settles O3: an illegal word does not decode, and what does not decode only latches. -/
theorem illegalWordRaises : Obligations.IllegalWordRaises := by
  refine fun c s hs => ⟨fun hillegal => ?_, fun hlegal => ?_⟩
  · cases hd : decode c with
    | ok i => exact absurd hillegal (exists_decode_iff.1 ⟨i, hd⟩)
    | error e =>
      rw [presentWord_error hd, presentIllegal_ready hs.1 hs.2, faultEntry_begin hs, State.latched,
        BitVec.ofInt_natCast, BitVec.ofNat_toNat, BitVec.setWidth_eq]
      rfl
  · obtain ⟨i, hi⟩ := exists_decode_iff.2 hlegal
    exact ⟨i, hi, (decode_ok.1 hi).1, presentWord_ok hi s⟩

/-- Settles O5: the words by their places in `C`, the bytes by `CmdWord.ofBytes_bytes`. -/
theorem transportedCommandDecodes : Obligations.TransportedCommandDecodes := by
  refine ⟨fun f => ⟨CmdWord.w0_ofWords .., CmdWord.w1_ofWords .., CmdWord.w2_ofWords .., rfl⟩,
    fun i rest hw => decodeBytes_append (by simp) ?_ rest⟩
  rw [CmdWord.ofBytes_bytes]
  exact decode_ok.2 ⟨hw, rfl⟩

/-- Settles O6: the decoder on nine words. -/
theorem writtenWordsDecode : Obligations.WrittenWordsDecode := by
  unfold Obligations.WrittenWordsDecode
  decide

end Sys2Proof

namespace Sys2Proof.Machine

/-! # The system commands (`40_system.md`) -/

/-- The fault latch ignores every command (rule R315). -/
theorem exec_ignored (i : Instr) {s : State} (hb : s.status.busy = false)
    (hf : s.status.fault = true) : exec i s = .next s := by
  rw [exec_eq_present, present, presentBody_latched hb hf]

/-- Settles O16: the latch ignores a command or a word, and a ready unit runs it to its end. -/
theorem everyCommandAnswersNext : Obligations.EveryCommandAnswersNext := by
  intro s hb
  cases hf : s.status.fault with
  | true =>
    exact ⟨fun i => ⟨s, exec_ignored i hb hf, hb⟩, fun c => ⟨s, presentWord_latched c hb hf, hb⟩⟩
  | false =>
    refine ⟨fun i => ?_, fun c => ?_⟩
    · obtain ⟨t, ht, hends⟩ := exec_ends i ⟨hb, hf⟩
      exact ⟨t, ht, hends.idle⟩
    · obtain ⟨t, ht, _, hends⟩ := presentWord_ends c ⟨hb, hf⟩
      exact ⟨t, ht, hends.idle⟩

/-- As `illegalUnless_of_encodeFields`, for an opcode with terms that no legal word encodes (rule
R95). -/
theorem illegalUnless_of_wf {op : BitVec 8} {ok : Fields → Prop}
    (h : ∀ i : Instr, i.wf = true → (encodeFields i).opcode = op → ok (encodeFields i)) :
    IllegalUnless op ok := by
  intro c s hs hop hok
  cases hd : decode c with
  | ok i =>
    obtain ⟨hw, he⟩ := decodeFields_sound hd
    rw [← he] at hop hok
    exact absurd (h i hw hop) hok
  | error e =>
    rw [presentWord_error hd, presentIllegal_ready hs.1 hs.2, faultEntry_begin hs]
    rfl

/-- A command that assigns nothing advances `CP` and changes nothing else (rule R121). -/
theorem complete_begin {s : State} (h : s.Ready) : complete (begin s) = s.done := by
  apply State.ext_parts
  case status => exact busy_cleared h
  all_goals rfl

/-- A command whose body assigns nothing only advances `CP`. -/
theorem exec_done {i : Instr} {s : State} (h : s.Ready) (hw : i.wf = true)
    (hb : bodyOf i (begin s) = .ok () (begin s)) : exec i s = .next s.done := by
  rw [exec_of_ok h hw hb, complete_begin h]

/-- Settles O32: the body of NOP assigns nothing. -/
theorem nopAdvancesCp : Obligations.NopAdvancesCp := by
  refine ⟨illegalUnless_of_encodeFields fun i hop => ?_, Instr.encodedAs (i := .nop) rfl,
    fun s hs => exec_done hs rfl rfl⟩
  cases i with
  | nop => exact ⟨rfl, rfl, rfl, rfl⟩
  | _ => simp [encodeFields] at hop

/-- The unit after FRAME_INIT, part by part (rule R124). -/
theorem complete_frameInit (capacity : Word) {s : State} (h : s.Ready) :
    complete ((begin s).frameInit capacity) = { s.frameInit capacity with cp := s.cp + 1 } := by
  apply State.ext_parts
  case status => rw [State.frameInit, State.frameInit, ← busy_cleared h]; rfl
  all_goals rfl

/-- Settles O33: one check on the operand by `run_frameInitBody`, then `complete_frameInit`. -/
theorem frameInitBeginsAFrame : Obligations.FrameInitBeginsAFrame := by
  refine ⟨illegalUnless_of_encodeFields fun i hop => ?_, rfl, fun capacity =>
    ⟨Instr.encodedAs (i := .frameInit capacity) rfl, fun s hs => ?_⟩⟩
  · cases i with
    | frameInit capacity => exact ⟨rfl, rfl, rfl⟩
    | _ => simp [encodeFields] at hop
  have hrun := run_frameInitBody capacity (begin s)
  have hzero : capacity = 0 ↔ capacity.toNat = 0 := BitVec.toNat_inj.symm
  refine ⟨fun hpos hcap => ?_, fun hout => ?_⟩
  · have hin : ¬ (capacity = 0 ∨ capacity.toNat > s.params.winCap) :=
      not_or.2 ⟨fun h => Nat.ne_of_gt hpos (hzero.1 h), Nat.not_lt.2 hcap⟩
    rw [exec_of_ok (i := .frameInit capacity) hs rfl (hrun.trans (if_neg hin)),
      complete_frameInit capacity hs]
    rfl
  · exact exec_latched (i := .frameInit capacity) hs rfl
      (hrun.trans (if_pos (hout.imp_left hzero.2)))

/-- Settles O34: the checks in their order by `run_rdOpenBody`. -/
theorem rdOpenPlacesTheReader : Obligations.RdOpenPlacesTheReader := by
  refine ⟨illegalUnless_of_encodeFields fun i hop => ?_, fun rpos len =>
    ⟨Instr.encodedAs (i := .rdOpen rpos len) rfl, fun s hs => ?_⟩⟩
  · cases i with
    | rdOpen rpos len => exact ⟨rfl, rfl⟩
    | _ => simp [encodeFields] at hop
  have latch {r : Raise} (h : rdOpenBody rpos len (begin s) = .error r (begin s)) :
      exec (.rdOpen rpos len) s = .next (s.latched r.fault r.info) :=
    exec_latched (i := .rdOpen rpos len) hs rfl h
  have hrun := run_rdOpenBody rpos len (begin s)
  have hquiet (hq : s.Quiet) := hrun.trans (if_pos hq)
  have hfits (hq : s.Quiet) (hlen : len.toNat ≤ s.params.inCap) :=
    (hquiet hq).trans (if_neg (Nat.not_lt.2 hlen))
  refine ⟨fun hq hlen hpos => ?_, fun hq => latch (hrun.trans (if_neg hq)),
    fun hq hlen => latch ((hquiet hq).trans (if_pos hlen)),
    fun hq hlen hpos => latch ((hfits hq hlen).trans (if_pos hpos))⟩
  rw [exec_of_ok (i := .rdOpen rpos len) hs rfl
    ((hfits hq hlen).trans (if_neg (Nat.not_lt.2 hpos))), ← complete_begin hs]
  rfl

/-- A FRAME_END that a legal word encodes has a size, or both operands zero (rule R95). -/
theorem frameEnd_operands_of_wf {hasSize : Bool} {lo hi : Word}
    (h : (Instr.frameEnd hasSize lo hi).wf = true) :
    hasSize = true ∨ hasSize = false ∧ lo = 0 ∧ hi = 0 := by
  cases hasSize with
  | false => exact .inr ⟨rfl, by simpa [Instr.wf, frameEndOk] using h⟩
  | true => exact .inl rfl

/-- Settles O35: `Quiet()`, then the declared size by `run_frameEndBody`. -/
theorem frameEndChecksTheSize : Obligations.FrameEndChecksTheSize := by
  refine ⟨illegalUnless_of_wf fun i hw hop => ?_, fun lo hi =>
    ⟨Instr.encodedAs (i := .frameEnd true lo hi) rfl,
      Instr.encodedAs (i := .frameEnd false 0 0) rfl, fun s hs => ?_⟩⟩
  · cases i with
    | frameEnd hasSize lo hi =>
      obtain rfl | ⟨rfl, rfl, rfl⟩ := frameEnd_operands_of_wf hw
      · exact ⟨.inr rfl, rfl⟩
      · exact ⟨.inl ⟨rfl, rfl, rfl⟩, rfl⟩
    | _ => simp [encodeFields] at hop
  have hrun hasSize lo hi := run_frameEndBody hasSize lo hi (begin s)
  have hquiet (hq : s.Quiet) hasSize lo hi := (hrun hasSize lo hi).trans (if_pos hq)
  have hopen (hq : ¬ s.Quiet) hasSize lo hi (hw : (Instr.frameEnd hasSize lo hi).wf = true) :
      exec (.frameEnd hasSize lo hi) s = .next s.latchedState :=
    exec_latched hs hw ((hrun hasSize lo hi).trans (if_neg hq))
  refine ⟨fun hq => ?_, fun hq hsize => ?_,
    fun hq => ⟨hopen hq true lo hi rfl, hopen hq false 0 0 rfl⟩, fun hq hsize => ?_⟩
  · exact exec_done hs rfl ((hquiet hq false 0 0).trans (if_neg (by simp)))
  · exact exec_done hs rfl ((hquiet hq true lo hi).trans (if_neg fun h => h.2 hsize))
  · exact exec_latched (i := .frameEnd true lo hi) hs rfl
      ((hquiet hq true lo hi).trans (if_pos ⟨rfl, hsize⟩))

end Sys2Proof.Machine

namespace Sys2Proof

theorem Slot.toSel_le (sl : Slot) : sl.toSel.toNat ≤ 3 := Slot.exists_toSel.1 ⟨sl, rfl⟩

end Sys2Proof

namespace Sys2Proof.Machine

/-! # The FSE table builder (`41_fse_table.md`) -/

/-! ### Checks and table of a distribution (rule R141) -/

/-- The first probability below -1 raises. -/
theorem distRemaining_error {before after : List Int} {p : Int} (hb : ∀ q ∈ before, -1 ≤ q)
    (hp : p < -1) (total : Int) :
    distRemaining (before ++ p :: after) total = .error ⟨.illegalOperand, p⟩ := by
  induction before generalizing total with
  | nil => rw [List.nil_append, distRemaining, if_pos hp]
  | cons q qs ih =>
    obtain ⟨hq, hqs⟩ := List.forall_mem_cons.1 hb
    rw [List.cons_append, distRemaining, if_neg (by omega), ih hqs, ih hqs, ite_self]

section

variable {p : Params} {sl : Slot} {al : Nat} {probs : List Int} (hmin : p.minAL ≤ al)
  (hmax : al ≤ p.maxAL.get sl) (hlen : probs.length ≤ p.maxSymbols.get sl)
include hmin hmax hlen

/-- Within the bounds on the accuracy log and the symbols, a number below -1 decides. -/
theorem checkDist_error {r : Raise}
    (h : distRemaining probs ((2 ^ al : Nat) : Int) = .error r) :
    checkDist p sl al probs = .error r := by
  rw [checkDist, if_neg (by omega), if_neg (by omega), if_neg (by omega), h]

/-- What is left of the table is the context of `SumMismatch`. -/
theorem checkDist_sumMismatch (hge : ∀ q ∈ probs, -1 ≤ q) (hsum : statesTaken probs ≠ 2 ^ al) :
    checkDist p sl al probs = .error ⟨.sumMismatch, 2 ^ al - statesTaken probs⟩ := by
  rw [checkDist, if_neg (by omega), if_neg (by omega), if_neg (by omega), distRemaining_eq hge]
  simp [sub_ne_zero.2 hsum.symm]

end

/-- A table has one entry per state (rule R142). -/
theorem length_spread {al : Nat} {probs : List Int} (h : probs ≠ []) :
    (spread al probs).length = 2 ^ al :=
  (length_spreadEntries _ _ _).trans (spreadSymbols_below h).1

/-- A predefined distribution that fits the unit builds (rule R150). -/
theorem checkDist_predef {p : Params} (h : p.wf = true) {sl : Slot} {d : Nat × List Int}
    (hd : p.predef sl = some d) : checkDist p sl d.1 d.2 = .ok () := by
  have hok : p.distOk sl d = true := by
    simp only [Params.wf, Bool.and_eq_true] at h
    cases sl <;> cases hd <;> tauto
  simp only [Params.distOk, Bool.and_eq_true, decide_eq_true_eq, List.all_eq_true, beq_iff_eq] at hok
  obtain ⟨⟨⟨⟨hmin, hmax⟩, hlen⟩, hge⟩, hsum⟩ := hok
  exact checkDist_passes hmin hmax hlen hge hsum

/-! ### A slot with a new table -/

/-- The unit after a command that builds a table and, before that, made `u` of the state it was
presented in. -/
theorem complete_build (sl : Slot) (al nsym : Nat) (entries : List FseEntry) {u : State}
    (h : u.Ready) :
    complete ((begin u).setSlot sl ((u.slot sl).build al nsym entries)) =
      { u.done with
        slots := u.slots.set sl
          ((u.slot sl).after al nsym ((u.slot sl).tab.writeList 0 entries)) } := by
  apply State.ext_parts
  case status => exact busy_cleared h
  all_goals rfl

section

variable {i : Instr} {s u : State} {sl : Slot} {al : Nat} {probs : List Int} (hs : s.Ready)
  (hu : u.Ready) (hw : i.wf = true)
  (hb : bodyOf i (begin s) = fseFromDist sl al probs (begin u))
include hs hu hw hb

/-- A command that comes to `FseFromDist` with a distribution that passes builds its table. -/
theorem exec_fseFromDist (h : checkDist u.params sl al probs = .ok ()) :
    ∃ m, (u.slot sl).tab.Stores m 0 (2 ^ al) (fun k => (spread al probs)[k]?.getD default) ∧
      exec i s = .next
        { u.done with slots := u.slots.set sl ((u.slot sl).after al probs.length m) } := by
  obtain ⟨-, -, -, hzero⟩ := checkDist_ok h
  have hlen := length_spread (al := al) (probs_ne_nil hzero)
  refine ⟨_, stores_writeList _ 0 (spread al probs) _ _ hlen fun k hk => ?_, ?_⟩
  · rw [List.getElem?_eq_getElem (by omega), Option.getD_some]
  · rw [← complete_build sl al probs.length (spread al probs) hu]
    refine exec_of_ok hs hw (hb.trans ?_)
    rw [run_fseFromDist, begin_params, h]
    rfl

/-- A command that comes to `FseFromDist` with a distribution that does not pass latches. -/
theorem exec_fseFromDist_error {r : Raise} (h : checkDist u.params sl al probs = .error r) :
    exec i s = .next (u.latched r.fault r.info) := by
  rw [← faultEntry_begin hu]
  refine exec_of_error hs hw (hb.trans ?_)
  rw [run_fseFromDist, begin_params, h]

end

/-! ### FSE_BUILD (rule R146) -/

/-- Settles O45: a header that is read is a distribution that passes (O27), and the table is built
behind the cursor move. -/
theorem fseBuildBuildsFromTheHeader : Obligations.FseBuildBuildsFromTheHeader := by
  refine ⟨illegalUnless_of_encodeFields fun i hop => ?_, fun slot =>
    ⟨Instr.encodedAs (i := .fseBuild slot) rfl, fun s hs => ?_⟩⟩
  · cases i with
    | fseBuild slot => exact ⟨Slot.toSel_le slot, rfl, rfl, rfl⟩
    | _ => simp [encodeFields] at hop
  have latch {r : Raise} (h : fseBuildBody slot (begin s) = .error r (begin s)) :
      exec (.fseBuild slot) s = .next (s.latched r.fault r.info) :=
    exec_latched (i := .fseBuild slot) hs rfl h
  have hrun := run_fseBuildBody slot (begin s)
  refine ⟨fun h hq hwf hh => ?_, fun hq => latch (hrun.trans (if_neg hq)), fun f info hq hh => ?_⟩
  · obtain ⟨-, -, -, -, -, -, -, -, hcheck⟩ :=
      headerIsANormalizedDistribution _ _ _ _ _ _ hwf hh
    refine exec_fseFromDist (i := .fseBuild slot) (u := s.setRpos h.next) hs hs rfl ?_ hcheck
    rw [run_fseFromDist]
    refine hrun.trans ((if_pos hq).trans ?_)
    simp only [begin_params, begin_inByte, begin_reader, hh, hcheck, State.setRpos_params]
    rfl
  · refine latch (r := ⟨f, info⟩) (hrun.trans ((if_pos hq).trans ?_))
    simp only [begin_params, begin_inByte, begin_reader, hh]

/-! ### FSE_LOAD (rule R148) -/

/-- A little-endian 16-bit number is its two bytes, the second one above the first (rule R63). -/
theorem prob16_eq_append (byte : Nat → Byte) (a : Nat) :
    prob16 byte a = (byte (a + 1) ++ byte a).toInt := by
  rw [prob16]
  congr 1
  apply BitVec.eq_of_toNat_eq
  have h0 := (byte a).isLt
  rw [toNat_littleEndian_memRead byte a 2, BitVec.toNat_append, ← Nat.shiftLeft_add_eq_or_of_lt h0,
    Nat.shiftLeft_eq]
  simp only [memRead, littleEndian]
  omega

/-- Settles O46: the checks before the list by `run_fseLoadBody`, then those of `FseFromDist` with
the cursor past the list. -/
theorem fseLoadBuildsFromTheList : Obligations.FseLoadBuildsFromTheList := by
  refine ⟨illegalUnless_of_encodeFields fun i hop => ?_, fun slot al n =>
    ⟨Instr.encodedAs (i := .fseLoad slot al n) rfl, fun s hs => ?_⟩⟩
  · cases i with
    | fseLoad slot al n => exact ⟨Slot.toSel_le slot, rfl⟩
    | _ => simp [encodeFields] at hop
  have latch {r : Raise} (h : fseLoadBody slot al n (begin s) = .error r (begin s)) :
      exec (.fseLoad slot al n) s = .next (s.latched r.fault r.info) :=
    exec_latched (i := .fseLoad slot al n) hs rfl h
  have hrun := run_fseLoadBody slot al n (begin s)
  have hquiet (hq : s.Quiet) := hrun.trans (if_pos hq)
  have hfits (hq : s.Quiet) (hn : n.toNat ≤ s.params.maxSymbols.get slot) :=
    (hquiet hq).trans (if_neg (Nat.not_lt.2 hn))
  refine ⟨fun hq => latch (hrun.trans (if_neg hq)),
    fun hq hn => latch ((hquiet hq).trans (if_pos hn)),
    fun hq hn hlen => latch ((hfits hq hn).trans (if_pos hlen)), ?_⟩
  rintro probs u hq hn hlen hprobs rfl
  have hlist : bodyOf (.fseLoad slot al n) (begin s) = fseFromDist slot al.toNat probs
      (begin (s.setRpos (s.reader.rpos.toNat + 2 * n.toNat))) := by
    simp only [hprobs, ← prob16_eq_append]
    exact (hfits hq hn).trans (if_neg (Nat.not_lt.2 hlen))
  have hcount : probs.length = n.toNat := by simp [hprobs]
  have hsymbols : probs.length ≤ s.params.maxSymbols.get slot := by omega
  have fault {f : UnitFault} {info : Int}
      (h : checkDist s.params slot al.toNat probs = .error ⟨f, info⟩) :=
    exec_fseFromDist_error (i := .fseLoad slot al n)
      (u := s.setRpos (s.reader.rpos.toNat + 2 * n.toNat)) hs hs rfl hlist h
  refine ⟨fun hlow => fault (if_pos hlow),
    fun hmin hhigh => fault ((if_neg (Nat.not_lt.2 hmin)).trans (if_pos hhigh)),
    fun hmin hmax before p after hsplit hge hp =>
      fault (checkDist_error hmin hmax hsymbols (by rw [hsplit, distRemaining_error hge hp])),
    fun hmin hmax hge sum hsum => ?_⟩
  subst hsum
  refine ⟨fun hne => fault (checkDist_sumMismatch hmin hmax hsymbols hge hne), fun heq => ?_⟩
  have hbuild := exec_fseFromDist (i := .fseLoad slot al n)
    (u := s.setRpos (s.reader.rpos.toNat + 2 * n.toNat)) hs hs rfl hlist
    (checkDist_passes hmin hmax hsymbols hge heq)
  rw [hcount] at hbuild
  exact hbuild

/-! ### FSE_PREDEF and FSE_RLE (rules R150, R154) -/

/-- The slots of a sequences section have a predefined distribution. -/
theorem exists_predef (p : Params) {sl : Slot} (h : sl ≠ .aux) : ∃ d, p.predef sl = some d := by
  cases sl with
  | aux => exact absurd rfl h
  | _ => exact ⟨_, rfl⟩

/-- Settles O47: a predefined distribution that fits passes (`checkDist_predef`). -/
theorem fsePredefBuildsTheDefaultTable : Obligations.FsePredefBuildsTheDefaultTable := by
  refine ⟨illegalUnless_of_wf fun i hw hop => ?_, fun slot hslot => ?_⟩
  · cases i with
    | fsePredef slot => exact ⟨Slot.hasPredef_iff.1 hw, rfl, rfl, rfl⟩
    | _ => simp [encodeFields] at hop
  have hw : (Instr.fsePredef slot).wf = true := by
    cases slot with
    | aux => exact absurd rfl hslot
    | _ => rfl
  refine ⟨Instr.encodedAs hw, ?_, fun s hs => ?_⟩
  · cases slot with
    | aux => exact absurd rfl hslot
    | _ => exact ⟨_, _, rfl, rfl, by decide⟩
  have hrun := run_fsePredefBody slot (begin s)
  refine ⟨fun hq hwf => ?_, fun hq => exec_latched hs hw (hrun.trans (if_neg hq))⟩
  obtain ⟨⟨al, probs⟩, hd⟩ := exists_predef s.params hslot
  have hbody : bodyOf (.fsePredef slot) (begin s) = fseFromDist slot al probs (begin s) := by
    refine hrun.trans ((if_pos hq).trans ?_)
    simp only [begin_params, hd]
  obtain ⟨m, hm, hexec⟩ := exec_fseFromDist hs hs hw hbody (checkDist_predef hwf hd)
  exact ⟨al, probs, m, hd, hm, hexec⟩

/-- Settles O48: the check on the symbol by `run_fseRleBody`, and a table of one entry. -/
theorem fseRleBuildsAOneStateTable : Obligations.FseRleBuildsAOneStateTable := by
  refine ⟨illegalUnless_of_encodeFields fun i hop => ?_, fun slot symbol =>
    ⟨Instr.encodedAs (i := .fseRle slot symbol) rfl, fun s hs => ?_⟩⟩
  · cases i with
    | fseRle slot symbol => exact ⟨Slot.toSel_le slot, rfl, rfl⟩
    | _ => simp [encodeFields] at hop
  have latch {r : Raise} (h : fseRleBody slot symbol (begin s) = .error r (begin s)) :
      exec (.fseRle slot symbol) s = .next (s.latched r.fault r.info) :=
    exec_latched (i := .fseRle slot symbol) hs rfl h
  have hrun := run_fseRleBody slot symbol (begin s)
  have hquiet (hq : s.Quiet) := hrun.trans (if_pos hq)
  refine ⟨fun hq hsym => ⟨_, stores_writeList _ 0
      [{ sym := BitVec.ofNat 8 symbol.toNat, nb := 0, base := 0 }] 1 _ rfl fun k hk => ?_, ?_⟩,
    fun hq => latch (hrun.trans (if_neg hq)), fun hq hsym => latch ((hquiet hq).trans (if_pos hsym))⟩
  · obtain rfl : k = 0 := by omega
    rfl
  · rw [← complete_build slot 0 (symbol.toNat + 1) _ hs]
    exact exec_of_ok (i := .fseRle slot symbol) hs rfl
      ((hquiet hq).trans (if_neg (Nat.not_le.2 hsym)))

end Sys2Proof.Machine

namespace Sys2Proof.Machine

/-! # Properties of a built FSE table (rules R142, R143) -/

/-! ### Symbols stored at distinct states -/

/-- The states `t` with each symbol of a list of pairs (state, symbol) stored, in order. -/
def storeAll (t : List Nat) (ws : List (Nat × Nat)) : List Nat :=
  ws.foldl (fun t w => t.set w.1 w.2) t

@[simp] theorem storeAll_nil (t : List Nat) : storeAll t [] = t := rfl

@[simp] theorem storeAll_cons (t : List Nat) (w : Nat × Nat) (ws : List (Nat × Nat)) :
    storeAll t (w :: ws) = storeAll (t.set w.1 w.2) ws := rfl

theorem storeAll_append (t : List Nat) (vs ws : List (Nat × Nat)) :
    storeAll t (vs ++ ws) = storeAll (storeAll t vs) ws := List.foldl_append

@[simp] theorem length_storeAll (t : List Nat) (ws : List (Nat × Nat)) :
    (storeAll t ws).length = t.length := by
  induction ws generalizing t with
  | nil => rfl
  | cons w ws ih => simp [ih]

theorem getElem?_storeAll_of_notMem {t : List Nat} {ws : List (Nat × Nat)} {i : Nat}
    (h : i ∉ ws.map Prod.fst) : (storeAll t ws)[i]? = t[i]? := by
  induction ws generalizing t with
  | nil => rfl
  | cons w ws ih =>
    rw [List.map_cons, List.mem_cons, not_or] at h
    rw [storeAll_cons, ih h.2, List.getElem?_set_ne (Ne.symm h.1)]

/-- A state that is stored once keeps its symbol. -/
theorem getElem?_storeAll {t : List Nat} {ws : List (Nat × Nat)} {w : Nat × Nat} (hw : w ∈ ws)
    (hnodup : (ws.map Prod.fst).Nodup) (hlt : w.1 < t.length) :
    (storeAll t ws)[w.1]? = some w.2 := by
  induction ws generalizing t with
  | nil => cases hw
  | cons v ws ih =>
    obtain ⟨hv, hnodup⟩ := List.nodup_cons.1 hnodup
    rw [storeAll_cons]
    rcases List.mem_cons.1 hw with rfl | hw
    · rw [getElem?_storeAll_of_notMem hv, List.getElem?_set_self hlt]
    · exact ih hw hnodup (by simpa using hlt)

/-- When every state is stored once, the states hold the stored symbols. -/
theorem storeAll_perm {t states syms : List Nat} (hstates : states.Perm (List.range t.length))
    (hlen : states.length = syms.length) : (storeAll t (states.zip syms)).Perm syms := by
  have hfst : (states.zip syms).map Prod.fst = states := List.map_fst_zip (Nat.le_of_eq hlen)
  have hsnd : (states.zip syms).map Prod.snd = syms := List.map_snd_zip (Nat.le_of_eq hlen.symm)
  have hnodup : states.Nodup := hstates.nodup_iff.2 List.nodup_range
  have hsyms : syms = states.map fun i => (storeAll t (states.zip syms))[i]?.getD 0 := by
    conv_lhs => rw [← hsnd]
    conv_rhs => arg 2; rw [← hfst]
    rw [List.map_map]
    refine List.map_congr_left fun w hw => ?_
    have hmem : w.1 ∈ List.range t.length :=
      hstates.subset (hfst ▸ List.mem_map_of_mem (f := Prod.fst) hw)
    rw [Function.comp_apply,
      getElem?_storeAll hw (hfst.symm ▸ hnodup) (List.mem_range.1 hmem), Option.getD_some]
  have hall : storeAll t (states.zip syms) =
      (List.range t.length).map fun i => (storeAll t (states.zip syms))[i]?.getD 0 := by
    refine List.ext_getElem (by simp) fun i h1 h2 => ?_
    simp [List.getElem?_eq_getElem h1]
  conv_lhs => rw [hall]
  conv_rhs => rw [hsyms]
  exact (hstates.map _).symm

/-! ### The symbols that are placed (rule R142) -/

/-- Each symbol in ascending order from `s`, as often as its probability's share. -/
def symbolsBy (share : Int → Nat) : List Int → (s : Nat) → List Nat
  | [], _ => []
  | p :: ps, s => List.replicate (share p) s ++ symbolsBy share ps (s + 1)

/-- How many states at the top a probability takes. -/
def lowShare (p : Int) : Nat := if p = -1 then 1 else 0

theorem le_of_mem_symbolsBy {share : Int → Nat} {probs : List Int} {s x : Nat}
    (h : x ∈ symbolsBy share probs s) : s ≤ x := by
  induction probs generalizing s with
  | nil => cases h
  | cons p ps ih =>
    rcases List.mem_append.1 h with h | h
    · exact (List.eq_of_mem_replicate h).ge
    · exact Nat.le_of_succ_le (ih h)

theorem count_symbolsBy (share : Int → Nat) {probs : List Int} {i : Nat} (hi : i < probs.length)
    (s : Nat) : (symbolsBy share probs s).count (s + i) = share probs[i] := by
  induction probs generalizing i s with
  | nil => cases hi
  | cons p ps ih =>
    rw [symbolsBy, List.count_append]
    cases i with
    | zero =>
      have hrest : s ∉ symbolsBy share ps (s + 1) := fun h =>
        absurd (le_of_mem_symbolsBy h) (by omega)
      rw [Nat.add_zero, List.count_replicate_self, List.count_eq_zero_of_not_mem hrest]
      rfl
    | succ i =>
      have hfirst : s + (i + 1) ∉ List.replicate (share p) s := fun h =>
        absurd (List.eq_of_mem_replicate h) (by omega)
      have hnext : s + (i + 1) = s + 1 + i := by omega
      rw [List.count_eq_zero_of_not_mem hfirst, Nat.zero_add, hnext]
      exact ih (Nat.lt_of_succ_lt_succ hi) (s + 1)

/-- The states at the top and along the walk are the states that the distribution takes. -/
theorem length_symbolsBy {probs : List Int} (h : ∀ q ∈ probs, -1 ≤ q) (s : Nat) :
    ((symbolsBy lowShare probs s).length + (symbolsBy Int.toNat probs s).length : Int) =
      statesTaken probs := by
  induction probs generalizing s with
  | nil => rfl
  | cons p ps ih =>
    obtain ⟨hp, hps⟩ := List.forall_mem_cons.1 h
    have := ih hps (s + 1)
    simp only [symbolsBy, List.length_append, List.length_replicate, Nat.cast_add, statesTaken_cons,
      lowShare]
    split <;> omega

@[simp] theorem length_initialNext (probs : List Int) :
    (initialNext probs).length = probs.length := by simp [initialNext]

/-- Where a symbol's counter starts. -/
theorem getD_initialNext {probs : List Int} {i : Nat} (hi : i < probs.length) :
    (initialNext probs).getD i 0 = lowShare probs[i] + probs[i].toNat := by
  rw [List.getD_eq_getElem _ _ (by simpa using hi)]
  simp only [initialNext, List.getElem_map, lowShare]
  split
  · next h => rw [h]; rfl
  · rw [Nat.zero_add]

/-- The low symbols go to the states from the top down. -/
theorem placeLow_eq {probs : List Int} {s high : Nat} {t : List Nat}
    (h : (symbolsBy lowShare probs s).length ≤ high) :
    placeLow probs s high t =
      (high - (symbolsBy lowShare probs s).length,
        storeAll t ((List.range' (high - (symbolsBy lowShare probs s).length)
          (symbolsBy lowShare probs s).length).reverse.zip (symbolsBy lowShare probs s))) := by
  induction probs generalizing s high t with
  | nil => rfl
  | cons p ps ih =>
    rw [placeLow]
    by_cases hp : p = -1
    · have hlow : symbolsBy lowShare (p :: ps) s = s :: symbolsBy lowShare ps (s + 1) := by
        simp [symbolsBy, lowShare, hp]
      rw [hlow, List.length_cons] at h ⊢
      have hfirst : high - ((symbolsBy lowShare ps (s + 1)).length + 1) =
          high - 1 - (symbolsBy lowShare ps (s + 1)).length := by omega
      have hlast : high - 1 - (symbolsBy lowShare ps (s + 1)).length +
          (symbolsBy lowShare ps (s + 1)).length = high - 1 := by omega
      rw [if_pos hp, ih (by omega), hfirst, List.range'_concat, Nat.one_mul, hlast,
        List.reverse_append]
      rfl
    · have hlow : symbolsBy lowShare (p :: ps) s = symbolsBy lowShare ps (s + 1) := by
        simp [symbolsBy, lowShare, hp]
      rw [if_neg hp, ih (hlow ▸ h), hlow]

/-! ### The walk over the states (rule R142) -/

section

variable (step mask high : Nat)

theorem placeSymbol_eq (s count pos : Nat) (t : List Nat) :
    placeSymbol step mask high s count pos t =
      ((nextPos step mask high (mask + 1))^[count] pos,
        storeAll t ((List.iterate (nextPos step mask high (mask + 1)) pos count).zip
          (List.replicate count s))) := by
  induction count generalizing pos t with
  | zero => rfl
  | succ count ih => rw [placeSymbol, ih]; rfl

theorem placeWalk_eq (probs : List Int) (s pos : Nat) (t : List Nat) :
    placeWalk step mask high probs s pos t =
      storeAll t ((List.iterate (nextPos step mask high (mask + 1)) pos
        (symbolsBy Int.toNat probs s).length).zip (symbolsBy Int.toNat probs s)) := by
  induction probs generalizing s pos t with
  | nil => rfl
  | cons p ps ih =>
    rw [placeWalk, placeSymbol_eq, ih, symbolsBy, List.length_append, List.length_replicate,
      List.iterate_add, List.zip_append (by simp), storeAll_append]

end

/-- The states below `high` among steps `j .. j + m - 1` of the walk from state 0. -/
def visits (step al high j m : Nat) : List Nat :=
  ((List.range' j m).map fun i => i * step % 2 ^ al).filter (· < high)

section

variable {step al high : Nat}

/-- `nextPos` goes to the next state below `high`. -/
theorem nextPos_eq {fuel m j q : Nat} {rest : List Nat} (hm : m ≤ fuel)
    (h : visits step al high (j + 1) m = q :: rest) :
    nextPos step (2 ^ al - 1) high fuel (j * step % 2 ^ al) = q ∧
      ∃ i n, n ≤ m ∧ q = i * step % 2 ^ al ∧ rest = visits step al high (i + 1) n := by
  induction m generalizing fuel j with
  | zero => cases h
  | succ m ih =>
    obtain ⟨fuel, rfl⟩ : ∃ k, fuel = k + 1 := ⟨fuel - 1, by omega⟩
    have hpos : (j * step % 2 ^ al + step) &&& (2 ^ al - 1) = (j + 1) * step % 2 ^ al := by
      rw [Nat.and_two_pow_sub_one_eq_mod, Nat.mod_add_mod, Nat.add_mul, Nat.one_mul]
    rw [nextPos, hpos]
    rw [visits, List.range'_succ, List.map_cons] at h
    by_cases hlt : (j + 1) * step % 2 ^ al < high
    · rw [List.filter_cons_of_pos (by simpa using hlt)] at h
      obtain ⟨rfl, rfl⟩ := List.cons.inj h
      exact ⟨if_pos hlt, j + 1, m, Nat.le_succ m, rfl, rfl⟩
    · rw [List.filter_cons_of_neg (by simpa using hlt)] at h
      obtain ⟨hnext, i, n, hn, hq, hrest⟩ := ih (fuel := fuel) (by omega) h
      exact ⟨(if_neg hlt).trans hnext, i, n, by omega, hq, hrest⟩

/-- From a step of the walk, `nextPos` runs through the states below `high` that follow it. -/
theorem iterate_nextPos {fuel m j : Nat} {rest : List Nat} (hm : m ≤ fuel)
    (h : visits step al high (j + 1) m = rest) :
    List.iterate (nextPos step (2 ^ al - 1) high fuel) (j * step % 2 ^ al) (rest.length + 1) =
      (j * step % 2 ^ al) :: rest := by
  induction rest generalizing m j with
  | nil => rfl
  | cons q rest ih =>
    obtain ⟨hnext, i, n, hn, rfl, hrest⟩ := nextPos_eq hm h
    rw [List.length_cons, List.iterate, hnext, ih (by omega) hrest.symm]

/-- A step that is odd takes the walk once over every state. -/
theorem walk_perm (hstep : Nat.Coprime (2 ^ al) step) :
    ((List.range (2 ^ al)).map fun i => i * step % 2 ^ al).Perm (List.range (2 ^ al)) := by
  have hnodup : ((List.range (2 ^ al)).map fun i => i * step % 2 ^ al).Nodup := by
    refine List.Nodup.map_on (fun i hi j hj hij => ?_) List.nodup_range
    have hmod : i ≡ j [MOD 2 ^ al] := Nat.ModEq.cancel_right_of_coprime hstep hij
    exact hmod.eq_of_lt_of_lt (List.mem_range.1 hi) (List.mem_range.1 hj)
  refine (List.subperm_of_subset hnodup fun x hx => ?_).perm_of_length_le (by simp)
  obtain ⟨i, -, rfl⟩ := List.mem_map.1 hx
  exact List.mem_range.2 (Nat.mod_lt _ (Nat.two_pow_pos al))

theorem visits_perm (hstep : Nat.Coprime (2 ^ al) step) (hhigh : high ≤ 2 ^ al) :
    (visits step al high 0 (2 ^ al)).Perm (List.range high) := by
  rw [visits, ← List.range_eq_range']
  refine ((walk_perm hstep).filter _).trans ?_
  refine (List.perm_ext_iff_of_nodup (List.nodup_range.filter _) List.nodup_range).2 fun x => ?_
  simp only [List.mem_filter, List.mem_range, decide_eq_true_eq]
  omega

/-- `high` symbols placed along the walk take each state below `high` once. -/
theorem iterate_nextPos_perm (hstep : Nat.Coprime (2 ^ al) step) (hhigh : high ≤ 2 ^ al) :
    (List.iterate (nextPos step (2 ^ al - 1) high (2 ^ al - 1 + 1)) 0 high).Perm
      (List.range high) := by
  obtain rfl | hpos := Nat.eq_zero_or_pos high
  · exact .nil
  have hperm := visits_perm hstep hhigh
  have hsize : 2 ^ al = 2 ^ al - 1 + 1 := (Nat.sub_add_cancel (Nat.two_pow_pos al)).symm
  have hfirst : visits step al high 0 (2 ^ al) = 0 :: visits step al high 1 (2 ^ al - 1) := by
    conv_lhs => rw [hsize, visits, List.range'_succ, List.map_cons, Nat.zero_mul, Nat.zero_mod,
      List.filter_cons_of_pos (by simpa using hpos)]
    rfl
  have hlen := hperm.length_eq
  rw [hfirst, List.length_cons, List.length_range] at hlen
  have hwalk := iterate_nextPos (step := step) (al := al) (high := high) (j := 0)
    (fuel := 2 ^ al - 1 + 1) (Nat.le_succ _) rfl
  rw [Nat.zero_mul, Nat.zero_mod, Nat.zero_add, hlen, ← hfirst] at hwalk
  rwa [hwalk]

end

/-! ### The symbol of each state (rule R142) -/

theorem distRemaining_ge {probs : List Int} {total left : Int}
    (h : distRemaining probs total = .ok left) : ∀ q ∈ probs, -1 ≤ q := by
  induction probs generalizing total with
  | nil => nofun
  | cons p ps ih =>
    rw [distRemaining, check_ok] at h
    obtain ⟨hp, h⟩ := h
    refine List.forall_mem_cons.2 ⟨by omega, ?_⟩
    split at h
    · exact ih h
    · exact ih h

/-- A distribution that passes the checks of a unit whose parameters fit (rule R141, log 7). -/
structure Distribution (al : Nat) (probs : List Int) : Prop where
  le_al : 4 ≤ al
  al_le : al ≤ 9
  symbols : probs.length ≤ 256
  ge : ∀ q ∈ probs, -1 ≤ q
  taken : statesTaken probs = 2 ^ al
  ne_nil : probs ≠ []

theorem distribution_of_checkDist {p : Params} (hwf : p.wf = true) {sl : Slot} {al : Nat}
    {probs : List Int} (h : checkDist p sl al probs = .ok ()) : Distribution al probs := by
  obtain ⟨hmin, hmax, hlen, hzero⟩ := checkDist_ok h
  have hge := distRemaining_ge hzero
  have hmin4 : 4 ≤ p.minAL := by
    simp only [Params.wf, Bool.and_eq_true, decide_eq_true_eq] at hwf
    tauto
  have hfits := Params.fits_of_wf hwf
  refine ⟨by omega, hmax.trans (hfits.logs sl), hlen.trans (hfits.symbols sl), hge, ?_,
    probs_ne_nil hzero⟩
  have htaken := (distRemaining_eq hge _).symm.trans hzero
  rw [Except.ok.injEq, sub_eq_zero] at htaken
  exact_mod_cast htaken.symm

/-- The step of the walk is odd in a table of 16 states or more. -/
theorem coprime_step {al : Nat} (h : 4 ≤ al) :
    Nat.Coprime (2 ^ al) (2 ^ al / 2 + 2 ^ al / 8 + 3) := by
  obtain ⟨k, rfl⟩ : ∃ k, al = k + 4 := ⟨al - 4, by omega⟩
  refine Nat.Coprime.pow_left _ (Nat.coprime_two_left.2 ?_)
  rw [Nat.odd_iff, Nat.pow_add]
  omega

namespace Distribution

variable {al : Nat} {probs : List Int} (h : Distribution al probs)
include h

/-- Every state has one symbol, and every symbol its states (rule R143 (1), (2)). -/
theorem spreadSymbols_perm : (spreadSymbols al probs).Perm
    (symbolsBy lowShare probs 0 ++ symbolsBy Int.toNat probs 0) := by
  have hlen := length_symbolsBy h.ge 0
  rw [h.taken] at hlen
  have hsize : (symbolsBy lowShare probs 0).length + (symbolsBy Int.toNat probs 0).length =
      2 ^ al := by exact_mod_cast hlen
  have hhigh : 2 ^ al - (symbolsBy lowShare probs 0).length =
      (symbolsBy Int.toNat probs 0).length := by omega
  have hstates : List.range (2 ^ al) = List.range (symbolsBy Int.toNat probs 0).length ++
      List.range' (symbolsBy Int.toNat probs 0).length (symbolsBy lowShare probs 0).length := by
    rw [← hsize, Nat.add_comm, List.range_add, ← List.range'_eq_map_range]
  rw [spreadSymbols, placeLow_eq (by omega), placeWalk_eq, hhigh, ← storeAll_append,
    ← List.zip_append (by simp)]
  refine storeAll_perm ?_ (by simp)
  rw [List.length_replicate, hstates]
  exact List.perm_append_comm.trans
    ((iterate_nextPos_perm (coprime_step h.le_al) (by omega)).append (List.reverse_perm _))

theorem symbol_lt {s : Nat} (hs : s ∈ spreadSymbols al probs) : s < probs.length :=
  (spreadSymbols_below h.ne_nil).2 s hs

/-- A symbol's counter starts at the number of its states. -/
theorem count_spreadSymbols {s : Nat} (hs : s < probs.length) :
    (spreadSymbols al probs).count s = (initialNext probs).getD s 0 := by
  have hlow := count_symbolsBy lowShare hs 0
  have hwalk := count_symbolsBy Int.toNat hs 0
  rw [Nat.zero_add] at hlow hwalk
  rw [h.spreadSymbols_perm.count_eq, List.count_append, hlow, hwalk, getD_initialNext hs]

/-- A symbol has as many states as its probability says, one for -1. -/
theorem count_eq {s : Nat} (hs : s < probs.length) :
    ((spreadSymbols al probs).count s : Int) = if probs[s] = -1 then 1 else probs[s] := by
  have hge := h.ge _ (List.getElem_mem hs)
  rw [h.count_spreadSymbols hs, getD_initialNext hs, lowShare]
  split <;> omega

end Distribution

end Sys2Proof.Machine

namespace Sys2Proof.Machine

/-! ### The entry of each state (rule R142) -/

theorem getD_set_counter (next : List Nat) {s : Nat} (hs : s < next.length) (s' : Nat) :
    (next.set s (next.getD s 0 + 1)).getD s' 0 = (if s == s' then 1 else 0) + next.getD s' 0 := by
  simp only [List.getD_eq_getElem?_getD, List.getElem?_set, beq_iff_eq]
  by_cases h : s = s'
  · subst h
    simp [hs, Nat.add_comm]
  · simp [h]

/-- The counter of a state is its symbol's first one and the number of the symbol's states before
it. -/
theorem getElem?_spreadEntries (al : Nat) {syms next : List Nat} {k : Nat}
    (hs : ∀ s ∈ syms, s < next.length) (hk : k < syms.length) :
    (spreadEntries al syms next)[k]? =
      some (spreadEntry al syms[k] (next.getD syms[k] 0 + syms.countBefore syms[k] k)) := by
  induction syms generalizing next k with
  | nil => cases hk
  | cons s ss ih =>
    obtain ⟨hs, hss⟩ := List.forall_mem_cons.1 hs
    rw [spreadEntries]
    cases k with
    | zero => rw [List.countBefore_zero]; rfl
    | succ k =>
      have hk' : k < ss.length := Nat.lt_of_succ_lt_succ hk
      rw [List.getElem?_cons_succ, ih (by simpa using hss) hk', getD_set_counter next hs,
        List.getElem_cons_succ, List.countBefore_cons_succ]
      congr 2
      omega

/-- The fields of an entry hold the numbers of rule R142. -/
theorem spreadEntry_fields {al s x : Nat} (hal : al ≤ 9) (hs : s < 256) (h1 : 1 ≤ x)
    (hx : x < 2 ^ (al + 1)) :
    (spreadEntry al s x).sym.toNat = s ∧
      (spreadEntry al s x).nb.toNat = al - Nat.log2 x ∧
      (spreadEntry al s x).base.toNat + 2 ^ al = x * 2 ^ (al - Nat.log2 x) := by
  have hlog : Nat.log2 x ≤ al := Nat.lt_succ_iff.1 ((Nat.log2_lt (by omega)).2 hx)
  have hsplit : 2 ^ Nat.log2 x * 2 ^ (al - Nat.log2 x) = 2 ^ al := by
    rw [← Nat.pow_add, Nat.add_sub_cancel' hlog]
  have hsize : 2 ^ al ≤ 2 ^ 9 := Nat.pow_le_pow_right (by decide) hal
  have hlow : 2 ^ al ≤ x * 2 ^ (al - Nat.log2 x) :=
    hsplit ▸ Nat.mul_le_mul_right _ (Nat.log2_self_le (by omega))
  have hhigh : x * 2 ^ (al - Nat.log2 x) < 2 * 2 ^ al := by
    rw [← hsplit, ← Nat.mul_assoc, Nat.mul_comm 2, ← Nat.pow_succ]
    exact Nat.mul_lt_mul_of_pos_right Nat.lt_log2_self (Nat.two_pow_pos _)
  simp only [spreadEntry, BitVec.toNat_ofNat]
  omega

/-! ### The ranges of a symbol's states (rule R143)

With the size of the table added, the numbers in the range of an entry are those whose leading bits
are its counter. -/

/-- A number lies in an entry's range when shifting it down by `nb` gives the counter. -/
theorem spreadEntry_range {al s x y : Nat} (hal : al ≤ 9) (hs : s < 256) (h1 : 1 ≤ x)
    (hx : x < 2 ^ (al + 1)) :
    (spreadEntry al s x).base.toNat ≤ y ∧
        y < (spreadEntry al s x).base.toNat + 2 ^ (spreadEntry al s x).nb.toNat ↔
      (y + 2 ^ al) / 2 ^ (al - Nat.log2 x) = x := by
  obtain ⟨-, hnb, hbase⟩ := spreadEntry_fields hal hs h1 hx
  rw [hnb, Nat.div_eq_iff (Nat.two_pow_pos _), ← hbase]
  have := Nat.two_pow_pos (al - Nat.log2 x)
  omega

/-- Some leading bits of a number from `c` up lie in `[c, 2 * c)`. -/
theorem exists_leading {c y : Nat} (hc : 1 ≤ c) (hy : c ≤ y) :
    ∃ n, c ≤ y / 2 ^ n ∧ y / 2 ^ n < 2 * c := by
  induction y using Nat.strong_induction_on with
  | h y ih =>
    by_cases h : y < 2 * c
    · exact ⟨0, by simpa using hy, by simpa using h⟩
    · obtain ⟨n, hn⟩ := ih (y / 2) (by omega) (by omega)
      rw [Nat.div_div_eq_div_mul, ← Nat.pow_succ'] at hn
      exact ⟨n + 1, hn⟩

/-- Only one run of leading bits does. -/
theorem leading_unique {c y m n : Nat} (hm : c ≤ y / 2 ^ m ∧ y / 2 ^ m < 2 * c)
    (hn : c ≤ y / 2 ^ n ∧ y / 2 ^ n < 2 * c) : m = n := by
  have hle : ∀ {m n : Nat}, y / 2 ^ m < 2 * c → c ≤ y / 2 ^ n → n ≤ m := fun {m n} hm hn => by
    by_contra hlt
    obtain ⟨k, rfl⟩ : ∃ k, n = m + 1 + k := ⟨n - (m + 1), by omega⟩
    rw [Nat.pow_add, Nat.pow_succ, ← Nat.div_div_eq_div_mul, ← Nat.div_div_eq_div_mul] at hn
    have := Nat.div_le_self (y / 2 ^ m / 2) (2 ^ k)
    omega
  exact Nat.le_antisymm (hle hn.2 hm.1) (hle hm.2 hn.1)

/-- The leading bits of a number of `al + 1` bits, by how many are left below them. -/
theorem sub_log2_leading {al n y : Nat} (hlow : 2 ^ al ≤ y) (hhigh : y < 2 ^ (al + 1))
    (h : 1 ≤ y / 2 ^ n) : al - Nat.log2 (y / 2 ^ n) = n := by
  have hpos := Nat.two_pow_pos n
  have hn : n ≤ al := by
    have hy : 2 ^ n < 2 ^ (al + 1) :=
      Nat.lt_of_le_of_lt (by simpa using (Nat.le_div_iff_mul_le hpos).1 h) hhigh
    exact Nat.lt_succ_iff.1 ((Nat.pow_lt_pow_iff_right (by decide)).1 hy)
  have hlog : Nat.log2 (y / 2 ^ n) = al - n := by
    refine (Nat.log2_eq_iff (by omega)).2
      ⟨(Nat.le_div_iff_mul_le hpos).2 ?_, (Nat.div_lt_iff_lt_mul hpos).2 ?_⟩
    · rwa [← Nat.pow_add, Nat.sub_add_cancel hn]
    · rwa [← Nat.pow_add, Nat.add_right_comm, Nat.sub_add_cancel hn]
  omega

/-- Of the entries of a symbol with `c` states exactly one has a given number in its range. -/
theorem existsUnique_range {al s c y : Nat} (hal : al ≤ 9) (hs : s < 256) (hc : 1 ≤ c)
    (hsize : c ≤ 2 ^ al) (hy : y < 2 ^ al) :
    ∃! r, r < c ∧ (spreadEntry al s (c + r)).base.toNat ≤ y ∧
      y < (spreadEntry al s (c + r)).base.toNat + 2 ^ (spreadEntry al s (c + r)).nb.toNat := by
  have hpow : 2 ^ (al + 1) = 2 * 2 ^ al := Nat.pow_succ'
  have hrange : ∀ r, r < c → _ := fun r hr =>
    spreadEntry_range (y := y) hal hs (show 1 ≤ c + r by omega) (by omega)
  obtain ⟨n, hn⟩ := exists_leading hc (show c ≤ y + 2 ^ al by omega)
  have hleft := sub_log2_leading (n := n) (show 2 ^ al ≤ y + 2 ^ al by omega) (by omega) (by omega)
  refine ⟨(y + 2 ^ al) / 2 ^ n - c, ⟨by omega, (hrange _ (by omega)).2 ?_⟩, ?_⟩
  · rw [Nat.add_sub_cancel' hn.1, hleft]
  · rintro r ⟨hr, hin⟩
    have hr' := (hrange r hr).1 hin
    rw [leading_unique (m := al - Nat.log2 (c + r)) ⟨by omega, by omega⟩ hn] at hr'
    omega

/-! ### Properties of a built table (rule R143) -/

theorem map_sym_spreadEntries (al : Nat) {syms next : List Nat} (h : ∀ s ∈ syms, s < 256) :
    (spreadEntries al syms next).map (fun e => e.sym.toNat) = syms := by
  induction syms generalizing next with
  | nil => rfl
  | cons s ss ih =>
    obtain ⟨hs, hss⟩ := List.forall_mem_cons.1 h
    have hsym : (BitVec.ofNat 8 s).toNat = s := by
      rw [BitVec.toNat_ofNat]
      exact Nat.mod_eq_of_lt hs
    simp only [spreadEntries, spreadEntry, List.map_cons, hsym, ih hss]

namespace Distribution

variable {al : Nat} {probs : List Int} (h : Distribution al probs)
include h

theorem countP_spread (s : Nat) :
    (spread al probs).countP (fun e => e.sym.toNat == s) = (spreadSymbols al probs).count s := by
  have hsyms := map_sym_spreadEntries al (syms := spreadSymbols al probs)
    (next := initialNext probs) fun x hx => Nat.lt_of_lt_of_le (h.symbol_lt hx) h.symbols
  conv_rhs => rw [← hsyms, List.count, List.countP_map]
  rfl

/-- The states of symbol `s` and their entries: the `r`-th one has the counter that starts at the
number of them and has advanced `r` times. -/
theorem spread_state_iff {s k : Nat} (hs : s < probs.length) {e : FseEntry} :
    (spread al probs)[k]? = some e ∧ e.sym.toNat = s ↔
      ∃ r < (spreadSymbols al probs).count s, k = (spreadSymbols al probs).idxOfNth s r ∧
        e = spreadEntry al s ((spreadSymbols al probs).count s + r) := by
  have hnext : ∀ x ∈ spreadSymbols al probs, x < (initialNext probs).length := fun x hx => by
    simpa using h.symbol_lt hx
  have hentry : ∀ hk : k < (spreadSymbols al probs).length, (spread al probs)[k]? = _ :=
    getElem?_spreadEntries al hnext
  have hsym : ∀ {t x : Nat}, t < probs.length → (spreadEntry al t x).sym.toNat = t := fun ht => by
    simp only [spreadEntry, BitVec.toNat_ofNat]
    exact Nat.mod_eq_of_lt (ht.trans_le h.symbols)
  constructor
  · rintro ⟨he, rfl⟩
    have hk : k < (spreadSymbols al probs).length := by
      have := (List.getElem?_eq_some_iff.1 he).1
      rwa [spread, length_spreadEntries] at this
    obtain rfl := Option.some.inj (he.symm.trans (hentry hk))
    have hmem := h.symbol_lt (List.getElem_mem hk)
    rw [hsym hmem, ← h.count_spreadSymbols hmem]
    exact ⟨_, List.countBefore_lt_count_getElem, List.idxOfNth_countBefore_getElem.symm, rfl⟩
  · rintro ⟨r, hr, rfl, rfl⟩
    have hk := List.idxOfNth_lt_length_of_lt_count hr
    refine ⟨?_, hsym hs⟩
    rw [hentry hk, List.getElem_idxOfNth_eq, List.countBefore_idxOfNth_of_lt_count hr,
      ← h.count_spreadSymbols hs]

/-- The one state of a symbol of probability -1 resets to any state. -/
theorem low_entry {s : Nat} (hs : s < probs.length) (hlow : probs[s] = -1) {e : FseEntry}
    (he : e ∈ spread al probs) (hsym : e.sym.toNat = s) :
    e.nb.toNat = al ∧ e.base.toNat = 0 := by
  obtain ⟨k, hk⟩ := List.mem_iff_getElem?.1 he
  obtain ⟨r, hr, -, rfl⟩ := (h.spread_state_iff hs).1 ⟨hk, hsym⟩
  have hcount : (spreadSymbols al probs).count s = 1 := by
    have := h.count_eq hs
    rw [if_pos hlow] at this
    exact_mod_cast this
  obtain rfl : r = 0 := by omega
  have hx : 1 < 2 ^ (al + 1) := Nat.one_lt_two_pow (Nat.succ_ne_zero al)
  obtain ⟨-, hnb, hbase⟩ := spreadEntry_fields h.al_le (hs.trans_le h.symbols) (Nat.le_refl 1) hx
  rw [show Nat.log2 1 = 0 from rfl, Nat.sub_zero] at hnb hbase
  rw [hcount, Nat.add_zero]
  exact ⟨hnb, by omega⟩

/-- The ranges of a symbol's states cover every state once. -/
theorem covers {s : Nat} (hs : s < probs.length) (hne : probs[s] ≠ 0) {x : Nat} (hx : x < 2 ^ al) :
    ∃ (k : Nat) (e : FseEntry), (spread al probs)[k]? = some e ∧ e.sym.toNat = s ∧
      e.base.toNat ≤ x ∧ x < e.base.toNat + 2 ^ e.nb.toNat ∧
      ∀ (k' : Nat) (e' : FseEntry), (spread al probs)[k']? = some e' → e'.sym.toNat = s →
        e'.base.toNat ≤ x → x < e'.base.toNat + 2 ^ e'.nb.toNat → k' = k := by
  have hpos : 1 ≤ (spreadSymbols al probs).count s := by
    have := h.count_eq hs
    split at this <;> omega
  have hsize : (spreadSymbols al probs).count s ≤ 2 ^ al :=
    List.count_le_length.trans_eq (spreadSymbols_below h.ne_nil).1
  obtain ⟨r, ⟨hr, hlow, hhigh⟩, honly⟩ :=
    existsUnique_range h.al_le (hs.trans_le h.symbols) hpos hsize hx
  obtain ⟨hk, hsym⟩ := (h.spread_state_iff hs).2 ⟨r, hr, rfl, rfl⟩
  refine ⟨_, _, hk, hsym, hlow, hhigh, fun k' e' hk' hsym' hlow' hhigh' => ?_⟩
  obtain ⟨r', hr', rfl, rfl⟩ := (h.spread_state_iff hs).1 ⟨hk', hsym'⟩
  rw [honly r' ⟨hr', hlow', hhigh'⟩]

end Distribution

/-- Settles O28: the walk gives each symbol its states (`count_spreadSymbols`), and their counters
tile the table (`existsUnique_range`). -/
theorem builtTableCoversEveryState : Obligations.BuiltTableCoversEveryState := by
  intro p slot al probs hwf hcheck
  have h := distribution_of_checkDist hwf hcheck
  obtain ⟨-, -, -, hzero⟩ := checkDist_ok hcheck
  obtain ⟨hlen, hrange⟩ := spread_fits h.al_le h.symbols hzero
  refine ⟨hlen, hrange, fun s hs => ⟨?_, fun hlow e => h.low_entry hs hlow,
    fun hne x => h.covers hs hne⟩⟩
  rw [h.countP_spread, h.count_eq hs]

end Sys2Proof.Machine

namespace Sys2Proof.Machine

/-! # The bitstream and FSE lookup (`42_bitstream_fse.md`) -/

/-! ### The unit after a command that moves `BS_POS` or writes `BS_OPEN` -/

/-- A command whose body completes in `t` answers what completion makes of `t`. -/
theorem exec_eq_next {i : Instr} {s t u : State} (h : s.Ready) (hw : i.wf = true)
    (hb : bodyOf i (begin s) = .ok () t) (hu : complete t = u) : exec i s = .next u := by
  rw [exec_of_ok h hw hb, hu]

/-- A command that reads `k` bits, which `BS_POS` falls by (rule R73). -/
theorem complete_setBsPos (k : Nat) {s : State} (h : s.Ready) :
    complete ((begin s).setBsPos (s.bsPos - k)) =
      { s.done with bits := { s.bits with pos := s.bits.pos - BitVec.ofNat 32 k } } := by
  rw [← complete_begin h]
  exact congrArg complete (setBsPos_sub (begin s) k)

/-- A command that writes `BS_OPEN` (rules R172, R176). -/
theorem complete_setBsOpen (x : Bool) {s : State} (h : s.Ready) :
    complete ((begin s).setStatus { (begin s).status with bsOpen := x }) =
      { s.done with status := { s.status with bsOpen := x } } := by
  apply State.ext_parts
  case status => rw [← busy_cleared h]; rfl
  all_goals rfl

/-- FSE_INIT from within the section (rule R178). -/
theorem complete_initState (sl : Slot) {s : State} (h : s.Ready) :
    complete ((begin s).stateRead sl) =
      { s.done with
        bits := { s.bits with pos := s.bits.pos - BitVec.ofNat 32 (s.slot sl).info.al.toNat }
        slots := s.slots.set sl { s.slot sl with
          state := BitVec.ofNat 32 (s.peekBack (s.slot sl).info.al.toNat)
          info := { (s.slot sl).info with sinit := true } } } := by
  apply State.ext_parts
  case status => exact busy_cleared h
  case bits => exact (congrArg State.bits (setBsPos_sub (begin s) (s.slot sl).info.al.toNat) :)
  case slots => exact (begin s).stateRead_slots sl
  all_goals rfl

/-! ### BS_OPEN, BS_READ, BS_CLOSE (rules R172 to R176) -/

/-- Settles O49: the checks in their order by `run_bsOpenBody`, the end mark by `BackStart`. -/
theorem bsOpenOpensTheSection : Obligations.BsOpenOpensTheSection := by
  refine ⟨illegalUnless_of_encodeFields fun i hop => ?_, fun n =>
    ⟨Instr.encodedAs (i := .bsOpen n) rfl, ?_⟩⟩
  · cases i with
    | bsOpen n => exact ⟨rfl, rfl, rfl⟩
    | _ => simp [encodeFields] at hop
  rintro s last hs rfl
  have latch {r : Raise} := exec_latched (i := .bsOpen n) (r := r) hs rfl
  have hrun := run_bsOpenBody n (begin s)
  have hquiet (hq : s.Quiet) := hrun.trans (if_pos hq)
  have hfits (hq : s.Quiet) (hn : n.toNat ≤ 2 ^ 27) :=
    (hquiet hq).trans (if_neg (Nat.not_lt.2 hn))
  -- behind the checks, what `BackStart` answers decides
  have hstart {x} (hq : s.Quiet) (hn : n.toNat ≤ 2 ^ 27)
      (hlen : s.reader.rpos.toNat + n.toNat ≤ s.reader.len.toNat)
      (hx : backStart s.inByte s.reader.rpos.toNat n.toNat = x) :=
    hx ▸ (hfits hq hn).trans (if_neg (Nat.not_lt.2 hlen))
  refine ⟨fun hq h1 hn hlen hlast => ?_, fun hq => latch (hrun.trans (if_neg hq)),
    fun hq hn => latch ((hquiet hq).trans (if_pos hn)),
    fun hq hn hlen => latch ((hfits hq hn).trans (if_pos hlen)), fun hq h0 hlen => ?_,
    fun hq h1 hn hlen hlast => latch (hstart hq hn hlen (backStart_noEndMark h1 hlast))⟩
  · have hmark := backStart_ok.2 ⟨Nat.ne_of_gt h1, hlast, rfl⟩
    exact exec_eq_next (i := .bsOpen n) hs rfl (hstart hq hn hlen hmark)
      (congrArg (State.setBits · _) (complete_setBsOpen true hs))
  · have hmark := backStart_empty s.inByte s.reader.rpos.toNat
    rw [← h0] at hmark
    exact latch (hstart hq (by omega) (by omega) hmark)

/-- Settles O50: the checks in their order by `run_bsReadBody`, the bits by `testBit_backBits`. -/
theorem bsReadReadsBits : Obligations.BsReadReadsBits := by
  refine ⟨illegalUnless_of_encodeFields fun i hop => ?_, fun k =>
    ⟨Instr.encodedAs (i := .bsRead k) rfl, fun s hs => ?_⟩⟩
  · cases i with
    | bsRead k => exact ⟨rfl, rfl, rfl⟩
    | _ => simp [encodeFields] at hop
  have latch {r : Raise} := exec_latched (i := .bsRead k) (r := r) hs rfl
  have hrun := run_bsReadBody k (begin s)
  have hopen (hp : s.Primitive) := hrun.trans (if_pos hp)
  have hfits (hp : s.Primitive) (hk : k.toNat ≤ 32) := (hopen hp).trans (if_neg (Nat.not_lt.2 hk))
  refine ⟨fun hp hk hpos => ⟨BitVec.ofNat 32 (s.peekBack k.toNat), ?_, fun j => ?_⟩,
    fun hp => latch (hrun.trans (if_neg hp)), fun hp hk => latch ((hopen hp).trans (if_pos hk)),
    fun hp hk hneg => latch ((hfits hp hk).trans (if_pos hneg))⟩
  · exact exec_eq_next (i := .bsRead k) hs rfl
      ((hfits hp hk).trans (if_neg (Int.not_lt.2 hpos)))
      (congrArg (State.setVal · _) (complete_setBsPos k.toNat hs))
  · have hlt : s.peekBack k.toNat < 2 ^ 32 :=
      (backBits_lt ..).trans_le (Nat.pow_le_pow_right (by omega) hk)
    rw [← BitVec.testBit_toNat, BitVec.toNat_ofNat, Nat.mod_eq_of_lt hlt, State.peekBack,
      testBit_backBits, Bool.and_assoc]

/-- Settles O51: the checks in their order by `run_bsCloseBody`. -/
theorem bsCloseClosesTheSection : Obligations.BsCloseClosesTheSection := by
  refine ⟨illegalUnless_of_encodeFields fun i hop => ?_,
    Instr.encodedAs (i := .bsClose) rfl, fun s hs => ?_⟩
  · cases i with
    | bsClose => exact ⟨rfl, rfl, rfl, rfl⟩
    | _ => simp [encodeFields] at hop
  have latch {r : Raise} := exec_latched (i := .bsClose) (r := r) hs rfl
  have hrun := run_bsCloseBody (begin s)
  have hopen (hp : s.Primitive) := hrun.trans (if_pos hp)
  have hin (hp : s.Primitive) (hpos : 0 ≤ s.bsPos) := (hopen hp).trans (if_neg (Int.not_lt.2 hpos))
  refine ⟨fun hp hpos => ?_, fun hp => latch (hrun.trans (if_neg hp)),
    fun hp hneg => latch ((hopen hp).trans (if_pos hneg)),
    fun hp hrest => latch ((hin hp hrest.le).trans (if_pos hrest))⟩
  exact exec_eq_next (i := .bsClose) hs rfl
    ((hin hp hpos.ge).trans (if_neg (Int.not_lt.2 hpos.le)))
    (congrArg State.closeSection (complete_setBsOpen false hs))

/-! ### FSE_INIT, FSE_EMIT, FSE_NEXT (rules R178 to R182) -/

/-- Settles O52: the checks in their order by `run_fseInitBody`, then `complete_initState`. -/
theorem fseInitReadsTheState : Obligations.FseInitReadsTheState := by
  refine ⟨illegalUnless_of_encodeFields fun i hop => ?_, fun slot =>
    ⟨Instr.encodedAs (i := .fseInit slot) rfl, ?_⟩⟩
  · cases i with
    | fseInit slot => exact ⟨Slot.toSel_le slot, rfl, rfl, rfl⟩
    | _ => simp [encodeFields] at hop
  rintro s al hs rfl
  have latch {r : Raise} := exec_latched (i := .fseInit slot) (r := r) hs rfl
  have hrun := run_fseInitBody slot (begin s)
  have hopen (hp : s.Primitive) := hrun.trans (if_pos hp)
  have hvalid (hp : s.Primitive) (hv : (s.slot slot).info.valid = true) :=
    ((hopen hp).trans (if_neg (ne_false_of_eq_true hv))).trans (run_initState slot (begin s))
  refine ⟨fun hp hv hpos => ?_, fun hp => latch (hrun.trans (if_neg hp)),
    fun hp hv => latch ((hopen hp).trans (if_pos hv)),
    fun hp hv hneg => latch ((hvalid hp hv).trans (if_pos hneg))⟩
  exact exec_eq_next (i := .fseInit slot) hs rfl
    ((hvalid hp hv).trans (if_neg (Int.not_lt.2 hpos))) (complete_initState slot hs)

/-- Settles O53: the checks in their order by `run_fseEmitBody`. -/
theorem fseEmitEmitsTheSymbol : Obligations.FseEmitEmitsTheSymbol := by
  refine ⟨illegalUnless_of_encodeFields fun i hop => ?_, fun slot =>
    ⟨Instr.encodedAs (i := .fseEmit slot) rfl, fun s hs => ?_⟩⟩
  · cases i with
    | fseEmit slot => exact ⟨Slot.toSel_le slot, rfl, rfl, rfl⟩
    | _ => simp [encodeFields] at hop
  have latch {r : Raise} := exec_latched (i := .fseEmit slot) (r := r) hs rfl
  have hrun := run_fseEmitBody slot (begin s)
  have hfree (ha : s.status.seqActive = false) := hrun.trans (if_neg (by simp [ha]))
  have hvalid (ha : s.status.seqActive = false) (hv : (s.slot slot).info.valid = true) :=
    (hfree ha).trans (if_neg (ne_false_of_eq_true hv))
  refine ⟨fun ha hv hi => ⟨(s.currentEntry slot).sym.setWidth 32, ?_, ?_⟩,
    fun ha => latch (hrun.trans (if_pos ha)), fun ha hv => latch ((hfree ha).trans (if_pos hv)),
    fun ha hv hi => latch ((hvalid ha hv).trans (if_pos hi))⟩
  · exact BitVec.toNat_setWidth_of_le (by decide)
  · exact exec_eq_next (i := .fseEmit slot) hs rfl
      ((hvalid ha hv).trans (if_neg (ne_false_of_eq_true hi)))
      (congrArg (State.setSym · _) (complete_begin hs))

/-- Settles O54: the checks in their order by `run_fseNextBody`, and the entry of the state before
the read. -/
theorem fseNextMovesTheState : Obligations.FseNextMovesTheState := by
  refine ⟨illegalUnless_of_encodeFields fun i hop => ?_, fun slot =>
    ⟨Instr.encodedAs (i := .fseNext slot) rfl, ?_⟩⟩
  · cases i with
    | fseNext slot => exact ⟨Slot.toSel_le slot, rfl, rfl, rfl⟩
    | _ => simp [encodeFields] at hop
  rintro s e hs rfl
  have latch {r : Raise} := exec_latched (i := .fseNext slot) (r := r) hs rfl
  have hrun := run_fseNextBody slot (begin s)
  have hopen (hp : s.Primitive) := hrun.trans (if_pos hp)
  have hvalid (hp : s.Primitive) (hv : (s.slot slot).info.valid = true) :=
    (hopen hp).trans (if_neg (ne_false_of_eq_true hv))
  have hready (hp : s.Primitive) (hv : (s.slot slot).info.valid = true)
      (hi : (s.slot slot).info.sinit = true) :=
    ((hvalid hp hv).trans (if_neg (ne_false_of_eq_true hi))).trans (run_advanceState slot (begin s))
  refine ⟨fun hp hv hi hpos => ?_, fun hp => latch (hrun.trans (if_neg hp)),
    fun hp hv => latch ((hopen hp).trans (if_pos hv)),
    fun hp hv hi => latch ((hvalid hp hv).trans (if_pos hi)),
    fun hp hv hi hneg => latch ((hready hp hv hi).trans (if_pos hneg))⟩
  exact exec_eq_next (i := .fseNext slot) hs rfl
    ((hready hp hv hi).trans (if_neg (Int.not_lt.2 hpos)))
    (congrArg (State.setFseState · slot _) (complete_setBsPos _ hs))

end Sys2Proof.Machine

namespace Sys2Proof.Machine

/-! # The Huffman table and the literals commands (`43_literals_huffman.md`) -/

/-! ### From weights to a table (rule R204) -/

theorem weightShare_eq : weightShare = fun x => if x = 0 then 0 else 2 ^ (x - 1) := by
  funext x
  cases x <;> rfl

theorem weightTotal_of_le {limit : Nat} {ws : List Nat} (h : ∀ x ∈ ws, x ≤ limit) (start : Nat) :
    weightTotal limit ws start = .ok (start + (ws.map weightShare).sum) := by
  induction ws generalizing start with
  | nil => rfl
  | cons x ws ih =>
    obtain ⟨hx, hws⟩ := List.forall_mem_cons.1 h
    rw [weightTotal, if_neg (Nat.not_lt.2 hx), ih hws, List.map_cons, List.sum_cons, weightShare]
    split <;> simp [Nat.add_assoc]

/-- The first weight above the limit decides. -/
theorem weightTotal_error {limit x : Nat} {before after : List Nat}
    (hbefore : ∀ y ∈ before, y ≤ limit) (hx : x > limit) (start : Nat) :
    weightTotal limit (before ++ x :: after) start = .error ⟨.invalidHuffmanWeights, x⟩ := by
  induction before generalizing start with
  | nil => exact if_pos hx
  | cons y before ih =>
    obtain ⟨hy, hbefore⟩ := List.forall_mem_cons.1 hbefore
    rw [List.cons_append, weightTotal, if_neg (Nat.not_lt.2 hy), ih hbefore]

section

variable {limit : Nat} {w : List Nat} (h1 : 1 ≤ w.length) (h255 : w.length ≤ 255)
include h1 h255

/-- What the sum of the powers leaves to decide, in the terms of rule R204: the table width
`maxBits + 1` and the rest of the table, `left`. -/
theorem weightTable_of_total {total maxBits left : Nat} (htotal : weightTotal limit w 0 = .ok total)
    (hlow : 2 ^ maxBits ≤ total) (hhigh : total < 2 ^ (maxBits + 1))
    (hleft : left + total = 2 ^ (maxBits + 1)) :
    weightTable limit w =
      if maxBits + 1 > limit then .error ⟨.invalidHuffmanWeights, (maxBits + 1 : Nat)⟩
      else if 2 ^ Nat.log2 left ≠ left then .error ⟨.invalidHuffmanWeights, left⟩
      else .ok { maxBits := maxBits + 1, nsym := w.length + 1,
                 entries := hufLevels (maxBits + 1)
                   ((w ++ [Nat.log2 left + 1]).map (codeLength (maxBits + 1))) (maxBits + 1) } := by
  have hne : total ≠ 0 := fun h => absurd (h ▸ hlow) (by simp)
  have hwidth : Nat.log2 total = maxBits := (Nat.log2_eq_iff hne).2 ⟨hlow, hhigh⟩
  rw [weightTable, if_neg (by omega), htotal]
  refine (if_neg hne).trans ?_
  simp only [hwidth, show 2 ^ (maxBits + 1) - total = left by omega]

theorem weightTable_of_weightTotal_error {r : Raise} (h : weightTotal limit w 0 = .error r) :
    weightTable limit w = .error r := by
  rw [weightTable, if_neg (by omega), h]
  rfl

theorem weightTable_zero (h : weightTotal limit w 0 = .ok 0) :
    weightTable limit w = .error ⟨.invalidHuffmanWeights, 0⟩ := by
  rw [weightTable, if_neg (by omega), h]
  rfl

end

/-- `t` is the table of the weights `w` and of the weight `last` that they leave to one more symbol
(rule R204). -/
structure HufTable.Codes (t : HufTable) (w : List Nat) (last : Nat) : Prop where
  nsym : t.nsym = w.length + 1
  last_pos : 1 ≤ last
  le : ∀ x ∈ w ++ [last], x ≤ t.maxBits
  full : ((w ++ [last]).map weightShare).sum = 2 ^ t.maxBits
  entries : t.entries =
    hufLevels t.maxBits ((w ++ [last]).map (codeLength t.maxBits)) t.maxBits

/-- A list that passes the checks, its last weight made explicit. -/
theorem weightTable_ok {limit : Nat} {w : List Nat} {t : HufTable}
    (h : weightTable limit w = .ok t) :
    1 ≤ w.length ∧ w.length ≤ 255 ∧ ∃ last, t.Codes w last := by
  simp only [weightTable, check_ok, except_bind_ok, Except.ok.injEq, not_not] at h
  obtain ⟨hlen, total, htotal, hne, -, hleft, rfl⟩ := h
  have hsum := weightTotal_ok htotal
  rw [Nat.zero_add] at hsum
  obtain ⟨-, hhalf⟩ := left_bounds hne
  have htop := Nat.lt_log2_self (n := total)
  refine ⟨by omega, by omega, _, rfl, Nat.succ_pos _, ?_, ?_, rfl⟩
  · simp only [List.mem_append, List.mem_singleton]
    rintro x (hx | rfl)
    · exact weight_le_of_sum_lt hx (hsum ▸ htop)
    · rw [← hleft] at hhalf
      exact Nat.succ_le_succ ((Nat.pow_le_pow_iff_right (by decide)).1 hhalf)
  · have hlast : weightShare (Nat.log2 (2 ^ (Nat.log2 total + 1) - total) + 1) =
        2 ^ (Nat.log2 total + 1) - total := hleft
    rw [List.map_append, List.sum_append, ← hsum, List.map_singleton, List.sum_singleton, hlast]
    exact Nat.add_sub_cancel' htop.le

theorem HufTable.Codes.length_entries {t : HufTable} {w : List Nat} {last : Nat}
    (h : t.Codes w last) : t.entries.length = 2 ^ t.maxBits := by
  rw [h.entries, length_hufLevels_codeLength h.le, h.full]

/-! ### The order and the shares of the entries (rule R204) -/

section

variable {maxBits b : Nat} {lens : List Nat}

/-- Every entry of a level is that of a symbol whose code has the level's length. -/
theorem exists_symbol_of_mem_hufLevel {s : Nat} (hs : s + lens.length ≤ 256) {e : HufEntry}
    (he : e ∈ hufLevel maxBits b lens s) :
    e.nb = BitVec.ofNat 4 b ∧
      ∃ (i : Nat) (h : i < lens.length), lens[i] = b ∧ e.sym.toNat = s + i := by
  induction lens generalizing s with
  | nil => cases he
  | cons nb lens ih =>
    rw [List.length_cons] at hs
    rw [hufLevel, List.mem_append] at he
    obtain he | he := he
    · split at he
      · next hb =>
        rw [List.eq_of_mem_replicate he]
        exact ⟨rfl, 0, Nat.succ_pos _, hb, by simp; omega⟩
      · cases he
    · obtain ⟨hnb, i, hi, hb, hsym⟩ := ih (s := s + 1) (by omega) he
      exact ⟨hnb, i + 1, Nat.succ_lt_succ hi, hb, by omega⟩

theorem exists_symbol_of_mem_hufLevels (hs : lens.length ≤ 256) {e : HufEntry}
    (he : e ∈ hufLevels maxBits lens b) :
    ∃ (i : Nat) (h : i < lens.length),
      1 ≤ lens[i] ∧ lens[i] ≤ b ∧ e.nb = BitVec.ofNat 4 lens[i] ∧ e.sym.toNat = i := by
  induction b with
  | zero => cases he
  | succ b ih =>
    obtain he | he := List.mem_append.1 he
    · obtain ⟨hnb, i, hi, hb, hsym⟩ := exists_symbol_of_mem_hufLevel (s := 0) (by omega) he
      exact ⟨i, hi, by omega, by omega, hb ▸ hnb, by omega⟩
    · obtain ⟨i, hi, h1, hb, hnb, hsym⟩ := ih he
      exact ⟨i, hi, h1, by omega, hnb, hsym⟩

/-- A level has the share of each symbol whose code has the level's length. -/
theorem countP_hufLevel {s i : Nat} (hs : s + lens.length ≤ 256) (hi : i < lens.length) :
    (hufLevel maxBits b lens s).countP (fun e => e.sym.toNat == s + i) =
      if lens[i] = b then 2 ^ (maxBits - b) else 0 := by
  induction lens generalizing s i with
  | nil => cases hi
  | cons nb lens ih =>
    rw [List.length_cons] at hs hi
    rw [hufLevel, List.countP_append]
    cases i with
    | zero =>
      have hrest :
          (hufLevel maxBits b lens (s + 1)).countP (fun e => e.sym.toNat == s + 0) = 0 := by
        refine List.countP_eq_zero.2 fun e he => ?_
        obtain ⟨-, i, -, -, hsym⟩ := exists_symbol_of_mem_hufLevel (by omega) he
        simp only [beq_iff_eq]
        omega
      rw [hrest, List.getElem_cons_zero]
      have hmod : s % 256 = s := Nat.mod_eq_of_lt (by omega)
      split <;> simp [List.countP_replicate, hmod]
    | succ i =>
      have hfirst : (if nb = b then List.replicate (2 ^ (maxBits - b))
          ({ sym := BitVec.ofNat 8 s, nb := BitVec.ofNat 4 b } : HufEntry) else []).countP
          (fun e => e.sym.toNat == s + (i + 1)) = 0 := by
        have hne : ¬ s % 256 = s + (i + 1) := by omega
        split <;> simp [List.countP_replicate, hne]
      have hrest := ih (s := s + 1) (i := i) (by omega) (by omega)
      rw [Nat.add_right_comm] at hrest
      rw [hfirst, Nat.zero_add]
      exact hrest

theorem countP_hufLevels {i : Nat} (hs : lens.length ≤ 256) (hi : i < lens.length) :
    (hufLevels maxBits lens b).countP (fun e => e.sym.toNat == i) =
      if 1 ≤ lens[i] ∧ lens[i] ≤ b then 2 ^ (maxBits - lens[i]) else 0 := by
  induction b with
  | zero => exact (if_neg (by omega)).symm
  | succ b ih =>
    have hlevel := countP_hufLevel (maxBits := maxBits) (b := b + 1) (s := 0) (by omega) hi
    rw [Nat.zero_add] at hlevel
    rw [hufLevels, List.countP_append, hlevel, ih]
    by_cases hb : lens[i] = b + 1
    · rw [if_pos hb, if_neg (by omega), if_pos (by omega), hb, Nat.add_zero]
    · rw [if_neg hb, Nat.zero_add]
      exact if_congr (by omega) rfl rfl

/-- The entries of a level stand in ascending order of symbol. -/
theorem pairwise_hufLevel {s : Nat} (hs : s + lens.length ≤ 256) :
    (hufLevel maxBits b lens s).Pairwise (fun e e' => e.sym ≤ e'.sym) := by
  induction lens generalizing s with
  | nil => exact .nil
  | cons nb lens ih =>
    rw [List.length_cons] at hs
    refine List.pairwise_append.2 ⟨?_, ih (by omega), fun e he e' he' => ?_⟩
    · split
      · exact List.pairwise_replicate.2 (.inr (BitVec.le_refl _))
      · exact .nil
    · obtain ⟨-, i, -, -, hsym⟩ := exists_symbol_of_mem_hufLevel (by omega) he'
      split at he
      · rw [List.eq_of_mem_replicate he, BitVec.le_def, hsym, BitVec.toNat_ofNat]
        omega
      · cases he

/-- Longer codes stand first, and codes of one length in ascending order of symbol. -/
theorem pairwise_hufLevels (hs : lens.length ≤ 256) (hb : b ≤ 15) :
    (hufLevels maxBits lens b).Pairwise
      (fun e e' => e'.nb < e.nb ∨ e'.nb = e.nb ∧ e.sym ≤ e'.sym) := by
  induction b with
  | zero => exact .nil
  | succ b ih =>
    have hlevel {e : HufEntry} (he : e ∈ hufLevel maxBits (b + 1) lens 0) :
        e.nb = BitVec.ofNat 4 (b + 1) :=
      (exists_symbol_of_mem_hufLevel (by omega) he).1
    refine List.pairwise_append.2 ⟨?_, ih (by omega), fun e he e' he' => .inl ?_⟩
    · refine (pairwise_hufLevel (by omega)).imp_of_mem fun he he' hle => .inr ⟨?_, hle⟩
      rw [hlevel he, hlevel he']
    · obtain ⟨i, hi, -, hlen, hnb, -⟩ := exists_symbol_of_mem_hufLevels hs he'
      rw [hlevel he, hnb, BitVec.lt_def]
      simp only [BitVec.toNat_ofNat]
      omega

end

/-- The entries of one symbol: its share of the table, all with the code length of its weight. -/
theorem HufTable.Codes.symbol {t : HufTable} {w : List Nat} {last : Nat} (h : t.Codes w last)
    (hlen : w.length ≤ 255) (hbits : t.maxBits ≤ 15) {s : Nat} (hs : s < (w ++ [last]).length) :
    t.entries.countP (fun e => e.sym.toNat == s) = weightShare (w ++ [last])[s] ∧
      ∀ e ∈ t.entries, e.sym.toNat = s → e.nb.toNat + (w ++ [last])[s] = t.maxBits + 1 := by
  have hall : ((w ++ [last]).map (codeLength t.maxBits)).length ≤ 256 := by
    simpa using Nat.lt_succ_of_le hlen
  have hle := h.le _ (List.getElem_mem hs)
  rw [h.entries]
  refine ⟨?_, fun e he hsym => ?_⟩
  · rw [countP_hufLevels hall (by simpa using hs), List.getElem_map, codeLength, weightShare]
    by_cases hpos : (w ++ [last])[s] > 0
    · rw [if_pos hpos, if_pos hpos, if_pos (by omega)]
      congr 1
      omega
    · simp [hpos]
  · obtain ⟨i, hi, h1, hb, hnb, rfl⟩ := exists_symbol_of_mem_hufLevels hall he
    simp only [List.getElem_map, codeLength, hsym] at h1 hb hnb
    rw [hnb, BitVec.toNat_ofNat]
    split at h1
    · rw [if_pos ‹_›]
      omega
    · cases h1

/-- Settles O29: the checks in their order by `weightTable_of_total`, and the table of a list that
passes by `weightTable_ok`. -/
theorem huffmanTableIsFilledExactly : Obligations.HuffmanTableIsFilledExactly := by
  intro limit w hlimit
  rw [← weightShare_eq]
  refine ⟨fun hlen => if_pos hlen, fun h1 h255 => ⟨?_, ?_⟩, fun t ht => ?_⟩
  · rintro before x after rfl hbefore hx
    exact weightTable_of_weightTotal_error h1 h255 (weightTotal_error hbefore hx 0)
  · rintro hle total rfl
    have htotal := weightTotal_of_le hle 0
    rw [Nat.zero_add] at htotal
    refine ⟨fun hzero => weightTable_zero h1 h255 (hzero ▸ htotal), fun maxBits hlow hhigh => ?_⟩
    have htable {left : Nat} := weightTable_of_total (left := left) h1 h255 htotal hlow hhigh
    have hfits {left : Nat} hleft (hbits : maxBits + 1 ≤ limit) :=
      (htable (left := left) hleft).trans (if_neg (Nat.not_lt.2 hbits))
    refine ⟨fun hbits => (htable (Nat.sub_add_cancel hhigh.le)).trans (if_pos hbits),
      fun left hleft hbits => ⟨fun hk => (hfits hleft hbits).trans (if_pos (hk _).symm), ?_⟩⟩
    rintro k rfl
    exact ⟨_, (hfits hleft hbits).trans (if_neg (by rw [Nat.log2_two_pow, not_not])), rfl⟩
  · obtain ⟨h1, h255, last, hcodes⟩ := weightTable_ok ht
    obtain ⟨hmin, hmax⟩ := (weightTable_fits hlimit ht).maxBits
    refine ⟨h1, h255, hcodes.nsym, hmin, hmax, hcodes.length_entries, ?_, last, hcodes.last_pos,
      hcodes.full, fun s hs => ?_⟩
    · rw [hcodes.entries]
      exact pairwise_hufLevels (by simpa using Nat.lt_succ_of_le h255) (hmax.trans hlimit)
    · obtain ⟨hcount, hnb⟩ := hcodes.symbol h255 (hmax.trans hlimit) hs
      exact ⟨hcount.trans (congrFun weightShare_eq _), hnb⟩

/-! ### Filling the literals buffer (rules R200 to R202) -/

/-- Writing a whole list from address 0 stores its elements; `d` stands for none of them. -/
theorem stores_writeList_zero {α : Type} (m : Memory α) {v : List α} {n : Nat} (hn : v.length = n)
    (d : α) : m.Stores (m.writeList 0 v) 0 n (fun k => v[k]?.getD d) :=
  stores_writeList m 0 v n _ hn fun k hk => by
    rw [List.getElem?_eq_getElem (hn ▸ hk), Option.getD_some]

/-- The unit after a command that fills the literals buffer and leaves the cursor at `r`, and before
that made `u` of the state it was presented in. -/
theorem complete_fill (n : Word) (r : Nat) (m : Memory Byte) {u : State} (h : u.Ready) :
    complete (((begin u).setRpos r).setLits (Literals.filled { u.lits with mem := m } n.toNat)) =
      { u.done with
        lits := { pos := 0, len := n, mem := m }
        reader := { u.reader with rpos := BitVec.ofNat 32 r } } := by
  apply State.ext_parts
  case status => exact busy_cleared h
  case lits => simp [Literals.filled]
  all_goals rfl

/-- A command that reads `step` bytes and fills the literals buffer with `v`: its checks in order,
and the state it leaves. -/
theorem exec_fill {i : Instr} {n step : Word} {v : List Byte} {f : Nat → Byte} {s : State}
    (hs : s.Ready) (hw : i.wf = true) (hv : v.length = n.toNat)
    (hf : ∀ k, k < n.toNat → v[k]? = some (f k))
    (hrun : bodyOf i (begin s) =
      if isQuiet (begin s) then
        if n.toNat > s.params.litCap then .error ⟨.literalsOverflow, n.toNat⟩ (begin s)
        else if s.reader.rpos.toNat + step.toNat > s.reader.len.toNat then
          .error ⟨.shortRead, s.reader.rpos.toNat⟩ (begin s)
        else .ok () (((begin s).setRpos (s.reader.rpos.toNat + step.toNat)).setLits
          (Literals.filled { s.lits with mem := s.lits.mem.writeList 0 v } n.toNat))
      else .error (stateFault (begin s)) (begin s)) :
    (s.Quiet → n.toNat ≤ s.params.litCap →
      s.reader.rpos.toNat + step.toNat ≤ s.reader.len.toNat →
      ∃ m, s.lits.mem.Stores m 0 n.toNat f ∧
        exec i s = .next { s.done with
          lits := { pos := 0, len := n, mem := m }
          reader := { s.reader with rpos := s.reader.rpos + step } }) ∧
    (¬ s.Quiet → exec i s = .next s.latchedState) ∧
    (s.Quiet → n.toNat > s.params.litCap →
      exec i s = .next (s.latched .literalsOverflow n.toNat)) ∧
    (s.Quiet → n.toNat ≤ s.params.litCap →
      s.reader.rpos.toNat + step.toNat > s.reader.len.toNat →
      exec i s = .next (s.latched .shortRead s.reader.rpos.toNat)) := by
  have latch {r : Raise} := exec_latched (i := i) (r := r) hs hw
  have hquiet (hq : s.Quiet) := hrun.trans (if_pos hq)
  have hfits (hq : s.Quiet) (hn : n.toNat ≤ s.params.litCap) :=
    (hquiet hq).trans (if_neg (Nat.not_lt.2 hn))
  refine ⟨fun hq hn hlen => ⟨_, stores_writeList _ 0 v _ f hv hf, ?_⟩,
    fun hq => latch (hrun.trans (if_neg hq)), fun hq hn => latch ((hquiet hq).trans (if_pos hn)),
    fun hq hn hlen => latch ((hfits hq hn).trans (if_pos hlen))⟩
  have hfill := complete_fill n (s.reader.rpos.toNat + step.toNat) (s.lits.mem.writeList 0 v) hs
  rw [BitVec.ofNat_add, BitVec.ofNat_toNat, BitVec.ofNat_toNat, BitVec.setWidth_eq,
    BitVec.setWidth_eq] at hfill
  exact exec_eq_next hs hw ((hfits hq hn).trans (if_neg (Nat.not_lt.2 hlen))) hfill

/-- Settles O41: the checks in their order by `run_litRawBody`, the outcomes by `exec_fill`. -/
theorem litRawFillsTheBuffer : Obligations.LitRawFillsTheBuffer := by
  refine ⟨illegalUnless_of_encodeFields fun i hop => ?_, fun n =>
    ⟨Instr.encodedAs (i := .litRaw n) rfl, fun s hs =>
      exec_fill (i := .litRaw n) hs rfl (length_memRead _ _ _)
        (fun k hk => getElem?_memRead _ _ _ k hk) (run_litRawBody n (begin s))⟩⟩
  cases i with
  | litRaw n => exact ⟨rfl, rfl, rfl⟩
  | _ => simp [encodeFields] at hop

/-- Settles O42: the checks in their order by `run_litRleBody`, the outcomes by `exec_fill`. -/
theorem litRleFillsTheBuffer : Obligations.LitRleFillsTheBuffer := by
  refine ⟨illegalUnless_of_encodeFields fun i hop => ?_, fun n =>
    ⟨Instr.encodedAs (i := .litRle n) rfl, fun s hs =>
      exec_fill (i := .litRle n) (step := 1) hs rfl List.length_replicate
        (fun k hk => List.getElem?_replicate_of_lt hk) (run_litRleBody n (begin s))⟩⟩
  cases i with
  | litRle n => exact ⟨rfl, rfl, rfl⟩
  | _ => simp [encodeFields] at hop

/-! ### From a table to the literals (rules R208, R210) -/

/-- Decoded streams give as many literals as the command asks for. -/
theorem StreamsDecode.length_eq {tab : Nat → HufEntry} {maxBits : Nat} {byte : Nat → Byte}
    {a fin regen : Nat} {out : List Byte} {streams : Streams}
    (h : StreamsDecode tab maxBits byte a fin regen out streams) : out.length = regen := by
  cases streams with
  | one => exact h.1
  | four =>
    obtain ⟨_, _, _, _, _, _, _, _, -, -, -, -, -, hlen, -⟩ := h
    exact hlen

/-- A Huffman literals command once it has its table: the streams, then the buffer and the cursor
(rule R210). -/
def hufFill (streams : Streams) (fin : Nat) (regen : Word) : Cmd Unit := do
  hufStreams streams fin regen.toNat
  update fun t => (t.setLits (t.lits.filled regen.toNat)).setRpos fin

/-- What a Huffman literals command does, its checks in order, before it comes to its table (rule
R210). -/
theorem run_litHufBody (streams : Streams) (regen comp : Word) (fresh : Bool) (s : State) :
    litHufBody streams regen comp fresh s =
      if isQuiet s then
        if regen.toNat > s.params.litCap then .error ⟨.literalsOverflow, regen.toNat⟩ s
        else if s.reader.rpos.toNat + comp.toNat > s.reader.len.toNat then
          .error ⟨.shortRead, s.reader.rpos.toNat⟩ s
        else
          (do hufSource fresh (s.reader.rpos.toNat + comp.toNat)
              hufFill streams (s.reader.rpos.toNat + comp.toNat) regen) s
      else .error (stateFault s) s := by
  simp only [litHufBody, hufFill, run_bind, run_quiet, run_current, run_raiseIf, run_need]
  by_cases h : isQuiet s
  case neg => simp only [if_neg h]
  simp only [if_pos h]
  by_cases h1 : regen.toNat > s.params.litCap
  case pos => simp only [if_pos h1]
  simp only [if_neg h1]
  by_cases h2 : s.reader.rpos.toNat + comp.toNat > s.reader.len.toNat
  case pos => simp only [if_pos h2]
  simp only [if_neg h2]

section

variable {i : Instr} {s u : State} (hs : s.Ready) (hu : u.Ready) (hw : i.wf = true)
include hs hu hw

/-- A command whose body raises in the state that it made `u` of latches there. -/
theorem exec_latched_in {r : Raise} (hb : bodyOf i (begin s) = .error r (begin u)) :
    exec i s = .next (u.latched r.fault r.info) := by
  rw [exec_of_error hs hw hb, faultEntry_begin hu]

/-- A command that comes in `u` to the streams ends as they decode. -/
theorem streamsEnd_of_hufFill {streams : Streams} {fin : Nat} {regen : Word}
    (hlits : u.lits = s.lits)
    (hb : bodyOf i (begin s) = hufFill streams fin regen (begin u)) :
    StreamsEnd i s u fin regen streams := by
  rw [hufFill, run_bind] at hb
  rw [StreamsEnd, ← hlits]
  refine ⟨fun out hout => ⟨_, stores_writeList_zero _ hout.length_eq 0, ?_⟩,
    fun out r hout => ⟨_, stores_writeList_zero _ rfl 0, ?_⟩⟩
  · rw [run_hufStreams_decodes (s := begin u) hout] at hb
    exact exec_eq_next hs hw hb (complete_fill regen fin (u.lits.mem.writeList 0 out) hu)
  · rw [run_hufStreams_fails (s := begin u) hout] at hb
    exact exec_latched_in (u := u.setLits { u.lits with mem := u.lits.mem.writeList 0 out })
      hs hu hw hb

end

/-- The checks of a Huffman literals command before its table, in order, and what it comes to behind
them (rule R210). -/
theorem exec_litHuf_checks {i : Instr} {s : State} {streams : Streams} {regen comp : Word}
    {fresh : Bool} (hs : s.Ready) (hw : i.wf = true)
    (hb : bodyOf i = litHufBody streams regen comp fresh) :
    (¬ s.Quiet → exec i s = .next s.latchedState) ∧
    (s.Quiet → regen.toNat > s.params.litCap →
      exec i s = .next (s.latched .literalsOverflow regen.toNat)) ∧
    (s.Quiet → regen.toNat ≤ s.params.litCap →
      s.reader.rpos.toNat + comp.toNat > s.reader.len.toNat →
      exec i s = .next (s.latched .shortRead s.reader.rpos.toNat)) ∧
    (s.Quiet → regen.toNat ≤ s.params.litCap →
      s.reader.rpos.toNat + comp.toNat ≤ s.reader.len.toNat →
      bodyOf i (begin s) =
        (do hufSource fresh (s.reader.rpos.toNat + comp.toNat)
            hufFill streams (s.reader.rpos.toNat + comp.toNat) regen) (begin s)) := by
  have latch {r : Raise} := exec_latched (i := i) (r := r) hs hw
  have hrun := (congrFun hb (begin s)).trans (run_litHufBody streams regen comp fresh (begin s))
  have hquiet (hq : s.Quiet) := hrun.trans (if_pos hq)
  have hfits (hq : s.Quiet) (hn : regen.toNat ≤ s.params.litCap) :=
    (hquiet hq).trans (if_neg (Nat.not_lt.2 hn))
  exact ⟨fun hq => latch (hrun.trans (if_neg hq)),
    fun hq hn => latch ((hquiet hq).trans (if_pos hn)),
    fun hq hn hlen => latch ((hfits hq hn).trans (if_pos hlen)),
    fun hq hn hlen => (hfits hq hn).trans (if_neg (Nat.not_lt.2 hlen))⟩

end Sys2Proof.Machine

namespace Sys2Proof

theorem Streams.toSel_eq (n : Streams) : n.toSel = if n = .one then 1 else 4 := by
  cases n <;> rfl

theorem Streams.toSel_one_or_four (n : Streams) : n.toSel = 1 ∨ n.toSel = 4 :=
  or_iff_not_imp_left.2 (Streams.exists_toSel.1 ⟨n, rfl⟩)

end Sys2Proof

namespace Sys2Proof.Machine

/-! ### LIT_HUFR (rule R214) -/

/-- Settles O44: the checks by `exec_litHuf_checks`, and streams that decode with the table as it
stands. -/
theorem litHufrDecodesWithTheRetainedTable : Obligations.LitHufrDecodesWithTheRetainedTable := by
  refine ⟨illegalUnless_of_encodeFields fun i hop => ?_, fun streams regen comp =>
    ⟨?_, fun s hs => ?_⟩⟩
  · cases i with
    | litHufr streams _ _ => exact ⟨streams.toSel_one_or_four, rfl⟩
    | _ => simp [encodeFields] at hop
  · rw [← streams.toSel_eq]
    exact Instr.encodedAs (i := .litHufr streams regen comp) rfl
  obtain ⟨hopen, hover, hshort, hrun⟩ :=
    exec_litHuf_checks (i := .litHufr streams regen comp) hs rfl rfl
  refine ⟨hopen, hover, hshort, fun hq hn hlen hvalid => ?_, fun hq hn hlen hvalid => ?_⟩
  · refine exec_latched (i := .litHufr streams regen comp) (r := ⟨.missingTable, 4⟩) hs rfl
      ((hrun hq hn hlen).trans ?_)
    simp [hufSource, hvalid]
  · refine streamsEnd_of_hufFill (i := .litHufr streams regen comp) hs hs rfl rfl
      ((hrun hq hn hlen).trans ?_)
    simp [hufSource, hvalid]

/-! ### LIT_HUF (rules R206, R212) -/

/-- The table memory of a distribution (rules R38, R141). -/
theorem stores_spread (m : Memory FseEntry) {al : Nat} {probs : List Int} (h : probs ≠ []) :
    m.Stores (m.writeList 0 (spread al probs)) 0 (2 ^ al)
      (fun k => (spread al probs)[k]?.getD default) :=
  stores_writeList_zero m (length_spread h) default

/-- Weights that make a table: its memory and its descriptor (rules R39, R204). -/
theorem run_hufFromWeights_ok {w : List Nat} {t : HufTable} {s : State}
    (h : weightTable s.params.hufMaxBits w = .ok t) :
    ∃ m, s.huf.tab.Stores m 0 (2 ^ t.maxBits) (fun k => t.entries[k]?.getD default) ∧
      hufFromWeights w s = .ok () (s.setHuf
        { info := { valid := true, maxBits := BitVec.ofNat 4 t.maxBits,
                    nsym := BitVec.ofNat 9 (w.length + 1) }
          tab := m }) := by
  obtain ⟨-, -, last, hcodes⟩ := weightTable_ok h
  refine ⟨_, stores_writeList_zero _ hcodes.length_entries default, ?_⟩
  rw [run_hufFromWeights, h, ← hcodes.nsym]
  rfl

theorem run_hufFromWeights_error {w : List Nat} {r : Raise} {s : State}
    (h : weightTable s.params.hufMaxBits w = .error r) : hufFromWeights w s = .error r s := by
  rw [run_hufFromWeights, h]

/-- The header of a coded description is a distribution that passes and ends within the description
(O27). -/
theorem CodedHeader.passes {p : Params} {byte : Nat → Byte} {a fin next : Nat} {h : Header}
    (hwf : p.wf = true) (hc : CodedHeader p byte a fin h next) :
    h.probs ≠ [] ∧ h.next ≤ next ∧ checkDist p .aux h.al h.probs = .ok () := by
  obtain ⟨-, -, -, -, hread⟩ := hc
  obtain ⟨-, -, hsome, -, -, -, -, hnext, hcheck⟩ :=
    headerIsANormalizedDistribution _ _ _ _ _ _ hwf hread
  exact ⟨List.length_pos_iff.1 hsome, hnext, hcheck⟩

/-- The state with slot `AUX` built from a header, and the cursor at `v` (rule R206). -/
def State.auxBuilt (s : State) (h : Header) (v : Nat) : State :=
  (s.setRpos v).setSlot .aux ((s.slot .aux).build h.al h.probs.length (spread h.al h.probs))

section

variable {s : State} {fin next : Nat} {h : Header} (hwf : s.params.wf = true) (hfin : fin < 2 ^ 32)
  (hc : CodedHeader s.params s.inByte s.reader.rpos.toNat fin h next)
include hwf hfin hc

/-- A coded description whose weights decode: they decide, with slot `AUX` built. -/
theorem run_hufTree_weights {w : List Nat}
    (hw : WeightsDecode (h.entry (s.fseEntry .aux)) s.inByte h.al h.next (next - h.next) w) :
    hufTree fin s = hufFromWeights w (s.auxBuilt h next) := by
  obtain ⟨-, hnext, hcheck⟩ := hc.passes hwf
  rw [run_hufTree_coded hfin hc hcheck hnext, codedWeights_decodes hw]
  rfl

/-- A coded description whose weights do not decode faults behind the header, with slot `AUX`
built. -/
theorem run_hufTree_noWeights {r : Raise}
    (hw : WeightsFail (h.entry (s.fseEntry .aux)) s.inByte h.al h.next (next - h.next) r) :
    hufTree fin s = .error r (s.auxBuilt h h.next) := by
  obtain ⟨-, hnext, hcheck⟩ := hc.passes hwf
  rw [run_hufTree_coded hfin hc hcheck hnext, codedWeights_fails hw]
  rfl

end

/-- Settles O43: the checks by `exec_litHuf_checks`; what each kind of tree description makes of the
state, by the `run_hufTree` lemmas, decides whether the streams follow (`streamsEnd_of_hufFill`). -/
theorem litHufDecodesWithAFreshTable : Obligations.LitHufDecodesWithAFreshTable := by
  refine ⟨illegalUnless_of_encodeFields fun i hop => ?_, fun streams regen comp =>
    ⟨?_, fun s hs => ?_⟩⟩
  · cases i with
    | litHuf streams _ _ => exact ⟨streams.toSel_one_or_four, rfl⟩
    | _ => simp [encodeFields] at hop
  · rw [← streams.toSel_eq]
    exact Instr.encodedAs (i := .litHuf streams regen comp) rfl
  obtain ⟨hopen, hover, hshort, hrun⟩ :=
    exec_litHuf_checks (i := .litHuf streams regen comp) hs rfl rfl
  refine ⟨hopen, hover, hshort, ?_⟩
  rintro hq hn hlen a fin rfl rfl
  have hrun := hrun hq hn hlen
  have hfin : s.reader.rpos.toNat + comp.toNat < 2 ^ 32 := hlen.trans_lt s.reader.len.isLt
  generalize s.reader.rpos.toNat + comp.toNat = fin at hrun hfin
  have streamsEnd {u : State} (hu : u.Ready) (hlits : u.lits = s.lits)
      (htree : hufTree fin (begin s) = .ok () (begin u)) :
      StreamsEnd (.litHuf streams regen comp) s u fin regen streams := by
    refine streamsEnd_of_hufFill (i := .litHuf streams regen comp) hs hu rfl hlits (hrun.trans ?_)
    rw [run_bind, hufSource, if_pos rfl, htree]
  have fault {r : Raise} {u : State} (hu : u.Ready)
      (htree : hufTree fin (begin s) = .error r (begin u)) :
      exec (.litHuf streams regen comp) s = .next (u.latched r.fault r.info) := by
    refine exec_latched_in (i := .litHuf streams regen comp) hs hu rfl (hrun.trans ?_)
    rw [run_bind, hufSource, if_pos rfl, htree]
  refine ⟨fun w next t ht => ⟨fun hdirect => ?_, fun h hwf ⟨hc, hweights⟩ => ?_⟩,
    fun rpos r hfails => ?_, fun h rpos r hwf hfails => ?_⟩
  · obtain ⟨mH, hmH, htable⟩ := run_hufFromWeights_ok (s := (begin s).setRpos next) ht
    exact ⟨mH, hmH, streamsEnd hs rfl
      ((run_hufTree_direct (s := begin s) hfin hdirect).trans htable)⟩
  · obtain ⟨mH, hmH, htable⟩ := run_hufFromWeights_ok (s := (begin s).auxBuilt h next) ht
    exact ⟨mH, _, hmH, stores_spread _ (hc.passes hwf).1, streamsEnd hs rfl
      ((run_hufTree_weights (s := begin s) hwf hfin hc hweights).trans htable)⟩
  · exact fault (u := s.setRpos rpos) hs (run_hufTree_fails (s := begin s) hfin hfails)
  · obtain ⟨next, hc, rfl, hweights⟩ | ⟨w, ⟨hc, hweights⟩, htable⟩ := hfails
    · exact ⟨_, stores_spread _ (hc.passes hwf).1, fault (u := s.auxBuilt h h.next) hs
        (run_hufTree_noWeights (s := begin s) hwf hfin hc hweights)⟩
    · exact ⟨_, stores_spread _ (hc.passes hwf).1, fault (u := s.auxBuilt h rpos) hs
        ((run_hufTree_weights (s := begin s) hwf hfin hc hweights).trans
          (run_hufFromWeights_error htable))⟩

end Sys2Proof.Machine
namespace Sys2Proof.Machine

/-! # Sequences decode and execution (`44_sequences.md`) -/

/-! ### Repeat offsets (rule R247) -/

/-- Settles O31: slot indices 0 to 2 are the first three cases of `resolveRepeat`, and 3 is the
fourth. -/
theorem offsetResolvesThroughTheHistory : Obligations.OffsetResolvesThroughTheHistory := by
  refine fun v ll h h1 hv => ⟨fun hcomputed => ?_, ?_⟩
  · refine ⟨BitVec.ofNat 32 (v - 3), ?_, if_pos hcomputed⟩
    rw [BitVec.toNat_ofNat, Nat.mod_eq_of_lt (by omega)]
  rintro hrepeat k rfl
  rw [resolveOffset, if_neg (Nat.not_lt.2 hrepeat)]
  have hzero : h.r1 - 1 = 0 ↔ h.r1 = 1 := sub_eq_zero
  refine ⟨fun hk => ?_, fun hk => ?_, fun hk => ?_, fun hk hr => ?_, fun hk hr => ?_⟩ <;> rw [hk]
  iterate 3 rfl
  · exact if_pos (hzero.2 hr)
  · exact if_neg (hr ∘ hzero.1)

end Sys2Proof.Machine

namespace Sys2Proof.Machine

/-! ### Running one piece after another -/

/-- A piece that completes hands over to the next. -/
theorem run_bind_ok {α β : Type} {x : Cmd α} {f : α → Cmd β} {s t : State} {a : α}
    (h : x s = .ok a t) : (x >>= f) s = f a t := by
  rw [run_bind, h]

/-- A piece that faults ends the whole. -/
theorem run_bind_error {α β : Type} {x : Cmd α} {f : α → Cmd β} {s t : State} {r : Raise}
    (h : x s = .error r t) : (x >>= f) s = .error r t := by
  rw [run_bind, h]

/-! ### The two halves of a sequence (rules R250, R281) -/

/-- The state with `n` literals appended to the window (rules R281, R282). -/
def State.appendLits (s : State) (n : Nat) : State :=
  (s.setLits { s.lits with pos := BitVec.ofNat 32 (s.lits.pos.toNat + n) }).setWindow
    (s.window.append (memRead s.litByte s.lits.pos.toNat n))

/-- The state with a match appended to the window (rule R292). -/
def State.appendMatch (s : State) (offset length : Nat) : State :=
  s.setWindow (s.window.copyWithin (Config.unwrittenByte s.host.epoch .win) offset length)

/-- The state with no sequence waiting. -/
def State.sequenceTaken (s : State) : State := s.setStatus { s.status with seqValid := false }

/-- The state with the waiting sequence executed (rule R250). -/
def State.sequenceExecuted (s : State) : State :=
  (s.sequenceTaken.appendLits s.seq.ll.toNat).appendMatch s.seq.off.toNat s.seq.ml.toNat

theorem wLitBody_underflow {n : Nat} {s : State} (h : n > s.lits.rest) :
    wLitBody n s = .error ⟨.literalsUnderflow, s.lits.rest⟩ s := by
  rw [run_wLitBody, if_pos h]

theorem wLitBody_overflow {n : Nat} {s : State} (h : n ≤ s.lits.rest)
    (hroom : s.window.index.toNat + n > s.window.capr.toNat) :
    wLitBody n s = .error ⟨.windowOverflow, n⟩ s := by
  rw [run_wLitBody, if_neg (Nat.not_lt.2 h), if_pos hroom]

theorem wLitBody_ok {n : Nat} {s : State} (h : n ≤ s.lits.rest)
    (hroom : s.window.index.toNat + n ≤ s.window.capr.toNat) :
    wLitBody n s = .ok () (s.appendLits n) := by
  rw [run_wLitBody, if_neg (Nat.not_lt.2 h), if_neg (Nat.not_lt.2 hroom)]
  rfl

theorem wLitrestBody_ok {s : State}
    (hroom : s.window.index.toNat + s.lits.rest ≤ s.window.capr.toNat) :
    wLitrestBody s = .ok () (s.appendLits s.lits.rest) := by
  rw [run_wLitrestBody, if_neg (Nat.not_lt.2 hroom)]
  rfl

theorem wCopyBody_outside {offset length : Nat} {s : State}
    (h : offset = 0 ∨ offset > s.window.avail) :
    wCopyBody offset length s = .error ⟨.copyOutOfBounds, offset⟩ s := by
  rw [run_wCopyBody, if_pos h]

theorem wCopyBody_overflow {offset length : Nat} {s : State} (h1 : 1 ≤ offset)
    (h2 : offset ≤ s.window.avail)
    (hroom : s.window.index.toNat + length > s.window.capr.toNat) :
    wCopyBody offset length s = .error ⟨.windowOverflow, length⟩ s := by
  rw [run_wCopyBody, if_neg (by omega), if_pos hroom]

theorem wCopyBody_ok {offset length : Nat} {s : State} (h1 : 1 ≤ offset)
    (h2 : offset ≤ s.window.avail)
    (hroom : s.window.index.toNat + length ≤ s.window.capr.toNat) :
    wCopyBody offset length s = .ok () (s.appendMatch offset length) := by
  rw [run_wCopyBody, if_neg (by omega), if_neg (Nat.not_lt.2 hroom)]
  rfl

/-- SEQ_EXEC with no sequence waiting (rule R250). -/
theorem seqExecBody_nothingWaits {s : State} (h : s.status.seqValid = false) :
    seqExecBody s = .error (stateFault s) s := by
  have hc : s.status.nothingWaits = true := by simp [Status.nothingWaits, h]
  exact run_bind_error ((run_stateCheck ..).trans (if_pos hc))

/-- SEQ_EXEC with a sequence waiting is its two halves (rule R250). -/
theorem seqExecBody_halves {s : State} (h : s.status.seqValid = true) :
    seqExecBody s =
      (wLitBody s.seq.ll.toNat >>= fun _ => wCopyBody s.seq.off.toNat s.seq.ml.toNat)
        s.sequenceTaken := by
  have hc : ¬ s.status.nothingWaits = true := by simp [Status.nothingWaits, h]
  simp only [seqExecBody, run_bind, run_stateCheck, if_neg hc]
  rfl

section

variable {w : Window} {a n : Nat} (ha : w.index.toNat = a) (hroom : a + n ≤ w.capr.toNat)
include ha hroom

/-- The write cursor after bytes that fit. -/
theorem index_after (m : Memory Byte) : (w.after n m).index.toNat = a + n := by
  have hlt := w.capr.isLt
  rw [Window.after, BitVec.toNat_ofNat, ha, Nat.mod_eq_of_lt (by omega)]

/-- The bytes that a match may reach after bytes that fit (rule R292). -/
theorem avail_after (m : Memory Byte) : (w.after n m).avail = a + n := by
  have hlt := w.capr.isLt
  have hsize := w.size.isLt
  rw [Window.avail, index_after ha hroom, Window.after, ha, BitVec.toNat_ofNat,
    Nat.mod_eq_of_lt (by omega)]
  omega

end

/-- Literals stored at the write cursor `a`. -/
theorem stores_appendLits {s : State} {a : Nat} (ha : s.window.index.toNat = a) (n : Nat) :
    s.window.mem.Stores (s.appendLits n).window.mem a n
      (fun k => s.litByte (s.lits.pos.toNat + k)) := by
  subst ha
  exact stores_writeList _ _ _ _ _ (length_memRead ..) fun k hk => getElem?_memRead _ _ _ k hk

/-- A match stored at the write cursor `a` (rule R292). -/
theorem stores_appendMatch {s : State} {a offset : Nat} (ha : s.window.index.toNat = a)
    (h1 : 1 ≤ offset) (h2 : offset ≤ a) (length : Nat) :
    s.window.mem.Stores (s.appendMatch offset length).window.mem a length
      (fun k => s.winByte (a - offset + k % offset)) := by
  subst ha
  have hcopy := stores_copyForward (Config.unwrittenByte s.host.epoch .win) length s.window.mem
    (s.window.index.toNat - offset) offset h1
  rwa [Nat.sub_add_cancel h2] at hcopy

/-- The window with literals appended. -/
theorem window_appendLits (s : State) (n : Nat) :
    (s.appendLits n).window = s.window.after n (s.appendLits n).window.mem := by
  rw [State.appendLits, State.setWindow_window, Window.append, length_memRead]
  rfl

/-- The write cursor after literals that fit. -/
theorem index_appendLits {s : State} {a n : Nat} (ha : s.window.index.toNat = a)
    (hroom : a + n ≤ s.window.capr.toNat) : (s.appendLits n).window.index.toNat = a + n := by
  rw [window_appendLits, index_after ha hroom]

/-- A match may reach every byte up to the literals that were just appended (rule R250). -/
theorem avail_appendLits {s : State} {a n : Nat} (ha : s.window.index.toNat = a)
    (hroom : a + n ≤ s.window.capr.toNat) : (s.appendLits n).window.avail = a + n := by
  rw [window_appendLits, avail_after ha hroom]

/-- The literals left after some are appended. -/
theorem lits_appendLits (s : State) (n : Word) :
    (s.appendLits n.toNat).lits = { s.lits with pos := s.lits.pos + n } := by
  rw [State.appendLits, State.setWindow_lits, State.setLits_lits, BitVec.ofNat_add,
    BitVec.ofNat_toNat, BitVec.ofNat_toNat, BitVec.setWidth_eq, BitVec.setWidth_eq]

/-- SEQ_EXEC that faults in its literals half. -/
theorem faultEntry_sequenceTaken {s : State} (h : s.Ready) (r : Raise) :
    faultEntry r (begin s).sequenceTaken =
      { s.latched r.fault r.info with
        status := { s.status with fault := true, seqValid := false } } := by
  apply State.ext_parts
  case status => rw [← busy_cleared h]; rfl
  all_goals rfl

/-- SEQ_EXEC that faults in its match half. -/
theorem faultEntry_appendLits {s : State} (h : s.Ready) (r : Raise) (n : Word) :
    faultEntry r ((begin s).sequenceTaken.appendLits n.toNat) =
      { s.latched r.fault r.info with
        window := s.window.after n.toNat
          ((begin s).sequenceTaken.appendLits n.toNat).window.mem
        lits := { s.lits with pos := s.lits.pos + n }
        status := { s.status with fault := true, seqValid := false } } := by
  apply State.ext_parts
  case status => rw [← busy_cleared h]; rfl
  case window => exact window_appendLits ..
  case lits => exact lits_appendLits ..
  all_goals rfl

/-- SEQ_EXEC that completes. -/
theorem complete_sequenceExecuted {s : State} (h : s.Ready) :
    complete (begin s).sequenceExecuted =
      { s.done with
        window := (s.window.after s.seq.ll.toNat
            ((begin s).sequenceTaken.appendLits s.seq.ll.toNat).window.mem).after s.seq.ml.toNat
          (begin s).sequenceExecuted.window.mem
        lits := { s.lits with pos := s.lits.pos + s.seq.ll }
        status := { s.status with seqValid := false } } := by
  apply State.ext_parts
  case status => rw [← busy_cleared h]; rfl
  case window => exact congrArg (Window.after · _ _) (window_appendLits ..)
  case lits => exact lits_appendLits ..
  all_goals rfl

/-- SEQ_EXEC with room for the literals and the match, and an offset that reaches the window. -/
theorem seqExecBody_executes {s : State} {idx : Nat} (hv : s.status.seqValid = true)
    (hidx : s.window.index.toNat = idx) (hlits : s.seq.ll.toNat ≤ s.lits.rest)
    (h1 : 1 ≤ s.seq.off.toNat) (h2 : s.seq.off.toNat ≤ idx + s.seq.ll.toNat)
    (hroom : idx + s.seq.ll.toNat + s.seq.ml.toNat ≤ s.window.capr.toNat) :
    seqExecBody s = .ok () s.sequenceExecuted := by
  have hindex : s.sequenceTaken.window.index.toNat = idx := hidx
  have hroom1 : idx + s.seq.ll.toNat ≤ s.sequenceTaken.window.capr.toNat :=
    (Nat.le_add_right _ _).trans hroom
  have hfirst : wLitBody s.seq.ll.toNat s.sequenceTaken = .ok () _ :=
    wLitBody_ok hlits (by rwa [hindex])
  rw [seqExecBody_halves hv, run_bind_ok hfirst]
  exact wCopyBody_ok h1 (by rwa [avail_appendLits hindex hroom1])
    (by rwa [index_appendLits hindex hroom1])

/-- Settles O58: `seqExecBody_halves`, then the checks and the stores of each half in order. -/
theorem seqExecExecutesTheSequence : Obligations.SeqExecExecutesTheSequence := by
  refine ⟨illegalUnless_of_encodeFields fun i hop => ?_,
    Instr.encodedAs (i := .seqExec) rfl, ?_⟩
  · cases i with
    | seqExec => exact ⟨rfl, rfl, rfl, rfl⟩
    | _ => simp [encodeFields] at hop
  rintro s ll ml off idx hs hlits hll rfl rfl hidx
  have hrest : (begin s).sequenceTaken.lits.rest = s.lits.len.toNat - s.lits.pos.toNat := rfl
  have hindex : (begin s).sequenceTaken.window.index.toNat = idx := hidx.symm
  subst hll
  have fault {r : Raise} {t : State} (hv : s.status.seqValid = true)
      (hx : (wLitBody s.seq.ll.toNat >>= fun _ => wCopyBody s.seq.off.toNat s.seq.ml.toNat)
        (begin s).sequenceTaken = .error r t) : exec .seqExec s = .next (faultEntry r t) :=
    exec_of_error (i := .seqExec) hs rfl ((seqExecBody_halves (s := begin s) hv).trans hx)
  refine ⟨fun hv => ?_, fun hv hmore => ?_, fun hv hlen hroom => ?_, fun hv hlen hroom => ?_⟩
  · exact exec_latched (i := .seqExec) (r := stateFault (begin s)) hs rfl
      (seqExecBody_nothingWaits (s := begin s) hv)
  · rw [fault hv (run_bind_error (wLitBody_underflow (by omega))), faultEntry_sequenceTaken hs,
      hrest, Int.ofNat_sub hlits]
  · rw [fault hv (run_bind_error (wLitBody_overflow (by omega) (by rwa [hindex]))),
      faultEntry_sequenceTaken hs]
  have hfirst : wLitBody s.seq.ll.toNat (begin s).sequenceTaken = .ok () _ :=
    wLitBody_ok (by omega) (by rwa [hindex])
  have hmid := index_appendLits hindex hroom
  have havail := avail_appendLits hindex hroom
  have matchFault {r : Raise} (hv : s.status.seqValid = true)
      (hx : wCopyBody s.seq.off.toNat s.seq.ml.toNat _ = .error r _) :=
    (fault hv ((run_bind_ok hfirst).trans hx)).trans
      (congrArg _ (faultEntry_appendLits hs r s.seq.ll))
  refine ⟨_, stores_appendLits hindex s.seq.ll.toNat, fun hout => ?_, fun h1 h2 hmatch => ?_,
    fun h1 h2 hmatch => ⟨_, stores_appendMatch hmid h1 h2 s.seq.ml.toNat, ?_⟩⟩
  · exact matchFault hv (wCopyBody_outside (by rwa [havail]))
  · exact matchFault hv (wCopyBody_overflow h1 (by rwa [havail]) (by rwa [hmid]))
  · exact exec_eq_next (i := .seqExec) hs rfl
      (seqExecBody_executes (s := begin s) hv hindex (Nat.le_sub_of_add_le' hlen) h1 h2 hmatch)
      (complete_sequenceExecuted hs)

end Sys2Proof.Machine

namespace Sys2Proof.Machine

/-! ### Reads from the section (rules R73, R246) -/

/-- From `s` the piece reads `k` bits, answers `a` and ends in `t`, where it faults when the read
crossed the beginning: `BackRead(k)`, then `Over()`. -/
structure Cmd.Reads {α : Type} (x : Cmd α) (s : State) (k : Nat) (a : α) (t : State) : Prop where
  run : x s = if s.bsPos < k then .error ⟨.bitstreamOverrun, s.bsPos - k⟩ t else .ok a t
  position : t.bsPos = s.bsPos - k

/-- The value of a code read from position `p` of the section. -/
theorem readCode_reads {code : Nat × Nat} {s : State} {p : Int} (hp : s.bsPos = p) (h0 : 0 ≤ p)
    (hk : -2 ^ 31 ≤ p - code.2) :
    (readCode code).Reads s code.2
      (code.1 + backBits s.inByte s.bits.base.toNat p code.2) (s.setBsPos (p - code.2)) := by
  subst hp
  have hlt := (bsPos_range s).2
  have hpos := bsPos_setBsPos s (s.bsPos - code.2) hk (by omega)
  refine ⟨?_, hpos⟩
  rw [readCode, run_bind, run_backReadOver, if_neg (by omega), hpos]
  by_cases hover : s.bsPos < code.2
  · rw [if_pos (by omega), if_pos hover]
  · rw [if_neg (by omega), if_neg hover]
    rfl

/-- The state of slot `sl` advanced (rules R182, R246). -/
def State.stateAdvanced (s : State) (sl : Slot) : State :=
  (s.setBsPos (s.bsPos - (s.currentEntry sl).nb.toNat)).setFseState sl
    ((s.currentEntry sl).base.toNat + s.peekBack (s.currentEntry sl).nb.toNat)

/-- A state advance, from within the section. -/
theorem advanceStateOver_reads (sl : Slot) {s : State} (h0 : 0 ≤ s.bsPos) :
    (advanceStateOver sl).Reads s (s.currentEntry sl).nb.toNat () (s.stateAdvanced sl) := by
  have hnb := (s.currentEntry sl).nb.isLt
  have hpos : (s.stateAdvanced sl).bsPos = _ :=
    bsPos_setBsPos_sub (k := (s.currentEntry sl).nb.toNat) h0 (by omega)
  refine ⟨?_, hpos⟩
  have hadv : advanceState sl s = .ok () (s.stateAdvanced sl) := by
    rw [run_advanceState, if_neg (by omega)]
    rfl
  rw [advanceStateOver, run_bind_ok hadv, run_overrun, hpos]
  by_cases hover : s.bsPos < (s.currentEntry sl).nb.toNat
  · rw [if_pos (by omega), if_pos hover]
  · rw [if_neg (by omega), if_neg hover]

/-- A piece that answers something else of what it read. -/
theorem Cmd.Reads.answer {α β : Type} {x : Cmd α} {s t : State} {k : Nat} {a : α}
    (h : x.Reads s k a t) (f : α → β) : Cmd.Reads (x >>= fun a => pure (f a)) s k (f a) t := by
  obtain ⟨hrun, hpos⟩ := h
  refine ⟨?_, hpos⟩
  by_cases hover : s.bsPos < k
  · rw [if_pos hover] at hrun ⊢
    exact run_bind_error hrun
  · rw [if_neg hover] at hrun ⊢
    exact run_bind_ok hrun

section

variable {α β γ : Type} {x : Cmd α} {f : α → Cmd β} {g : α → β → Cmd γ} {s t u w : State} {a : α}
  {b : β} {c : γ} {k m n : Nat} (hx : x.Reads s k a t)
  (hf : 0 ≤ t.bsPos → (f a).Reads t m b u) (hg : 0 ≤ u.bsPos → (g a b).Reads u n c w)
include hx hf hg

/-- Three reads that the section has the bits for. -/
theorem Cmd.Reads.three_ok (h : k + m + n ≤ s.bsPos) :
    (x >>= fun a => f a >>= g a) s = .ok c w ∧ w.bsPos = s.bsPos - k - m - n := by
  obtain ⟨hx, px⟩ := hx
  obtain ⟨hf, pf⟩ := hf (by omega)
  obtain ⟨hg, pg⟩ := hg (by omega)
  refine ⟨?_, by omega⟩
  rw [if_neg (by omega)] at hx hf hg
  rw [run_bind_ok hx, run_bind_ok hf, hg]

/-- Three reads that the section has too few bits for: the read that crosses the beginning faults at
the position it reached. -/
theorem Cmd.Reads.three_overrun (h : s.bsPos < k + m + n) :
    ∃ v, (v = t ∨ v = u ∨ v = w) ∧ (x >>= fun a => f a >>= g a) s = .error ⟨.bitstreamOverrun,
      if s.bsPos < k then s.bsPos - k
      else if s.bsPos < k + m then s.bsPos - k - m
      else s.bsPos - k - m - n⟩ v := by
  obtain ⟨hx, px⟩ := hx
  by_cases c1 : s.bsPos < k
  · rw [if_pos c1] at hx ⊢
    exact ⟨t, .inl rfl, run_bind_error hx⟩
  obtain ⟨hf, pf⟩ := hf (by omega)
  rw [if_neg c1] at hx ⊢
  by_cases c2 : s.bsPos < k + m
  · rw [if_pos (by omega), px] at hf
    rw [if_pos c2]
    exact ⟨u, .inr (.inl rfl), (run_bind_ok hx).trans (run_bind_error hf)⟩
  obtain ⟨hg, -⟩ := hg (by omega)
  rw [if_neg (by omega)] at hf
  rw [if_pos (by omega), pf, px] at hg
  rw [if_neg c2]
  exact ⟨w, .inr (.inr rfl), (run_bind_ok hx).trans ((run_bind_ok hf).trans hg)⟩

end

/-! ### The values of a sequence (rules R242, R246) -/

/-- The values of three codes: offset value, match length, literal length (rule R246). -/
def readValues (vc mc lc : Nat × Nat) : Cmd (Nat × Nat × Nat) :=
  readCode vc >>= fun v => readCode mc >>= fun ml => readCode lc >>= fun ll => pure (v, ml, ll)

section

variable {s : State} {vc mc lc : Nat × Nat}

/-- With bits enough for the three codes, their values and the position they leave. -/
theorem readValues_ok {rest : Nat} (h : s.bsPos = rest + lc.2 + mc.2 + vc.2) :
    readValues vc mc lc s = .ok
      (vc.1 + backBits s.inByte s.bits.base.toNat s.bsPos vc.2,
        mc.1 + backBits s.inByte s.bits.base.toNat (s.bsPos - vc.2) mc.2,
        lc.1 + backBits s.inByte s.bits.base.toNat (s.bsPos - vc.2 - mc.2) lc.2)
      (s.setBsPos rest) := by
  have r1 := readCode_reads (code := vc) (s := s) rfl (by omega) (by omega)
  have r2 := readCode_reads (code := mc) r1.position (by omega) (by omega)
  have r3 := readCode_reads (code := lc) (r2.position.trans (by rw [r1.position])) (by omega)
    (by omega)
  rw [show (rest : Int) = s.bsPos - vc.2 - mc.2 - lc.2 by omega]
  exact (r1.three_ok (f := fun _ => readCode mc) (fun _ => r2)
    (fun _ => r3.answer fun ll => (_, _, ll)) (by omega)).1

/-- With too few, the read that crosses the beginning faults there; only the position changes. -/
theorem readValues_overrun (h0 : 0 ≤ s.bsPos) (hv : vc.2 < 2 ^ 20) (hm : mc.2 < 2 ^ 20)
    (hl : lc.2 < 2 ^ 20) (h : s.bsPos < vc.2 + mc.2 + lc.2) :
    ∃ q, readValues vc mc lc s = .error ⟨.bitstreamOverrun,
      if s.bsPos < vc.2 then s.bsPos - vc.2
      else if s.bsPos < vc.2 + mc.2 then s.bsPos - vc.2 - mc.2
      else s.bsPos - vc.2 - mc.2 - lc.2⟩ (s.setBsPos q) := by
  have hlt := (bsPos_range s).1
  obtain ⟨_, hw, hrun⟩ := Cmd.Reads.three_overrun (f := fun _ => readCode mc)
    (g := fun v ml => readCode lc >>= fun ll => pure (v, ml, ll))
    (readCode_reads (code := vc) rfl h0 (by omega))
    (fun h1 => readCode_reads (code := mc) rfl h1 (by omega))
    (fun h2 => (readCode_reads (code := lc) rfl h2 (by omega)).answer _) h
  obtain rfl | rfl | rfl := hw
  all_goals exact ⟨_, hrun⟩

end

/-! ### The state advances (rule R246) -/

/-- The word of a position (rule R23). -/
theorem pos_of_bsPos {s : State} {p : Nat} (h : s.bsPos = p) : s.bits.pos = BitVec.ofNat 32 p := by
  rw [← BitVec.ofInt_natCast, ← h, State.bsPos, BitVec.ofInt_toInt]

namespace State

variable (s : State) (sl : Slot)

@[simp] theorem stateAdvanced_inByte : (s.stateAdvanced sl).inByte = s.inByte := rfl

@[simp] theorem stateAdvanced_bits :
    (s.stateAdvanced sl).bits =
      { s.bits with pos := BitVec.ofInt 32 (s.bsPos - (s.currentEntry sl).nb.toNat) } := rfl

@[simp] theorem stateAdvanced_slots :
    (s.stateAdvanced sl).slots = s.slots.set sl { s.slot sl with
      state := BitVec.ofNat 32 ((s.currentEntry sl).base.toNat +
        backBits s.inByte s.bits.base.toNat s.bsPos (s.currentEntry sl).nb.toNat) } := rfl

/-- Advancing one slot leaves the entries of the others. -/
theorem currentEntry_stateAdvanced {sl sl' : Slot} (h : sl' ≠ sl) :
    (s.stateAdvanced sl).currentEntry sl' = s.currentEntry sl' := by
  have hslot : (s.stateAdvanced sl).slot sl' = s.slot sl' := slot_setSlot_ne _ h _
  have hentry : (s.stateAdvanced sl).fseEntry sl' = s.fseEntry sl' :=
    fseEntry_congr (by rw [hslot]) rfl
  rw [currentEntry, currentEntry, hslot, hentry]

/-- The three states advanced, in the order `LL`, `ML`, `OF` (rule R246). -/
abbrev statesAdvanced : State := ((s.stateAdvanced .ll).stateAdvanced .ml).stateAdvanced .of

/-- A state that differs in the position in the section and in the slots. -/
def MovesTo (s t : State) : Prop := t = (s.setBits t.bits).setSlots t.slots

theorem movesTo_stateAdvanced : s.MovesTo (s.stateAdvanced sl) := rfl

theorem MovesTo.trans {s t u : State} (h : s.MovesTo t) (k : t.MovesTo u) : s.MovesTo u := by
  refine Eq.trans k ?_
  rw [h]
  rfl

theorem movesTo_statesAdvanced : s.MovesTo s.statesAdvanced :=
  ((s.movesTo_stateAdvanced .ll).trans (movesTo_stateAdvanced _ .ml)).trans
    (movesTo_stateAdvanced _ .of)

end State

section

variable {s : State}

/-- The second advance, with the entry that the first one leaves. -/
theorem advanceStateOver_ml_reads (h0 : 0 ≤ (s.stateAdvanced .ll).bsPos) :
    (advanceStateOver .ml).Reads (s.stateAdvanced .ll) (s.currentEntry .ml).nb.toNat ()
      ((s.stateAdvanced .ll).stateAdvanced .ml) := by
  have h := advanceStateOver_reads .ml h0
  rwa [State.currentEntry_stateAdvanced _ (by decide)] at h

/-- The third advance, with the entry that the first two leave. -/
theorem advanceStateOver_of_reads (h0 : 0 ≤ ((s.stateAdvanced .ll).stateAdvanced .ml).bsPos) :
    (advanceStateOver .of).Reads ((s.stateAdvanced .ll).stateAdvanced .ml)
      (s.currentEntry .of).nb.toNat () s.statesAdvanced := by
  have h := advanceStateOver_reads .of h0
  rwa [State.currentEntry_stateAdvanced _ (by decide),
    State.currentEntry_stateAdvanced _ (by decide)] at h

variable {p : Nat} (hp : s.bsPos = p)
include hp

/-- With bits enough for the three advances, the states are the next ones. -/
theorem advanceStates_advanced {sLL sML sOF q : Nat} (h : SeqAdvance s p sLL sML sOF q) :
    advanceStates s = .ok () ((s.setBits { s.bits with pos := BitVec.ofNat 32 q }).setSlots
      { s.slots with
        ll := { s.slots.ll with state := BitVec.ofNat 32 sLL }
        of := { s.slots.of with state := BitVec.ofNat 32 sOF }
        ml := { s.slots.ml with state := BitVec.ofNat 32 sML } }) := by
  obtain ⟨_, _, _, rfl, rfl, rfl, hq, rfl, rfl, rfl⟩ := h
  have r1 := advanceStateOver_reads .ll (s := s) (by omega)
  have p1 : (s.stateAdvanced .ll).bsPos = (p - (s.currentEntry .ll).nb.toNat : Nat) :=
    r1.position.trans (by omega)
  have p2 : ((s.stateAdvanced .ll).stateAdvanced .ml).bsPos =
      (p - (s.currentEntry .ll).nb.toNat - (s.currentEntry .ml).nb.toNat : Nat) :=
    (advanceStateOver_ml_reads (by omega)).position.trans (by omega)
  obtain ⟨hrun, p3⟩ := r1.three_ok (f := fun _ => advanceStateOver .ml)
    (g := fun _ _ => advanceStateOver .of) advanceStateOver_ml_reads advanceStateOver_of_reads
    (by omega)
  have hll := s.currentEntry_stateAdvanced (sl := .ll) (sl' := .ml) (by decide)
  have hof := s.currentEntry_stateAdvanced (sl := .ll) (sl' := .of) (by decide)
  have hml := (s.stateAdvanced .ll).currentEntry_stateAdvanced (sl := .ml) (sl' := .of) (by decide)
  have hbits : s.statesAdvanced.bits = { s.bits with pos := BitVec.ofNat 32 q } := by
    rw [← pos_of_bsPos (p3.trans (by omega))]
    rfl
  refine Eq.trans hrun ?_
  rw [s.movesTo_statesAdvanced, hbits]
  simp only [State.stateAdvanced_slots, State.stateAdvanced_inByte, State.stateAdvanced_bits, hp,
    p1, p2, hll, hml, hof]
  rfl

/-- With too few, the advance that crosses the beginning faults there. -/
theorem advanceStates_overrun {x y z : Nat} (hx : (s.currentEntry .ll).nb.toNat = x)
    (hy : (s.currentEntry .ml).nb.toNat = y) (hz : (s.currentEntry .of).nb.toNat = z)
    (h : p < x + y + z) :
    ∃ t, s.MovesTo t ∧ advanceStates s = .error ⟨.bitstreamOverrun,
        if p < x then (p : Int) - x
        else if p < x + y then (p : Int) - x - y
        else (p : Int) - x - y - z⟩ t := by
  subst hx hy hz
  obtain ⟨t, ht, hrun⟩ := (advanceStateOver_reads .ll (s := s) (by omega)).three_overrun 
    (f := fun _ => advanceStateOver .ml)
    (g := fun _ _ => advanceStateOver .of) advanceStateOver_ml_reads advanceStateOver_of_reads
    (by omega)
  refine ⟨t, ?_, ?_⟩
  · obtain rfl | rfl | rfl := ht
    · rfl
    · exact (s.movesTo_stateAdvanced .ll).trans (State.movesTo_stateAdvanced _ .ml)
    · exact s.movesTo_statesAdvanced
  · rw [hp] at hrun
    exact_mod_cast hrun

end

end Sys2Proof.Machine

namespace Sys2Proof.Machine

/-! ### SEQ_NEXT (rule R246) -/

/-- The values of the codes that the current states stand for (rule R242). -/
def readSequence : Cmd (Nat × Nat × Nat) := do
  let s ← current
  readValues (2 ^ (s.currentEntry .of).sym.toNat, (s.currentEntry .of).sym.toNat)
    (s.params.mlCode (s.currentEntry .ml).sym.toNat)
    (s.params.llCode (s.currentEntry .ll).sym.toNat)

/-- The state with one sequence fewer left to decode. -/
def State.oneLess (s : State) : State :=
  s.setSeq { s.seq with left := BitVec.ofNat 32 (s.seq.left.toNat - 1) }

/-- What SEQ_NEXT does with the values it read: before the last sequence the states advance, after
the last the section closes. -/
def finishSequence (v ml ll : Nat) : Cmd Unit := do
  let s ← current
  if s.seq.left.toNat = 0 then do
    storeSequence v ml ll
    closeSequences
  else do
    advanceStates
    storeSequence v ml ll

theorem seqNextBody_eq_parts :
    seqNextBody = (stateCheck Status.cannotDecode >>= fun _ => readSequence >>= fun r =>
      update State.oneLess >>= fun _ => finishSequence r.1 r.2.1 r.2.2) := by
  simp only [seqNextBody, readSequence, readValues, finishSequence, bind_assoc, pure_bind]
  refine bind_congr fun _ => bind_congr fun s => bind_congr fun v => bind_congr fun ml =>
    bind_congr fun ll => bind_congr fun _ => bind_congr fun u => ?_
  by_cases h : u.seq.left.toNat = 0
  · simp [h]
  · simp [h, Nat.pos_of_ne_zero h]

theorem seqNextBody_cannotDecode {s : State}
    (h : s.status.seqActive = false ∨ s.status.seqValid = true) :
    seqNextBody s = .error (stateFault s) s := by
  have hc : s.status.cannotDecode = true := by rcases h with h | h <;> simp [Status.cannotDecode, h]
  rw [seqNextBody_eq_parts]
  exact run_bind_error ((run_stateCheck ..).trans (if_pos hc))

/-- In a section with no sequence waiting, SEQ_NEXT reads a sequence. -/
theorem seqNextBody_decodes {s : State} (ha : s.status.seqActive = true)
    (hv : s.status.seqValid = false) :
    seqNextBody s = (readSequence >>= fun r =>
      update State.oneLess >>= fun _ => finishSequence r.1 r.2.1 r.2.2) s := by
  have hc : ¬ s.status.cannotDecode = true := by simp [Status.cannotDecode, ha, hv]
  rw [seqNextBody_eq_parts]
  exact run_bind_ok ((run_stateCheck ..).trans (if_neg hc))

/-- A sequence that reads within the section is taken from it. -/
theorem readSequence_ok {s : State} {v ml ll p : Nat} (h : SeqRead s v ml ll p) :
    readSequence s = .ok (v, ml, ll) (s.setBsPos p) := by
  obtain ⟨n, m, l, mb, lb, rfl, hm, hl, hpos, rfl, rfl, rfl⟩ := h
  rw [readSequence, run_bind_ok (run_current s), ← hm, ← hl]
  exact readValues_ok hpos

theorem finishSequence_last {v ml ll : Nat} {s : State} (h : s.seq.left.toNat = 0) :
    finishSequence v ml ll s = (storeSequence v ml ll >>= fun _ => closeSequences) s := by
  rw [finishSequence, run_bind_ok (run_current s), if_pos h]

theorem finishSequence_more {v ml ll : Nat} {s : State} (h : s.seq.left.toNat ≠ 0) :
    finishSequence v ml ll s = (advanceStates >>= fun _ => storeSequence v ml ll) s := by
  rw [finishSequence, run_bind_ok (run_current s), if_neg h]

/-- The state with a decoded sequence waiting (rules R37, R246). -/
def State.sequenceStored (s : State) (v ml ll : Nat) (off : Word) (reps : Reps) : State :=
  ((s.setReps reps).setSeq
    { s.seq with ll := BitVec.ofNat 32 ll, ml := BitVec.ofNat 32 ml, ofv := BitVec.ofNat 32 v,
                 off := off }).setStatus { s.status with seqValid := true }

theorem storeSequence_resolved {v ml ll : Nat} {s : State} {off : Word} {reps : Reps}
    (h : resolveOffset v ll s.reps = .ok (off, reps)) :
    storeSequence v ml ll s = .ok () (s.sequenceStored v ml ll off reps) := by
  rw [storeSequence, run_bind_ok (run_current s), h]
  rfl

theorem storeSequence_error {v ml ll : Nat} {s : State} {r : Raise}
    (h : resolveOffset v ll s.reps = .error r) : storeSequence v ml ll s = .error r s := by
  rw [storeSequence, run_bind_ok (run_current s), h]
  rfl

theorem closeSequences_residue {s : State} (h : s.bsPos ≠ 0) :
    closeSequences s = .error ⟨.bitstreamResidue, s.bsPos⟩ s := by
  rw [closeSequences, run_bind_ok (run_current s)]
  exact run_bind_error (run_raiseIf_pos h ..)

theorem closeSequences_closed {s : State} (h : s.bsPos = 0) :
    closeSequences s =
      .ok () (s.setStatus { s.status with bsOpen := false, seqActive := false }).closeSection := by
  rw [closeSequences, run_bind_ok (run_current s), run_bind_ok (run_raiseIf_neg (not_not.2 h) ..)]
  rfl

/-- `SEQ_LEFT` with one sequence fewer left. -/
theorem left_oneLess (s : State) : s.oneLess.seq.left.toNat = s.seq.left.toNat - 1 := by
  have hlt := s.seq.left.isLt
  rw [State.oneLess, State.setSeq_seq, BitVec.toNat_ofNat, Nat.mod_eq_of_lt (by omega)]

theorem ofNat_toNat_sub_one {x : Word} (h : 1 ≤ x.toNat) :
    BitVec.ofNat 32 (x.toNat - 1) = x - 1 := by
  bv_omega

section

variable {s : State} {v ml ll p : Nat} (hread : SeqRead s v ml ll p)
include hread

/-- The position that the values leave fits `BS_POS`. -/
theorem bsPos_of_seqRead : (s.setBsPos p).oneLess.bsPos = p := by
  obtain ⟨n, m, l, -, -, -, -, -, hpos, -⟩ := hread
  have hlt := (bsPos_range s).2
  exact bsPos_setBsPos s p (by omega) (by omega)

variable (ha : s.status.seqActive = true) (hv : s.status.seqValid = false)
include ha hv

/-- SEQ_NEXT with a sequence that reads within the section. -/
theorem seqNextBody_read :
    seqNextBody s = finishSequence v ml ll (s.setBsPos p).oneLess := by
  rw [seqNextBody_decodes ha hv, run_bind_ok (readSequence_ok hread)]
  rfl

/-- The last sequence is stored and the section closed. -/
theorem seqNextBody_last (h : s.seq.left.toNat = 1) :
    seqNextBody s =
      (storeSequence v ml ll >>= fun _ => closeSequences) (s.setBsPos p).oneLess := by
  refine (seqNextBody_read hread ha hv).trans (finishSequence_last ?_)
  rw [left_oneLess]
  exact Nat.sub_eq_of_eq_add h

/-- Before the last sequence the states advance and the sequence is stored. -/
theorem seqNextBody_more (h : 2 ≤ s.seq.left.toNat) :
    seqNextBody s =
      (advanceStates >>= fun _ => storeSequence v ml ll) (s.setBsPos p).oneLess := by
  refine (seqNextBody_read hread ha hv).trans (finishSequence_more ?_)
  rw [left_oneLess]
  exact Nat.sub_ne_zero_of_lt h

end

/-- Settles O56: the last sequence by `seqNextBody_last`, those before it by `seqNextBody_more`, and
the states that their pieces leave. -/
theorem seqNextDecodesASequence : Obligations.SeqNextDecodesASequence := by
  refine ⟨illegalUnless_of_encodeFields fun i hop => ?_, Instr.encodedAs (i := .seqNext) rfl, ?_⟩
  · cases i with
    | seqNext => exact ⟨rfl, rfl, rfl, rfl⟩
    | _ => simp [encodeFields] at hop
  intro s v ml ll p off reps hs ha hv hread hres
  have hpos := bsPos_of_seqRead (s := begin s) hread
  have hstore := storeSequence_resolved (ml := ml) (s := ((begin s).setBsPos p).oneLess) hres
  have hlast (h1 : s.seq.left.toNat = 1) :=
    (seqNextBody_last (s := begin s) hread ha hv h1).trans (run_bind_ok hstore)
  refine ⟨fun h1 hp => ?_, fun h1 hp => ?_, fun h2 sLL sML sOF q hadv => ?_⟩
  · subst hp
    refine exec_eq_next (i := .seqNext) hs rfl ((hlast h1).trans (closeSequences_closed hpos)) ?_
    apply State.ext_parts
    case status => rw [← busy_cleared hs]; rfl
    case seq =>
      exact congrArg (fun n => SeqRegs.mk (BitVec.ofNat 32 (n - 1)) _ _ _ _) h1
    all_goals rfl
  · refine ⟨_, exec_of_error (i := .seqNext) hs rfl ((hlast h1).trans
      (closeSequences_residue (hpos.trans_ne (by omega)))), ?_, rfl, ?_, rfl, rfl, rfl⟩
    · rw [← busy_cleared hs]; rfl
    · exact (congrArg (BitVec.ofInt 32) hpos).trans (BitVec.ofInt_natCast ..)
  · have hmore := seqNextBody_more (s := begin s) hread ha hv h2
    refine exec_eq_next (i := .seqNext) hs rfl (hmore.trans
      ((run_bind_ok (advanceStates_advanced hpos hadv)).trans (storeSequence_resolved hres))) ?_
    apply State.ext_parts
    case status => rw [← busy_cleared hs]; rfl
    case seq => exact congrArg (SeqRegs.mk · _ _ _ _) (ofNat_toNat_sub_one (Nat.le_of_succ_le h2))
    all_goals rfl

/-- A code of the table has few extra bits (rule R242). -/
theorem codesOk_bits_le {codes : List (Nat × Nat)} {n lo hi c : Nat}
    (h : Params.codesOk codes n lo hi = true) (hc : c < codes.length) (outside : Nat × Nat) :
    ((codes[c]?).getD outside).2 ≤ hi := by
  have hall : Params.codesOk codes codes.length lo hi = true := by
    simp only [Params.codesOk, Bool.and_eq_true, decide_eq_true_eq] at h ⊢
    exact ⟨le_rfl, h.2⟩
  have hvalue := (Params.codesOk_get hall hc outside).2
  have hbits := Nat.lt_two_pow_self (n := ((codes[c]?).getD outside).2)
  omega

/-- With parameters that fit, a sequence that does not read within the section faults at the
position reached, and only that changes. -/
theorem readSequence_overrun {s : State} {n m l : Nat} (hwf : s.params.wf = true)
    (hmc : (s.currentEntry .ml).sym.toNat < s.params.mlCodes.length)
    (hlc : (s.currentEntry .ll).sym.toNat < s.params.llCodes.length)
    (hn : n = (s.currentEntry .of).sym.toNat)
    (hm : m = (s.params.mlCode (s.currentEntry .ml).sym.toNat).2)
    (hl : l = (s.params.llCode (s.currentEntry .ll).sym.toNat).2) (h0 : 0 ≤ s.bsPos)
    (h : s.bsPos < n + m + l) :
    ∃ q, readSequence s = .error ⟨.bitstreamOverrun,
      if s.bsPos < n then s.bsPos - n
      else if s.bsPos < n + m then s.bsPos - n - m
      else s.bsPos - n - m - l⟩ (s.setBsPos q) := by
  have hfits := Params.fits_of_wf hwf
  have bn := (s.currentEntry .of).sym.isLt
  have bm : (s.params.mlCode (s.currentEntry .ml).sym.toNat).2 ≤ _ :=
    codesOk_bits_le hfits.mlCodes hmc _
  have bl : (s.params.llCode (s.currentEntry .ll).sym.toNat).2 ≤ _ :=
    codesOk_bits_le hfits.llCodes hlc _
  subst hn hm hl
  rw [readSequence, run_bind_ok (run_current s)]
  exact readValues_overrun h0 (by omega) (by omega) (by omega) h

/-- Settles O57: each fault is that of the piece of SEQ_NEXT that raises it. -/
theorem seqNextFaultsInOrder : Obligations.SeqNextFaultsInOrder := by
  intro s n m l hs
  have fault {r : Raise} {t : State} (h : seqNextBody (begin s) = .error r t) :=
    exec_of_error (i := .seqNext) hs rfl h
  have hstatus : { (begin s).status with fault := true, busy := false } =
      { s.status with fault := true } := by
    rw [← busy_cleared hs]
    rfl
  refine ⟨fun hno => ?_, fun ha hv hleft hwf hmc hlc hn hm hl h0 => ⟨fun hover => ?_,
    fun v ml ll p hread => ?_⟩⟩
  · exact exec_latched (i := .seqNext) (r := stateFault (begin s)) hs rfl
      (seqNextBody_cannotDecode (s := begin s) hno)
  · obtain ⟨q, hq⟩ := readSequence_overrun (s := begin s) hwf hmc hlc hn hm hl h0 hover
    exact ⟨_, fault ((seqNextBody_decodes (s := begin s) ha hv).trans (run_bind_error hq)),
      hstatus, rfl, rfl, rfl, rfl, rfl, rfl⟩
  have hpos := bsPos_of_seqRead (s := begin s) hread
  have hmore := seqNextBody_more (s := begin s) hread ha hv
  refine ⟨fun x y z h2 hx hy hz hover => ?_, fun hres hadv => ?_⟩
  · obtain ⟨t, ht, hrun⟩ := advanceStates_overrun hpos hx.symm hy.symm hz.symm hover
    refine ⟨_, fault ((hmore h2).trans (run_bind_error hrun)), ?_, rfl, ?_, ?_, ?_, rfl⟩ <;> rw [ht]
    · exact hstatus
    iterate 2 rfl
    · exact congrArg (SeqRegs.mk · _ _ _ _) (ofNat_toNat_sub_one hleft)
  · by_cases h1 : s.seq.left.toNat = 1
    · exact ⟨_, fault ((seqNextBody_last (s := begin s) hread ha hv h1).trans
        (run_bind_error (storeSequence_error hres))), hstatus, rfl, rfl, rfl, rfl⟩
    · obtain ⟨sLL, sML, sOF, q, hadv⟩ := hadv.resolve_left h1
      exact ⟨_, fault ((hmore (lt_of_le_of_ne hleft (Ne.symm h1))).trans
        ((run_bind_ok (advanceStates_advanced hpos hadv)).trans (storeSequence_error hres))),
        hstatus, rfl, rfl, rfl, rfl⟩

end Sys2Proof.Machine

namespace Sys2Proof.Machine

/-! ### SEQ_RUN by hand (rule R252) -/

/-- What a piece ended with, and `c` in `CP`. -/
def resultWithCp {α : Type} (c : Word) :
    EStateM.Result Raise State α → EStateM.Result Raise State α
  | .ok a t => .ok a (t.setCp c)
  | .error r t => .error r (t.setCp c)

/-- The piece neither reads nor writes `CP`. -/
def Cmd.IgnoresCp {α : Type} (x : Cmd α) : Prop :=
  ∀ (s : State) (c : Word), x (s.setCp c) = resultWithCp c (x s)

namespace Cmd.IgnoresCp

variable {α β : Type}

theorem pure (a : α) : Cmd.IgnoresCp (pure a : Cmd α) := fun _ _ => rfl

theorem update {f : State → State} (h : ∀ s c, f (s.setCp c) = (f s).setCp c) :
    Cmd.IgnoresCp (update f) := fun s c => congrArg (EStateM.Result.ok ()) (h s c)

theorem lift (r : Except Raise α) : Cmd.IgnoresCp (lift r) := by
  intro s c
  cases r <;> rfl

theorem raiseIf (p : Prop) [Decidable p] (f : UnitFault) (info : Int) :
    Cmd.IgnoresCp (raiseIf p f info) := by
  intro s c
  rw [run_raiseIf, run_raiseIf]
  by_cases h : p
  · rw [if_pos h, if_pos h]
    rfl
  · rw [if_neg h, if_neg h]
    rfl

theorem bind {x : Cmd α} {f : α → Cmd β} (hx : Cmd.IgnoresCp x) (hf : ∀ a, Cmd.IgnoresCp (f a)) :
    Cmd.IgnoresCp (x >>= f) := by
  intro s c
  rw [run_bind, run_bind, hx s c]
  cases x s with
  | ok a t => exact hf a t c
  | error e t => rfl

/-- What follows a read of the state may use any part of it but `CP`. -/
theorem current {f : State → Cmd α} (hf : ∀ s, Cmd.IgnoresCp (f s))
    (hcp : ∀ s c, f (s.setCp c) = f s) : Cmd.IgnoresCp (current >>= f) := by
  intro s c
  rw [run_bind_ok (run_current _), run_bind_ok (run_current _), hcp]
  exact hf s s c

theorem ite {p : Prop} [Decidable p] {x y : Cmd α} (hx : Cmd.IgnoresCp x)
    (hy : Cmd.IgnoresCp y) : Cmd.IgnoresCp (if p then x else y) := by
  split <;> assumption

theorem stateCheck (p : Status → Bool) : Cmd.IgnoresCp (stateCheck p) :=
  current (fun _ => raiseIf _ _ _) fun _ _ => rfl

theorem overrun : Cmd.IgnoresCp overrun := current (fun _ => raiseIf _ _ _) fun _ _ => rfl

theorem winRoom (n : Nat) : Cmd.IgnoresCp (winRoom n) :=
  current (fun _ => raiseIf _ _ _) fun _ _ => rfl

theorem winAppend (v : List Byte) : Cmd.IgnoresCp (winAppend v) :=
  bind (winRoom _) fun _ => update fun _ _ => rfl

theorem litTake (n : Nat) : Cmd.IgnoresCp (litTake n) :=
  bind (current (fun _ => raiseIf _ _ _) fun _ _ => rfl) fun _ =>
    current (fun _ => bind (update fun _ _ => rfl) fun _ => pure _) fun _ _ => rfl

theorem wLitBody (n : Nat) : Cmd.IgnoresCp (wLitBody n) :=
  bind (current (fun _ => raiseIf _ _ _) fun _ _ => rfl) fun _ => bind (winRoom _) fun _ =>
    bind (litTake _) fun _ => winAppend _

theorem wLitrestBody : Cmd.IgnoresCp wLitrestBody :=
  current (fun _ => bind (winRoom _) fun _ => bind (litTake _) fun _ => winAppend _) fun _ _ => rfl

theorem wCopyBody (offset length : Nat) : Cmd.IgnoresCp (wCopyBody offset length) :=
  current (fun _ => bind (raiseIf _ _ _) fun _ => bind (winRoom _) fun _ => update fun _ _ => rfl)
    fun _ _ => rfl

theorem backRead (k : Nat) : Cmd.IgnoresCp (backRead k) :=
  bind overrun fun _ =>
    current (fun _ => bind (update fun _ _ => rfl) fun _ => pure _) fun _ _ => rfl

theorem readCode (code : Nat × Nat) : Cmd.IgnoresCp (readCode code) :=
  bind (bind (backRead _) fun _ => bind overrun fun _ => pure _) fun _ => pure _

theorem advanceStateOver (sl : Slot) : Cmd.IgnoresCp (advanceStateOver sl) :=
  bind (current (fun _ => bind (backRead _) fun _ => update fun _ _ => rfl) fun _ _ => rfl)
    fun _ => overrun

theorem storeSequence (v ml ll : Nat) : Cmd.IgnoresCp (storeSequence v ml ll) :=
  current (fun _ => bind (lift _) fun _ => bind (update fun _ _ => rfl) fun _ =>
    bind (update fun _ _ => rfl) fun _ => update fun _ _ => rfl) fun _ _ => rfl

theorem closeSequences : Cmd.IgnoresCp closeSequences :=
  current (fun _ => bind (raiseIf _ _ _) fun _ => update fun _ _ => rfl) fun _ _ => rfl

theorem readSequence : Cmd.IgnoresCp readSequence :=
  current (fun _ => bind (readCode _) fun _ => bind (readCode _) fun _ => bind (readCode _) fun _ =>
    pure _) fun _ _ => rfl

theorem finishSequence (v ml ll : Nat) : Cmd.IgnoresCp (finishSequence v ml ll) :=
  current (fun _ => ite (bind (storeSequence _ _ _) fun _ => closeSequences)
    (bind (bind (advanceStateOver _) fun _ => bind (advanceStateOver _) fun _ => advanceStateOver _)
      fun _ => storeSequence _ _ _)) fun _ _ => rfl

theorem seqNextBody : Cmd.IgnoresCp seqNextBody := by
  rw [seqNextBody_eq_parts]
  exact bind (stateCheck _) fun _ => bind readSequence fun _ =>
    bind (update fun _ _ => rfl) fun _ => finishSequence _ _ _

theorem seqExecBody : Cmd.IgnoresCp seqExecBody :=
  bind (stateCheck _) fun _ => bind (update fun _ _ => rfl) fun _ =>
    current (fun _ => bind (wLitBody _) fun _ => wCopyBody _ _) fun _ _ => rfl

end Cmd.IgnoresCp

/-- The pseudocode of a list of commands, one after the other, without the prologues and epilogues
between them. -/
def runBodies : List Instr → Cmd Unit
  | [] => pure ()
  | i :: is => do
    bodyOf i
    runBodies is

theorem runBodies_append (is js : List Instr) :
    runBodies (is ++ js) = runBodies is >>= fun _ => runBodies js := by
  induction is with
  | nil => rw [List.nil_append, runBodies, pure_bind]
  | cons i is ih => simp only [List.cons_append, runBodies, ih, bind_assoc]

theorem runBodies_singleton (i : Instr) : runBodies [i] = bodyOf i := by
  simp [runBodies]

theorem ignoresCp_runBodies {is : List Instr} (h : ∀ i ∈ is, Cmd.IgnoresCp (bodyOf i)) :
    Cmd.IgnoresCp (runBodies is) := by
  induction is with
  | nil => exact .pure _
  | cons i is ih =>
    obtain ⟨hi, his⟩ := List.forall_mem_cons.1 h
    exact .bind hi fun _ => ih his

/-- No command's pseudocode changes `BUSY` or `FAULT` (rules R121, R314). -/
theorem bodyOf_busy_fault {i : Instr} {s t : State} (h : bodyOf i s = .ok () t) :
    t.status.busy = s.status.busy ∧ t.status.fault = s.status.fault := by
  have hpath := (bodyOf_edits i).of_ok h
  exact ⟨hpath.fixes (g := fun s => s.status.busy) fun _ _ _ _ hm => by cases hm <;> rfl,
    hpath.untouched.fault⟩

/-- The state after the epilogue or fault entry (rules R121, R314). -/
def endOf : EStateM.Result Raise State Unit → State
  | .ok _ t => complete t
  | .error r t => faultEntry r t

theorem endOf_resultWithCp (c : Word) (r : EStateM.Result Raise State Unit) :
    (endOf (resultWithCp c r)).setCp (endOf r).cp = endOf r := by
  cases r <;> rfl

theorem exec_eq_endOf {i : Instr} {s : State} (h : s.Ready) (hw : i.wf = true) :
    exec i s = .next (endOf (bodyOf i (begin s))) := by
  rw [exec_ready h.1 h.2 hw]
  cases bodyOf i (begin s) <;> rfl

/-- The fault latch ignores every command of a list. -/
theorem runAll_exec_latched {s : State} (hb : s.status.busy = false) (hf : s.status.fault = true)
    (is : List Instr) : runAll exec is s = .next s := by
  induction is with
  | nil => rfl
  | cons i is ih =>
    rw [runAll, exec_ignored i hb hf]
    exact ih

/-- Between two commands of a list only `CP` moves (rule R121). -/
theorem begin_complete {s : State} (h : s.status.busy = true) :
    begin (complete s) = s.setCp (s.cp + 1) := by
  apply State.ext_parts
  case status =>
    cases hs : s.status
    simp_all
  all_goals rfl

/-- The commands of a list issued by hand end where their pseudocode run as one command ends, but
for `CP`. -/
theorem runAll_exec {is : List Instr} (his : ∀ i ∈ is, i.wf = true ∧ Cmd.IgnoresCp (bodyOf i))
    {s : State} (h : s.Ready) :
    ∃ (t : State) (c : Word), runAll exec is s = .next t ∧
      endOf (runBodies is (begin s)) = t.setCp c := by
  induction is generalizing s with
  | nil => exact ⟨s, s.cp + 1, rfl, complete_begin h⟩
  | cons i is ih =>
    obtain ⟨⟨hw, -⟩, his⟩ := List.forall_mem_cons.1 his
    rw [runAll, exec_eq_endOf h hw]
    cases hx : bodyOf i (begin s) with
    | error r u =>
      refine ⟨faultEntry r u, u.cp, runAll_exec_latched rfl rfl is, ?_⟩
      rw [runBodies, run_bind_error hx]
      rfl
    | ok _ u =>
      obtain ⟨hbusy, hfault⟩ := bodyOf_busy_fault hx
      obtain ⟨t, c, ht, hc⟩ := ih his (s := complete u) ⟨rfl, hfault.trans h.2⟩
      rw [begin_complete hbusy, ignoresCp_runBodies fun j hj => (his j hj).2] at hc
      have hend := endOf_resultWithCp (u.cp + 1) (runBodies is u)
      rw [hc] at hend
      refine ⟨t, (endOf (runBodies is u)).cp, ht, ?_⟩
      rw [runBodies, run_bind_ok hx]
      exact hend.symm

/-! ### The loop of SEQ_RUN (rule R252) -/

/-- The sequences of a section by hand: the waiting one is executed, the ones left are decoded and
executed one by one. -/
def sequencesByHand (s : State) : List Instr :=
  (if s.status.seqValid then [.seqExec] else []) ++
  (if s.status.seqActive then
    (List.replicate s.seq.left.toNat [Instr.seqNext, Instr.seqExec]).flatten
   else [])

theorem byHand_eq (s : State) : byHand s = sequencesByHand s ++ [.wLitrest] := rfl

theorem readEdits_status {s t : State} (h : Path readEdits s t) : t.status = s.status := by
  refine h.fixes (g := State.status) fun e he s t hm => ?_
  simp only [readEdits, List.mem_cons, List.not_mem_nil, or_false] at he
  rcases he with rfl | rfl | rfl | rfl <;> cases hm <;> rfl

theorem readSequence_edits : Cmd.Edits readEdits readSequence :=
  .bind .current fun _ => .bind (readCode_edits _) fun _ => .bind (readCode_edits _) fun _ =>
    .bind (readCode_edits _) fun _ => .pure _

theorem storeSequence_status {v ml ll : Nat} {s t : State} {u : Unit}
    (h : storeSequence v ml ll s = .ok u t) : t.status = { s.status with seqValid := true } := by
  simp only [storeSequence, bind_ok, current_done, lift_done, update_done] at h
  obtain ⟨_, _, ⟨rfl, rfl⟩, r, _, ⟨-, rfl⟩, _, _, rfl, _, _, rfl, rfl⟩ := h
  rfl

theorem finishSequence_done {v ml ll : Nat} {s t : State} {u : Unit}
    (h : finishSequence v ml ll s = .ok u t) :
    t.status.seqValid = true ∧ t.seq.left = s.seq.left ∧
      t.status.seqActive = (s.status.seqActive && decide (s.seq.left.toNat ≠ 0)) := by
  by_cases hleft : s.seq.left.toNat = 0
  · rw [finishSequence_last hleft, bind_ok] at h
    obtain ⟨_, t1, hstore, hclose⟩ := h
    simp only [closeSequences, bind_ok, current_done, raiseIf_passed, update_done] at hclose
    obtain ⟨_, _, ⟨rfl, rfl⟩, _, _, ⟨-, rfl⟩, rfl⟩ := hclose
    have hs := storeSequence_status hstore
    exact ⟨by simp [hs], (storeSequence_left hstore :), by simp [hleft]⟩
  · rw [finishSequence_more hleft, bind_ok] at h
    obtain ⟨_, t1, hadv, hstore⟩ := h
    have hpath := advanceStates_edits.of_ok hadv
    rw [storeSequence_status hstore, storeSequence_left hstore, readEdits_seq hpath,
      readEdits_status hpath]
    exact ⟨rfl, rfl, by simp [hleft]⟩

/-- What SEQ_NEXT leaves: a sequence waiting, one fewer left, and the section open unless it was the
last. -/
theorem seqNextBody_leaves {s t : State} {u : Unit} (h : seqNextBody s = .ok u t) :
    t.status.seqValid = true ∧ t.seq.left.toNat = s.seq.left.toNat - 1 ∧
      t.status.seqActive = decide (t.seq.left.toNat ≠ 0) := by
  simp only [seqNextBody_eq_parts, bind_ok, run_stateCheck, passed_ok, EStateM.Result.ok.injEq,
    update_done] at h
  obtain ⟨_, _, ⟨hdec, -, rfl⟩, r, s1, hread, _, _, rfl, hfinish⟩ := h
  have hpath := readSequence_edits.of_ok hread
  obtain ⟨hv, hleft, ha⟩ := finishSequence_done hfinish
  have hactive : s1.oneLess.status.seqActive = true := by
    change s1.status.seqActive = true
    rw [readEdits_status hpath]
    by_contra hx
    exact hdec (by simp [Status.cannotDecode, hx])
  refine ⟨hv, ?_, ?_⟩
  · rw [hleft, left_oneLess, readEdits_seq hpath]
  · rw [ha, hleft, hactive, Bool.true_and]

/-- The first half of a pass of the loop. -/
def executeWaiting : Cmd Unit := do
  let s ← current
  if s.status.seqValid then seqExecBody else pure ()

/-- The second half of a pass, with `rest` for the passes after it. -/
def decodeThen (rest : Cmd Unit) : Cmd Unit := do
  let s ← current
  if s.status.seqActive then do
    seqNextBody
    rest
  else pure ()

theorem seqLoop_succ (k : Nat) :
    seqLoop (k + 1) = executeWaiting >>= fun _ => decodeThen (seqLoop k) := by
  rw [seqLoop, executeWaiting, bind_assoc]
  refine bind_congr fun s => ?_
  split <;> rfl

theorem executeWaiting_eq (s : State) :
    executeWaiting s = runBodies (if s.status.seqValid then [.seqExec] else []) s := by
  rw [executeWaiting, run_bind_ok (run_current s)]
  split
  · rw [runBodies_singleton]
    rfl
  · rfl

/-- The first half of a pass leaves the section as it was. -/
theorem executeWaiting_done {s t : State} {u : Unit} (h : executeWaiting s = .ok u t) :
    t.status = { s.status with seqValid := false } ∧ t.seq = s.seq := by
  rw [executeWaiting, run_bind_ok (run_current s)] at h
  split at h
  · exact seqExecBody_done h
  · next hv =>
    cases h
    exact ⟨by cases hs : s.status; simp_all, rfl⟩

theorem decodeThen_active {rest : Cmd Unit} {s : State} (h : s.status.seqActive = true) :
    decodeThen rest s = (seqNextBody >>= fun _ => rest) s := by
  rw [decodeThen, run_bind_ok (run_current s), if_pos h]

theorem decodeThen_closed {rest : Cmd Unit} {s : State} (h : ¬ s.status.seqActive = true) :
    decodeThen rest s = .ok () s := by
  rw [decodeThen, run_bind_ok (run_current s), if_neg h]
  rfl

/-- The sequences by hand once one is decoded and `n` are left. -/
theorem sequencesByHand_decoded {w : State} {n : Nat} (hv : w.status.seqValid = true)
    (hleft : w.seq.left.toNat = n) (ha : w.status.seqActive = decide (n ≠ 0)) :
    sequencesByHand w =
      .seqExec :: (List.replicate n [Instr.seqNext, Instr.seqExec]).flatten := by
  rw [sequencesByHand, if_pos hv, ha, hleft]
  cases n <;> rfl

/-- A pass of the loop is the commands by hand, when the passes after it are. -/
theorem pass_eq_byHand {rest : Cmd Unit} {s : State}
    (hleft : s.status.seqActive = true → 1 ≤ s.seq.left.toNat)
    (hrest : s.status.seqActive = true → ∀ w : State,
      w.seq.left.toNat = s.seq.left.toNat - 1 →
      w.status.seqActive = decide (w.seq.left.toNat ≠ 0) →
      rest w = runBodies (sequencesByHand w) w) :
    (executeWaiting >>= fun _ => decodeThen rest) s = runBodies (sequencesByHand s) s := by
  have hwaiting := executeWaiting_eq s
  rw [sequencesByHand, runBodies_append]
  cases hx : executeWaiting s with
  | error r t => rw [run_bind_error hx, run_bind_error (hwaiting.symm.trans hx)]
  | ok _ t =>
    obtain ⟨hstatus, hseq⟩ := executeWaiting_done hx
    rw [run_bind_ok hx, run_bind_ok (hwaiting.symm.trans hx)]
    by_cases ha : s.status.seqActive = true
    · obtain ⟨n, hn⟩ := Nat.exists_eq_add_of_le' (hleft ha)
      rw [decodeThen_active (by rw [hstatus]; exact ha), if_pos ha, hn]
      change _ = (seqNextBody >>= fun _ => runBodies (.seqExec :: (List.replicate n _).flatten)) t
      cases hy : seqNextBody t with
      | error r w => rw [run_bind_error hy, run_bind_error hy]
      | ok _ w =>
        obtain ⟨hv, hw, hactive⟩ := seqNextBody_leaves hy
        rw [hseq] at hw
        rw [run_bind_ok hy, run_bind_ok hy, hrest ha w hw hactive,
          sequencesByHand_decoded hv rfl hactive, hw, hn, Nat.add_sub_cancel]
    · rw [decodeThen_closed (by rw [hstatus]; exact ha), if_neg ha]
      rfl

/-- The loop of SEQ_RUN, with passes for every sequence left and one more, is the sequences by
hand. -/
theorem seqLoop_eq_byHand (k : Nat) {s : State}
    (h : s.status.seqActive = true → 1 ≤ s.seq.left.toNat ∧ s.seq.left.toNat ≤ k) :
    seqLoop (k + 1) s = runBodies (sequencesByHand s) s := by
  induction k generalizing s with
  | zero =>
    rw [seqLoop_succ]
    refine pass_eq_byHand (fun ha => (h ha).1) fun ha => ?_
    obtain ⟨h1, h2⟩ := h ha
    omega
  | succ k ih =>
    rw [seqLoop_succ]
    refine pass_eq_byHand (fun ha => (h ha).1) fun ha w hw hactive => ih fun haw => ?_
    obtain ⟨h1, h2⟩ := h ha
    rw [hactive, decide_eq_true_eq] at haw
    omega

theorem seqRunBody_nothingToRun {s : State} (ha : s.status.seqActive = false)
    (hv : s.status.seqValid = false) : seqRunBody s = .error (stateFault s) s := by
  have hc : s.status.nothingToRun = true := by simp [Status.nothingToRun, ha, hv]
  exact run_bind_error ((run_stateCheck ..).trans (if_pos hc))

/-- SEQ_RUN is its commands by hand, as one pseudocode. -/
theorem seqRunBody_eq_byHand {s : State}
    (hrun : s.status.seqActive = true ∨ s.status.seqValid = true)
    (hleft : s.status.seqActive = true → 1 ≤ s.seq.left.toNat) :
    seqRunBody s = runBodies (byHand s) s := by
  have hc : ¬ s.status.nothingToRun = true := by
    rcases hrun with h | h <;> simp [Status.nothingToRun, h]
  have hloop := seqLoop_eq_byHand s.seq.left.toNat (s := s) fun ha => ⟨hleft ha, le_rfl⟩
  rw [seqRunBody, run_bind_ok ((run_stateCheck ..).trans (if_neg hc)), run_bind_ok (run_current s),
    byHand_eq, runBodies_append, runBodies_singleton, run_bind, run_bind, hloop]
  rfl

/-- The commands of SEQ_RUN by hand are legal and do not use `CP`. -/
theorem byHand_ignoresCp {s : State} :
    ∀ i ∈ byHand s, i.wf = true ∧ Cmd.IgnoresCp (bodyOf i) := by
  have hexec : Instr.seqExec.wf = true ∧ Cmd.IgnoresCp (bodyOf .seqExec) := ⟨rfl, .seqExecBody⟩
  have hnext : Instr.seqNext.wf = true ∧ Cmd.IgnoresCp (bodyOf .seqNext) := ⟨rfl, .seqNextBody⟩
  have hrest : Instr.wLitrest.wf = true ∧ Cmd.IgnoresCp (bodyOf .wLitrest) := ⟨rfl, .wLitrestBody⟩
  intro i hi
  simp only [byHand, List.mem_append, List.mem_ite_nil_right, List.mem_flatten, List.mem_replicate,
    List.mem_singleton] at hi
  rcases hi with (⟨-, rfl⟩ | ⟨-, _, ⟨-, rfl⟩, hi⟩) | rfl
  · exact hexec
  · rcases List.mem_pair.1 hi with rfl | rfl
    · exact hnext
    · exact hexec
  · exact hrest

/-- Settles O59: the two runs are one pseudocode (`seqRunBody_eq_byHand`), and between the commands
by hand only `CP` moves (`runAll_exec`). -/
theorem seqRunIsTheCommandsByHand : Obligations.SeqRunIsTheCommandsByHand := by
  refine ⟨illegalUnless_of_encodeFields fun i hop => ?_, Instr.encodedAs (i := .seqRun) rfl,
    fun s hs => ⟨fun ha hv => ?_, fun hrun hleft => ?_⟩⟩
  · cases i with
    | seqRun => exact ⟨rfl, rfl, rfl, rfl⟩
    | _ => simp [encodeFields] at hop
  · exact exec_latched (i := .seqRun) (r := stateFault (begin s)) hs rfl
      (seqRunBody_nothingToRun (s := begin s) ha hv)
  · obtain ⟨t, c, ht, hc⟩ := runAll_exec (byHand_ignoresCp (s := s)) hs
    have hexec : exec .seqRun s = .next (t.setCp c) := by
      rw [exec_eq_endOf (i := .seqRun) hs rfl, ← hc]
      exact congrArg (fun r => Host.Outcome.next (endOf r))
        (seqRunBody_eq_byHand (s := begin s) hrun hleft)
    obtain ⟨hdone, hfault⟩ := (ends_of_exec hs hexec).cp hs.2
    refine ⟨t, ht, hexec.trans (congrArg (fun c => Host.Outcome.next (t.setCp c)) ?_)⟩
    cases hf : t.status.fault with
    | true => exact hfault hf
    | false => exact hdone hf

end Sys2Proof.Machine

namespace Sys2Proof.Machine

/-! ### SEQ_RUN to the end of the literals (rules R252, R254) -/

/-- The loop of SEQ_RUN that completes, with passes for every sequence left and one more: the
section is closed, and what SEQ_EXEC and SEQ_NEXT keep holds. -/
theorem seqLoop_ends {P : State → Prop}
    (hexec : ∀ {u v : State}, P u → seqExecBody u = .ok () v → P v)
    (hnext : ∀ {u v : State}, P u → seqNextBody u = .ok () v → P v) {fuel : Nat} {s t : State}
    (hfuel : 1 ≤ fuel)
    (hleft : s.status.seqActive = true → 1 ≤ s.seq.left.toNat ∧ s.seq.left.toNat + 1 ≤ fuel)
    (hs : P s) (h : seqLoop fuel s = .ok () t) : P t ∧ t.status.seqActive = false := by
  induction fuel generalizing s with
  | zero => omega
  | succ fuel ih =>
    rw [seqLoop_succ, bind_ok] at h
    obtain ⟨_, u, hu, h⟩ := h
    obtain ⟨hstatus, hseq⟩ := executeWaiting_done hu
    have hPu : P u := by
      rw [executeWaiting, run_bind_ok (run_current s)] at hu
      split at hu
      · exact hexec hs hu
      · cases hu
        exact hs
    by_cases ha : u.status.seqActive = true
    · rw [decodeThen_active ha, bind_ok] at h
      obtain ⟨_, w, hw, h⟩ := h
      obtain ⟨-, hn, hactive⟩ := seqNextBody_leaves hw
      obtain ⟨h1, h2⟩ := hleft (by rwa [hstatus] at ha)
      refine ih (by omega) (fun haw => ?_) (hnext hPu hw) h
      rw [hactive, decide_eq_true_eq] at haw
      rw [hn, hseq] at haw ⊢
      omega
    · rw [decodeThen_closed ha] at h
      cases h
      exact ⟨hPu, by simpa using ha⟩

/-- A literals buffer of `len` bytes with the cursor within it (rule R30). -/
def LitsWithin (len : Word) (s : State) : Prop :=
  s.lits.len = len ∧ s.lits.pos.toNat ≤ len.toNat

theorem litsWithin_appendLits {len : Word} {s : State} {n : Nat} (h : LitsWithin len s)
    (hn : n ≤ s.lits.rest) : LitsWithin len (s.appendLits n) := by
  obtain ⟨rfl, hpos⟩ := h
  refine ⟨rfl, ?_⟩
  have hrest : s.lits.rest = s.lits.len.toNat - s.lits.pos.toNat := rfl
  calc (BitVec.ofNat 32 (s.lits.pos.toNat + n)).toNat ≤ s.lits.pos.toNat + n := by
        rw [BitVec.toNat_ofNat]
        exact Nat.mod_le _ _
    _ ≤ s.lits.len.toNat := by omega

theorem seqExecBody_litsWithin {len : Word} {s t : State} (h : LitsWithin len s)
    (hr : seqExecBody s = .ok () t) : LitsWithin len t := by
  simp only [seqExecBody, bind_ok, run_stateCheck, passed_ok, EStateM.Result.ok.injEq, current_done,
    update_done, run_wLitBody, run_wCopyBody] at hr
  obtain ⟨_, _, ⟨-, -, rfl⟩, _, _, rfl, _, _, ⟨rfl, rfl⟩, _, _, ⟨hn, -, -, rfl⟩, -, -, -, rfl⟩ := hr
  exact litsWithin_appendLits (s := s.sequenceTaken) h (Nat.not_lt.1 hn)

/-- SEQ_NEXT leaves the literals alone. -/
theorem seqNextBody_lits : Cmd.Fixes State.lits seqNextBody :=
  seqNextBody_edits.fixes fun e he s t hm => by
    simp only [Instr.edits, decodeEdits, readEdits, List.cons_append, List.nil_append,
      List.mem_cons, List.not_mem_nil, or_false] at he
    rcases he with rfl | rfl | rfl | rfl | rfl | rfl | rfl | rfl | rfl <;> cases hm <;> rfl

theorem seqNextBody_litsWithin {len : Word} {s t : State} (h : LitsWithin len s)
    (hr : seqNextBody s = .ok () t) : LitsWithin len t := by
  have hlits : t.lits = s.lits := Cmd.Keeps.of_ok seqNextBody_lits hr
  rwa [LitsWithin, hlits]

/-- W_LITREST consumes the literals buffer (rule R290). -/
theorem wLitrestBody_done {s t : State} (hpos : s.lits.pos.toNat ≤ s.lits.len.toNat)
    (h : wLitrestBody s = .ok () t) :
    t.lits = { s.lits with pos := s.lits.len } ∧ t.status = s.status := by
  rw [run_wLitrestBody, passed_ok, EStateM.Result.ok.injEq] at h
  obtain ⟨-, -, rfl⟩ := h
  refine ⟨?_, rfl⟩
  rw [State.setWindow_lits, State.setLits_lits, Literals.rest, Nat.add_sub_cancel' hpos,
    BitVec.ofNat_toNat, BitVec.setWidth_eq]

/-- SEQ_RUN completed has consumed the literals buffer and closed the section (rule R254). -/
theorem seqRunBody_ends {s t : State} (hpos : s.lits.pos.toNat ≤ s.lits.len.toNat)
    (hleft : s.status.seqActive = true → 1 ≤ s.seq.left.toNat) (h : seqRunBody s = .ok () t) :
    t.lits.pos = s.lits.len ∧ t.lits.len = s.lits.len ∧ t.status.seqActive = false := by
  simp only [seqRunBody, bind_ok, run_stateCheck, passed_ok, EStateM.Result.ok.injEq,
    current_done] at h
  obtain ⟨_, _, ⟨-, -, rfl⟩, _, _, ⟨rfl, rfl⟩, _, u, hloop, hrest⟩ := h
  obtain ⟨⟨hlen, hu⟩, ha⟩ := seqLoop_ends (P := LitsWithin s.lits.len) seqExecBody_litsWithin
    seqNextBody_litsWithin (Nat.le_add_left ..) (fun ha => ⟨hleft ha, le_rfl⟩) ⟨rfl, hpos⟩ hloop
  obtain ⟨hlits, hstatus⟩ := wLitrestBody_done (by rwa [hlen]) hrest
  rw [hlits, hstatus]
  exact ⟨hlen, hlen, ha⟩

/-- SEQ_RUN with the section closed and a sequence waiting: it is executed, and the literals left
are appended. -/
theorem seqRunBody_lastWaiting {s t : State} (ha : s.status.seqActive = false)
    (hv : s.status.seqValid = true) (hexec : seqExecBody s = .ok () t)
    (hroom : t.window.index.toNat + t.lits.rest ≤ t.window.capr.toNat) :
    seqRunBody s = .ok () (t.appendLits t.lits.rest) := by
  have hbyHand : byHand s = [.seqExec, .wLitrest] := by simp [byHand, ha, hv]
  rw [seqRunBody_eq_byHand (.inr hv) (by simp [ha]), hbyHand, runBodies, runBodies_singleton]
  exact (run_bind_ok hexec).trans (wLitrestBody_ok hroom)

/-- The write cursor after a sequence that fits. -/
theorem index_sequenceExecuted {s : State} {idx : Nat} (hidx : s.window.index.toNat = idx)
    (hroom : idx + s.seq.ll.toNat + s.seq.ml.toNat ≤ s.window.capr.toNat) :
    s.sequenceExecuted.window.index.toNat = idx + s.seq.ll.toNat + s.seq.ml.toNat := by
  have hlit : (s.sequenceTaken.appendLits s.seq.ll.toNat).window.index.toNat = _ :=
    index_appendLits hidx ((Nat.le_add_right _ _).trans hroom)
  exact index_after hlit hroom _

/-- The literals left after a sequence that takes some of them. -/
theorem pos_sequenceExecuted {s : State} (h : s.lits.pos.toNat + s.seq.ll.toNat < 2 ^ 32) :
    s.sequenceExecuted.lits.pos.toNat = s.lits.pos.toNat + s.seq.ll.toNat := by
  rw [← Nat.mod_eq_of_lt h, ← BitVec.toNat_ofNat]
  rfl

/-- SEQ_RUN with the last sequence waiting: the sequence, and the literals left. -/
theorem complete_appendRest {s : State} {rest : Nat} (h : s.Ready) (ha : s.status.seqActive = false)
    (ho : s.status.bsOpen = false)
    (hrest : (begin s).sequenceExecuted.lits.pos.toNat + rest = s.lits.len.toNat) :
    complete ((begin s).sequenceExecuted.appendLits rest) =
      { s.done with
        window := ((s.window.after s.seq.ll.toNat
              ((begin s).sequenceTaken.appendLits s.seq.ll.toNat).window.mem).after s.seq.ml.toNat
            (begin s).sequenceExecuted.window.mem).after rest
          ((begin s).sequenceExecuted.appendLits rest).window.mem
        lits := { s.lits with pos := s.lits.len }
        status := ⟨false, false, false, false, false⟩ } := by
  have hexec := complete_sequenceExecuted h
  apply State.ext_parts
  case status =>
    change (⟨false, s.status.fault, s.status.bsOpen, s.status.seqActive, false⟩ : Status) = _
    rw [h.2, ho, ha]
  case window =>
    refine (window_appendLits ..).trans (congrArg (Window.after · _ _) ?_)
    exact congrArg State.window hexec
  case lits =>
    refine (congrArg (fun n => Literals.mk (BitVec.ofNat 32 n) s.lits.len s.lits.mem)
      hrest).trans ?_
    rw [BitVec.ofNat_toNat, BitVec.setWidth_eq]
  all_goals rfl

/-- Settles O60: with the last sequence waiting by `seqRunBody_lastWaiting`, a SEQ_RUN that
completes by `seqRunBody_ends`. -/
theorem seqRunAppendsTheFinalLiterals : Obligations.SeqRunAppendsTheFinalLiterals := by
  rintro s ll ml off idx rest hs hpos hleft rfl rfl rfl hidx
  refine ⟨fun ha ho hv hlits h1 h2 hroom => ?_, fun t ht hf => ?_⟩
  · have hlen := s.lits.len.isLt
    have hlit : s.lits.pos.toNat + s.seq.ll.toNat < 2 ^ 32 := by omega
    have hp := pos_sequenceExecuted (s := begin s) hlit
    have hrest : (begin s).sequenceExecuted.lits.rest = rest := by
      rw [Literals.rest, hp]
      exact Nat.sub_eq_of_eq_add' hlits.symm
    have hroom1 : idx + s.seq.ll.toNat + s.seq.ml.toNat ≤ s.window.capr.toNat := by omega
    have hend := index_sequenceExecuted (s := begin s) hidx.symm hroom1
    have hmid := index_appendLits (s := (begin s).sequenceTaken) hidx.symm (n := s.seq.ll.toNat)
      ((Nat.le_add_right _ _).trans hroom1)
    have hexec := seqExecBody_executes (s := begin s) hv hidx.symm
      (Nat.le_sub_of_add_le' ((Nat.le_add_right _ _).trans hlits.le)) h1 h2 hroom1
    have hstores := stores_appendLits hend rest
    rw [hp] at hstores
    have hrun := seqRunBody_lastWaiting (s := begin s) ha hv hexec
      (by rw [hrest, hend]; exact hroom)
    rw [hrest] at hrun
    exact ⟨_, _, _, stores_appendLits (s := (begin s).sequenceTaken) hidx.symm s.seq.ll.toNat,
      stores_appendMatch hmid h1 h2 s.seq.ml.toNat, hstores,
      exec_eq_next (i := .seqRun) hs rfl hrun
        (complete_appendRest hs ha ho ((congrArg (· + rest) hp).trans hlits))⟩
  · rw [exec_eq_endOf (i := .seqRun) hs rfl, bodyOf] at ht
    cases hx : seqRunBody (begin s) with
    | error r u =>
      rw [hx] at ht
      cases ht
      cases hf
    | ok _ u =>
      rw [hx] at ht
      cases ht
      obtain ⟨hp, hlen, hactive⟩ := seqRunBody_ends (s := begin s) hpos hleft hx
      exact ⟨hp.trans hlen.symm, hlen, hactive, (seqRunBody_done (s := begin s) hleft hx :)⟩

end Sys2Proof.Machine

namespace Sys2Proof.Machine

/-! # The window (`45_window.md`) -/

/-! ### The history (rules R280, R294) -/

/-- The cursor has not fallen, and only locations between the two cursors have changed. -/
structure OnlyAppends (w w' : Window) : Prop where
  index_le : w.index.toNat ≤ w'.index.toNat
  outside : ∀ a, a < w.index.toNat ∨ w'.index.toNat ≤ a → w'.mem.lookup a = w.mem.lookup a

namespace OnlyAppends

theorem refl (w : Window) : OnlyAppends w w := ⟨Nat.le_refl _, fun _ _ => rfl⟩

theorem trans {w₁ w₂ w₃ : Window} (h : OnlyAppends w₁ w₂) (k : OnlyAppends w₂ w₃) :
    OnlyAppends w₁ w₃ := by
  refine ⟨h.index_le.trans k.index_le, fun a ha => ?_⟩
  have h1 := h.index_le
  have h2 := k.index_le
  rw [k.outside a (by omega), h.outside a (by omega)]

/-- Bytes stored at the cursor, with room for them. -/
theorem of_stores {w : Window} {m : Memory Byte} {n : Nat} {f : Nat → Byte}
    (hm : w.mem.Stores m w.index.toNat n f) (hroom : w.index.toNat + n ≤ w.capr.toNat) :
    OnlyAppends w (w.after n m) := by
  have hindex := index_after rfl hroom m
  refine ⟨hindex ▸ Nat.le_add_right _ _, fun a ha => ?_⟩
  rw [hindex] at ha
  exact (hm a).trans (if_neg (by omega))

end OnlyAppends

/-- Every assignment but those of FRAME_INIT keeps the history and the cursor, or appends. -/
theorem Edit.Makes.onlyAppends {e : Edit} {s t : State} (h : e.Makes s t) (he : e ≠ .frameInit) :
    OnlyAppends s.window t.window := by
  cases h with
  | frameInit => exact absurd rfl he
  | append _ v room =>
    have hv : ∀ k, k < v.length → v[k]? = some (v[k]?.getD 0) := fun k hk => by
      rw [List.getElem?_eq_getElem hk, Option.getD_some]
    exact .of_stores (stores_writeList _ _ v _ _ rfl hv) room
  | copy _ offset n valid room =>
    exact .of_stores (stores_appendMatch rfl valid.1 (valid.2.trans (Nat.min_le_left _ _)) n) room
  | _ => exact .refl _

theorem Ends.onlyAppends {es : List Edit} {s t : State} (h : Ends es s t)
    (hes : .frameInit ∉ es) : OnlyAppends s.window t.window := by
  cases h with
  | completed u path | faulted r u path =>
    exact path.keeps (R := fun s t => OnlyAppends s.window t.window) (fun _ => .refl _)
      (fun _ _ _ => .trans) fun e he _ _ hm => hm.onlyAppends (ne_of_mem_of_not_mem he hes)

/-- Only FRAME_INIT makes the assignments of FRAME_INIT. -/
theorem frameInit_notMem_edits {i : Instr} (h : ∀ c, i ≠ .frameInit c) : .frameInit ∉ i.edits := by
  cases i with
  | frameInit c => exact absurd rfl (h c)
  | _ => simp [Instr.edits, decodeEdits, readEdits, executeEdits]

/-- Settles O20: FRAME_INIT stores nothing in the window, and every other command only appends. -/
theorem windowHistoryIsNeverRewritten : Obligations.WindowHistoryIsNeverRewritten := by
  intro i s t h hr
  have he := ends_of_exec h hr
  have happ (hi : ∀ c, i ≠ .frameInit c) : OnlyAppends s.window t.window :=
    he.onlyAppends (frameInit_notMem_edits hi)
  refine ⟨fun a ha => ?_, fun hi => ⟨(happ hi).index_le, fun a ha => (happ hi).outside a (.inr ha)⟩⟩
  cases i with
  | frameInit c => exact congrArg (Memory.lookup · a) (he.mem_same (m := .win) (stores_win rfl))
  | _ => exact (happ nofun).outside a (.inl ha)

/-! ### Ranges of stores (rule R62) -/

namespace Memory.Stores

section

variable {α : Type} {m m' : Memory α} {a n : Nat} {f : Nat → α}

/-- The contents of the stored locations are all that matters. -/
theorem congr (h : m.Stores m' a n f) {g : Nat → α} (hfg : ∀ k, k < n → f k = g k) :
    m.Stores m' a n g := by
  intro b
  rw [h b]
  split
  · rw [hfg _ (by omega)]
  · rfl

/-- A range stored right behind another. -/
theorem append (h : m.Stores m' a n f) {m'' : Memory α} {p : Nat}
    (h' : m'.Stores m'' (a + n) p fun k => f (n + k)) : m.Stores m'' a (n + p) f := by
  intro b
  rw [h' b, h b]
  by_cases h1 : a ≤ b ∧ b < a + n
  · rw [if_neg (by omega), if_pos h1, if_pos (by omega)]
  by_cases h2 : a + n ≤ b ∧ b < a + n + p
  · rw [if_pos h2, if_pos (by omega)]
    exact congrArg (fun k => some (f k)) (by omega : n + (b - (a + n)) = b - a)
  · rw [if_neg h2, if_neg h1, if_neg (by omega)]

/-- Memories in canonical form with the same stores are the same data. -/
theorem unique (h : m.Stores m' a n f) {m'' : Memory α} (h' : m.Stores m'' a n f) (hw : m'.wf)
    (hw' : m''.wf) : m' = m'' :=
  ext_of_wf hw hw' fun b => (h b).trans (h' b).symm

theorem lookup_inside (h : m.Stores m' a n f) {k : Nat} (hk : k < n) :
    m'.lookup (a + k) = some (f k) := by
  rw [h, if_pos (by omega), Nat.add_sub_cancel_left]

end

section

variable {m m' : Memory Byte} {a n : Nat} {f : Nat → Byte} (h : m.Stores m' a n f)
  (free : Nat → Byte)
include h

theorem byte_inside {k : Nat} (hk : k < n) : m'.byte free (a + k) = f k := by
  rw [byte, h.lookup_inside hk, Option.getD_some]

theorem byte_below {b : Nat} (hb : b < a) : m'.byte free b = m.byte free b := by
  rw [byte, h b, if_neg (by omega), byte]

end

end Memory.Stores

/-! ### The three-case copy (rule R293) -/

theorem wf_copyForward (free : Nat → Byte) (n : Nat) {m : Memory Byte} (h : m.wf) (src dst : Nat) :
    (copyForward free n m src dst).wf := by
  induction n generalizing m src dst with
  | zero => exact h
  | succ n ih => exact ih (Memory.wf_write h ..) ..

theorem wf_copyDoubling (free : Nat → Byte) (idx length fuel done : Nat) {m : Memory Byte}
    (h : m.wf) : (copyDoubling free idx length fuel done m).wf := by
  induction fuel generalizing m done with
  | zero => exact h
  | succ fuel ih =>
    rw [copyDoubling]
    split
    · exact ih _ (Memory.wf_writeList h ..)
    · exact h

theorem wf_copyThreeCases (free : Nat → Byte) {m : Memory Byte} (h : m.wf)
    (idx offset length : Nat) : (copyThreeCases free m idx offset length).wf := by
  rw [copyThreeCases]
  split_ifs
  · exact Memory.wf_writeList h ..
  · exact Memory.wf_writeList h ..
  · exact wf_copyDoubling _ _ _ _ _ (Memory.wf_writeList h ..)

/-- A direct copy stores the range it reads. -/
theorem stores_copyRange (free : Nat → Byte) (m : Memory Byte) (src dst n : Nat) :
    m.Stores (copyRange free m src dst n) dst n (fun k => m.byte free (src + k)) :=
  stores_writeList _ _ _ _ _ (length_memRead ..) fun k hk => getElem?_memRead _ _ _ k hk

/-- The doubling loop behind `done` bytes of period `o`: a whole number of periods is copied behind
itself until `length` bytes are there. -/
theorem stores_copyDoubling {free : Nat → Byte} {idx length o : Nat} {m : Memory Byte}
    {f : Nat → Byte} (hf : ∀ k, f (k % o) = f k) (fuel : Nat) {done : Nat} {m' : Memory Byte}
    (hm : m.Stores m' idx done f) (hpos : 1 ≤ done) (hle : done ≤ length)
    (hperiods : done < length → o ∣ done) (hfuel : length ≤ done + fuel) :
    m.Stores (copyDoubling free idx length fuel done m') idx length f := by
  induction fuel generalizing done m' with
  | zero =>
    obtain rfl : done = length := by omega
    exact hm
  | succ fuel ih =>
    rw [copyDoubling]
    split
    case isFalse hdone =>
      obtain rfl : done = length := by omega
      exact hm
    case isTrue hdone =>
      obtain ⟨q, hq⟩ := hperiods hdone
      have hpass := (stores_copyRange free m' idx (idx + done) (min done (length - done))).congr
        (g := fun k => f (done + k)) fun k hk => by
          rw [hm.byte_inside free (by omega), ← hf (done + k), hq, Nat.mul_add_mod, hf]
      refine ih (hm.append hpass) (by omega) (by omega) (fun hmore => ?_) (by omega)
      rw [show done + min done (length - done) = done + done by omega]
      exact Nat.dvd_add ⟨q, hq⟩ ⟨q, hq⟩

/-- The three cases store the last `o` bytes before the cursor, repeated. -/
theorem stores_copyThreeCases (free : Nat → Byte) (m : Memory Byte) (src : Nat) {o : Nat}
    (ho : 1 ≤ o) (length : Nat) :
    m.Stores (copyThreeCases free m (src + o) o length) (src + o) length
      (fun k => m.byte free (src + k % o)) := by
  have hdirect := stores_copyRange free m src (src + o)
  have hless {k : Nat} (hk : k < o) : m.byte free (src + k) = m.byte free (src + k % o) := by
    rw [Nat.mod_eq_of_lt hk]
  rw [copyThreeCases, Nat.add_sub_cancel]
  split_ifs with hshort hone
  · exact (hdirect length).congr fun k hk => hless (hk.trans_le hshort)
  · subst hone
    exact stores_writeList _ _ _ _ _ List.length_replicate fun k hk => by
      rw [List.getElem?_replicate_of_lt hk, Nat.mod_one, Nat.add_zero]
  · exact stores_copyDoubling (fun k => by rw [Nat.mod_mod]) length
      ((hdirect o).congr fun k => hless) ho (by omega) (fun _ => Nat.dvd_refl o) (by omega)

/-- Settles O30: both store the last `offset` bytes of the history repeated, in canonical form. -/
theorem threeCaseCopyIsTheByteLoop : Obligations.ThreeCaseCopyIsTheByteLoop := by
  intro free m idx offset length hm h1 h2
  obtain ⟨src, rfl⟩ := Nat.exists_eq_add_of_le' h2
  rw [Nat.add_sub_cancel]
  exact (stores_copyThreeCases free m src h1 length).unique
    (stores_copyForward free length m src offset h1) (wf_copyThreeCases free hm ..)
    (wf_copyForward free length hm ..)

/-! ### W_RAW and W_RLE (rules R284, R286) -/

/-- The unit after bytes `v` are appended and `n` bytes of `IN` are consumed. -/
theorem complete_appendInput (v : List Byte) (n : Word) {s : State} (h : s.Ready) :
    complete (((begin s).setWindow (s.window.append v)).setRpos
        (s.reader.rpos.toNat + n.toNat)) =
      { s.done with
        window := s.window.after v.length (s.window.mem.writeList s.window.index.toNat v)
        reader := { s.reader with rpos := s.reader.rpos + n } } := by
  apply State.ext_parts
  case status => exact busy_cleared h
  case reader => simp [BitVec.ofNat_add]
  all_goals rfl

/-- A command that consumes `step` bytes of `IN` and appends `n` bytes to the window: its checks in
order, and the state it leaves. -/
theorem exec_appendInput {i : Instr} {n step : Word} {v : List Byte} {f : Nat → Byte} {s : State}
    (hs : s.Ready) (hw : i.wf = true) (hv : v.length = n.toNat)
    (hf : ∀ k, k < n.toNat → v[k]? = some (f k))
    (hrun : bodyOf i (begin s) =
      if isQuiet (begin s) then
        if s.reader.rpos.toNat + step.toNat > s.reader.len.toNat then
          .error ⟨.shortRead, s.reader.rpos.toNat⟩ (begin s)
        else if s.window.index.toNat + n.toNat > s.window.capr.toNat then
          .error ⟨.windowOverflow, n.toNat⟩ (begin s)
        else .ok () (((begin s).setWindow (s.window.append v)).setRpos
          (s.reader.rpos.toNat + step.toNat))
      else .error (stateFault (begin s)) (begin s)) :
    (s.Quiet → s.reader.rpos.toNat + step.toNat ≤ s.reader.len.toNat →
      s.window.index.toNat + n.toNat ≤ s.window.capr.toNat →
      ∃ m, s.window.mem.Stores m s.window.index.toNat n.toNat f ∧
        exec i s = .next { s.done with
          window := s.window.after n.toNat m
          reader := { s.reader with rpos := s.reader.rpos + step } }) ∧
    (¬ s.Quiet → exec i s = .next s.latchedState) ∧
    (s.Quiet → s.reader.rpos.toNat + step.toNat > s.reader.len.toNat →
      exec i s = .next (s.latched .shortRead s.reader.rpos.toNat)) ∧
    (s.Quiet → s.reader.rpos.toNat + step.toNat ≤ s.reader.len.toNat →
      s.window.index.toNat + n.toNat > s.window.capr.toNat →
      exec i s = .next (s.latched .windowOverflow n.toNat)) := by
  have latch {r : Raise} := exec_latched (i := i) (r := r) hs hw
  have hquiet (hq : s.Quiet) := hrun.trans (if_pos hq)
  have hread (hq : s.Quiet) (hlen : s.reader.rpos.toNat + step.toNat ≤ s.reader.len.toNat) :=
    (hquiet hq).trans (if_neg (Nat.not_lt.2 hlen))
  refine ⟨fun hq hlen hroom => ⟨_, stores_writeList _ _ v _ f hv hf, ?_⟩,
    fun hq => latch (hrun.trans (if_neg hq)), fun hq hlen => latch ((hquiet hq).trans (if_pos hlen)),
    fun hq hlen hroom => latch ((hread hq hlen).trans (if_pos hroom))⟩
  rw [← hv]
  exact exec_eq_next hs hw ((hread hq hlen).trans (if_neg (Nat.not_lt.2 hroom)))
    (complete_appendInput v step hs)

/-- Settles O36: the checks in their order by `run_wRawBody`, the outcomes by `exec_appendInput`. -/
theorem wRawAppendsInput : Obligations.WRawAppendsInput := by
  refine ⟨illegalUnless_of_encodeFields fun i hop => ?_, fun n =>
    ⟨Instr.encodedAs (i := .wRaw n) rfl, fun s hs =>
      exec_appendInput (i := .wRaw n) hs rfl (length_memRead _ _ _)
        (fun k hk => getElem?_memRead _ _ _ k hk) (run_wRawBody n (begin s))⟩⟩
  cases i with
  | wRaw n => exact ⟨rfl, rfl, rfl⟩
  | _ => simp [encodeFields] at hop

/-- Settles O37: the checks in their order by `run_wRleBody`, the outcomes by `exec_appendInput`. -/
theorem wRleAppendsARun : Obligations.WRleAppendsARun := by
  refine ⟨illegalUnless_of_encodeFields fun i hop => ?_, fun n =>
    ⟨Instr.encodedAs (i := .wRle n) rfl, fun s hs =>
      exec_appendInput (i := .wRle n) (step := 1) hs rfl List.length_replicate
        (fun k hk => List.getElem?_replicate_of_lt hk) (run_wRleBody n (begin s))⟩⟩
  cases i with
  | wRle n => exact ⟨rfl, rfl, rfl⟩
  | _ => simp [encodeFields] at hop

/-! ### W_LIT and W_LITREST (rules R288, R290) -/

/-- The unit after the next `n` literals are appended. -/
theorem complete_appendLits (n : Word) {s : State} (h : s.Ready) :
    complete ((begin s).appendLits n.toNat) =
      { s.done with
        window := s.window.after n.toNat ((begin s).appendLits n.toNat).window.mem
        lits := { s.lits with pos := s.lits.pos + n } } := by
  apply State.ext_parts
  case status => exact busy_cleared h
  case window => exact window_appendLits ..
  case lits => exact lits_appendLits (begin s) n
  all_goals rfl

/-- Settles O38: `wLitBody` by its checks in order, then the stores of `appendLits`. -/
theorem wLitAppendsLiterals : Obligations.WLitAppendsLiterals := by
  refine ⟨illegalUnless_of_encodeFields fun i hop => ?_, fun n =>
    ⟨Instr.encodedAs (i := .wLit n) rfl, fun s hs hlits => ?_⟩⟩
  · cases i with
    | wLit n => exact ⟨rfl, rfl, rfl⟩
    | _ => simp [encodeFields] at hop
  have hrest : (begin s).lits.rest = s.lits.len.toNat - s.lits.pos.toNat := rfl
  refine ⟨fun hn hroom => ⟨_, stores_appendLits (s := begin s) rfl n.toNat, ?_⟩, fun hn => ?_,
    fun hn hroom => ?_⟩
  · exact exec_eq_next (i := .wLit n) hs rfl (wLitBody_ok (by omega) hroom)
      (complete_appendLits n hs)
  · rw [exec_latched (i := .wLit n) hs rfl (wLitBody_underflow (by omega)), hrest,
      Int.ofNat_sub hlits]
  · exact exec_latched (i := .wLit n) hs rfl (wLitBody_overflow (by omega) hroom)

/-- Settles O39: W_LITREST is the appending of as many literals as are left. -/
theorem wLitrestAppendsTheRest : Obligations.WLitrestAppendsTheRest := by
  refine ⟨illegalUnless_of_encodeFields fun i hop => ?_, Instr.encodedAs (i := .wLitrest) rfl,
    fun s n hs hn => ?_⟩
  · cases i with
    | wLitrest => exact ⟨rfl, rfl, rfl, rfl⟩
    | _ => simp [encodeFields] at hop
  obtain rfl : n = (s.lits.len - s.lits.pos).toNat := by bv_omega
  have hrest : (begin s).lits.rest = (s.lits.len - s.lits.pos).toNat :=
    Nat.sub_eq_of_eq_add' hn.symm
  refine ⟨fun hroom => ⟨_, stores_appendLits (s := begin s) rfl _, ?_⟩, fun hroom => ?_⟩
  · have hrun := wLitrestBody_ok (s := begin s) (by rwa [hrest])
    rw [hrest] at hrun
    have hdone := complete_appendLits (s.lits.len - s.lits.pos) hs
    rw [add_sub_cancel] at hdone
    exact exec_eq_next (i := .wLitrest) hs rfl hrun hdone
  · have hrun := (run_wLitrestBody (begin s)).trans (if_pos (by rwa [hrest]))
    rw [hrest] at hrun
    exact exec_latched (i := .wLitrest) hs rfl hrun

/-! ### W_COPY (rule R292) -/

/-- The unit after a match is appended. -/
theorem complete_appendMatch (offset length : Nat) {s : State} (h : s.Ready) :
    complete ((begin s).appendMatch offset length) =
      { s.done with
        window := s.window.after length ((begin s).appendMatch offset length).window.mem } := by
  apply State.ext_parts
  case status => exact busy_cleared h
  all_goals rfl

/-- Where the last `o` bytes before `a` are stored repeated, each byte is the one `o` before it. -/
theorem Memory.Stores.lookup_periodic {m m' : Memory Byte} {free : Nat → Byte} {a n o : Nat}
    (h : m.Stores m' a n fun k => m.byte free (a - o + k % o)) (ho : o ≤ a) {k : Nat}
    (hk : k < n) : m'.lookup (a + k) = some (m'.byte free (a - o + k)) := by
  rw [h.lookup_inside hk]
  by_cases hfirst : k < o
  · rw [h.byte_below free (by omega), Nat.mod_eq_of_lt hfirst]
  · rw [show a - o + k = a + (k - o) by omega, h.byte_inside free (by omega),
      Nat.mod_eq_sub_mod (Nat.not_lt.1 hfirst)]

/-- Settles O40: `wCopyBody` by its checks in order, then the stores of `appendMatch`. -/
theorem wCopyRepeatsHistory : Obligations.WCopyRepeatsHistory := by
  refine ⟨illegalUnless_of_encodeFields fun i hop => ?_, fun offset length =>
    ⟨Instr.encodedAs (i := .wCopy offset length) rfl, fun s hs => ?_⟩⟩
  · cases i with
    | wCopy offset length => exact ⟨rfl, rfl⟩
    | _ => simp [encodeFields] at hop
  have latch {r : Raise} := exec_latched (i := .wCopy offset length) (r := r) hs rfl
  refine ⟨fun h1 h2 hroom => ?_, fun hout => latch (wCopyBody_outside hout),
    fun h1 h2 hroom => latch (wCopyBody_overflow h1 h2 hroom)⟩
  have hreach : offset.toNat ≤ s.window.index.toNat := h2.trans (Nat.min_le_left _ _)
  have hstores := stores_appendMatch (s := begin s) rfl h1 hreach length.toNat
  exact ⟨_, hstores, exec_eq_next (i := .wCopy offset length) hs rfl (wCopyBody_ok h1 h2 hroom)
    (complete_appendMatch _ _ hs), fun k hk => hstores.lookup_periodic hreach hk⟩

end Sys2Proof.Machine

namespace Sys2Proof.Machine

/-! # Faults (`60_exceptions.md`) -/

/-! ### The fault latch (rule R315) -/

/-- In a latched unit every move but reset leaves the registers of the fault record as they are. -/
theorem runMove_latched {m : HostMove} {s t : State} (hb : s.status.busy = false)
    (hf : s.status.fault = true) (hr : runMove m s = .next t) (hm : m ≠ .reset) :
    t.err = s.err ∧ t.errInfo = s.errInfo ∧ t.cp = s.cp ∧ t.status = s.status := by
  cases m with
  | command c =>
    obtain rfl : s = t := by simpa [runMove, presentWord_latched c hb hf] using hr
    exact ⟨rfl, rfl, rfl, rfl⟩
  | reset => exact absurd rfl hm
  | writeIn a b | readReg n | readMem sp a =>
    obtain ⟨a, b, -, -, rfl⟩ | ⟨x, rfl, -, -⟩ := runMove_quiet hr (fun _ => nofun) nofun <;>
    exact ⟨rfl, rfl, rfl, rfl⟩

/-- Settles O12: the prologue ignores what is presented, and the other ports write no register of
the record. -/
theorem faultLatchIgnoresCommands : Obligations.FaultLatchIgnoresCommands := by
  intro s hf hb
  refine ⟨fun i => exec_ignored i hb hf, fun c => presentWord_latched c hb hf, fun t hr hne => ?_⟩
  cases hm : s.host.moves with
  | nil =>
    obtain rfl : s = t := by simpa [step_idle hm] using hr
    exact ⟨rfl, rfl, rfl, rfl⟩
  | cons m rest =>
    rw [step_move hm] at hr
    exact runMove_latched (s := s.withMoves rest) hb hf hr (by simpa [hm] using hne)

/-! ### What a computation may raise (rule R310) -/

/-- Whatever `x` raises is a fault of `P`. -/
def ErrorsIn {α : Type} (P : UnitFault → Bool) (x : Except Raise α) : Prop :=
  ∀ e, x = .error e → P e.fault = true

namespace ErrorsIn

variable {α β : Type} {P : UnitFault → Bool}

theorem ok (a : α) : ErrorsIn P (.ok a) := nofun

theorem error {f : UnitFault} {info : Int} (h : P f = true) :
    ErrorsIn P (.error ⟨f, info⟩ : Except Raise α) := fun _ he => by
  cases he
  exact h

theorem ite {c : Prop} [Decidable c] {x y : Except Raise α} (hx : ErrorsIn P x)
    (hy : ErrorsIn P y) : ErrorsIn P (if c then x else y) := by
  split <;> assumption

theorem bind {x : Except Raise α} {f : α → Except Raise β} (hx : ErrorsIn P x)
    (hf : ∀ a, ErrorsIn P (f a)) : ErrorsIn P (x >>= f) := by
  cases x with
  | ok a => exact hf a
  | error e => exact fun _ he => hx _ (by cases he; rfl)

theorem appendZeros (h : P .tooManySymbols = true) (maxSym n : Nat) (probs : List Int) :
    ErrorsIn P (appendZeros maxSym n probs) := by
  induction n generalizing probs with
  | zero => exact .ok _
  | succ n ih => exact .ite (.error h) (ih _)

section

variable (hshort : P .shortRead = true)
include hshort

theorem fwdTake (fb fe fpos k : Nat) : ErrorsIn P (fwdTake fb fe fpos k) :=
  .ite (.error hshort) (.ok _)

theorem headerValue (byte : Nat → Byte) (fb fe remaining fpos : Nat) :
    ErrorsIn P (headerValue byte fb fe remaining fpos) :=
  .ite (.bind (.fwdTake hshort _ _ _ _) fun _ => .ok _)
    (.bind (.fwdTake hshort _ _ _ _) fun _ => .ok _)

variable (hsymbols : P .tooManySymbols = true)
include hsymbols

theorem zeroRun (byte : Nat → Byte) (fb fe maxSym fuel fpos : Nat) (probs : List Int) :
    ErrorsIn P (zeroRun byte fb fe maxSym fuel fpos probs) := by
  induction fuel generalizing fpos probs with
  | zero => exact .error hsymbols
  | succ fuel ih =>
    exact .bind (.fwdTake hshort _ _ _ _) fun _ => .bind (.appendZeros hsymbols _ _ _) fun _ =>
      .ite (ih _ _) (.ok _)

theorem headerLoop (byte : Nat → Byte) (fb fe maxSym fuel remaining fpos : Nat)
    (probs : List Int) : ErrorsIn P (headerLoop byte fb fe maxSym fuel remaining fpos probs) := by
  induction fuel generalizing remaining fpos probs with
  | zero => exact .error hsymbols
  | succ fuel ih =>
    refine .ite (.ok _) (.ite (.error hsymbols) (.bind (.headerValue hshort _ _ _ _ _) fun r => ?_))
    exact .ite (.bind (.zeroRun hshort hsymbols _ _ _ _ _ _ _) fun _ => ih _ _ _) (ih _ _ _)

theorem fseReadHeader (hlog : P .accuracyLogTooLarge = true) (p : Params) (byte : Nat → Byte)
    (sl : Slot) (fb fe : Nat) : ErrorsIn P (fseReadHeader p byte sl fb fe) :=
  .bind (.fwdTake hshort _ _ _ _) fun _ => .ite (.error hlog)
    (.bind (.headerLoop hshort hsymbols _ _ _ _ _ _ _ _) fun _ => .ok _)

end

theorem distRemaining (h : P .illegalOperand = true) (probs : List Int) (total : Int) :
    ErrorsIn P (distRemaining probs total) := by
  induction probs generalizing total with
  | nil => exact .ok _
  | cons q qs ih => exact .ite (.error h) (.ite (ih _) (ih _))

theorem checkDist (hoperand : P .illegalOperand = true) (hlog : P .accuracyLogTooLarge = true)
    (hsymbols : P .tooManySymbols = true) (hsum : P .sumMismatch = true) (p : Params) (sl : Slot)
    (al : Nat) (probs : List Int) : ErrorsIn P (checkDist p sl al probs) := by
  refine .ite (.error hoperand) (.ite (.error hlog) (.ite (.error hsymbols) ?_))
  have hrest := distRemaining hoperand probs ((2 ^ al : Nat) : Int)
  split
  next e he =>
    intro _ h
    cases h
    exact hrest _ he
  next => exact .ite (.error hsum) (.ok _)

theorem backStart (h : P .missingEndMark = true) (byte : Nat → Byte) (base n : Nat) :
    ErrorsIn P (backStart byte base n) :=
  .ite (.error h) (.ite (.error h) (.ok _))

section

variable (hweights : P .invalidHuffmanWeights = true)
include hweights

theorem weightTotal (limit : Nat) (w : List Nat) (total : Nat) :
    ErrorsIn P (weightTotal limit w total) := by
  induction w generalizing total with
  | nil => exact .ok _
  | cons x xs ih => exact .ite (.error hweights) (ih _)

theorem weightTable (limit : Nat) (w : List Nat) : ErrorsIn P (weightTable limit w) :=
  .ite (.error hweights) (.bind (.weightTotal hweights _ _ _) fun _ => .ite (.error hweights)
    (.ite (.error hweights) (.ite (.error hweights) (.ok _))))

theorem weightLoop (tab : Nat → FseEntry) (byte : Nat → Byte) (base fuel s1 s2 : Nat) (pos : Int)
    (w : List Nat) : ErrorsIn P (weightLoop tab byte base fuel s1 s2 pos w) := by
  induction fuel generalizing s1 s2 pos w with
  | zero => exact .error hweights
  | succ fuel ih => exact .ite (.error hweights) (.ite (.ok _) (.ite (.ok _) (ih _ _ _ _)))

theorem codedWeights (hmark : P .missingEndMark = true) (hover : P .bitstreamOverrun = true)
    (tab : Nat → FseEntry) (byte : Nat → Byte) (al base n : Nat) :
    ErrorsIn P (codedWeights tab byte al base n) :=
  .bind (.backStart hmark _ _ _) fun _ => .ite (.error hover) (.weightLoop hweights _ _ _ _ _ _ _ _)

end

theorem resolveOffset (h : P .copyOutOfBounds = true) (v ll : Nat) (reps : Reps) :
    ErrorsIn P (resolveOffset v ll reps) := by
  refine .ite (.ok _) ?_
  unfold resolveRepeat
  split
  · exact .ok _
  · exact .ok _
  · exact .ok _
  · exact .ite (.error h) (.ok _)

end ErrorsIn

/-! ### What a piece of a command may raise (rule R310) -/

/-- From a unit with the parameters `p`, whatever `x` raises is a fault of `P`, and where it
completes the parameters are still `p`. -/
def Cmd.RaisesIn {α : Type} (p : Params) (P : UnitFault → Bool) (x : Cmd α) : Prop :=
  ∀ s, s.params = p →
    match x s with
    | .ok _ t => t.params = p
    | .error r _ => P r.fault = true

namespace Cmd.RaisesIn

variable {α β : Type} {p : Params} {P : UnitFault → Bool}

theorem of_error {x : Cmd α} (hx : Cmd.RaisesIn p P x) {s t : State} {r : Raise}
    (hs : s.params = p) (h : x s = .error r t) : P r.fault = true := by
  have := hx s hs
  rwa [h] at this

theorem pure (a : α) : Cmd.RaisesIn p P (pure a : Cmd α) := fun _ hs => hs

theorem current : Cmd.RaisesIn p P current := fun _ hs => hs

theorem update {f : State → State} (h : ∀ s, (f s).params = s.params) :
    Cmd.RaisesIn p P (update f) := fun s hs => (h s).trans hs

theorem raiseIf {c : Prop} [Decidable c] {f : UnitFault} {info : Int} (h : P f = true := by rfl) :
    Cmd.RaisesIn p P (raiseIf c f info) := fun s hs => by
  by_cases hc : c
  · rw [run_raiseIf_pos hc]
    exact h
  · rw [run_raiseIf_neg hc]
    exact hs

theorem lift {x : Except Raise α} (h : ErrorsIn P x) : Cmd.RaisesIn p P (lift x) := fun s hs => by
  cases x with
  | ok a => exact hs
  | error e => exact h e rfl

theorem bind {x : Cmd α} {f : α → Cmd β} (hx : Cmd.RaisesIn p P x)
    (hf : ∀ a, Cmd.RaisesIn p P (f a)) : Cmd.RaisesIn p P (x >>= f) := fun s hs => by
  have hxs := hx s hs
  rw [run_bind]
  cases hrun : x s with
  | ok a t =>
    rw [hrun] at hxs
    exact hf a t hxs
  | error e t =>
    rw [hrun] at hxs
    exact hxs

/-- A piece that reads the state reads the parameters `p` in it. -/
theorem bind_current {f : State → Cmd α} (hf : ∀ s, s.params = p → Cmd.RaisesIn p P (f s)) :
    Cmd.RaisesIn p P (Machine.current >>= f) := fun s hs => hf s hs s hs

theorem ite {c : Prop} [Decidable c] {x y : Cmd α} (hx : Cmd.RaisesIn p P x)
    (hy : Cmd.RaisesIn p P y) : Cmd.RaisesIn p P (if c then x else y) := by
  split <;> assumption

/-! The shared checks, each with its one fault. -/

theorem check {c : State → Prop} [∀ s, Decidable (c s)] {f : UnitFault} {info : State → Int}
    (h : P f = true) :
    Cmd.RaisesIn p P (do let s ← Machine.current; Machine.raiseIf (c s) f (info s)) :=
  bind current fun _ => raiseIf h

theorem stateCheck {c : Status → Bool} (h : P .illegalState = true := by rfl) :
    Cmd.RaisesIn p P (stateCheck c) := check h

theorem quiet (h : P .illegalState = true := by rfl) : Cmd.RaisesIn p P quiet := stateCheck h

theorem primitiveOpen (h : P .illegalState = true := by rfl) : Cmd.RaisesIn p P primitiveOpen :=
  stateCheck h

theorem stateReady {sl : Slot} (h : P .illegalState = true := by rfl) :
    Cmd.RaisesIn p P (stateReady sl) := check h

theorem tableValid {sl : Slot} (h : P .missingTable = true := by rfl) :
    Cmd.RaisesIn p P (tableValid sl) := check h

theorem need {n : Nat} (h : P .shortRead = true := by rfl) : Cmd.RaisesIn p P (need n) := check h

theorem winRoom {n : Nat} (h : P .windowOverflow = true := by rfl) :
    Cmd.RaisesIn p P (winRoom n) := check h

theorem litAvailable {n : Nat} (h : P .literalsUnderflow = true := by rfl) :
    Cmd.RaisesIn p P (litAvailable n) := check h

theorem overrun (h : P .bitstreamOverrun = true := by rfl) : Cmd.RaisesIn p P overrun := check h

/-! The Reader, the window and the literals buffer. -/

theorem skip {n : Nat} : Cmd.RaisesIn p P (skip n) := update fun _ => rfl

theorem readLE {n : Nat} (h : P .shortRead = true := by rfl) : Cmd.RaisesIn p P (readLE n) :=
  bind (need h) fun _ => bind current fun _ => bind skip fun _ => pure _

theorem readU8 (h : P .shortRead = true := by rfl) : Cmd.RaisesIn p P readU8 :=
  bind (need h) fun _ => bind current fun _ => bind skip fun _ => pure _

theorem readProbs {n : Nat} (h : P .shortRead = true := by rfl) :
    Cmd.RaisesIn p P (readProbs n) := by
  induction n with
  | zero => exact pure _
  | succ n ih => exact bind (bind (readLE h) fun _ => pure _) fun _ => bind ih fun _ => pure _

theorem winAppend {v : List Byte} (h : P .windowOverflow = true := by rfl) :
    Cmd.RaisesIn p P (winAppend v) := bind (winRoom h) fun _ => update fun _ => rfl

theorem litTake {n : Nat} (h : P .literalsUnderflow = true := by rfl) :
    Cmd.RaisesIn p P (litTake n) :=
  bind (litAvailable h) fun _ => bind current fun _ => bind (update fun _ => rfl) fun _ => pure _

theorem wLitBody {n : Nat} (hlits : P .literalsUnderflow = true := by rfl)
    (hroom : P .windowOverflow = true := by rfl) : Cmd.RaisesIn p P (wLitBody n) :=
  bind (litAvailable hlits) fun _ => bind (winRoom hroom) fun _ => bind (litTake hlits) fun _ =>
    winAppend hroom

/-- W_LITREST takes what there is, so that nothing can be missing. -/
theorem wLitrestBody (h : P .windowOverflow = true := by rfl) :
    Cmd.RaisesIn p P wLitrestBody := fun s hs => by
  rw [run_wLitrestBody]
  by_cases hroom : s.window.index.toNat + s.lits.rest > s.window.capr.toNat
  · rw [if_pos hroom]
    exact h
  · rw [if_neg hroom]
    exact hs

theorem wCopyBody {offset length : Nat} (hcopy : P .copyOutOfBounds = true := by rfl)
    (hroom : P .windowOverflow = true := by rfl) : Cmd.RaisesIn p P (wCopyBody offset length) :=
  bind current fun _ => bind (raiseIf hcopy) fun _ => bind (winRoom hroom) fun _ =>
    update fun _ => rfl

/-! The backward bitstream. -/

theorem backRead {k : Nat} (h : P .bitstreamOverrun = true := by rfl) :
    Cmd.RaisesIn p P (backRead k) :=
  bind (overrun h) fun _ => bind current fun _ => bind (update fun _ => rfl) fun _ => pure _

theorem initState {sl : Slot} (h : P .bitstreamOverrun = true := by rfl) :
    Cmd.RaisesIn p P (initState sl) :=
  bind current fun _ => bind (backRead h) fun _ => update fun _ => rfl

theorem initStateOver {sl : Slot} (h : P .bitstreamOverrun = true := by rfl) :
    Cmd.RaisesIn p P (initStateOver sl) := bind (initState h) fun _ => overrun h

theorem advanceState {sl : Slot} (h : P .bitstreamOverrun = true := by rfl) :
    Cmd.RaisesIn p P (advanceState sl) :=
  bind current fun _ => bind (backRead h) fun _ => update fun _ => rfl

theorem openSection {n : Word} (hshort : P .shortRead = true := by rfl)
    (hmark : P .missingEndMark = true := by rfl) : Cmd.RaisesIn p P (openSection n) :=
  bind (need hshort) fun _ => bind current fun _ => bind (lift (.backStart hmark _ _ _)) fun _ =>
    update fun _ => rfl

/-! Tables. -/

theorem fseFromDist {sl : Slot} {al : Nat} {probs : List Int}
    (h : ErrorsIn P (checkDist p sl al probs)) : Cmd.RaisesIn p P (fseFromDist sl al probs) :=
  bind_current fun _ hs => bind (lift (hs ▸ h)) fun _ => update fun _ => rfl

/-- A distribution that passes the checks builds its table without a fault. -/
theorem fseFromDist_passes {sl : Slot} {al : Nat} {probs : List Int}
    (h : checkDist p sl al probs = .ok ()) : Cmd.RaisesIn p P (Machine.fseFromDist sl al probs) :=
  fseFromDist (h ▸ .ok _)

/-- What follows a header that was read has a distribution that passes the checks (O27). -/
theorem bind_readHeader {sl : Slot} {fin : Nat} {f : Header → Cmd α} (hwf : p.wf = true)
    (hf : ∀ h, checkDist p sl h.al h.probs = .ok () → Cmd.RaisesIn p P (f h))
    (hshort : P .shortRead = true := by rfl) (hsymbols : P .tooManySymbols = true := by rfl)
    (hlog : P .accuracyLogTooLarge = true := by rfl) :
    Cmd.RaisesIn p P (readHeader sl fin >>= f) := fun s hs => by
  have herrors := ErrorsIn.fseReadHeader hshort hsymbols hlog s.params s.inByte sl
    s.reader.rpos.toNat fin
  rw [run_bind, run_readHeader]
  cases hh : Machine.fseReadHeader s.params s.inByte sl s.reader.rpos.toNat fin with
  | error e => exact herrors e hh
  | ok h =>
    obtain ⟨-, -, -, -, -, -, -, -, hcheck⟩ :=
      headerIsANormalizedDistribution _ _ _ _ _ _ (hs ▸ hwf) hh
    exact hf h (hs ▸ hcheck) _ hs

theorem hufFromWeights {w : List Nat} (h : P .invalidHuffmanWeights = true := by rfl) :
    Cmd.RaisesIn p P (hufFromWeights w) :=
  bind current fun _ => bind (lift (.weightTable h _ _)) fun _ => update fun _ => rfl

/-! Huffman literals. -/

theorem hufStream {base n count dst : Nat} (hmark : P .missingEndMark = true := by rfl)
    (hover : P .bitstreamOverrun = true := by rfl)
    (hresidue : P .bitstreamResidue = true := by rfl) :
    Cmd.RaisesIn p P (hufStream base n count dst) :=
  bind current fun _ => bind (lift (.backStart hmark _ _ _)) fun _ =>
    bind (update fun _ => rfl) fun _ => bind (raiseIf hover) fun _ => raiseIf hresidue

end Cmd.RaisesIn

theorem litHuf_hufTree_raisesIn {p : Params} (hwf : p.wf = true) (streams : Streams)
    (regen comp : Word) (fin : Nat) :
    Cmd.RaisesIn p (Instr.litHuf streams regen comp).mayRaise (hufTree fin) := by
  have hdirect (n : Nat) :
      Cmd.RaisesIn p (Instr.litHuf streams regen comp).mayRaise (directWeights fin n) :=
    .bind .current fun _ => .bind .raiseIf fun _ => .bind .skip fun _ => .pure _
  have hcoded (hb : Nat) :
      Cmd.RaisesIn p (Instr.litHuf streams regen comp).mayRaise (fseWeights fin hb) :=
    .bind .raiseIf fun _ => .bind .current fun _ => .bind .raiseIf fun _ =>
      .bind_readHeader hwf fun _ hcheck => .bind (.fseFromDist_passes hcheck) fun _ =>
        .bind .current fun _ => .bind (.lift (.codedWeights rfl rfl rfl _ _ _ _ _)) fun _ =>
          .bind (.update fun _ => rfl) fun _ => .pure _
  exact .bind .current fun _ => .bind .raiseIf fun _ => .bind .skip fun _ =>
    .ite (.bind (hdirect _) fun _ => .hufFromWeights) (.bind (hcoded _) fun _ => .hufFromWeights)

/-- A Huffman literals command raises what its source of the table may, and what the streams may. -/
theorem litHufBody_raisesIn {p : Params} {i : Instr} {streams : Streams} {regen comp : Word}
    {fresh : Bool} (hsource : ∀ fin, Cmd.RaisesIn p i.mayRaise (hufSource fresh fin))
    (hi : [.illegalState, .literalsOverflow, .shortRead, .missingEndMark, .bitstreamOverrun,
      .bitstreamResidue].all i.mayRaise = true := by rfl) :
    Cmd.RaisesIn p i.mayRaise (litHufBody streams regen comp fresh) := by
  simp only [List.all_cons, Bool.and_eq_true] at hi
  obtain ⟨hstate, hroom, hshort, hmark, hover, hresidue, -⟩ := hi
  have hstream {base n count dst : Nat} :
      Cmd.RaisesIn p i.mayRaise (hufStream base n count dst) := .hufStream hmark hover hresidue
  have hstreams (fin : Nat) : Cmd.RaisesIn p i.mayRaise (hufStreams streams fin regen.toNat) := by
    cases streams with
    | one => exact .bind .current fun _ => hstream
    | four =>
      exact .bind .current fun _ => .bind (.raiseIf hshort) fun _ =>
        .bind (.raiseIf hshort) fun _ => .bind (.raiseIf hroom) fun _ => .bind hstream fun _ =>
          .bind hstream fun _ => .bind hstream fun _ => hstream
  exact .bind (.quiet hstate) fun _ => .bind .current fun _ => .bind (.raiseIf hroom) fun _ =>
    .bind (.need hshort) fun _ => .bind (hsource _) fun _ => .bind (hstreams _) fun _ =>
      .update fun _ => rfl

/-! ### Sequences -/

theorem seqNextBody_raisesIn {p : Params} {P : UnitFault → Bool}
    (hstate : P .illegalState = true := by rfl) (hover : P .bitstreamOverrun = true := by rfl)
    (hcopy : P .copyOutOfBounds = true := by rfl)
    (hresidue : P .bitstreamResidue = true := by rfl) : Cmd.RaisesIn p P seqNextBody := by
  have hread (code : Nat × Nat) : Cmd.RaisesIn p P (readCode code) :=
    .bind (.bind (.backRead hover) fun _ => .bind (.overrun hover) fun _ => .pure _) fun _ =>
      .pure _
  have hadvance (sl : Slot) : Cmd.RaisesIn p P (advanceStateOver sl) :=
    .bind (.advanceState hover) fun _ => .overrun hover
  have hadvances : Cmd.RaisesIn p P advanceStates :=
    .bind (hadvance _) fun _ => .bind (hadvance _) fun _ => hadvance _
  have hstore (v ml ll : Nat) : Cmd.RaisesIn p P (storeSequence v ml ll) :=
    .bind .current fun _ => .bind (.lift (.resolveOffset hcopy _ _ _)) fun _ =>
      .bind (.update fun _ => rfl) fun _ => .bind (.update fun _ => rfl) fun _ =>
        .update fun _ => rfl
  have hclose : Cmd.RaisesIn p P closeSequences :=
    .bind .current fun _ => .bind (.raiseIf hresidue) fun _ => .update fun _ => rfl
  refine .bind (.stateCheck hstate) fun _ => .bind .current fun _ => .bind (hread _) fun _ =>
    .bind (hread _) fun _ => .bind (hread _) fun _ => .bind (.update fun _ => rfl) fun _ =>
      .bind .current fun _ => .ite (.bind hadvances fun _ => ?_) ?_ <;>
  exact .bind (hstore _ _ _) fun _ => .ite hclose (.pure _)

theorem seqExecBody_raisesIn {p : Params} {P : UnitFault → Bool}
    (hstate : P .illegalState = true := by rfl) (hlits : P .literalsUnderflow = true := by rfl)
    (hcopy : P .copyOutOfBounds = true := by rfl) (hroom : P .windowOverflow = true := by rfl) :
    Cmd.RaisesIn p P seqExecBody :=
  .bind (.stateCheck hstate) fun _ => .bind (.update fun _ => rfl) fun _ => .bind .current fun _ =>
    .bind (.wLitBody hlits hroom) fun _ => .wCopyBody hcopy hroom

theorem seqLoop_raisesIn {p : Params} (fuel : Nat) :
    Cmd.RaisesIn p Instr.seqRun.mayRaise (seqLoop fuel) := by
  induction fuel with
  | zero => exact .pure _
  | succ fuel ih =>
    refine .bind .current fun _ => .ite (.bind seqExecBody_raisesIn fun _ => ?_) ?_ <;>
    exact .bind .current fun _ => .ite (.bind seqNextBody_raisesIn fun _ => ih) (.pure _)

/-! ### Every command -/

/-- Every raise of a command's rule is one that the table of rule R310 lists for it. -/
theorem bodyOf_raisesIn (i : Instr) {p : Params} (hwf : p.wf = true) :
    Cmd.RaisesIn p i.mayRaise (bodyOf i) := by
  cases i with
  | nop => exact .pure _
  | frameInit c =>
    exact .bind .current fun _ => .bind .raiseIf fun _ => .update fun _ => rfl
  | rdOpen rpos len =>
    exact .bind .quiet fun _ => .bind .current fun _ => .bind .raiseIf fun _ =>
      .bind .raiseIf fun _ => .update fun _ => rfl
  | frameEnd hasSize lo hi => exact .bind .quiet fun _ => .bind .current fun _ => .raiseIf
  | wRaw n =>
    exact .bind .quiet fun _ => .bind .need fun _ => .bind .winRoom fun _ => .bind .current fun _ =>
      .bind .winAppend fun _ => .skip
  | wRle n =>
    exact .bind .quiet fun _ => .bind .need fun _ => .bind .winRoom fun _ => .bind .readU8 fun _ =>
      .winAppend
  | wLit n => exact .wLitBody
  | wLitrest => exact .wLitrestBody
  | wCopy offset length => exact .wCopyBody
  | litRaw n =>
    exact .bind .quiet fun _ => .bind .current fun _ => .bind .raiseIf fun _ => .bind .need fun _ =>
      .bind (.update fun _ => rfl) fun _ => .bind .skip fun _ => .update fun _ => rfl
  | litRle n =>
    exact .bind .quiet fun _ => .bind .current fun _ => .bind .raiseIf fun _ =>
      .bind .readU8 fun _ => .bind (.update fun _ => rfl) fun _ => .update fun _ => rfl
  | litHuf streams regen comp =>
    exact litHufBody_raisesIn (litHuf_hufTree_raisesIn hwf streams regen comp)
  | litHufr streams regen comp =>
    exact litHufBody_raisesIn (fun _ => .check rfl)
  | fseBuild sl =>
    exact .bind .quiet fun _ => .bind .current fun _ => .bind_readHeader hwf fun _ hcheck =>
      .fseFromDist_passes hcheck
  | fseLoad sl al n =>
    exact .bind .quiet fun _ => .bind .current fun _ => .bind .raiseIf fun _ => .bind .need fun _ =>
      .bind .readProbs fun _ => .fseFromDist (.checkDist rfl rfl rfl rfl _ _ _ _)
  | fsePredef sl =>
    refine .bind .quiet fun _ => .bind_current fun s hs => ?_
    cases hd : s.params.predef sl with
    | none => exact .pure _
    | some d => exact .fseFromDist_passes (checkDist_predef hwf (hs ▸ hd))
  | fseRle sl symbol =>
    exact .bind .quiet fun _ => .bind .current fun _ => .bind .raiseIf fun _ => .update fun _ => rfl
  | bsOpen n =>
    exact .bind .quiet fun _ => .bind .raiseIf fun _ => .bind .openSection fun _ =>
      .update fun _ => rfl
  | bsRead k =>
    exact .bind .primitiveOpen fun _ => .bind .raiseIf fun _ => .bind .backRead fun _ =>
      .update fun _ => rfl
  | bsClose =>
    exact .bind .primitiveOpen fun _ => .bind .overrun fun _ => .bind .current fun _ =>
      .bind .raiseIf fun _ => .update fun _ => rfl
  | fseInit sl => exact .bind .primitiveOpen fun _ => .bind .tableValid fun _ => .initState
  | fseEmit sl =>
    exact .bind .stateCheck fun _ => .bind .tableValid fun _ => .bind .stateReady fun _ =>
      .update fun _ => rfl
  | fseNext sl =>
    exact .bind .primitiveOpen fun _ => .bind .tableValid fun _ => .bind .stateReady fun _ =>
      .advanceState
  | seqOpen n count =>
    exact .bind .quiet fun _ => .bind .raiseIf fun _ => .bind .raiseIf fun _ =>
      .bind .tableValid fun _ => .bind .tableValid fun _ => .bind .tableValid fun _ =>
        .bind .openSection fun _ => .bind (.update fun _ => rfl) fun _ =>
          .bind (.update fun _ => rfl) fun _ => .bind .initStateOver fun _ =>
            .bind .initStateOver fun _ => .initStateOver
  | seqNext => exact seqNextBody_raisesIn
  | seqExec => exact seqExecBody_raisesIn
  | seqRun =>
    exact .bind .stateCheck fun _ => .bind .current fun _ => .bind (seqLoop_raisesIn _) fun _ =>
      .wLitrestBody

/-- The legality check before the rule raises `IllegalCommand` for a term that is none of the
commands (log 13). -/
theorem ruleOf_raisesIn (i : Instr) {p : Params} (hwf : p.wf = true) :
    Cmd.RaisesIn p i.mayRaise (ruleOf i) := by
  by_cases hw : i.wf = false
  · have hmay : i.mayRaise .illegalCommand = true := congrArg (! ·) hw
    exact .bind (.raiseIf hmay) fun _ => bodyOf_raisesIn i hwf
  · intro s hs
    rw [ruleOf, run_bind, legal, run_raiseIf_neg hw]
    exact bodyOf_raisesIn i hwf s hs

/-- The rule of a command that completes has not touched the latch. -/
theorem ruleOf_fault {i : Instr} {s t : State} {a : Unit} (h : ruleOf i s = .ok a t) :
    t.status.fault = s.status.fault := by
  obtain ⟨_, _, hlegal, hbody⟩ := bind_ok.1 h
  obtain ⟨-, rfl⟩ := raiseIf_ok.1 hlegal
  exact (bodyOf_busy_fault hbody).2

/-- What is presented to a ready unit ends as its pseudocode does (rules R121, R314). -/
theorem presentBody_ready {body : Cmd Unit} {s : State} (h : s.Ready) :
    presentBody body s = .next (endOf (body (begin s))) := by
  simp only [presentBody, h.1, h.2]
  cases body (begin s) <;> rfl

theorem exec_eq_ruleOf (i : Instr) {s : State} (h : s.Ready) :
    exec i s = .next (endOf (ruleOf i (begin s))) :=
  (exec_eq_present i s).trans (presentBody_ready h)

/-- Settles O15: the latch is set only where the rule raised, by `ruleOf_raisesIn` a fault of the
table. -/
theorem faultsAreRaisedByTheirCommands : Obligations.FaultsAreRaisedByTheirCommands := by
  refine ⟨fun i s t hs hwf hr => ?_, rfl⟩
  have hends := ends_of_exec hs hr
  refine ⟨fun ht => ?_, hends.err.1⟩
  have hcp := (hends.cp hs.2).2 ht
  obtain rfl : endOf (ruleOf i (begin s)) = t := by simpa [exec_eq_ruleOf i hs] using hr
  cases hrun : ruleOf i (begin s) with
  | ok a u =>
    rw [hrun] at ht
    exact absurd ((ruleOf_fault hrun).symm.trans ht) (by simp [hs.2])
  | error r u =>
    rw [hrun] at hcp
    exact ⟨r, u, rfl, (ruleOf_raisesIn i hwf).of_error (s := begin s) rfl hrun, rfl, hcp⟩

end Sys2Proof.Machine

namespace Sys2Proof.Machine

/-! # The canonical form of the memories (log 4) -/

namespace MemoryForm

variable {s : State} (h : MemoryForm s)
include h

/-- A change that stores nothing in a memory. -/
theorem of_same {t : State} (hr : t.reader.mem = s.reader.mem) (hl : t.lits.mem = s.lits.mem)
    (hw : t.window.mem = s.window.mem) (hs : ∀ sl, (t.slot sl).tab = (s.slot sl).tab)
    (hh : t.huf.tab = s.huf.tab) : MemoryForm t :=
  ⟨hr ▸ h.input, hl ▸ h.lits, hw ▸ h.win, fun sl => hs sl ▸ h.fse sl, hh ▸ h.huf⟩

theorem setLits {l : Literals} (hl : l.mem.wf) : MemoryForm (s.setLits l) :=
  ⟨h.input, hl, h.win, h.fse, h.huf⟩

theorem setWindow {w : Window} (hw : w.mem.wf) : MemoryForm (s.setWindow w) :=
  ⟨h.input, h.lits, hw, h.fse, h.huf⟩

theorem setSlot {sl : Slot} {x : FseSlot} (hx : x.tab.wf) : MemoryForm (s.setSlot sl x) := by
  refine ⟨h.input, h.lits, h.win, fun sl' => ?_, h.huf⟩
  by_cases hsl : sl' = sl
  · subst hsl
    rwa [State.slot_setSlot_same]
  · rw [State.slot_setSlot_ne s hsl]
    exact h.fse sl'

end MemoryForm

/-- Every assignment keeps the canonical form: what it stores, it stores by `Memory.write`. -/
theorem Edit.Makes.memoryForm {e : Edit} {s t : State} (hm : e.Makes s t) (h : MemoryForm s) :
    MemoryForm t := by
  cases hm with
  | append _ v => exact h.setWindow (Memory.wf_writeList h.win ..)
  | copy _ offset n => exact h.setWindow (wf_copyForward _ _ h.win ..)
  | litMem _ a v => exact h.setLits (Memory.wf_writeList h.lits ..)
  | table _ sl => exact h.setSlot (Memory.wf_writeList (h.fse sl) ..)
  | huffman _ w tab => exact ⟨h.input, h.lits, h.win, h.fse, Memory.wf_writeList h.huf ..⟩
  | fseState _ sl | sinit _ sl => exact h.setSlot (h.fse sl)
  | frameInit | closeBits | closeSeq =>
    exact h.of_same rfl rfl rfl (fun sl => by cases sl <;> rfl) rfl
  | _ => exact h.of_same rfl rfl rfl (fun _ => rfl) rfl

theorem Path.memoryForm {es : List Edit} {s t : State} (h : Path es s t) (hs : MemoryForm s) :
    MemoryForm t :=
  h.keeps (R := fun s t => MemoryForm s → MemoryForm t) (fun _ => id) (fun _ _ _ h1 h2 => h2 ∘ h1)
    (fun _ _ _ _ => Edit.Makes.memoryForm) hs

theorem Ends.memoryForm {es : List Edit} {s t : State} (h : Ends es s t) (hs : MemoryForm s) :
    MemoryForm t := by
  have hb : MemoryForm (begin s) := hs.of_same rfl rfl rfl (fun _ => rfl) rfl
  cases h with
  | completed u path | faulted r u path =>
    exact (path.memoryForm hb).of_same rfl rfl rfl (fun _ => rfl) rfl

theorem presentWord_keeps_memoryForm {c : CmdWord} {s t : State} (h : MemoryForm s)
    (hr : presentWord c s = .next t) : MemoryForm t := by
  rcases presentWord_cases hr with ⟨-, rfl⟩ | ⟨-, es, he⟩
  · exact h
  · exact he.memoryForm h

/-- Reset forgets every memory. -/
theorem memoryForm_applyReset (s : State) : MemoryForm (applyReset s) := by
  refine ⟨Memory.wf_nil, Memory.wf_nil, Memory.wf_nil, fun sl => ?_, Memory.wf_nil⟩
  rw [applyReset_slot]
  exact Memory.wf_nil

/-- Settles O21: a command stores by its assignments only, each of which keeps the form; reset leaves
empty memories, and the host stores in `IN` one byte at a time. -/
theorem stepKeepsMemoryForm : Obligations.StepKeepsMemoryForm := fun _ _ =>
  step_keeps (fun _ _ _ => presentWord_keeps_memoryForm) (fun s _ => memoryForm_applyReset s)
    (fun _ a b h => ⟨Memory.wf_write h.input a b, h.lits, h.win, h.fse, h.huf⟩)
    (fun _ _ _ h => h.of_same rfl rfl rfl (fun _ => rfl) rfl)

/-! # Terms that no word encodes (log 13) -/

/-- Settles O4: the prologue raises before the command's own rule, and what a word decodes to is
well-formed (`decode_ok`). -/
theorem illFormedTermRaises : Obligations.IllFormedTermRaises := by
  refine fun i s hs hw => ⟨?_, fun c hc => ?_⟩
  · rw [exec_eq_present, present_illFormed hs.1 hs.2 hw, faultEntry_begin hs]
  · obtain ⟨hwf, -⟩ := decode_ok.1 hc
    exact Bool.false_ne_true (hw.symm.trans hwf)

end Sys2Proof.Machine
